-- ==== Sys2Proof/Word.lean ====
section
/-!
DEFINITION. The word types of the GL8, its fixed-size tables and its keyed lists, and the operand types that the
instructions of Syntax.lean carry (register numbers, memory operands, modifiers of R143 to R147).
-/

namespace Sys2Proof

/-- A byte (R6). -/
abbrev Byte := BitVec 8
/-- A dword, the width of a scalar register (R6, R36). -/
abbrev Dword := BitVec 64
/-- A vector register (R36). -/
abbrev Vec := BitVec 1024

/-- Number of a scalar register s0 to s31 (R36). -/
abbrev SReg := BitVec 5
/-- Number of a vector register v0 to v31 (R36). -/
abbrev VReg := BitVec 5
/-- Number of a predicate p0 to p31 (R39). -/
abbrev PReg := BitVec 5
/-- Number of a mask register m0 to m7 (R38). -/
abbrev MReg := BitVec 3

/-! ### Tables -/

/-- Entry `i` of a table; the type's default outside it. -/
def vrd {α : Type} [Inhabited α] {n : Nat} (v : Vector α n) (i : Nat) : α :=
  if h : i < n then v[i] else default

/-- A table with entry `i` replaced; unchanged outside it. -/
def vwr {α : Type} {n : Nat} (v : Vector α n) (i : Nat) (x : α) : Vector α n :=
  if h : i < n then v.set i x else v

@[simp] theorem vrd_vwr_same {α : Type} [Inhabited α] {n : Nat} (v : Vector α n) (i : Nat) (x : α) (h : i < n) :
    vrd (vwr v i x) i = x := by
  simp [vrd, vwr, h]

theorem vrd_vwr_ne {α : Type} [Inhabited α] {n : Nat} (v : Vector α n) (i j : Nat) (x : α) (h : i ≠ j) :
    vrd (vwr v i x) j = vrd v j := by
  unfold vrd vwr
  by_cases hj : j < n <;> by_cases hi : i < n <;> simp [hi, hj, h]

/-- A list of keys and values, at most one value a key: the form of every sparse table of the state. -/
abbrev AMap (κ ν : Type) := List (κ × ν)

/-- The value a key has. -/
def amGet? {κ ν : Type} [DecidableEq κ] : AMap κ ν → κ → Option ν
  | [], _ => none
  | (k, v) :: l, x => if k = x then some v else amGet? l x

/-- The value a key has, or the one that unlisted keys have. -/
def amGet {κ ν : Type} [DecidableEq κ] (m : AMap κ ν) (k : κ) (d : ν) : ν :=
  (amGet? m k).getD d

/-- The map with the key's value replaced, or the key added at the end. -/
def amSet {κ ν : Type} [DecidableEq κ] : AMap κ ν → κ → ν → AMap κ ν
  | [], x, y => [(x, y)]
  | (k, v) :: l, x, y => if k = x then (k, y) :: l else (k, v) :: amSet l x y

/-- The map without the key. -/
def amDel {κ ν : Type} [DecidableEq κ] (m : AMap κ ν) (k : κ) : AMap κ ν :=
  m.filter (fun e => decide (e.1 ≠ k))

@[simp] theorem amGet?_amSet_same {κ ν : Type} [DecidableEq κ] (m : AMap κ ν) (k : κ) (v : ν) :
    amGet? (amSet m k v) k = some v := by
  induction m with
  | nil => simp [amSet, amGet?]
  | cons e l ih =>
    obtain ⟨k', v'⟩ := e
    by_cases h : k' = k <;> simp [amSet, amGet?, h, ih]

theorem amGet?_amSet_ne {κ ν : Type} [DecidableEq κ] (m : AMap κ ν) (k j : κ) (v : ν) (h : k ≠ j) :
    amGet? (amSet m k v) j = amGet? m j := by
  induction m with
  | nil => simp [amSet, amGet?, h]
  | cons e l ih =>
    obtain ⟨k', v'⟩ := e
    by_cases h1 : k' = k
    · subst h1; simp [amSet, amGet?, h]
    · simp only [amSet, h1, if_false, amGet?, ih]

@[simp] theorem amGet_amSet_same {κ ν : Type} [DecidableEq κ] (m : AMap κ ν) (k : κ) (v d : ν) :
    amGet (amSet m k v) k d = v := by
  simp [amGet]

theorem amGet_amSet_ne {κ ν : Type} [DecidableEq κ] (m : AMap κ ν) (k j : κ) (v d : ν) (h : k ≠ j) :
    amGet (amSet m k v) j d = amGet m j d := by
  simp [amGet, amGet?_amSet_ne m k j v h]

/-! ### Operand types -/

/-- Guard and switch marker of an instruction word: GRD[17], GRD[16:12] and bit 2 (R138, R139). -/
structure Hdr where
  neg : Bool
  grd : PReg
  sw  : Bool
  deriving DecidableEq, Repr, Inhabited

/-- The unconditional header without a marker: GRD = 0, SW = 0 (R139). -/
def Hdr.plain : Hdr := ⟨false, 0, false⟩

/-- A memory operand [gS + sA + sB<<k + imm] (R32). `imm = none` is the 64-bit form, `some` the F96-M form. -/
structure MemOp where
  seg : BitVec 3
  a   : Option SReg
  b   : Option SReg
  k   : BitVec 3
  imm : Option (BitVec 32)
  deriving DecidableEq, Repr, Inhabited

/-- The memory operand of VGATH and VSCAT, whose index term is a vector register (R228). -/
structure GatherOp where
  seg : BitVec 3
  a   : Option SReg
  vb  : VReg
  k   : BitVec 3
  imm : Option (BitVec 32)
  deriving DecidableEq, Repr, Inhabited

/-- The TYPE codes of R144. -/
inductive Ty where
  | f64 | f32 | f16 | bf16 | e4m3 | e5m2 | e2m1 | e8m0 | bx8 | bx4 | fx64
  | s8 | s16 | s32 | s64 | u8 | u16 | u32 | u64
  deriving DecidableEq, Repr, Inhabited

/-- The RND codes of R145. -/
inductive Rnd where
  | rne | rz | rdn | rup | rst | rdyn
  deriving DecidableEq, Repr, Inhabited

/-- The conditions of CMP and CMPI (R147, R180). -/
inductive Cond where
  | eq | ne | lt | ltu | le | leu | gt | gtu | ge | geu
  deriving DecidableEq, Repr, Inhabited

/-- The conditions of VCMP (R244). -/
inductive VCond where
  | eq | ne | lt | le | gt | ge | un | ord
  deriving DecidableEq, Repr, Inhabited

/-- The operations of AMO (R147, R229). -/
inductive AmoOp where
  | add | and | or | xor | min | max | minu | maxu | swap | fadd
  deriving DecidableEq, Repr, Inhabited

/-- The orders of atomic accesses and fences (R146). -/
inductive Ord where
  | rlx | acq | rel | acqRel | seq
  deriving DecidableEq, Repr, Inhabited

/-- The scopes of R118, in the code order of R146. -/
inductive Scope where
  | pkg | th | core | cl | pnl | pod
  deriving DecidableEq, Repr, Inhabited

/-- How a load or store accesses memory: plain, plain with remote placement (R225), or atomic (R115). -/
inductive MKind where
  | plain
  | rp
  | atomic (o : Ord) (sc : Scope)
  deriving DecidableEq, Repr, Inhabited

/-- A scalar shift amount: a register or the B field (R174). -/
inductive Amt where
  | reg (b : SReg)
  | imm (n : BitVec 6)
  deriving DecidableEq, Repr, Inhabited

/-- A vector shift amount: a vector of amounts or the B field with .i (R251). -/
inductive VAmt where
  | reg (b : VReg)
  | imm (n : BitVec 6)
  deriving DecidableEq, Repr, Inhabited

/-- The operations of VRED (R248). -/
inductive RedOp where
  | add | min | max
  deriving DecidableEq, Repr, Inhabited

/-- The block sizes of VBDOT (R250). -/
inductive BlockSize where
  | b8 | b16 | b32
  deriving DecidableEq, Repr, Inhabited

/-- The scale types of VBDOT (R250). -/
inductive ScaleTy where
  | e8m0 | e4m3 | e5m2
  deriving DecidableEq, Repr, Inhabited

/-- The modes of MMA (R264). -/
inductive MmaMode where
  | once | opn | cont
  deriving DecidableEq, Repr, Inhabited

/-- The name of a bindable register: s24 to s31, or v24 to v31 (R40). -/
structure PName where
  vec : Bool
  n   : BitVec 3
  deriving DecidableEq, Repr, Inhabited

/-- The port operand of PBIND (R270). The affine form carries its segment, base term and displacement; the others say whether their
word has the F96-M form, with a displacement of 0 (R149). -/
inductive PortSel where
  | affine (seg : BitVec 3) (a : Option SReg) (imm : Option (BitVec 32))
  | link (east f96 : Bool)
  | queue (n : BitVec 3) (f96 : Bool)
  | net (n : BitVec 2) (f96 : Bool)
  deriving DecidableEq, Repr, Inhabited

/-- The word of a PBIND has the F96-M form. -/
def PortSel.f96 : PortSel → Bool
  | .affine _ _ i => i.isSome
  | .link _ x => x
  | .queue _ x => x
  | .net _ x => x

/-- A page-table update record as the sequencer multicasts it (R374). -/
structure UpdRec where
  off   : Dword
  val   : Dword
  asid  : BitVec 16
  lg    : BitVec 8
  force : Bool
  inv   : BitVec 2
  va    : Dword
  mba   : Dword
  resv  : Bool
  own   : Bool
  deriving DecidableEq, Repr, Inhabited

/-- An update record that the package of a rank sends (R374). -/
structure RemoteUpd where
  rank : Nat
  upd  : UpdRec
  deriving DecidableEq, Repr, Inhabited

/-- What an access of a peer package does (R231, R389): a load or a store, plain or atomic in an order, an AMO, or a CAS with what it
expects. -/
inductive PeerOp where
  | load (o : Option Ord)
  | store (o : Option Ord)
  | amo (op : AmoOp) (o : Ord)
  | cas (exp : Dword) (o : Ord)
  deriving DecidableEq, Repr, Inhabited

end Sys2Proof
end

