-- ==== Sys2Proof/Syntax.lean ====
section
/-!
DEFINITION. The instructions of the GL8: one constructor for each row of the opcode table. The first 202 are the
assembly instructions of the manual's instruction chapters (R148, R149), with their operands as R169, R185, R217,
R240, R257, R277 and R329 place them. The others are the rows that no word encodes: the moves that the machine, its
engines, the root of trust, the hosts and the management bus make between instructions (95_what_each_step_holds). Their
arguments name the object that moves, or the input that arrives.
-/

namespace Sys2Proof

/-- The instruction set. `h` is the guard and the switch marker of an instruction word (R138, R139). -/
inductive Instr where
  -- Control, tasks, messages, events and exceptions (R152, R185)
  | nop (h : Hdr)
  | nop96 (h : Hdr)
  | nop128 (h : Hdr)
  | br (h : Hdr) (off : BitVec 34)
  | brr (h : Hdr) (a : SReg)
  | call (h : Hdr) (d : SReg) (off : BitVec 34)
  | callr (h : Hdr) (d a : SReg)
  | ret (h : Hdr) (a : SReg)
  | loop (h : Hdr) (a : SReg) (off : BitVec 34)
  | callat (h : Hdr) (d a b c : SReg) (nr : Bool)
  | spawn (h : Hdr) (d a : SReg) (off : BitVec 34)
  | join (h : Hdr) (a : SReg)
  | exit (h : Hdr) (a : Option SReg)
  | exitRep (h : Hdr) (a : Option SReg) (b c : SReg)
  | yield (h : Hdr)
  | waitFull (h : Hdr) (a : SReg)
  | waitZero (h : Hdr) (a : SReg)
  | waitNe (h : Hdr) (d a b : SReg)
  | send (h : Hdr) (a b c : SReg)
  | taskq (h : Hdr) (d a : SReg) (b : VReg) (c : SReg) (cnt : BitVec 16)
  | taskqDec (h : Hdr) (a : SReg)
  | evset (h : Hdr) (n : BitVec 8)
  | evclr (h : Hdr) (n : BitVec 8)
  | evwait (h : Hdr) (n : BitVec 8)
  | cancel (h : Hdr) (a : Option SReg)
  | cancelSeen (core : Nat)
  | cancelMailboxWrite (tag : Nat)
  | trapu (h : Hdr) (code : BitVec 16)
  | exretRetry (h : Hdr) (a : SReg)
  | exretNext (h : Hdr) (a : SReg)
  | exretTo (h : Hdr) (a b : SReg)
  | tack (h : Hdr) (a : Option SReg) (m : BitVec 28)
  | tackDone (h : Hdr)
  | tkwait (h : Hdr) (a : SReg)
  | tkwaitFrame (h : Hdr) (a : SReg)
  | tkstat (h : Hdr) (d a : SReg)
  | tkstatProg (h : Hdr) (d : SReg)
  -- Scalar, compare and predicate instructions (R169)
  | add (h : Hdr) (d a b : SReg)
  | sub (h : Hdr) (d a b : SReg)
  | addi (h : Hdr) (d a : SReg) (m : BitVec 28)
  | mul (h : Hdr) (d a b : SReg)
  | mulh (h : Hdr) (u : Bool) (d a b : SReg)
  | div (h : Hdr) (u : Bool) (d a b : SReg)
  | rem (h : Hdr) (u : Bool) (d a b : SReg)
  | and (h : Hdr) (d a b : SReg)
  | or (h : Hdr) (d a b : SReg)
  | xor (h : Hdr) (d a b : SReg)
  | andn (h : Hdr) (d a b : SReg)
  | orn (h : Hdr) (d a b : SReg)
  | shl (h : Hdr) (d a : SReg) (n : Amt)
  | shr (h : Hdr) (d a : SReg) (n : Amt)
  | sar (h : Hdr) (d a : SReg) (n : Amt)
  | rot (h : Hdr) (right : Bool) (d a : SReg) (n : Amt)
  | min (h : Hdr) (u : Bool) (d a b : SReg)
  | max (h : Hdr) (u : Bool) (d a b : SReg)
  | abs (h : Hdr) (d a : SReg)
  | clz (h : Hdr) (d a : SReg)
  | ctz (h : Hdr) (d a : SReg)
  | popc (h : Hdr) (d a : SReg)
  | brev (h : Hdr) (d a : SReg)
  | bswap (h : Hdr) (d a : SReg)
  | ext (h : Hdr) (sgn : Bool) (d a : SReg) (lo w1 : BitVec 6)
  | ins (h : Hdr) (d a : SReg) (lo w1 : BitVec 6)
  | sel (h : Hdr) (d a b : SReg) (p : PReg)
  | mov (h : Hdr) (d a : SReg)
  | movi (h : Hdr) (d : SReg) (m : BitVec 28)
  | movwF96 (h : Hdr) (sx : Bool) (d : SReg) (m : BitVec 32)
  | movwF128 (h : Hdr) (d : SReg) (m : BitVec 64)
  | lea (h : Hdr) (d : SReg) (m : MemOp)
  | hash (h : Hdr) (d a b : SReg)
  | cmp (h : Hdr) (c : Cond) (p : PReg) (a b : SReg)
  | cmpi (h : Hdr) (c : Cond) (p : PReg) (a : SReg) (m : BitVec 28)
  | pand (h : Hdr) (ia ib : Bool) (d a b : PReg)
  | por (h : Hdr) (ia ib : Bool) (d a b : PReg)
  | pxor (h : Hdr) (ia ib : Bool) (d a b : PReg)
  | pnot (h : Hdr) (d a : PReg)
  | prd (h : Hdr) (d : SReg)
  | pwr (h : Hdr) (a : SReg)
  | mfu (h : Hdr) (d : SReg) (num : BitVec 12)
  | mtu (h : Hdr) (num : BitVec 12) (a : SReg)
  -- Memory, atomic and fence instructions (R217)
  | ld (h : Hdr) (sx : Bool) (d : SReg) (m : MemOp) (k : MKind) (sz : BitVec 2)
  | ldFe (h : Hdr) (sx : Bool) (d : SReg) (m : MemOp) (sz : BitVec 2)
  | ldFec (h : Hdr) (sx : Bool) (d : SReg) (m : MemOp) (sz : BitVec 2)
  | st (h : Hdr) (m : MemOp) (c : SReg) (k : MKind) (ftag : Option SReg) (sz : BitVec 2)
  | ldv (h : Hdr) (d : VReg) (m : MemOp) (rp : Bool) (mk : MReg)
  | stv (h : Hdr) (m : MemOp) (c : VReg) (rp : Bool) (ftag : Option SReg) (mk : MReg)
  | vgath (h : Hdr) (d : VReg) (g : GatherOp) (rp dw : Bool) (mk : MReg)
  | vscat (h : Hdr) (g : GatherOp) (c : VReg) (rp dw : Bool) (mk : MReg)
  | amo (h : Hdr) (op : AmoOp) (d : Option SReg) (m : MemOp) (c : SReg) (o : Ord) (sc : Scope) (dw : Bool)
  | cas (h : Hdr) (d : SReg) (m : MemOp) (c : SReg) (o : Ord) (sc : Scope) (dw : Bool)
  | fence (h : Hdr) (o : Ord) (sc : Scope)
  | pref (h : Hdr) (m : MemOp) (slice : Bool)
  | stpair (h : Hdr) (a b c : SReg) (seg segT : BitVec 3) (pp pt : BitVec 16) (w : Bool)
  | feset (h : Hdr) (m : MemOp)
  | feclr (h : Hdr) (m : MemOp)
  -- Vector instructions (R240)
  | vadd (h : Hdr) (ty : Ty) (r : Rnd) (d a b : VReg) (mk : MReg)
  | vsub (h : Hdr) (ty : Ty) (r : Rnd) (d a b : VReg) (mk : MReg)
  | vmul (h : Hdr) (ty : Ty) (r : Rnd) (d a b : VReg) (mk : MReg)
  | vdiv (h : Hdr) (ty : Ty) (r : Rnd) (d a b : VReg) (mk : MReg)
  | vfma (h : Hdr) (ty : Ty) (r : Rnd) (d a b c : VReg) (mk : MReg)
  | vfms (h : Hdr) (ty : Ty) (r : Rnd) (d a b c : VReg) (mk : MReg)
  | vfnma (h : Hdr) (ty : Ty) (r : Rnd) (d a b c : VReg) (mk : MReg)
  | vsqrt (h : Hdr) (ty : Ty) (r : Rnd) (d a : VReg) (mk : MReg)
  | vmin (h : Hdr) (ty : Ty) (d a b : VReg) (mk : MReg)
  | vmax (h : Hdr) (ty : Ty) (d a b : VReg) (mk : MReg)
  | vabs (h : Hdr) (ty : Ty) (d a : VReg) (mk : MReg)
  | vneg (h : Hdr) (ty : Ty) (d a : VReg) (mk : MReg)
  | vcmp (h : Hdr) (c : VCond) (ty : Ty) (d : MReg) (a b : VReg) (mk : MReg)
  | vcvt (h : Hdr) (dty sty : Ty) (r : Rnd) (d a : VReg) (mk : MReg)
  | vpack (h : Hdr) (dty sty : Ty) (r : Rnd) (d a b : VReg) (mk : MReg)
  | vunpk (h : Hdr) (dty sty : Ty) (r : Rnd) (d a : VReg) (part : BitVec 6) (mk : MReg)
  | vbxq (h : Hdr) (bx4 : Bool) (d a : VReg) (blk : BitVec 6) (c : VReg)
  | vbxd (h : Hdr) (dty : Ty) (bx4 : Bool) (r : Rnd) (d a : VReg) (blk : BitVec 6) (c : VReg) (mk : MReg)
  | vscale (h : Hdr) (ty : Ty) (r : Rnd) (d a b : VReg) (mk : MReg)
  | vred (h : Hdr) (op : RedOp) (ty : Ty) (r : Rnd) (d a : VReg) (mk : MReg)
  | vsacc (h : Hdr) (dbl : Bool) (r : Rnd) (d : VReg) (a : SReg) (b c : VReg) (n1 : BitVec 2) (mk : MReg)
  | vbdot (h : Hdr) (ty : Ty) (r : Rnd) (bs : BlockSize) (st : ScaleTy) (d a b c : VReg) (mk : MReg)
  | viadd (h : Hdr) (sat : Bool) (ty : Ty) (d a b : VReg) (mk : MReg)
  | visub (h : Hdr) (sat : Bool) (ty : Ty) (d a b : VReg) (mk : MReg)
  | vimul (h : Hdr) (hi : Bool) (ty : Ty) (d a b : VReg) (mk : MReg)
  | vand (h : Hdr) (ty : Ty) (d a b : VReg) (mk : MReg)
  | vor (h : Hdr) (ty : Ty) (d a b : VReg) (mk : MReg)
  | vxor (h : Hdr) (ty : Ty) (d a b : VReg) (mk : MReg)
  | vshl (h : Hdr) (ty : Ty) (d a : VReg) (n : VAmt) (mk : MReg)
  | vshr (h : Hdr) (ty : Ty) (d a : VReg) (n : VAmt) (mk : MReg)
  | vsar (h : Hdr) (ty : Ty) (d a : VReg) (n : VAmt) (mk : MReg)
  | vimin (h : Hdr) (ty : Ty) (d a b : VReg) (mk : MReg)
  | vimax (h : Hdr) (ty : Ty) (d a b : VReg) (mk : MReg)
  | vperm (h : Hdr) (ty : Ty) (d a b : VReg) (mk : MReg)
  | vbcast (h : Hdr) (ty : Ty) (d : VReg) (a : SReg) (mk : MReg)
  | vsel (h : Hdr) (ty : Ty) (d a b : VReg) (mk : MReg)
  | vmov (h : Hdr) (ty : Ty) (d a : VReg) (mk : MReg)
  | vmovTos (h : Hdr) (ty : Ty) (d : SReg) (a : VReg) (e : BitVec 6)
  | vmovTov (h : Hdr) (ty : Ty) (d : VReg) (a : SReg) (e : BitVec 6)
  | vidx (h : Hdr) (ty : Ty) (d : VReg) (mk : MReg)
  | mand (h : Hdr) (d a b : MReg)
  | mor (h : Hdr) (d a b : MReg)
  | morFs (h : Hdr) (d : MReg) (a : SReg)
  | mnot (h : Hdr) (d a : MReg)
  | mpopc (h : Hdr) (d : SReg) (a : MReg)
  | mpopcRaw (h : Hdr) (d : SReg) (a : MReg)
  | embpool (h : Hdr) (ty : Ty) (r : Rnd) (d : VReg) (seg : BitVec 3) (a : Option SReg) (b c : SReg) (lg : BitVec 6)
  | embupd (h : Hdr) (ty : Ty) (r : Rnd) (d : SReg) (seg : BitVec 3) (a : Option SReg) (b : SReg) (c : VReg)
      (lg : BitVec 6)
  -- Matrix and port instructions (R257)
  | oclaim (h : Hdr) (d : SReg) (n1 : BitVec 5)
  | oclaimM (h : Hdr) (d a : SReg)
  | oclaimServe (core : Nat)
  | orelease (h : Hdr) (a : SReg)
  | ofill (h : Hdr) (d c : SReg) (m : MemOp)
  | ofillS (h : Hdr) (d c : SReg) (b : BitVec 3)
  | wlatch (h : Hdr) (ty : Ty) (slot : BitVec 5)
  | mma (h : Hdr) (ty : Ty) (mode : MmaMode) (a b : SReg) (slot : BitVec 5) (cnt1 : BitVec 9)
  | arrayPerform (core : Nat)
  | accz (h : Hdr) (a b : SReg)
  | accrd (h : Hdr) (half : Option Bool) (d : VReg) (a : SReg) (mk : MReg)
  | accwr (h : Hdr) (half : Option Bool) (a : SReg) (c : VReg) (mk : MReg)
  | mstat (h : Hdr) (d : SReg)
  | mstatPeek (h : Hdr) (d : SReg)
  | pbind (h : Hdr) (name : PName) (out fwd : Bool) (p : PortSel)
  | punbind (h : Hdr) (name : PName)
  | pdrain (h : Hdr) (d : SReg) (name : PName)
  | streamElementRead (core name : Nat)
  | streamElementWrite (core name : Nat)
  | spopenIn (h : Hdr) (port : BitVec 2)
  | spopenOut (h : Hdr) (d a b : SReg) (port : BitVec 2)
  | spopenLand (h : Hdr) (a b : SReg) (port : BitVec 2)
  | spclose (h : Hdr) (port : BitVec 2)
  | networkElementLand (core port : Nat)
  | closingFlit (core port : Nat)
  -- Key tables, positions, copies and handles (R277)
  | trset (h : Hdr) (tr : BitVec 2) (m : MemOp)
  | kacc (h : Hdr) (ty : Ty) (r : Rnd) (a : SReg) (c : VReg) (tree : BitVec 2) (node : BitVec 4) (e0 e1 : BitVec 16)
      (mk : MReg)
  | keyTableApply (core idx : Nat)
  | kget (h : Hdr) (ty : Ty) (r : Rnd) (d : VReg) (a : SReg) (p : PReg) (c : Option SReg) (tree : BitVec 2)
      (node : BitVec 4)
  | kprobe (h : Hdr) (p : PReg) (a : SReg) (tree : BitVec 2) (node : BitVec 4)
  | kput (h : Hdr) (ty : Ty) (r : Rnd) (a : SReg) (b : Option SReg) (c : VReg) (tree : BitVec 2) (node : BitVec 4)
  | kdel (h : Hdr) (a : SReg) (tree : BitVec 2) (node : BitVec 4)
  | kmerge (h : Hdr) (a : SReg) (tree : BitVec 2) (node : BitVec 4)
  | kscan (h : Hdr) (d a c : SReg) (tree : BitVec 2) (node : BitVec 4)
  | hpos (h : Hdr) (d a : SReg) (sp : BitVec 4)
  | bindpos (h : Hdr) (a b : SReg)
  | posset (h : Hdr) (a : SReg)
  | handOver (record : Nat)
  | migrCore (h : Hdr) (a : SReg)
  | migrAddr (h : Hdr) (a : SReg)
  | unbind (h : Hdr)
  | nbrS (h : Hdr) (d : PName) (a b c : SReg) (l2 xself : Bool)
  | nbrBuf (h : Hdr) (d a b c : SReg) (l2 xself : Bool) (cap : BitVec 16)
  | cqput (h : Hdr) (d a : SReg) (c : VReg) (seg : BitVec 3) (nk : Bool)
  | hwaitFree (h : Hdr) (n : BitVec 8)
  | hwaitFull (h : Hdr) (n : BitVec 8)
  | hwaitTake (h : Hdr) (n : BitVec 8)
  | hstate (h : Hdr) (d : SReg) (n : BitVec 8)
  | hfree (h : Hdr) (n : BitVec 8)
  | copyPacketTake (cluster binding : Nat)
  | copyGranuleWrite (cluster copy : Nat)
  | copyCompletion (cluster copy : Nat)
  | tierEntryIssue (tag id : Nat)
  | tierEntryComplete (tag id : Nat)
  -- System instructions (R329)
  | sretRetry (h : Hdr) (a : SReg) (en : Bool)
  | sretNext (h : Hdr) (a : SReg) (en : Bool)
  | sretTo (h : Hdr) (a b : SReg) (en : Bool)
  | sretKill (h : Hdr) (a : SReg) (en : Bool)
  | mfs (h : Hdr) (d : SReg) (num : BitVec 12)
  | mts (h : Hdr) (num : BitVec 12) (a : SReg)
  | segld (h : Hdr) (g : BitVec 3) (m : MemOp)
  | accsave (h : Hdr) (d c : SReg) (m : MemOp)
  | accload (h : Hdr) (d c : SReg) (m : MemOp)
  | ctxoutCore (h : Hdr) (d a b : SReg)
  | ctxoutMem (h : Hdr) (d a b : SReg)
  | ctxin (h : Hdr) (d a b : SReg)
  | xlinvVa (h : Hdr) (a b : SReg) (pkg : Bool)
  | xlinvTag (h : Hdr) (a b : SReg) (pkg : Bool)
  | xlinvAll (h : Hdr) (a b : SReg) (pkg : Bool)
  | rtswap (h : Hdr) (d a b : SReg)
  | haltWait (h : Hdr)
  | haltStop (h : Hdr)
  | rdstate (h : Hdr) (d a b : SReg)
  | sysmsg (h : Hdr) (a c : SReg)
  -- Moves of threads, cores and engines between instructions (95_what_each_step_holds)
  | longResultReturn (core slot idx : Nat)
  | journalEntrySend (core idx : Nat)
  | postedWritePerform (core idx : Nat)
  | journalAck (core idx : Nat)
  | trapEntry (core slot : Nat)
  | supervisorRequestTake (core : Nat)
  | systemMessageTake (core : Nat)
  | wakeMove (core aid : Nat)
  | lightSlotTake (core slot : Nat)
  | stealServe (core slot : Nat)
  | stealRetry (core slot : Nat)
  | lightDeparture (core aid : Nat)
  | lightArrival (aid : Nat)
  | messageHandlerStart (core : Nat)
  | launchRequest (part : Nat)
  | launchStart (part : Nat)
  | launchCompletion (tag : Nat)
  | faultEntryWait (cluster : Nat)
  | updateSequence (remote : Option RemoteUpd)
  | updateMailboxWrite (n : Nat)
  | bastingForward (core idx : Nat)
  | bounceAppend (core idx : Nat)
  | memoryTraining (ok : Bool)
  | clusterResetDone (cluster : Nat)
  | updateApply
  | packageResetRelease
  | firmwareStart
  | bupReady
  | powerTransition
  | extend
  | token
  | quote
  | readKeys
  | readMeasurements
  -- Moves of agents outside, and of the system software
  | faultReply (cluster n : Nat) (value : Dword)
  | migrationMarker (sender old : Nat)
  | crst (cluster : Nat) (value : Dword)
  | partitionTableWrite (off : Nat) (value : Dword)
  | translationBlockWrite (off : Nat) (value : Dword)
  | linkFailure (dieA dieB : Nat)
  | packageLostFence (rank : Nat)
  | hostAccess (wr : Bool) (addr size : Nat) (value : Dword)
  | hint (value : Dword)
  | nvmeMsix (port addr : Nat) (data : Dword)
  | errorLogConfigWrite (die off : Nat) (value : Dword)
  | coreReset (core : Nat)
  | dbgWrite (value : Dword)
  | preqWrite (value : Dword)
  | mgmtRead (off : Nat)
  | mgmtWrite (off : Nat) (value : Dword)
  | mgmtReadback (sel idx : Dword)
  | registerWrite (addr : Nat) (value : Dword)
  | bastingEntryRetire (cluster idx : Nat)
  | nvmeControllerDma (port : Nat) (wr : Bool) (addr size : Nat) (data : Dword)
  | peerPackageAccess (rank : Nat) (op : PeerOp) (addr size : Nat) (data : Dword)
  | lamvanBlockWrite (off : Nat) (value : Dword)
  | entdaa (addr : BitVec 7)
  deriving DecidableEq, Repr

end Sys2Proof
end

