-- ==== Sys2Proof/WellFormed.lean ====
section
/-!
DEFINITION. The limits on the operands of an instruction that the types of Syntax.lean do not make: those that step 3 of
R151 decides from the word alone. A word that breaks one of them raises illegal-instruction, and no word encodes an
instruction that is not well formed.
-/

namespace Sys2Proof

/-! ### Number types -/

/-- Width of an element in bits (R37). -/
def Ty.width : Ty → Nat
  | .f64 | .fx64 | .s64 | .u64 => 64
  | .f32 | .s32 | .u32 => 32
  | .f16 | .bf16 | .s16 | .u16 => 16
  | .e4m3 | .e5m2 | .e8m0 | .bx8 | .s8 | .u8 => 8
  | .e2m1 | .bx4 => 4

/-- The integer types (R144). -/
def Ty.isInt : Ty → Bool
  | .s8 | .s16 | .s32 | .s64 | .u8 | .u16 | .u32 | .u64 => true
  | _ => false

/-- The signed integer types (R144, R251). -/
def Ty.isSigned : Ty → Bool
  | .s8 | .s16 | .s32 | .s64 => true
  | _ => false

/-- The types of the arithmetic rows of R240. -/
def Ty.isArith : Ty → Bool
  | .f64 | .f32 | .f16 | .bf16 => true
  | _ => false

/-- The destination types of the conversions (R245). -/
def Ty.isConvDst : Ty → Bool
  | .f64 | .f32 | .f16 | .bf16 | .e4m3 | .e5m2 | .e2m1 => true
  | t => t.isInt

/-- The source types of the conversions (R245). -/
def Ty.isConvSrc : Ty → Bool
  | .e8m0 => true
  | t => t.isConvDst

/-- The formats of the matrix array (R263). -/
def Ty.isArray : Ty → Bool
  | .f64 | .f16 | .bf16 | .e4m3 | .e5m2 | .e2m1 | .bx8 | .bx4 => true
  | _ => false

/-- The types of KACC, KGET and KPUT (R277). -/
def Ty.isKey : Ty → Bool
  | .f32 | .f64 | .fx64 => true
  | _ => false

/-! ### Special register numbers -/

/-- The assigned numbers of MFU (R49). -/
def userNumOk (n : BitVec 12) : Bool :=
  decide (n.toNat ≤ 0x00A ∨ (0x010 ≤ n.toNat ∧ n.toNat ≤ 0x015) ∨ (0x020 ≤ n.toNat ∧ n.toNat ≤ 0x037))

/-- The numbers that MTU may write (R49). -/
def userNumWritable (n : BitVec 12) : Bool :=
  decide (n = 0x010 ∨ n = 0x011 ∨ n = 0x015)

/-- The assigned numbers of MFS (R326). -/
def sysNumOk (n : BitVec 12) : Bool :=
  decide (n.toNat ≤ 0x007 ∨ (0x010 ≤ n.toNat ∧ n.toNat ≤ 0x01B) ∨ (0x020 ≤ n.toNat ∧ n.toNat ≤ 0x037) ∨
    n.toNat = 0x040)

/-- The numbers that MTS may write (R326). -/
def sysNumWritable (n : BitVec 12) : Bool :=
  decide (n = 0x001 ∨ n = 0x002 ∨ n = 0x003 ∨ n = 0x005)

/-! ### Operands -/

/-- The negated guard of p0 is illegal (R139). -/
def Hdr.wf (h : Hdr) : Bool := !(h.neg && h.grd == 0)

/-- The index scale is 0 to 4, and 0 without an index term (R141). -/
def MemOp.wf (m : MemOp) : Bool := decide (m.k.toNat ≤ 4) && (m.b.isSome || m.k == 0)

/-- The index scale of a vector index is 0 to 4 (R141, R217). -/
def GatherOp.wf (g : GatherOp) : Bool := decide (g.k.toNat ≤ 4)

/-- The accesses of LD (R218). -/
def MKind.ldOk : MKind → BitVec 2 → Bool
  | .plain, _ | .rp, _ => true
  | .atomic o _, sz => (o == .rlx || o == .acq || o == .seq) && decide (2 ≤ sz.toNat)

/-- The accesses of ST (R218); a forward tag is a qualifier of its own. -/
def MKind.stOk : MKind → Bool → BitVec 2 → Bool
  | .plain, _, _ => true
  | .rp, tagged, _ => !tagged
  | .atomic o _, tagged, sz => !tagged && (o == .rlx || o == .rel || o == .seq) && decide (2 ≤ sz.toNat)

/-- The limits of PBIND (R270). -/
def PortSel.wf (p : PortSel) (out fwd : Bool) : Bool :=
  match p with
  | .link _ _ => !(fwd && out)
  | _ => !fwd

/-- The pitches that EMBPOOL and EMBUPD allow: from the row bytes, 32 × the element bytes, to 2^40 (R240). -/
def pitchOk (ty : Ty) (lg : BitVec 6) : Bool :=
  decide (4 * ty.width ≤ 2 ^ lg.toNat) && decide (lg.toNat ≤ 40)

/-- The vector shift amount of the .i form is below the width (R251). -/
def VAmt.wf (ty : Ty) : VAmt → Bool
  | .reg _ => true
  | .imm n => decide (n.toNat < ty.width)

/-- Pairs of registers exist for the 64-bit forms of the key table instructions (R277). -/
def keyVecOk (ty : Ty) (v : VReg) : Bool := ty == .f32 || decide (v.toNat ≤ 30)

/-- A group of four argument registers exists from this one on (R185, R329). -/
def fourOk (c : SReg) : Bool := decide (c.toNat ≤ 28)

/-! ### Instructions -/

/-- The limits of step 3 of R151 that the types of the operands leave to be checked. -/
def Instr.wf : Instr → Bool
  | .nop h | .nop96 h | .nop128 h => h.wf
  | .br h _ | .brr h _ | .call h _ _ | .callr h _ _ | .ret h _ | .loop h _ _ => h.wf
  | .callat h _ _ _ c _ => h.wf && fourOk c
  | .spawn h _ _ _ | .join h _ | .exit h _ | .exitRep h _ _ _ | .yield h => h.wf
  | .waitFull h _ | .waitZero h _ | .waitNe h _ _ _ => h.wf
  | .send h _ _ c => h.wf && fourOk c
  | .taskq h _ _ _ c _ => h.wf && fourOk c
  | .taskqDec h _ | .evset h _ | .evclr h _ | .evwait h _ | .cancel h _ | .trapu h _ => h.wf
  | .exretRetry h _ | .exretNext h _ | .exretTo h _ _ => h.wf
  | .tack h _ _ | .tackDone h | .tkwait h _ | .tkwaitFrame h _ | .tkstat h _ _ | .tkstatProg h _ => h.wf
  | .add h _ _ _ | .sub h _ _ _ | .addi h _ _ _ | .mul h _ _ _ => h.wf
  | .mulh h _ _ _ _ | .div h _ _ _ _ | .rem h _ _ _ _ => h.wf
  | .and h _ _ _ | .or h _ _ _ | .xor h _ _ _ | .andn h _ _ _ | .orn h _ _ _ => h.wf
  | .shl h _ _ _ | .shr h _ _ _ | .sar h _ _ _ | .rot h _ _ _ _ => h.wf
  | .min h _ _ _ _ | .max h _ _ _ _ => h.wf
  | .abs h _ _ | .clz h _ _ | .ctz h _ _ | .popc h _ _ | .brev h _ _ | .bswap h _ _ => h.wf
  | .ext h _ _ _ _ _ | .ins h _ _ _ _ | .sel h _ _ _ _ | .mov h _ _ => h.wf
  | .movi h _ _ | .movwF96 h _ _ _ | .movwF128 h _ _ => h.wf
  | .lea h _ m => h.wf && m.wf
  | .hash h _ _ _ | .cmp h _ _ _ _ | .cmpi h _ _ _ _ => h.wf
  | .pand h _ _ _ _ _ | .por h _ _ _ _ _ | .pxor h _ _ _ _ _ | .pnot h _ _ | .prd h _ | .pwr h _ => h.wf
  | .mfu h _ n => h.wf && userNumOk n
  | .mtu h n _ => h.wf && userNumWritable n
  | .ld h _ _ m k sz => h.wf && m.wf && k.ldOk sz
  | .ldFe h _ _ m _ | .ldFec h _ _ m _ => h.wf && m.wf
  | .st h m _ k tag sz => h.wf && m.wf && k.stOk tag.isSome sz
  | .ldv h _ m _ _ => h.wf && m.wf
  | .stv h m _ rp tag _ => h.wf && m.wf && !(rp && tag.isSome)
  | .vgath h _ g _ _ _ | .vscat h g _ _ _ _ => h.wf && g.wf
  | .amo h _ d m _ o _ _ => h.wf && m.wf && (d.isSome || o == .rlx || o == .rel)
  | .cas h _ m _ _ _ _ => h.wf && m.wf
  | .fence h o _ => h.wf && o != .rlx
  | .pref h m _ => h.wf && m.wf
  | .stpair h _ _ _ _ _ _ _ _ => h.wf
  | .feset h m | .feclr h m => h.wf && m.wf
  | .vadd h ty _ _ _ _ _ | .vsub h ty _ _ _ _ _ | .vmul h ty _ _ _ _ _ | .vdiv h ty _ _ _ _ _ =>
    h.wf && ty.isArith
  | .vfma h ty _ _ _ _ _ _ | .vfms h ty _ _ _ _ _ _ | .vfnma h ty _ _ _ _ _ _ => h.wf && ty.isArith
  | .vsqrt h ty _ _ _ _ => h.wf && ty.isArith
  | .vmin h ty _ _ _ _ | .vmax h ty _ _ _ _ => h.wf && ty.isArith
  | .vabs h ty _ _ _ | .vneg h ty _ _ _ => h.wf && ty.isArith
  | .vcmp h c ty _ _ _ _ => h.wf && (ty.isArith || (ty.isInt && c != .un && c != .ord))
  | .vcvt h dt sy _ _ _ _ => h.wf && dt.isConvDst && sy.isConvSrc
  | .vpack h dt sy _ _ _ _ _ => h.wf && dt.isConvDst && sy.isConvSrc && decide (2 * dt.width ≤ sy.width)
  | .vunpk h dt sy _ _ _ p _ =>
    h.wf && dt.isConvDst && sy.isConvSrc && decide (2 * sy.width ≤ dt.width) && decide (p.toNat < dt.width / sy.width)
  | .vbxq h bx4 _ _ b _ => h.wf && decide (b.toNat < bif bx4 then 8 else 4)
  | .vbxd h dt bx4 _ _ _ b _ _ =>
    h.wf && (dt == .f32 || dt == .f16 || dt == .bf16) && decide (b.toNat < bif bx4 then 8 else 4)
  | .vscale h ty _ _ _ _ _ => h.wf && ty.isArith
  | .vred h _ ty _ _ _ _ => h.wf && ty.isArith
  | .vsacc h dbl _ d _ b _ n _ =>
    h.wf && bif dbl then decide (n.toNat ≤ 1) && decide (d.toNat + 2 * n.toNat + 1 ≤ 31) && decide (b.toNat ≤ 30)
      else decide (d.toNat + n.toNat ≤ 31)
  | .vbdot h ty _ _ _ _ _ _ _ _ => h.wf && (ty == .e2m1 || ty == .e4m3 || ty == .e5m2)
  | .viadd h _ ty _ _ _ _ | .visub h _ ty _ _ _ _ | .vimul h _ ty _ _ _ _ => h.wf && ty.isInt
  | .vand h ty _ _ _ _ | .vor h ty _ _ _ _ | .vxor h ty _ _ _ _ => h.wf && ty.isInt
  | .vshl h ty _ _ n _ | .vshr h ty _ _ n _ | .vsar h ty _ _ n _ => h.wf && ty.isInt && n.wf ty
  | .vimin h ty _ _ _ _ | .vimax h ty _ _ _ _ | .vperm h ty _ _ _ _ | .vsel h ty _ _ _ _ => h.wf && ty.isInt
  | .vbcast h ty _ _ _ | .vmov h ty _ _ _ | .vidx h ty _ _ => h.wf && ty.isInt
  | .vmovTos h ty _ _ e | .vmovTov h ty _ _ e => h.wf && ty.isInt && decide (e.toNat < 1024 / ty.width)
  | .mand h _ _ _ | .mor h _ _ _ | .morFs h _ _ | .mnot h _ _ | .mpopc h _ _ | .mpopcRaw h _ _ => h.wf
  | .embpool h ty _ _ _ _ _ _ lg =>
    h.wf && (ty == .f32 || ty == .f16 || ty == .bf16 || ty == .e4m3 || ty == .e5m2 || ty == .e2m1) && pitchOk ty lg
  | .embupd h ty r _ _ _ _ _ lg =>
    h.wf && (ty == .f32 || ty == .f16 || ty == .bf16) && r != .rst && pitchOk ty lg
  | .oclaim h _ _ | .oclaimM h _ _ | .orelease h _ => h.wf
  | .ofill h _ _ m => h.wf && m.wf
  | .ofillS h _ _ _ => h.wf
  | .wlatch h ty _ => h.wf && ty.isArray
  | .mma h ty _ _ _ _ _ => h.wf && ty.isArray
  | .accz h _ _ | .accrd h _ _ _ _ | .accwr h _ _ _ _ | .mstat h _ | .mstatPeek h _ => h.wf
  | .pbind h _ out fwd p => h.wf && p.wf out fwd
  | .punbind h _ | .pdrain h _ _ => h.wf
  | .spopenIn h _ | .spopenOut h _ _ _ _ | .spopenLand h _ _ _ | .spclose h _ => h.wf
  | .trset h _ m => h.wf && m.wf
  | .kacc h ty r _ c _ _ _ _ _ => h.wf && ty.isKey && r != .rst && keyVecOk ty c
  | .kget h ty r d _ _ _ _ _ => h.wf && ty.isKey && r != .rst && keyVecOk ty d
  | .kput h ty r _ _ c _ _ => h.wf && ty.isKey && r != .rst && keyVecOk ty c
  | .kprobe h _ _ _ _ | .kdel h _ _ _ | .kmerge h _ _ _ | .kscan h _ _ _ _ _ | .hpos h _ _ _ => h.wf
  | .bindpos h _ _ | .posset h _ | .migrCore h _ | .migrAddr h _ | .unbind h => h.wf
  | .nbrS h n _ _ _ _ _ => h.wf && !n.vec
  | .nbrBuf h _ _ _ _ _ _ _ | .cqput h _ _ _ _ _ => h.wf
  | .hwaitFree h _ | .hwaitFull h _ | .hwaitTake h _ | .hstate h _ _ | .hfree h _ => h.wf
  | .sretRetry h _ _ | .sretNext h _ _ | .sretTo h _ _ _ | .sretKill h _ _ => h.wf
  | .mfs h _ n => h.wf && sysNumOk n
  | .mts h n _ => h.wf && sysNumWritable n
  | .segld h _ m => h.wf && m.wf
  | .accsave h _ _ m | .accload h _ _ m => h.wf && m.wf
  | .ctxoutCore h _ _ _ | .ctxoutMem h _ _ _ | .ctxin h _ _ _ => h.wf
  | .xlinvVa h _ _ _ | .xlinvTag h _ _ _ | .xlinvAll h _ _ _ | .rtswap h _ _ _ => h.wf
  | .haltWait h | .haltStop h | .rdstate h _ _ _ => h.wf
  | .sysmsg h _ c => h.wf && fourOk c
  -- The moves that no word encodes: their arguments have no encoding limits.
  | .cancelSeen _ | .cancelMailboxWrite _ | .oclaimServe _ | .arrayPerform _ | .streamElementRead _ _
  | .streamElementWrite _ _ | .networkElementLand _ _ | .closingFlit _ _ | .keyTableApply _ _ | .handOver _
  | .copyPacketTake _ _ | .copyGranuleWrite _ _ | .copyCompletion _ _ | .tierEntryIssue _ _
  | .tierEntryComplete _ _ | .longResultReturn _ _ _ | .journalEntrySend _ _ | .postedWritePerform _ _
  | .journalAck _ _ | .trapEntry _ _ | .supervisorRequestTake _ | .systemMessageTake _ | .wakeMove _ _
  | .lightSlotTake _ _ | .stealServe _ _ | .stealRetry _ _ | .lightDeparture _ _ | .lightArrival _
  | .messageHandlerStart _ | .launchRequest _ | .launchStart _ | .launchCompletion _ | .faultReply _ _ _
  | .faultEntryWait _ | .updateSequence _ | .updateApply | .updateMailboxWrite _ | .bastingForward _ _
  | .migrationMarker _ _ | .bounceAppend _ _ | .crst _ _ | .partitionTableWrite _ _
  | .translationBlockWrite _ _ | .linkFailure _ _ | .packageLostFence _ | .hostAccess _ _ _ _ | .hint _
  | .nvmeMsix _ _ _ | .errorLogConfigWrite _ _ _ | .coreReset _ | .packageResetRelease | .memoryTraining _
  | .firmwareStart | .bupReady | .dbgWrite _ | .preqWrite _ | .powerTransition | .extend | .token | .quote
  | .readKeys | .readMeasurements | .mgmtRead _ | .mgmtWrite _ _ | .mgmtReadback _ _ | .registerWrite _ _
  | .bastingEntryRetire _ _ | .clusterResetDone _ | .nvmeControllerDma _ _ _ _ _ | .peerPackageAccess _ _ _ _ _
  | .lamvanBlockWrite _ _ | .entdaa _ => true

end Sys2Proof
end

