-- ==== Sys2Proof/Decode.lean ====
section
/-!
DEFINITION. The decoder of instruction words (R135 to R152, and the encoding tables of the instruction chapters) and,
after it, the encoder. A word is first split into the fields of R138 and R142; each opcode then reads its own fields and
refuses, by name, what step 3 of R151 calls illegal.
-/

namespace Sys2Proof

/-- Why a word is refused: steps 1 to 3 of R151. All but the first two raise illegal-instruction. -/
inductive Reject where
  /-- LEN = 0b11 (R135). -/
  | illegalLength
  /-- The word crosses its fetch block (R136). -/
  | fetchBoundary
  /-- The opcode is unassigned (R148). -/
  | unassignedOpcode
  /-- LEN names a form that the opcode lacks (R149). -/
  | formLacking
  /-- Bit 3 is set (R138). -/
  | bitThree
  /-- A reserved field or bit is set. -/
  | reservedField
  /-- A register, predicate, mask or address-term value is not allowed (R140). -/
  | badRegister
  /-- A TYPE, RND, ORD, SCP, QUAL, SZ or qualifier value is illegal (R143 to R146). -/
  | badModifier
  /-- An FN value is illegal (R147). -/
  | badFunction
  /-- A limit of `Instr.wf` is broken: a guard, scale, number, type or limit that the entry does not allow. -/
  | operandLimit
  deriving DecidableEq, Repr

/-- The fields of an instruction word: those of R138, and the extension, which is zero above the word's length. -/
structure Raw where
  ext : BitVec 64
  x8  : BitVec 8
  md  : BitVec 8
  fn  : BitVec 6
  c   : BitVec 6
  b   : BitVec 6
  a   : BitVec 6
  d   : BitVec 6
  neg : Bool
  grd : BitVec 5
  op  : BitVec 8
  b3  : Bool
  sw  : Bool
  len : BitVec 2
  deriving DecidableEq, Repr

/-- The fields of a 128-bit value (R138, R142). -/
def Raw.ofWord (w : BitVec 128) : Raw where
  ext := w.extractLsb' 64 64
  x8 := w.extractLsb' 56 8
  md := w.extractLsb' 48 8
  fn := w.extractLsb' 42 6
  c := w.extractLsb' 36 6
  b := w.extractLsb' 30 6
  a := w.extractLsb' 24 6
  d := w.extractLsb' 18 6
  neg := w.getLsbD 17
  grd := w.extractLsb' 12 5
  op := w.extractLsb' 4 8
  b3 := w.getLsbD 3
  sw := w.getLsbD 2
  len := w.extractLsb' 0 2

/-- The 128-bit value with these fields. -/
def Raw.word (r : Raw) : BitVec 128 :=
  r.ext ++ (r.x8 ++ r.md ++ r.fn ++ r.c ++ r.b ++ r.a ++ r.d ++ BitVec.ofBool r.neg ++ r.grd ++ r.op ++
    BitVec.ofBool r.b3 ++ BitVec.ofBool r.sw ++ r.len : BitVec 64)

/-- Length of a word in bytes by its LEN (R135); 0 for the illegal LEN. -/
def lenBytes (l : BitVec 2) : Nat :=
  if l = 0 then 8 else if l = 1 then 12 else if l = 2 then 16 else 0

/-- IMM28 of F64-I, in the places of X8, MOD, FN and C (R142). -/
def Raw.imm28 (r : Raw) : BitVec 28 := r.x8 ++ r.md ++ r.fn ++ r.c

/-- OFF34 of F64-B, in the places of X8, MOD, FN, C and B (R142). -/
def Raw.off34 (r : Raw) : BitVec 34 := r.x8 ++ r.md ++ r.fn ++ r.c ++ r.b

/-- The guard and the switch marker (R138, R139). -/
def Raw.hdr (r : Raw) : Hdr := ⟨r.neg, r.grd, r.sw⟩

/-! ### Fields -/

/-- Refuse unless a condition holds. -/
def need (p : Prop) [Decidable p] (e : Reject) : Except Reject Unit := if p then .ok () else .error e

/-- A scalar register or a predicate: 0 to 31 (R140). -/
def sregOf (f : BitVec 6) : Except Reject (BitVec 5) :=
  if f.msb then .error .badRegister else .ok (f.setWidth 5)

/-- A vector register: 32 to 63 (R140). -/
def vregOf (f : BitVec 6) : Except Reject VReg :=
  if f.msb then .ok (f.setWidth 5) else .error .badRegister

/-- An address term: a scalar register, or 0b111111 for none (R140). -/
def termOf (f : BitVec 6) : Except Reject (Option SReg) :=
  if f = 63#6 then .ok none else if f.msb then .error .badRegister else .ok (some (f.setWidth 5))

/-- A mask register: 0 to 7 (R240). -/
def mregOf (f : BitVec 6) : Except Reject MReg :=
  if f.extractLsb' 3 3 = 0#3 then .ok (f.setWidth 3) else .error .badRegister

/-- A bound name: 24 to 31 or 56 to 63 (R257). -/
def pnameOf (f : BitVec 6) : Except Reject PName :=
  if f.extractLsb' 3 2 = 3#2 then .ok ⟨f.msb, f.setWidth 3⟩ else .error .badRegister

/-- The mask in X8[58:56]; X8[63:59] is reserved (R141). -/
def maskOf (x : BitVec 8) : Except Reject MReg :=
  if x.extractLsb' 3 5 = 0#5 then .ok (x.setWidth 3) else .error .reservedField

/-- A flag that is the low bit of a field whose other bits are reserved. -/
def bit0 {n : Nat} (f : BitVec n) (e : Reject) : Except Reject Bool :=
  if f = 0 then .ok false else if f = 1 then .ok true else .error e

/-- The segment of a memory form without an index (R141). -/
def segOf (x : BitVec 8) : Except Reject (BitVec 3) :=
  if x.extractLsb' 3 5 = 0#5 then .ok (x.setWidth 3) else .error .reservedField

/-- The displacement of a memory form: absent in F64-R, IMM32 in F96-M (R142, R149). -/
def dispOf (r : Raw) : Except Reject (Option (BitVec 32)) :=
  if r.len = 0#2 then .ok none
  else if r.len = 1#2 then .ok (some (r.ext.setWidth 32))
  else .error .formLacking

/-- The memory operand of the fields X8, A, B and IMM32 (R32, R141). -/
def memOf (r : Raw) : Except Reject MemOp := do
  need (r.x8.extractLsb' 6 2 = 0#2) .reservedField
  let a ← termOf r.a
  let b ← termOf r.b
  let i ← dispOf r
  pure ⟨r.x8.setWidth 3, a, b, r.x8.extractLsb' 3 3, i⟩

/-- The memory operand of VGATH and VSCAT (R217). -/
def gatherOf (r : Raw) : Except Reject GatherOp := do
  need (r.x8.extractLsb' 6 2 = 0#2) .reservedField
  let a ← termOf r.a
  let b ← vregOf r.b
  let i ← dispOf r
  pure ⟨r.x8.setWidth 3, a, b, r.x8.extractLsb' 3 3, i⟩

/-! ### Modifier codes -/

/-- The TYPE of a code (R144). -/
def tyOf (f : BitVec 5) : Except Reject Ty :=
  match f with
  | 0 => .ok .f64 | 1 => .ok .f32 | 2 => .ok .f16 | 3 => .ok .bf16 | 4 => .ok .e4m3 | 5 => .ok .e5m2
  | 6 => .ok .e2m1 | 7 => .ok .e8m0 | 8 => .ok .bx8 | 9 => .ok .bx4 | 10 => .ok .fx64
  | 16 => .ok .s8 | 17 => .ok .s16 | 18 => .ok .s32 | 19 => .ok .s64
  | 20 => .ok .u8 | 21 => .ok .u16 | 22 => .ok .u32 | 23 => .ok .u64
  | _ => .error .badModifier

/-- The RND of a code (R145). -/
def rndOf (f : BitVec 3) : Except Reject Rnd :=
  match f with
  | 0 => .ok .rne | 1 => .ok .rz | 2 => .ok .rdn | 3 => .ok .rup | 4 => .ok .rst | 5 => .ok .rdyn
  | _ => .error .badModifier

/-- TYPE and RND of the float and conversion classes (R143). -/
def tyRndOf (m : BitVec 8) : Except Reject (Ty × Rnd) := do
  let t ← tyOf (m.extractLsb' 3 5)
  let r ← rndOf (m.setWidth 3)
  pure (t, r)

/-- TYPE of a row whose MOD[2:0] is 0b000 (R239, R240). -/
def tyPlainOf (m : BitVec 8) : Except Reject Ty := do
  need (m.setWidth 3 = 0#3) .badModifier
  tyOf (m.extractLsb' 3 5)

/-- TYPE and one qualifier, whose code is given, of the vector integer class (R143, R240). -/
def tyQualOf (m : BitVec 8) (q : BitVec 3) : Except Reject (Ty × Bool) := do
  let t ← tyOf (m.extractLsb' 3 5)
  if m.setWidth 3 = 0#3 then pure (t, false)
  else if m.setWidth 3 = q then pure (t, true)
  else .error .badModifier

/-- The source TYPE in FN[4:0]; FN[5] is reserved (R143). -/
def srcTyOf (f : BitVec 6) : Except Reject Ty :=
  if f.msb then .error .reservedField else tyOf (f.setWidth 5)

/-- The order of a nonzero ORD (R146). -/
def ordOf (f : BitVec 3) : Except Reject Ord :=
  match f with
  | 1 => .ok .rlx | 2 => .ok .acq | 3 => .ok .rel | 4 => .ok .acqRel | 5 => .ok .seq
  | _ => .error .badModifier

/-- The scope of SCP (R146). -/
def scopeOf (f : BitVec 3) : Except Reject Scope :=
  match f with
  | 0 => .ok .pkg | 1 => .ok .th | 2 => .ok .core | 3 => .ok .cl | 4 => .ok .pnl | 5 => .ok .pod
  | _ => .error .badModifier

/-- The qualifiers of a plain access (R146). -/
inductive Qual where
  | none | fe | fec | rp | ftag
  deriving DecidableEq, Repr

/-- The qualifier of QUAL (R146). -/
def qualOf (f : BitVec 3) : Except Reject Qual :=
  match f with
  | 0 => .ok .none | 1 => .ok .fe | 2 => .ok .fec | 3 => .ok .rp | 4 => .ok .ftag
  | _ => .error .badModifier

/-- The qualifier of a row that takes none or `.rp` only, with its SZ (R218). -/
def rpOf (m : BitVec 8) : Except Reject Bool := do
  need (m.extractLsb' 5 3 = 0#3) .badModifier
  match ← qualOf (m.extractLsb' 2 3) with
  | .none => pure false
  | .rp => pure true
  | _ => .error .badModifier

/-- The size of VGATH and VSCAT: `.w` or `.d` (R218). -/
def dwOf (m : BitVec 8) : Except Reject Bool :=
  if m.setWidth 2 = 2#2 then .ok false else if m.setWidth 2 = 3#2 then .ok true else .error .badModifier

/-- Order, scope and size of an atomic read-write (R218). -/
def rmwOf (m : BitVec 8) : Except Reject (Ord × Scope × Bool) := do
  let o ← ordOf (m.extractLsb' 5 3)
  let s ← scopeOf (m.extractLsb' 2 3)
  let w ← dwOf m
  pure (o, s, w)

/-- The condition of CMP and CMPI (R147). -/
def condOf (f : BitVec 6) : Except Reject Cond :=
  match f with
  | 0 => .ok .eq | 1 => .ok .ne | 2 => .ok .lt | 3 => .ok .ltu | 4 => .ok .le | 5 => .ok .leu | 6 => .ok .gt
  | 7 => .ok .gtu | 8 => .ok .ge | 9 => .ok .geu
  | _ => .error .badFunction

/-- The condition of VCMP (R244). -/
def vcondOf (f : BitVec 6) : Except Reject VCond :=
  match f with
  | 0 => .ok .eq | 1 => .ok .ne | 2 => .ok .lt | 3 => .ok .le | 4 => .ok .gt | 5 => .ok .ge | 6 => .ok .un
  | 7 => .ok .ord
  | _ => .error .badFunction

/-- The operation of AMO (R147). -/
def amoOf (f : BitVec 6) : Except Reject AmoOp :=
  match f with
  | 0 => .ok .add | 1 => .ok .and | 2 => .ok .or | 3 => .ok .xor | 4 => .ok .min | 5 => .ok .max | 6 => .ok .minu
  | 7 => .ok .maxu | 8 => .ok .swap | 9 => .ok .fadd
  | _ => .error .badFunction

/-- The operation of VRED (R240). -/
def redOf (f : BitVec 6) : Except Reject RedOp :=
  match f with
  | 0 => .ok .add | 1 => .ok .min | 2 => .ok .max
  | _ => .error .badFunction

/-- The block size of VBDOT (R240). -/
def bsOf (f : BitVec 2) : Except Reject BlockSize :=
  match f with
  | 0 => .ok .b8 | 1 => .ok .b16 | 2 => .ok .b32
  | _ => .error .badFunction

/-- The scale type of VBDOT (R240). -/
def stOf (f : BitVec 2) : Except Reject ScaleTy :=
  match f with
  | 0 => .ok .e8m0 | 1 => .ok .e4m3 | 2 => .ok .e5m2
  | _ => .error .badFunction

/-- The mode of MMA (R264). -/
def mmaModeOf (f : BitVec 3) : Except Reject MmaMode :=
  match f with
  | 0 => .ok .once | 1 => .ok .opn | 2 => .ok .cont
  | _ => .error .badModifier

/-- The block format of VBXQ and VBXD (R240). -/
def bxOf (t : Ty) : Except Reject Bool :=
  if t = .bx8 then .ok false else if t = .bx4 then .ok true else .error .badModifier

/-- A scalar shift amount (R169, R174). -/
def amtOf (b : BitVec 6) (m : BitVec 8) : Except Reject Amt :=
  if m = 0#8 then (do let r ← sregOf b; pure (.reg r)) else if m = 1#8 then .ok (.imm b) else .error .reservedField

/-- A vector shift amount (R251). -/
def vamtOf (b : BitVec 6) (i : Bool) : Except Reject VAmt :=
  bif i then .ok (.imm b) else (do let r ← vregOf b; pure (.reg r))

/-! ### The opcodes -/

/-- Control, tasks, messages, events and exceptions (R152, R185). -/
def decControl (r : Raw) : Except Reject Instr :=
  match r.op with
  | 0x01 => do
    need (r.d = 0#6 ∧ r.a = 0#6 ∧ r.b = 0#6 ∧ r.c = 0#6 ∧ r.fn = 0#6 ∧ r.md = 0#8 ∧ r.x8 = 0#8 ∧
      r.ext = 0#64) .reservedField
    if r.len = 0#2 then pure (.nop r.hdr)
    else if r.len = 1#2 then pure (.nop96 r.hdr)
    else pure (.nop128 r.hdr)
  | 0x02 => do
    need (r.len = 0#2) .formLacking
    need (r.d = 0#6 ∧ r.a = 0#6) .reservedField
    pure (.br r.hdr r.off34)
  | 0x03 => do
    need (r.len = 0#2) .formLacking
    need (r.d = 0#6 ∧ r.b = 0#6 ∧ r.c = 0#6 ∧ r.fn = 0#6 ∧ r.md = 0#8 ∧ r.x8 = 0#8) .reservedField
    let a ← sregOf r.a
    pure (.brr r.hdr a)
  | 0x04 => do
    need (r.len = 0#2) .formLacking
    need (r.a = 0#6) .reservedField
    let d ← sregOf r.d
    pure (.call r.hdr d r.off34)
  | 0x05 => do
    need (r.len = 0#2) .formLacking
    need (r.b = 0#6 ∧ r.c = 0#6 ∧ r.fn = 0#6 ∧ r.md = 0#8 ∧ r.x8 = 0#8) .reservedField
    let d ← sregOf r.d
    let a ← sregOf r.a
    pure (.callr r.hdr d a)
  | 0x06 => do
    need (r.len = 0#2) .formLacking
    need (r.d = 0#6 ∧ r.b = 0#6 ∧ r.c = 0#6 ∧ r.fn = 0#6 ∧ r.md = 0#8 ∧ r.x8 = 0#8) .reservedField
    let a ← sregOf r.a
    pure (.ret r.hdr a)
  | 0x07 => do
    need (r.len = 0#2) .formLacking
    need (r.d = 0#6) .reservedField
    let a ← sregOf r.a
    pure (.loop r.hdr a r.off34)
  | 0x08 => do
    need (r.len = 2#2) .formLacking
    need (r.fn = 0#6 ∧ r.md = 0#8 ∧ r.x8 = 0#8) .reservedField
    let nr ← bit0 r.ext .reservedField
    let d ← sregOf r.d
    let a ← sregOf r.a
    let b ← sregOf r.b
    let c ← sregOf r.c
    pure (.callat r.hdr d a b c nr)
  | 0x09 => do
    need (r.len = 0#2) .formLacking
    let d ← sregOf r.d
    let a ← sregOf r.a
    pure (.spawn r.hdr d a r.off34)
  | 0x0A => do
    need (r.len = 0#2) .formLacking
    need (r.d = 0#6 ∧ r.b = 0#6 ∧ r.c = 0#6 ∧ r.fn = 0#6 ∧ r.md = 0#8 ∧ r.x8 = 0#8) .reservedField
    let a ← sregOf r.a
    pure (.join r.hdr a)
  | 0x0B => do
    need (r.len = 0#2) .formLacking
    need (r.d = 0#6 ∧ r.md = 0#8 ∧ r.x8 = 0#8) .reservedField
    let rep ← bit0 r.fn .badFunction
    let a ← termOf r.a
    if rep then do
      let b ← sregOf r.b
      let c ← sregOf r.c
      pure (.exitRep r.hdr a b c)
    else do
      need (r.b = 0#6 ∧ r.c = 0#6) .reservedField
      pure (.exit r.hdr a)
  | 0x0C => do
    need (r.len = 0#2) .formLacking
    need (r.d = 0#6 ∧ r.a = 0#6 ∧ r.b = 0#6 ∧ r.c = 0#6 ∧ r.fn = 0#6 ∧ r.md = 0#8 ∧ r.x8 = 0#8) .reservedField
    pure (.yield r.hdr)
  | 0x0D => do
    need (r.len = 0#2) .formLacking
    need (r.c = 0#6 ∧ r.md = 0#8 ∧ r.x8 = 0#8) .reservedField
    let a ← sregOf r.a
    if r.fn = 0#6 then do
      need (r.d = 0#6 ∧ r.b = 0#6) .reservedField
      pure (.waitFull r.hdr a)
    else if r.fn = 1#6 then do
      need (r.d = 0#6 ∧ r.b = 0#6) .reservedField
      pure (.waitZero r.hdr a)
    else if r.fn = 2#6 then do
      let d ← sregOf r.d
      let b ← sregOf r.b
      pure (.waitNe r.hdr d a b)
    else .error .badFunction
  | 0x0E => do
    need (r.len = 2#2) .formLacking
    need (r.d = 0#6 ∧ r.fn = 0#6 ∧ r.md = 0#8 ∧ r.x8 = 0#8 ∧ r.ext = 0#64) .reservedField
    let a ← sregOf r.a
    let b ← sregOf r.b
    let c ← sregOf r.c
    pure (.send r.hdr a b c)
  | 0x0F => do
    need (r.len = 2#2) .formLacking
    need (r.md = 0#8 ∧ r.x8 = 0#8) .reservedField
    let dec ← bit0 r.fn .badFunction
    let a ← sregOf r.a
    if dec then do
      need (r.d = 0#6 ∧ r.b = 0#6 ∧ r.c = 0#6 ∧ r.ext = 0#64) .reservedField
      pure (.taskqDec r.hdr a)
    else do
      need (r.ext.extractLsb' 16 48 = 0#48) .reservedField
      let d ← sregOf r.d
      let b ← vregOf r.b
      let c ← sregOf r.c
      pure (.taskq r.hdr d a b c (r.ext.setWidth 16))
  | 0x10 => do
    need (r.len = 0#2) .formLacking
    need (r.b = 0#6 ∧ r.d = 0#6 ∧ r.a = 0#6 ∧ r.imm28.extractLsb' 8 20 = 0#20) .reservedField
    pure (.evset r.hdr (r.imm28.setWidth 8))
  | 0x11 => do
    need (r.len = 0#2) .formLacking
    need (r.b = 0#6 ∧ r.d = 0#6 ∧ r.a = 0#6 ∧ r.imm28.extractLsb' 8 20 = 0#20) .reservedField
    pure (.evclr r.hdr (r.imm28.setWidth 8))
  | 0x12 => do
    need (r.len = 0#2) .formLacking
    need (r.b = 0#6 ∧ r.d = 0#6 ∧ r.a = 0#6 ∧ r.imm28.extractLsb' 8 20 = 0#20) .reservedField
    pure (.evwait r.hdr (r.imm28.setWidth 8))
  | 0x13 => do
    need (r.len = 0#2) .formLacking
    need (r.d = 0#6 ∧ r.b = 0#6 ∧ r.c = 0#6 ∧ r.fn = 0#6 ∧ r.md = 0#8 ∧ r.x8 = 0#8) .reservedField
    let a ← termOf r.a
    pure (.cancel r.hdr a)
  | 0x14 => do
    need (r.len = 0#2) .formLacking
    need (r.b = 0#6 ∧ r.d = 0#6 ∧ r.a = 0#6 ∧ r.imm28.extractLsb' 16 12 = 0#12) .reservedField
    pure (.trapu r.hdr (r.imm28.setWidth 16))
  | 0x15 => do
    need (r.len = 0#2) .formLacking
    need (r.d = 0#6 ∧ r.c = 0#6 ∧ r.md = 0#8 ∧ r.x8 = 0#8) .reservedField
    let a ← sregOf r.a
    if r.fn = 0#6 then do
      need (r.b = 0#6) .reservedField
      pure (.exretRetry r.hdr a)
    else if r.fn = 1#6 then do
      need (r.b = 0#6) .reservedField
      pure (.exretNext r.hdr a)
    else if r.fn = 2#6 then do
      let b ← sregOf r.b
      pure (.exretTo r.hdr a b)
    else .error .badFunction
  | 0x16 => do
    need (r.len = 0#2) .formLacking
    need (r.d = 0#6) .reservedField
    let dn ← bit0 r.b .badFunction
    if dn then do
      need (r.a = 0#6 ∧ r.imm28 = 0#28) .reservedField
      pure (.tackDone r.hdr)
    else do
      let a ← termOf r.a
      pure (.tack r.hdr a r.imm28)
  | 0x17 => do
    need (r.len = 0#2) .formLacking
    need (r.d = 0#6 ∧ r.b = 0#6 ∧ r.c = 0#6 ∧ r.md = 0#8 ∧ r.x8 = 0#8) .reservedField
    let f ← bit0 r.fn .badFunction
    let a ← sregOf r.a
    if f then pure (.tkwaitFrame r.hdr a)
    else pure (.tkwait r.hdr a)
  | 0x18 => do
    need (r.len = 0#2) .formLacking
    need (r.b = 0#6 ∧ r.c = 0#6 ∧ r.md = 0#8 ∧ r.x8 = 0#8) .reservedField
    let f ← bit0 r.fn .badFunction
    let d ← sregOf r.d
    if f then do
      need (r.a = 0#6) .reservedField
      pure (.tkstatProg r.hdr d)
    else do
      let a ← sregOf r.a
      pure (.tkstat r.hdr d a)
  | _ => .error .unassignedOpcode

/-- Scalar, compare and predicate instructions (R169). -/
def decScalar (r : Raw) : Except Reject Instr :=
  match r.op with
  | 0x20 => do
    need (r.len = 0#2) .formLacking
    need (r.c = 0#6 ∧ r.fn = 0#6 ∧ r.md = 0#8 ∧ r.x8 = 0#8) .reservedField
    let d ← sregOf r.d
    let a ← sregOf r.a
    let b ← sregOf r.b
    pure (.add r.hdr d a b)
  | 0x21 => do
    need (r.len = 0#2) .formLacking
    need (r.c = 0#6 ∧ r.fn = 0#6 ∧ r.md = 0#8 ∧ r.x8 = 0#8) .reservedField
    let d ← sregOf r.d
    let a ← sregOf r.a
    let b ← sregOf r.b
    pure (.sub r.hdr d a b)
  | 0x22 => do
    need (r.len = 0#2) .formLacking
    need (r.b = 0#6) .reservedField
    let d ← sregOf r.d
    let a ← sregOf r.a
    pure (.addi r.hdr d a r.imm28)
  | 0x23 => do
    need (r.len = 0#2) .formLacking
    need (r.c = 0#6 ∧ r.fn = 0#6 ∧ r.md = 0#8 ∧ r.x8 = 0#8) .reservedField
    let d ← sregOf r.d
    let a ← sregOf r.a
    let b ← sregOf r.b
    pure (.mul r.hdr d a b)
  | 0x24 => do
    need (r.len = 0#2) .formLacking
    need (r.c = 0#6 ∧ r.md = 0#8 ∧ r.x8 = 0#8) .reservedField
    let u ← bit0 r.fn .badFunction
    let d ← sregOf r.d
    let a ← sregOf r.a
    let b ← sregOf r.b
    pure (.mulh r.hdr u d a b)
  | 0x25 => do
    need (r.len = 0#2) .formLacking
    need (r.c = 0#6 ∧ r.md = 0#8 ∧ r.x8 = 0#8) .reservedField
    let u ← bit0 r.fn .badFunction
    let d ← sregOf r.d
    let a ← sregOf r.a
    let b ← sregOf r.b
    pure (.div r.hdr u d a b)
  | 0x26 => do
    need (r.len = 0#2) .formLacking
    need (r.c = 0#6 ∧ r.md = 0#8 ∧ r.x8 = 0#8) .reservedField
    let u ← bit0 r.fn .badFunction
    let d ← sregOf r.d
    let a ← sregOf r.a
    let b ← sregOf r.b
    pure (.rem r.hdr u d a b)
  | 0x27 => do
    need (r.len = 0#2) .formLacking
    need (r.c = 0#6 ∧ r.fn = 0#6 ∧ r.md = 0#8 ∧ r.x8 = 0#8) .reservedField
    let d ← sregOf r.d
    let a ← sregOf r.a
    let b ← sregOf r.b
    pure (.and r.hdr d a b)
  | 0x28 => do
    need (r.len = 0#2) .formLacking
    need (r.c = 0#6 ∧ r.fn = 0#6 ∧ r.md = 0#8 ∧ r.x8 = 0#8) .reservedField
    let d ← sregOf r.d
    let a ← sregOf r.a
    let b ← sregOf r.b
    pure (.or r.hdr d a b)
  | 0x29 => do
    need (r.len = 0#2) .formLacking
    need (r.c = 0#6 ∧ r.fn = 0#6 ∧ r.md = 0#8 ∧ r.x8 = 0#8) .reservedField
    let d ← sregOf r.d
    let a ← sregOf r.a
    let b ← sregOf r.b
    pure (.xor r.hdr d a b)
  | 0x2A => do
    need (r.len = 0#2) .formLacking
    need (r.c = 0#6 ∧ r.fn = 0#6 ∧ r.md = 0#8 ∧ r.x8 = 0#8) .reservedField
    let d ← sregOf r.d
    let a ← sregOf r.a
    let b ← sregOf r.b
    pure (.andn r.hdr d a b)
  | 0x2B => do
    need (r.len = 0#2) .formLacking
    need (r.c = 0#6 ∧ r.fn = 0#6 ∧ r.md = 0#8 ∧ r.x8 = 0#8) .reservedField
    let d ← sregOf r.d
    let a ← sregOf r.a
    let b ← sregOf r.b
    pure (.orn r.hdr d a b)
  | 0x2C => do
    need (r.len = 0#2) .formLacking
    need (r.c = 0#6 ∧ r.fn = 0#6 ∧ r.x8 = 0#8) .reservedField
    let n ← amtOf r.b r.md
    let d ← sregOf r.d
    let a ← sregOf r.a
    pure (.shl r.hdr d a n)
  | 0x2D => do
    need (r.len = 0#2) .formLacking
    need (r.c = 0#6 ∧ r.fn = 0#6 ∧ r.x8 = 0#8) .reservedField
    let n ← amtOf r.b r.md
    let d ← sregOf r.d
    let a ← sregOf r.a
    pure (.shr r.hdr d a n)
  | 0x2E => do
    need (r.len = 0#2) .formLacking
    need (r.c = 0#6 ∧ r.fn = 0#6 ∧ r.x8 = 0#8) .reservedField
    let n ← amtOf r.b r.md
    let d ← sregOf r.d
    let a ← sregOf r.a
    pure (.sar r.hdr d a n)
  | 0x2F => do
    need (r.len = 0#2) .formLacking
    need (r.c = 0#6 ∧ r.x8 = 0#8) .reservedField
    let n ← amtOf r.b r.md
    let u ← bit0 r.fn .badFunction
    let d ← sregOf r.d
    let a ← sregOf r.a
    pure (.rot r.hdr u d a n)
  | 0x30 => do
    need (r.len = 0#2) .formLacking
    need (r.c = 0#6 ∧ r.md = 0#8 ∧ r.x8 = 0#8) .reservedField
    let u ← bit0 r.fn .badFunction
    let d ← sregOf r.d
    let a ← sregOf r.a
    let b ← sregOf r.b
    pure (.min r.hdr u d a b)
  | 0x31 => do
    need (r.len = 0#2) .formLacking
    need (r.c = 0#6 ∧ r.md = 0#8 ∧ r.x8 = 0#8) .reservedField
    let u ← bit0 r.fn .badFunction
    let d ← sregOf r.d
    let a ← sregOf r.a
    let b ← sregOf r.b
    pure (.max r.hdr u d a b)
  | 0x32 => do
    need (r.len = 0#2) .formLacking
    need (r.b = 0#6 ∧ r.c = 0#6 ∧ r.fn = 0#6 ∧ r.md = 0#8 ∧ r.x8 = 0#8) .reservedField
    let d ← sregOf r.d
    let a ← sregOf r.a
    pure (.abs r.hdr d a)
  | 0x33 => do
    need (r.len = 0#2) .formLacking
    need (r.b = 0#6 ∧ r.c = 0#6 ∧ r.fn = 0#6 ∧ r.md = 0#8 ∧ r.x8 = 0#8) .reservedField
    let d ← sregOf r.d
    let a ← sregOf r.a
    pure (.clz r.hdr d a)
  | 0x34 => do
    need (r.len = 0#2) .formLacking
    need (r.b = 0#6 ∧ r.c = 0#6 ∧ r.fn = 0#6 ∧ r.md = 0#8 ∧ r.x8 = 0#8) .reservedField
    let d ← sregOf r.d
    let a ← sregOf r.a
    pure (.ctz r.hdr d a)
  | 0x35 => do
    need (r.len = 0#2) .formLacking
    need (r.b = 0#6 ∧ r.c = 0#6 ∧ r.fn = 0#6 ∧ r.md = 0#8 ∧ r.x8 = 0#8) .reservedField
    let d ← sregOf r.d
    let a ← sregOf r.a
    pure (.popc r.hdr d a)
  | 0x36 => do
    need (r.len = 0#2) .formLacking
    need (r.b = 0#6 ∧ r.c = 0#6 ∧ r.fn = 0#6 ∧ r.md = 0#8 ∧ r.x8 = 0#8) .reservedField
    let d ← sregOf r.d
    let a ← sregOf r.a
    pure (.brev r.hdr d a)
  | 0x37 => do
    need (r.len = 0#2) .formLacking
    need (r.b = 0#6 ∧ r.c = 0#6 ∧ r.fn = 0#6 ∧ r.md = 0#8 ∧ r.x8 = 0#8) .reservedField
    let d ← sregOf r.d
    let a ← sregOf r.a
    pure (.bswap r.hdr d a)
  | 0x38 => do
    need (r.len = 0#2) .formLacking
    need (r.md = 0#8 ∧ r.x8 = 0#8) .reservedField
    let u ← bit0 r.fn .badFunction
    let d ← sregOf r.d
    let a ← sregOf r.a
    pure (.ext r.hdr u d a r.b r.c)
  | 0x39 => do
    need (r.len = 0#2) .formLacking
    need (r.fn = 0#6 ∧ r.md = 0#8 ∧ r.x8 = 0#8) .reservedField
    let d ← sregOf r.d
    let a ← sregOf r.a
    pure (.ins r.hdr d a r.b r.c)
  | 0x3A => do
    need (r.len = 0#2) .formLacking
    need (r.fn = 0#6 ∧ r.md = 0#8 ∧ r.x8 = 0#8) .reservedField
    let d ← sregOf r.d
    let a ← sregOf r.a
    let b ← sregOf r.b
    let p ← sregOf r.c
    pure (.sel r.hdr d a b p)
  | 0x3B => do
    need (r.len = 0#2) .formLacking
    need (r.b = 0#6 ∧ r.c = 0#6 ∧ r.fn = 0#6 ∧ r.md = 0#8 ∧ r.x8 = 0#8) .reservedField
    let d ← sregOf r.d
    let a ← sregOf r.a
    pure (.mov r.hdr d a)
  | 0x3C => do
    need (r.len = 0#2) .formLacking
    need (r.a = 0#6 ∧ r.b = 0#6) .reservedField
    let d ← sregOf r.d
    pure (.movi r.hdr d r.imm28)
  | 0x3D => do
    need (r.a = 0#6 ∧ r.b = 0#6 ∧ r.c = 0#6 ∧ r.md = 0#8 ∧ r.x8 = 0#8) .reservedField
    let d ← sregOf r.d
    if r.len = 1#2 then do
      let u ← bit0 r.fn .badFunction
      pure (.movwF96 r.hdr u d (r.ext.setWidth 32))
    else if r.len = 2#2 then do
      need (r.fn = 0#6) .reservedField
      pure (.movwF128 r.hdr d r.ext)
    else .error .formLacking
  | 0x3E => do
    need (r.c = 0#6 ∧ r.fn = 0#6 ∧ r.md = 0#8) .reservedField
    let d ← sregOf r.d
    let m ← memOf r
    pure (.lea r.hdr d m)
  | 0x3F => do
    need (r.len = 0#2) .formLacking
    need (r.c = 0#6 ∧ r.fn = 0#6 ∧ r.md = 0#8 ∧ r.x8 = 0#8) .reservedField
    let d ← sregOf r.d
    let a ← sregOf r.a
    let b ← sregOf r.b
    pure (.hash r.hdr d a b)
  | 0x40 => do
    need (r.len = 0#2) .formLacking
    need (r.c = 0#6 ∧ r.md = 0#8 ∧ r.x8 = 0#8) .reservedField
    let c ← condOf r.fn
    let d ← sregOf r.d
    let a ← sregOf r.a
    let b ← sregOf r.b
    pure (.cmp r.hdr c d a b)
  | 0x41 => do
    need (r.len = 0#2) .formLacking
    let c ← condOf r.b
    let d ← sregOf r.d
    let a ← sregOf r.a
    pure (.cmpi r.hdr c d a r.imm28)
  | 0x42 => do
    need (r.len = 0#2) .formLacking
    need (r.c = 0#6 ∧ r.md = 0#8 ∧ r.x8 = 0#8) .reservedField
    need (r.fn.extractLsb' 2 4 = 0#4) .badFunction
    let d ← sregOf r.d
    let a ← sregOf r.a
    let b ← sregOf r.b
    pure (.pand r.hdr (r.fn.getLsbD 0) (r.fn.getLsbD 1) d a b)
  | 0x43 => do
    need (r.len = 0#2) .formLacking
    need (r.c = 0#6 ∧ r.md = 0#8 ∧ r.x8 = 0#8) .reservedField
    need (r.fn.extractLsb' 2 4 = 0#4) .badFunction
    let d ← sregOf r.d
    let a ← sregOf r.a
    let b ← sregOf r.b
    pure (.por r.hdr (r.fn.getLsbD 0) (r.fn.getLsbD 1) d a b)
  | 0x44 => do
    need (r.len = 0#2) .formLacking
    need (r.c = 0#6 ∧ r.md = 0#8 ∧ r.x8 = 0#8) .reservedField
    need (r.fn.extractLsb' 2 4 = 0#4) .badFunction
    let d ← sregOf r.d
    let a ← sregOf r.a
    let b ← sregOf r.b
    pure (.pxor r.hdr (r.fn.getLsbD 0) (r.fn.getLsbD 1) d a b)
  | 0x45 => do
    need (r.len = 0#2) .formLacking
    need (r.b = 0#6 ∧ r.c = 0#6 ∧ r.fn = 0#6 ∧ r.md = 0#8 ∧ r.x8 = 0#8) .reservedField
    let d ← sregOf r.d
    let a ← sregOf r.a
    pure (.pnot r.hdr d a)
  | 0x46 => do
    need (r.len = 0#2) .formLacking
    need (r.a = 0#6 ∧ r.b = 0#6 ∧ r.c = 0#6 ∧ r.fn = 0#6 ∧ r.md = 0#8 ∧ r.x8 = 0#8) .reservedField
    let d ← sregOf r.d
    pure (.prd r.hdr d)
  | 0x47 => do
    need (r.len = 0#2) .formLacking
    need (r.d = 0#6 ∧ r.b = 0#6 ∧ r.c = 0#6 ∧ r.fn = 0#6 ∧ r.md = 0#8 ∧ r.x8 = 0#8) .reservedField
    let a ← sregOf r.a
    pure (.pwr r.hdr a)
  | 0x48 => do
    need (r.len = 0#2) .formLacking
    need (r.b = 0#6 ∧ r.a = 0#6 ∧ r.imm28.extractLsb' 12 16 = 0#16) .reservedField
    let d ← sregOf r.d
    pure (.mfu r.hdr d (r.imm28.setWidth 12))
  | 0x49 => do
    need (r.len = 0#2) .formLacking
    need (r.b = 0#6 ∧ r.d = 0#6 ∧ r.imm28.extractLsb' 12 16 = 0#16) .reservedField
    let a ← sregOf r.a
    pure (.mtu r.hdr (r.imm28.setWidth 12) a)
  | _ => .error .unassignedOpcode

/-- Memory, atomic and fence instructions (R217, R218). -/
def decMemory (r : Raw) : Except Reject Instr :=
  match r.op with
  | 0x50 => do
    need (r.c = 0#6) .reservedField
    let sx ← bit0 r.fn .badFunction
    let d ← sregOf r.d
    let m ← memOf r
    if r.md.extractLsb' 5 3 = 0#3 then do
      match ← qualOf (r.md.extractLsb' 2 3) with
      | .none => pure (.ld r.hdr sx d m .plain (r.md.setWidth 2))
      | .rp => pure (.ld r.hdr sx d m .rp (r.md.setWidth 2))
      | .fe => pure (.ldFe r.hdr sx d m (r.md.setWidth 2))
      | .fec => pure (.ldFec r.hdr sx d m (r.md.setWidth 2))
      | .ftag => .error .badModifier
    else do
      let o ← ordOf (r.md.extractLsb' 5 3)
      let s ← scopeOf (r.md.extractLsb' 2 3)
      pure (.ld r.hdr sx d m (.atomic o s) (r.md.setWidth 2))
  | 0x51 => do
    need (r.fn = 0#6) .reservedField
    let c ← sregOf r.c
    let m ← memOf r
    if r.md.extractLsb' 5 3 = 0#3 then do
      match ← qualOf (r.md.extractLsb' 2 3) with
      | .none => do
          need (r.d = 0#6) .reservedField
          pure (.st r.hdr m c .plain none (r.md.setWidth 2))
      | .rp => do
          need (r.d = 0#6) .reservedField
          pure (.st r.hdr m c .rp none (r.md.setWidth 2))
      | .ftag => do
          let t ← sregOf r.d
          pure (.st r.hdr m c .plain (some t) (r.md.setWidth 2))
      | _ => .error .badModifier
    else do
      need (r.d = 0#6) .reservedField
      let o ← ordOf (r.md.extractLsb' 5 3)
      let s ← scopeOf (r.md.extractLsb' 2 3)
      pure (.st r.hdr m c (.atomic o s) none (r.md.setWidth 2))
  | 0x52 => do
    need (r.c = 0#6) .reservedField
    let k ← mregOf r.fn
    let d ← vregOf r.d
    let m ← memOf r
    let rp ← rpOf r.md
    need (r.md.setWidth 2 = 0#2) .badModifier
    pure (.ldv r.hdr d m rp k)
  | 0x53 => do
    let k ← mregOf r.fn
    let c ← vregOf r.c
    let m ← memOf r
    need (r.md.setWidth 2 = 0#2) .badModifier
    need (r.md.extractLsb' 5 3 = 0#3) .badModifier
    match ← qualOf (r.md.extractLsb' 2 3) with
    | .none => do
        need (r.d = 0#6) .reservedField
        pure (.stv r.hdr m c false none k)
    | .rp => do
        need (r.d = 0#6) .reservedField
        pure (.stv r.hdr m c true none k)
    | .ftag => do
        let t ← sregOf r.d
        pure (.stv r.hdr m c false (some t) k)
    | _ => .error .badModifier
  | 0x54 => do
    need (r.c = 0#6) .reservedField
    let k ← mregOf r.fn
    let d ← vregOf r.d
    let g ← gatherOf r
    let rp ← rpOf r.md
    let w ← dwOf r.md
    pure (.vgath r.hdr d g rp w k)
  | 0x55 => do
    need (r.d = 0#6) .reservedField
    let k ← mregOf r.fn
    let c ← vregOf r.c
    let g ← gatherOf r
    let rp ← rpOf r.md
    let w ← dwOf r.md
    pure (.vscat r.hdr g c rp w k)
  | 0x56 => do
    let op ← amoOf r.fn
    let d ← termOf r.d
    let c ← sregOf r.c
    let m ← memOf r
    let (o, sc, w) ← rmwOf r.md
    pure (.amo r.hdr op d m c o sc w)
  | 0x57 => do
    need (r.fn = 0#6) .reservedField
    let d ← sregOf r.d
    let c ← sregOf r.c
    let m ← memOf r
    let (o, sc, w) ← rmwOf r.md
    pure (.cas r.hdr d m c o sc w)
  | 0x58 => do
    need (r.len = 0#2) .formLacking
    need (r.d = 0#6 ∧ r.a = 0#6 ∧ r.b = 0#6 ∧ r.c = 0#6 ∧ r.fn = 0#6 ∧ r.x8 = 0#8) .reservedField
    need (r.md.setWidth 2 = 0#2) .badModifier
    let o ← ordOf (r.md.extractLsb' 5 3)
    let s ← scopeOf (r.md.extractLsb' 2 3)
    pure (.fence r.hdr o s)
  | 0x59 => do
    need (r.d = 0#6 ∧ r.c = 0#6 ∧ r.fn = 0#6) .reservedField
    let m ← memOf r
    let s ← bit0 r.md .badModifier
    pure (.pref r.hdr m s)
  | 0x5A => do
    need (r.len = 2#2) .formLacking
    need (r.d = 0#6 ∧ r.fn = 0#6) .reservedField
    let a ← sregOf r.a
    let b ← sregOf r.b
    let c ← sregOf r.c
    let g ← segOf r.x8
    need (r.ext.extractLsb' 35 29 = 0#29) .reservedField
    let w ← (if r.md = 1#8 then .ok false else if r.md = 2#8 then .ok true else .error .badModifier)
    pure (.stpair r.hdr a b c g (r.ext.extractLsb' 32 3) (r.ext.setWidth 16) (r.ext.extractLsb' 16 16) w)
  | 0x5B => do
    need (r.d = 0#6 ∧ r.c = 0#6 ∧ r.fn = 0#6 ∧ r.md = 0#8) .reservedField
    let m ← memOf r
    pure (.feset r.hdr m)
  | 0x5C => do
    need (r.d = 0#6 ∧ r.c = 0#6 ∧ r.fn = 0#6 ∧ r.md = 0#8) .reservedField
    let m ← memOf r
    pure (.feclr r.hdr m)
  | _ => .error .unassignedOpcode

/-- Vector floating-point instructions and conversions (R240). -/
def decVector (r : Raw) : Except Reject Instr :=
  match r.op with
  | 0x70 => do
    need (r.len = 0#2) .formLacking
    need (r.c = 0#6 ∧ r.fn = 0#6) .reservedField
    let (t, q) ← tyRndOf r.md
    let d ← vregOf r.d
    let a ← vregOf r.a
    let b ← vregOf r.b
    let k ← maskOf r.x8
    pure (.vadd r.hdr t q d a b k)
  | 0x71 => do
    need (r.len = 0#2) .formLacking
    need (r.c = 0#6 ∧ r.fn = 0#6) .reservedField
    let (t, q) ← tyRndOf r.md
    let d ← vregOf r.d
    let a ← vregOf r.a
    let b ← vregOf r.b
    let k ← maskOf r.x8
    pure (.vsub r.hdr t q d a b k)
  | 0x72 => do
    need (r.len = 0#2) .formLacking
    need (r.c = 0#6 ∧ r.fn = 0#6) .reservedField
    let (t, q) ← tyRndOf r.md
    let d ← vregOf r.d
    let a ← vregOf r.a
    let b ← vregOf r.b
    let k ← maskOf r.x8
    pure (.vmul r.hdr t q d a b k)
  | 0x73 => do
    need (r.len = 0#2) .formLacking
    need (r.fn = 0#6) .reservedField
    let (t, q) ← tyRndOf r.md
    let d ← vregOf r.d
    let a ← vregOf r.a
    let b ← vregOf r.b
    let c ← vregOf r.c
    let k ← maskOf r.x8
    pure (.vfma r.hdr t q d a b c k)
  | 0x74 => do
    need (r.len = 0#2) .formLacking
    need (r.fn = 0#6) .reservedField
    let (t, q) ← tyRndOf r.md
    let d ← vregOf r.d
    let a ← vregOf r.a
    let b ← vregOf r.b
    let c ← vregOf r.c
    let k ← maskOf r.x8
    pure (.vfms r.hdr t q d a b c k)
  | 0x75 => do
    need (r.len = 0#2) .formLacking
    need (r.fn = 0#6) .reservedField
    let (t, q) ← tyRndOf r.md
    let d ← vregOf r.d
    let a ← vregOf r.a
    let b ← vregOf r.b
    let c ← vregOf r.c
    let k ← maskOf r.x8
    pure (.vfnma r.hdr t q d a b c k)
  | 0x76 => do
    need (r.len = 0#2) .formLacking
    need (r.c = 0#6 ∧ r.fn = 0#6) .reservedField
    let t ← tyPlainOf r.md
    let d ← vregOf r.d
    let a ← vregOf r.a
    let b ← vregOf r.b
    let k ← maskOf r.x8
    pure (.vmin r.hdr t d a b k)
  | 0x77 => do
    need (r.len = 0#2) .formLacking
    need (r.c = 0#6 ∧ r.fn = 0#6) .reservedField
    let t ← tyPlainOf r.md
    let d ← vregOf r.d
    let a ← vregOf r.a
    let b ← vregOf r.b
    let k ← maskOf r.x8
    pure (.vmax r.hdr t d a b k)
  | 0x78 => do
    need (r.len = 0#2) .formLacking
    need (r.b = 0#6 ∧ r.c = 0#6 ∧ r.fn = 0#6) .reservedField
    let t ← tyPlainOf r.md
    let d ← vregOf r.d
    let a ← vregOf r.a
    let k ← maskOf r.x8
    pure (.vabs r.hdr t d a k)
  | 0x79 => do
    need (r.len = 0#2) .formLacking
    need (r.b = 0#6 ∧ r.c = 0#6 ∧ r.fn = 0#6) .reservedField
    let t ← tyPlainOf r.md
    let d ← vregOf r.d
    let a ← vregOf r.a
    let k ← maskOf r.x8
    pure (.vneg r.hdr t d a k)
  | 0x7A => do
    need (r.len = 0#2) .formLacking
    need (r.c = 0#6 ∧ r.fn = 0#6) .reservedField
    let (t, q) ← tyRndOf r.md
    let d ← vregOf r.d
    let a ← vregOf r.a
    let b ← vregOf r.b
    let k ← maskOf r.x8
    pure (.vdiv r.hdr t q d a b k)
  | 0x7B => do
    need (r.len = 0#2) .formLacking
    need (r.b = 0#6 ∧ r.c = 0#6 ∧ r.fn = 0#6) .reservedField
    let (t, q) ← tyRndOf r.md
    let d ← vregOf r.d
    let a ← vregOf r.a
    let k ← maskOf r.x8
    pure (.vsqrt r.hdr t q d a k)
  | 0x7C => do
    need (r.len = 0#2) .formLacking
    need (r.c = 0#6) .reservedField
    let c ← vcondOf r.fn
    let t ← tyPlainOf r.md
    let d ← mregOf r.d
    let a ← vregOf r.a
    let b ← vregOf r.b
    let k ← maskOf r.x8
    pure (.vcmp r.hdr c t d a b k)
  | 0x7D => do
    need (r.len = 0#2) .formLacking
    need (r.b = 0#6 ∧ r.c = 0#6) .reservedField
    let (t, q) ← tyRndOf r.md
    let y ← srcTyOf r.fn
    let d ← vregOf r.d
    let a ← vregOf r.a
    let k ← maskOf r.x8
    pure (.vcvt r.hdr t y q d a k)
  | 0x7E => do
    need (r.len = 0#2) .formLacking
    need (r.c = 0#6) .reservedField
    let (t, q) ← tyRndOf r.md
    let y ← srcTyOf r.fn
    let d ← vregOf r.d
    let a ← vregOf r.a
    let b ← vregOf r.b
    let k ← maskOf r.x8
    pure (.vpack r.hdr t y q d a b k)
  | 0x7F => do
    need (r.len = 0#2) .formLacking
    need (r.c = 0#6) .reservedField
    let (t, q) ← tyRndOf r.md
    let y ← srcTyOf r.fn
    let d ← vregOf r.d
    let a ← vregOf r.a
    let k ← maskOf r.x8
    pure (.vunpk r.hdr t y q d a r.b k)
  | 0x80 => do
    need (r.len = 0#2) .formLacking
    need (r.x8 = 0#8) .reservedField
    let t ← tyPlainOf r.md
    let x ← bxOf t
    let y ← srcTyOf r.fn
    need (y = .f32) .badModifier
    let d ← vregOf r.d
    let a ← vregOf r.a
    let c ← vregOf r.c
    pure (.vbxq r.hdr x d a r.b c)
  | 0x81 => do
    need (r.len = 0#2) .formLacking
    let (t, q) ← tyRndOf r.md
    let y ← srcTyOf r.fn
    let x ← bxOf y
    let d ← vregOf r.d
    let a ← vregOf r.a
    let c ← vregOf r.c
    let k ← maskOf r.x8
    pure (.vbxd r.hdr t x q d a r.b c k)
  | 0x82 => do
    need (r.len = 0#2) .formLacking
    need (r.c = 0#6 ∧ r.fn = 0#6) .reservedField
    let (t, q) ← tyRndOf r.md
    let d ← vregOf r.d
    let a ← vregOf r.a
    let b ← vregOf r.b
    let k ← maskOf r.x8
    pure (.vscale r.hdr t q d a b k)
  | 0x83 => do
    need (r.len = 0#2) .formLacking
    need (r.b = 0#6 ∧ r.c = 0#6) .reservedField
    let o ← redOf r.fn
    let (t, q) ← tyRndOf r.md
    let d ← vregOf r.d
    let a ← vregOf r.a
    let k ← maskOf r.x8
    pure (.vred r.hdr o t q d a k)
  | 0x84 => do
    need (r.len = 0#2) .formLacking
    need (r.fn.extractLsb' 2 4 = 0#4) .badFunction
    let (t, q) ← tyRndOf r.md
    let x ← (if t = .f32 then .ok false else if t = .f64 then .ok true else .error .badModifier)
    let d ← vregOf r.d
    let a ← sregOf r.a
    let b ← vregOf r.b
    let c ← vregOf r.c
    let k ← maskOf r.x8
    pure (.vsacc r.hdr x q d a b c (r.fn.setWidth 2) k)
  | 0x85 => do
    need (r.len = 0#2) .formLacking
    need (r.fn.extractLsb' 4 2 = 0#2) .badFunction
    let g ← bsOf (r.fn.setWidth 2)
    let y ← stOf (r.fn.extractLsb' 2 2)
    let (t, q) ← tyRndOf r.md
    let d ← vregOf r.d
    let a ← vregOf r.a
    let b ← vregOf r.b
    let c ← vregOf r.c
    let k ← maskOf r.x8
    pure (.vbdot r.hdr t q g y d a b c k)
  | _ => .error .unassignedOpcode

/-- Vector integer, permutation, mask and embedding instructions (R240). -/
def decVecInt (r : Raw) : Except Reject Instr :=
  match r.op with
  | 0x90 => do
    need (r.len = 0#2) .formLacking
    need (r.c = 0#6 ∧ r.fn = 0#6) .reservedField
    let (t, q) ← tyQualOf r.md 1#3
    let d ← vregOf r.d
    let a ← vregOf r.a
    let b ← vregOf r.b
    let k ← maskOf r.x8
    pure (.viadd r.hdr q t d a b k)
  | 0x91 => do
    need (r.len = 0#2) .formLacking
    need (r.c = 0#6 ∧ r.fn = 0#6) .reservedField
    let (t, q) ← tyQualOf r.md 1#3
    let d ← vregOf r.d
    let a ← vregOf r.a
    let b ← vregOf r.b
    let k ← maskOf r.x8
    pure (.visub r.hdr q t d a b k)
  | 0x92 => do
    need (r.len = 0#2) .formLacking
    need (r.c = 0#6 ∧ r.fn = 0#6) .reservedField
    let (t, q) ← tyQualOf r.md 2#3
    let d ← vregOf r.d
    let a ← vregOf r.a
    let b ← vregOf r.b
    let k ← maskOf r.x8
    pure (.vimul r.hdr q t d a b k)
  | 0x93 => do
    need (r.len = 0#2) .formLacking
    need (r.c = 0#6 ∧ r.fn = 0#6) .reservedField
    let t ← tyPlainOf r.md
    let d ← vregOf r.d
    let a ← vregOf r.a
    let b ← vregOf r.b
    let k ← maskOf r.x8
    pure (.vand r.hdr t d a b k)
  | 0x94 => do
    need (r.len = 0#2) .formLacking
    need (r.c = 0#6 ∧ r.fn = 0#6) .reservedField
    let t ← tyPlainOf r.md
    let d ← vregOf r.d
    let a ← vregOf r.a
    let b ← vregOf r.b
    let k ← maskOf r.x8
    pure (.vor r.hdr t d a b k)
  | 0x95 => do
    need (r.len = 0#2) .formLacking
    need (r.c = 0#6 ∧ r.fn = 0#6) .reservedField
    let t ← tyPlainOf r.md
    let d ← vregOf r.d
    let a ← vregOf r.a
    let b ← vregOf r.b
    let k ← maskOf r.x8
    pure (.vxor r.hdr t d a b k)
  | 0x96 => do
    need (r.len = 0#2) .formLacking
    need (r.c = 0#6 ∧ r.fn = 0#6) .reservedField
    let (t, q) ← tyQualOf r.md 3#3
    let n ← vamtOf r.b q
    let d ← vregOf r.d
    let a ← vregOf r.a
    let k ← maskOf r.x8
    pure (.vshl r.hdr t d a n k)
  | 0x97 => do
    need (r.len = 0#2) .formLacking
    need (r.c = 0#6 ∧ r.fn = 0#6) .reservedField
    let (t, q) ← tyQualOf r.md 3#3
    let n ← vamtOf r.b q
    let d ← vregOf r.d
    let a ← vregOf r.a
    let k ← maskOf r.x8
    pure (.vshr r.hdr t d a n k)
  | 0x98 => do
    need (r.len = 0#2) .formLacking
    need (r.c = 0#6 ∧ r.fn = 0#6) .reservedField
    let (t, q) ← tyQualOf r.md 3#3
    let n ← vamtOf r.b q
    let d ← vregOf r.d
    let a ← vregOf r.a
    let k ← maskOf r.x8
    pure (.vsar r.hdr t d a n k)
  | 0x99 => do
    need (r.len = 0#2) .formLacking
    need (r.c = 0#6 ∧ r.fn = 0#6) .reservedField
    let t ← tyPlainOf r.md
    let d ← vregOf r.d
    let a ← vregOf r.a
    let b ← vregOf r.b
    let k ← maskOf r.x8
    pure (.vimin r.hdr t d a b k)
  | 0x9A => do
    need (r.len = 0#2) .formLacking
    need (r.c = 0#6 ∧ r.fn = 0#6) .reservedField
    let t ← tyPlainOf r.md
    let d ← vregOf r.d
    let a ← vregOf r.a
    let b ← vregOf r.b
    let k ← maskOf r.x8
    pure (.vimax r.hdr t d a b k)
  | 0x9B => do
    need (r.len = 0#2) .formLacking
    need (r.c = 0#6 ∧ r.fn = 0#6) .reservedField
    let t ← tyPlainOf r.md
    let d ← vregOf r.d
    let a ← vregOf r.a
    let b ← vregOf r.b
    let k ← maskOf r.x8
    pure (.vperm r.hdr t d a b k)
  | 0x9C => do
    need (r.len = 0#2) .formLacking
    need (r.b = 0#6 ∧ r.c = 0#6 ∧ r.fn = 0#6) .reservedField
    let t ← tyPlainOf r.md
    let d ← vregOf r.d
    let a ← sregOf r.a
    let k ← maskOf r.x8
    pure (.vbcast r.hdr t d a k)
  | 0x9D => do
    need (r.len = 0#2) .formLacking
    need (r.c = 0#6 ∧ r.fn = 0#6) .reservedField
    let t ← tyPlainOf r.md
    let d ← vregOf r.d
    let a ← vregOf r.a
    let b ← vregOf r.b
    let k ← maskOf r.x8
    pure (.vsel r.hdr t d a b k)
  | 0x9E => do
    need (r.len = 0#2) .formLacking
    need (r.c = 0#6 ∧ r.fn = 0#6) .reservedField
    let t ← tyOf (r.md.extractLsb' 3 5)
    if r.md.setWidth 3 = 0#3 then do
      need (r.b = 0#6) .reservedField
      let d ← vregOf r.d
      let a ← vregOf r.a
      let k ← maskOf r.x8
      pure (.vmov r.hdr t d a k)
    else if r.md.setWidth 3 = 4#3 then do
      need (r.x8 = 0#8) .reservedField
      let d ← sregOf r.d
      let a ← vregOf r.a
      pure (.vmovTos r.hdr t d a r.b)
    else if r.md.setWidth 3 = 5#3 then do
      need (r.x8 = 0#8) .reservedField
      let d ← vregOf r.d
      let a ← sregOf r.a
      pure (.vmovTov r.hdr t d a r.b)
    else .error .badModifier
  | 0x9F => do
    need (r.len = 0#2) .formLacking
    need (r.a = 0#6 ∧ r.b = 0#6 ∧ r.c = 0#6 ∧ r.fn = 0#6) .reservedField
    let t ← tyPlainOf r.md
    let d ← vregOf r.d
    let k ← maskOf r.x8
    pure (.vidx r.hdr t d k)
  | 0xA0 => do
    need (r.len = 0#2) .formLacking
    need (r.c = 0#6 ∧ r.fn = 0#6 ∧ r.md = 0#8 ∧ r.x8 = 0#8) .reservedField
    let d ← mregOf r.d
    let a ← mregOf r.a
    let b ← mregOf r.b
    pure (.mand r.hdr d a b)
  | 0xA1 => do
    need (r.len = 0#2) .formLacking
    need (r.c = 0#6 ∧ r.md = 0#8 ∧ r.x8 = 0#8) .reservedField
    let f ← bit0 r.fn .badFunction
    let d ← mregOf r.d
    if f then do
      need (r.b = 0#6) .reservedField
      let a ← sregOf r.a
      pure (.morFs r.hdr d a)
    else do
      let a ← mregOf r.a
      let b ← mregOf r.b
      pure (.mor r.hdr d a b)
  | 0xA2 => do
    need (r.len = 0#2) .formLacking
    need (r.b = 0#6 ∧ r.c = 0#6 ∧ r.fn = 0#6 ∧ r.md = 0#8 ∧ r.x8 = 0#8) .reservedField
    let d ← mregOf r.d
    let a ← mregOf r.a
    pure (.mnot r.hdr d a)
  | 0xA3 => do
    need (r.len = 0#2) .formLacking
    need (r.b = 0#6 ∧ r.c = 0#6 ∧ r.md = 0#8 ∧ r.x8 = 0#8) .reservedField
    let f ← bit0 r.fn .badFunction
    let d ← sregOf r.d
    let a ← mregOf r.a
    if f then pure (.mpopcRaw r.hdr d a)
    else pure (.mpopc r.hdr d a)
  | 0xA4 => do
    need (r.len = 0#2) .formLacking
    let (t, q) ← tyRndOf r.md
    let d ← vregOf r.d
    let a ← termOf r.a
    let b ← sregOf r.b
    let c ← sregOf r.c
    let g ← segOf r.x8
    pure (.embpool r.hdr t q d g a b c r.fn)
  | 0xA5 => do
    need (r.len = 0#2) .formLacking
    let (t, q) ← tyRndOf r.md
    let d ← sregOf r.d
    let a ← termOf r.a
    let b ← sregOf r.b
    let c ← vregOf r.c
    let g ← segOf r.x8
    pure (.embupd r.hdr t q d g a b c r.fn)
  | _ => .error .unassignedOpcode

/-- Matrix and port instructions (R257). -/
def decMatrix (r : Raw) : Except Reject Instr :=
  match r.op with
  | 0xB0 => do
    need (r.len = 0#2) .formLacking
    need (r.c = 0#6 ∧ r.md = 0#8 ∧ r.x8 = 0#8) .reservedField
    let f ← bit0 r.fn .badFunction
    let d ← sregOf r.d
    if f then do
      need (r.b = 0#6) .reservedField
      let a ← sregOf r.a
      pure (.oclaimM r.hdr d a)
    else do
      need (r.a = 0#6) .reservedField
      let n ← sregOf r.b
      pure (.oclaim r.hdr d n)
  | 0xB1 => do
    need (r.len = 0#2) .formLacking
    need (r.d = 0#6 ∧ r.b = 0#6 ∧ r.c = 0#6 ∧ r.fn = 0#6 ∧ r.md = 0#8 ∧ r.x8 = 0#8) .reservedField
    let a ← sregOf r.a
    pure (.orelease r.hdr a)
  | 0xB2 => do
    need (r.md = 0#8) .reservedField
    let f ← bit0 r.fn .badFunction
    let d ← sregOf r.d
    let c ← sregOf r.c
    if f then do
      need (r.len = 0#2) .formLacking
      need (r.a = 0#6 ∧ r.x8 = 0#8) .reservedField
      need (r.b.extractLsb' 3 3 = 7#3) .badRegister
      pure (.ofillS r.hdr d c (r.b.setWidth 3))
    else do
      let m ← memOf r
      pure (.ofill r.hdr d c m)
  | 0xB3 => do
    need (r.len = 2#2) .formLacking
    need (r.d = 0#6 ∧ r.a = 0#6 ∧ r.b = 0#6 ∧ r.c = 0#6 ∧ r.fn = 0#6 ∧ r.x8 = 0#8) .reservedField
    let t ← tyPlainOf r.md
    need (r.ext.extractLsb' 5 59 = 0#59) .reservedField
    pure (.wlatch r.hdr t (r.ext.setWidth 5))
  | 0xB4 => do
    need (r.len = 2#2) .formLacking
    need (r.d = 0#6 ∧ r.c = 0#6 ∧ r.fn = 0#6 ∧ r.x8 = 0#8) .reservedField
    let t ← tyOf (r.md.extractLsb' 3 5)
    let o ← mmaModeOf (r.md.setWidth 3)
    let a ← sregOf r.a
    let b ← sregOf r.b
    need (r.ext.extractLsb' 5 11 = 0#11 ∧ r.ext.extractLsb' 25 39 = 0#39) .reservedField
    pure (.mma r.hdr t o a b (r.ext.setWidth 5) (r.ext.extractLsb' 16 9))
  | 0xB5 => do
    need (r.len = 0#2) .formLacking
    need (r.d = 0#6 ∧ r.c = 0#6 ∧ r.fn = 0#6 ∧ r.md = 0#8 ∧ r.x8 = 0#8) .reservedField
    let a ← sregOf r.a
    let b ← sregOf r.b
    pure (.accz r.hdr a b)
  | 0xB6 => do
    need (r.len = 0#2) .formLacking
    need (r.c = 0#6 ∧ r.md = 0#8) .reservedField
    let f ← bit0 r.fn .badFunction
    let hf ← bit0 r.b .badRegister
    need (f = true ∨ hf = false) .reservedField
    let d ← vregOf r.d
    let a ← sregOf r.a
    let k ← maskOf r.x8
    pure (.accrd r.hdr (if f then some hf else none) d a k)
  | 0xB7 => do
    need (r.len = 0#2) .formLacking
    need (r.d = 0#6 ∧ r.md = 0#8) .reservedField
    let f ← bit0 r.fn .badFunction
    let hf ← bit0 r.b .badRegister
    need (f = true ∨ hf = false) .reservedField
    let a ← sregOf r.a
    let c ← vregOf r.c
    let k ← maskOf r.x8
    pure (.accwr r.hdr (if f then some hf else none) a c k)
  | 0xB8 => do
    need (r.len = 0#2) .formLacking
    need (r.a = 0#6 ∧ r.b = 0#6 ∧ r.c = 0#6 ∧ r.md = 0#8 ∧ r.x8 = 0#8) .reservedField
    let f ← bit0 r.fn .badFunction
    let d ← sregOf r.d
    if f then pure (.mstatPeek r.hdr d)
    else pure (.mstat r.hdr d)
  | 0xB9 => do
    need (r.c = 0#6) .reservedField
    need (r.md.extractLsb' 5 3 = 0#3) .reservedField
    let n ← pnameOf r.d
    if r.fn = 0#6 then do
      need (r.b = 63#6) .badRegister
      need (r.md.extractLsb' 2 3 = 0#3) .badModifier
      let g ← segOf r.x8
      let a ← termOf r.a
      let i ← dispOf r
      pure (.pbind r.hdr n (r.md.getLsbD 0) (r.md.getLsbD 1) (.affine g a i))
    else do
      let i ← dispOf r
      need (i.getD 0 = 0#32) .reservedField
      need (r.a = 0#6 ∧ r.b = 0#6 ∧ r.x8 = 0#8) .reservedField
      if r.fn = 1#6 then do
        let e ← bit0 (r.md.extractLsb' 2 3) .badModifier
        pure (.pbind r.hdr n (r.md.getLsbD 0) (r.md.getLsbD 1) (.link e i.isSome))
      else if r.fn = 2#6 then
        pure (.pbind r.hdr n (r.md.getLsbD 0) (r.md.getLsbD 1) (.queue (r.md.extractLsb' 2 3) i.isSome))
      else if r.fn = 3#6 then do
        need (r.md.getLsbD 4 = false) .badModifier
        pure (.pbind r.hdr n (r.md.getLsbD 0) (r.md.getLsbD 1) (.net (r.md.extractLsb' 2 2) i.isSome))
      else .error .badFunction
  | 0xBA => do
    need (r.len = 0#2) .formLacking
    need (r.a = 0#6 ∧ r.b = 0#6 ∧ r.c = 0#6 ∧ r.fn = 0#6 ∧ r.md = 0#8 ∧ r.x8 = 0#8) .reservedField
    let n ← pnameOf r.d
    pure (.punbind r.hdr n)
  | 0xBB => do
    need (r.len = 0#2) .formLacking
    need (r.b = 0#6 ∧ r.c = 0#6 ∧ r.fn = 0#6 ∧ r.md = 0#8 ∧ r.x8 = 0#8) .reservedField
    let d ← sregOf r.d
    let n ← pnameOf r.a
    pure (.pdrain r.hdr d n)
  | 0xBC => do
    need (r.len = 0#2) .formLacking
    need (r.c = 0#6 ∧ r.x8 = 0#8) .reservedField
    need (r.md.extractLsb' 2 6 = 0#6) .reservedField
    if r.fn = 0#6 then do
      need (r.d = 0#6 ∧ r.a = 0#6 ∧ r.b = 0#6) .reservedField
      pure (.spopenIn r.hdr (r.md.setWidth 2))
    else if r.fn = 1#6 then do
      let d ← sregOf r.d
      let a ← sregOf r.a
      let b ← sregOf r.b
      pure (.spopenOut r.hdr d a b (r.md.setWidth 2))
    else if r.fn = 2#6 then do
      need (r.d = 0#6) .reservedField
      let a ← sregOf r.a
      let b ← sregOf r.b
      pure (.spopenLand r.hdr a b (r.md.setWidth 2))
    else .error .badFunction
  | 0xBD => do
    need (r.len = 0#2) .formLacking
    need (r.d = 0#6 ∧ r.a = 0#6 ∧ r.b = 0#6 ∧ r.c = 0#6 ∧ r.fn = 0#6 ∧ r.x8 = 0#8) .reservedField
    need (r.md.extractLsb' 2 6 = 0#6) .reservedField
    pure (.spclose r.hdr (r.md.setWidth 2))
  | _ => .error .unassignedOpcode

/-- Key table, position, copy and handle instructions (R277). -/
def decKeys (r : Raw) : Except Reject Instr :=
  match r.op with
  | 0xC0 => do
    need (r.d = 0#6 ∧ r.c = 0#6 ∧ r.md = 0#8) .reservedField
    need (r.fn.extractLsb' 2 4 = 0#4) .badFunction
    let m ← memOf r
    pure (.trset r.hdr (r.fn.setWidth 2) m)
  | 0xC1 => do
    need (r.len = 2#2) .formLacking
    need (r.d = 0#6 ∧ r.b = 0#6) .reservedField
    let (t, q) ← tyRndOf r.md
    let a ← sregOf r.a
    let c ← vregOf r.c
    let k ← maskOf r.x8
    need (r.ext.extractLsb' 32 32 = 0#32) .reservedField
    pure (.kacc r.hdr t q a c (r.fn.extractLsb' 4 2) (r.fn.setWidth 4) (r.ext.setWidth 16) (r.ext.extractLsb' 16 16) k)
  | 0xC2 => do
    need (r.len = 0#2) .formLacking
    need (r.x8 = 0#8) .reservedField
    let (t, q) ← tyRndOf r.md
    let d ← vregOf r.d
    let a ← sregOf r.a
    let p ← sregOf r.b
    let c ← termOf r.c
    pure (.kget r.hdr t q d a p c (r.fn.extractLsb' 4 2) (r.fn.setWidth 4))
  | 0xC3 => do
    need (r.len = 0#2) .formLacking
    need (r.d = 0#6 ∧ r.x8 = 0#8) .reservedField
    let (t, q) ← tyRndOf r.md
    let a ← sregOf r.a
    let b ← termOf r.b
    let c ← vregOf r.c
    pure (.kput r.hdr t q a b c (r.fn.extractLsb' 4 2) (r.fn.setWidth 4))
  | 0xC4 => do
    need (r.len = 0#2) .formLacking
    need (r.d = 0#6 ∧ r.b = 0#6 ∧ r.c = 0#6 ∧ r.md = 0#8 ∧ r.x8 = 0#8) .reservedField
    let a ← sregOf r.a
    pure (.kdel r.hdr a (r.fn.extractLsb' 4 2) (r.fn.setWidth 4))
  | 0xC5 => do
    need (r.len = 0#2) .formLacking
    need (r.b = 0#6 ∧ r.md = 0#8 ∧ r.x8 = 0#8) .reservedField
    let d ← sregOf r.d
    let a ← sregOf r.a
    let c ← sregOf r.c
    pure (.kscan r.hdr d a c (r.fn.extractLsb' 4 2) (r.fn.setWidth 4))
  | 0xC6 => do
    need (r.len = 0#2) .formLacking
    need (r.d = 0#6 ∧ r.b = 0#6 ∧ r.c = 0#6 ∧ r.md = 0#8 ∧ r.x8 = 0#8) .reservedField
    let a ← sregOf r.a
    pure (.kmerge r.hdr a (r.fn.extractLsb' 4 2) (r.fn.setWidth 4))
  | 0xC7 => do
    need (r.len = 0#2) .formLacking
    need (r.b = 0#6 ∧ r.c = 0#6 ∧ r.md = 0#8 ∧ r.x8 = 0#8) .reservedField
    let p ← sregOf r.d
    let a ← sregOf r.a
    pure (.kprobe r.hdr p a (r.fn.extractLsb' 4 2) (r.fn.setWidth 4))
  | 0xC8 => do
    need (r.len = 0#2) .formLacking
    need (r.d = 0#6 ∧ r.b = 0#6 ∧ r.c = 0#6 ∧ r.fn = 0#6 ∧ r.md = 0#8 ∧ r.x8 = 0#8) .reservedField
    let a ← sregOf r.a
    pure (.posset r.hdr a)
  | 0xC9 => do
    need (r.len = 0#2) .formLacking
    need (r.b = 0#6 ∧ r.c = 0#6 ∧ r.md = 0#8 ∧ r.x8 = 0#8) .reservedField
    need (r.fn.extractLsb' 4 2 = 0#2) .badFunction
    let d ← sregOf r.d
    let a ← sregOf r.a
    pure (.hpos r.hdr d a (r.fn.setWidth 4))
  | 0xCA => do
    need (r.len = 2#2) .formLacking
    need (r.md = 0#8 ∧ r.x8 = 0#8) .reservedField
    need (r.ext.extractLsb' 2 14 = 0#14 ∧ r.ext.extractLsb' 32 32 = 0#32) .reservedField
    let f ← bit0 r.fn .badFunction
    let a ← sregOf r.a
    let b ← sregOf r.b
    let c ← sregOf r.c
    if f then do
      let d ← sregOf r.d
      pure (.nbrBuf r.hdr d a b c (r.ext.getLsbD 0) (r.ext.getLsbD 1) (r.ext.extractLsb' 16 16))
    else do
      need (r.ext.extractLsb' 16 16 = 0#16) .reservedField
      let n ← pnameOf r.d
      need (n.vec = false) .badRegister
      pure (.nbrS r.hdr n a b c (r.ext.getLsbD 0) (r.ext.getLsbD 1))
  | 0xCB => do
    need (r.len = 0#2) .formLacking
    need (r.d = 0#6 ∧ r.b = 0#6 ∧ r.c = 0#6 ∧ r.md = 0#8 ∧ r.x8 = 0#8) .reservedField
    let f ← bit0 r.fn .badFunction
    let a ← sregOf r.a
    if f then pure (.migrAddr r.hdr a)
    else pure (.migrCore r.hdr a)
  | 0xCC => do
    need (r.len = 0#2) .formLacking
    need (r.d = 0#6 ∧ r.c = 0#6 ∧ r.fn = 0#6 ∧ r.md = 0#8 ∧ r.x8 = 0#8) .reservedField
    let a ← sregOf r.a
    let b ← sregOf r.b
    pure (.bindpos r.hdr a b)
  | 0xCD => do
    need (r.len = 0#2) .formLacking
    need (r.d = 0#6 ∧ r.a = 0#6 ∧ r.b = 0#6 ∧ r.c = 0#6 ∧ r.fn = 0#6 ∧ r.md = 0#8 ∧ r.x8 = 0#8) .reservedField
    pure (.unbind r.hdr)
  | 0xCE => do
    need (r.len = 2#2) .formLacking
    need (r.b = 0#6 ∧ r.fn = 0#6 ∧ r.md = 0#8) .reservedField
    let d ← sregOf r.d
    let a ← sregOf r.a
    let c ← vregOf r.c
    let g ← segOf r.x8
    let nk ← bit0 r.ext .reservedField
    pure (.cqput r.hdr d a c g nk)
  | 0xCF => do
    need (r.len = 0#2) .formLacking
    need (r.d = 0#6 ∧ r.a = 0#6 ∧ r.b = 0#6 ∧ r.c = 0#6 ∧ r.x8 = 0#8) .reservedField
    if r.fn = 0#6 then pure (.hwaitFree r.hdr r.md)
    else if r.fn = 1#6 then pure (.hwaitFull r.hdr r.md)
    else if r.fn = 2#6 then pure (.hwaitTake r.hdr r.md)
    else .error .badFunction
  | 0xD0 => do
    need (r.len = 0#2) .formLacking
    need (r.a = 0#6 ∧ r.b = 0#6 ∧ r.c = 0#6 ∧ r.fn = 0#6 ∧ r.x8 = 0#8) .reservedField
    let d ← sregOf r.d
    pure (.hstate r.hdr d r.md)
  | 0xD1 => do
    need (r.len = 0#2) .formLacking
    need (r.d = 0#6 ∧ r.a = 0#6 ∧ r.b = 0#6 ∧ r.c = 0#6 ∧ r.fn = 0#6 ∧ r.x8 = 0#8) .reservedField
    pure (.hfree r.hdr r.md)
  | _ => .error .unassignedOpcode

/-- System instructions (R329). -/
def decSystem (r : Raw) : Except Reject Instr :=
  match r.op with
  | 0xE0 => do
    need (r.len = 0#2) .formLacking
    need (r.d = 0#6 ∧ r.c = 0#6 ∧ r.md = 0#8 ∧ r.x8 = 0#8) .reservedField
    need (r.fn.extractLsb' 3 3 = 0#3) .badFunction
    let a ← sregOf r.a
    if r.fn.setWidth 2 = 0#2 then do
      need (r.b = 0#6) .reservedField
      pure (.sretRetry r.hdr a (r.fn.getLsbD 2))
    else if r.fn.setWidth 2 = 1#2 then do
      need (r.b = 0#6) .reservedField
      pure (.sretNext r.hdr a (r.fn.getLsbD 2))
    else if r.fn.setWidth 2 = 2#2 then do
      let b ← sregOf r.b
      pure (.sretTo r.hdr a b (r.fn.getLsbD 2))
    else do
      need (r.b = 0#6) .reservedField
      pure (.sretKill r.hdr a (r.fn.getLsbD 2))
  | 0xE1 => do
    need (r.len = 0#2) .formLacking
    need (r.b = 0#6 ∧ r.a = 0#6 ∧ r.imm28.extractLsb' 12 16 = 0#16) .reservedField
    let d ← sregOf r.d
    pure (.mfs r.hdr d (r.imm28.setWidth 12))
  | 0xE2 => do
    need (r.len = 0#2) .formLacking
    need (r.b = 0#6 ∧ r.d = 0#6 ∧ r.imm28.extractLsb' 12 16 = 0#16) .reservedField
    let a ← sregOf r.a
    pure (.mts r.hdr (r.imm28.setWidth 12) a)
  | 0xE3 => do
    need (r.c = 0#6 ∧ r.fn = 0#6 ∧ r.md = 0#8) .reservedField
    let d ← mregOf r.d
    let m ← memOf r
    pure (.segld r.hdr d m)
  | 0xE4 => do
    need (r.fn = 0#6 ∧ r.md = 0#8) .reservedField
    let d ← sregOf r.d
    let c ← sregOf r.c
    let m ← memOf r
    pure (.accsave r.hdr d c m)
  | 0xE5 => do
    need (r.fn = 0#6 ∧ r.md = 0#8) .reservedField
    let d ← sregOf r.d
    let c ← sregOf r.c
    let m ← memOf r
    pure (.accload r.hdr d c m)
  | 0xE6 => do
    need (r.len = 0#2) .formLacking
    need (r.c = 0#6 ∧ r.md = 0#8 ∧ r.x8 = 0#8) .reservedField
    let f ← bit0 r.fn .badFunction
    let d ← sregOf r.d
    let a ← sregOf r.a
    let b ← sregOf r.b
    if f then pure (.ctxoutMem r.hdr d a b)
    else pure (.ctxoutCore r.hdr d a b)
  | 0xE7 => do
    need (r.len = 0#2) .formLacking
    need (r.c = 0#6 ∧ r.fn = 0#6 ∧ r.md = 0#8 ∧ r.x8 = 0#8) .reservedField
    let d ← sregOf r.d
    let a ← sregOf r.a
    let b ← sregOf r.b
    pure (.ctxin r.hdr d a b)
  | 0xE8 => do
    need (r.len = 0#2) .formLacking
    need (r.d = 0#6 ∧ r.c = 0#6 ∧ r.md = 0#8 ∧ r.x8 = 0#8) .reservedField
    need (r.fn.extractLsb' 3 3 = 0#3) .badFunction
    let a ← sregOf r.a
    let b ← sregOf r.b
    if r.fn.setWidth 2 = 0#2 then pure (.xlinvVa r.hdr a b (r.fn.getLsbD 2))
    else if r.fn.setWidth 2 = 1#2 then pure (.xlinvTag r.hdr a b (r.fn.getLsbD 2))
    else if r.fn.setWidth 2 = 2#2 then pure (.xlinvAll r.hdr a b (r.fn.getLsbD 2))
    else .error .badFunction
  | 0xE9 => do
    need (r.len = 0#2) .formLacking
    need (r.c = 0#6 ∧ r.fn = 0#6 ∧ r.md = 0#8 ∧ r.x8 = 0#8) .reservedField
    let d ← sregOf r.d
    let a ← sregOf r.a
    let b ← sregOf r.b
    pure (.rtswap r.hdr d a b)
  | 0xEA => do
    need (r.len = 0#2) .formLacking
    need (r.d = 0#6 ∧ r.a = 0#6 ∧ r.b = 0#6 ∧ r.c = 0#6 ∧ r.md = 0#8 ∧ r.x8 = 0#8) .reservedField
    let f ← bit0 r.fn .badFunction
    if f then pure (.haltStop r.hdr)
    else pure (.haltWait r.hdr)
  | 0xEB => do
    need (r.len = 0#2) .formLacking
    need (r.c = 0#6 ∧ r.fn = 0#6 ∧ r.md = 0#8 ∧ r.x8 = 0#8) .reservedField
    let d ← sregOf r.d
    let a ← sregOf r.a
    let b ← sregOf r.b
    pure (.rdstate r.hdr d a b)
  | 0xEC => do
    need (r.len = 0#2) .formLacking
    need (r.d = 0#6 ∧ r.b = 0#6 ∧ r.fn = 0#6 ∧ r.md = 0#8 ∧ r.x8 = 0#8) .reservedField
    let a ← sregOf r.a
    let c ← sregOf r.c
    pure (.sysmsg r.hdr a c)
  | _ => .error .unassignedOpcode

/-- The instruction of the fields of a word (step 3 of R151): the opcode's own reading, then the limits of `Instr.wf`. -/
def decodeRaw (r : Raw) : Except Reject Instr := do
  need (r.b3 = false) .bitThree
  let i ←
    if r.op.toNat < 0x20 then decControl r
    else if r.op.toNat < 0x50 then decScalar r
    else if r.op.toNat < 0x70 then decMemory r
    else if r.op.toNat < 0x90 then decVector r
    else if r.op.toNat < 0xB0 then decVecInt r
    else if r.op.toNat < 0xC0 then decMatrix r
    else if r.op.toNat < 0xE0 then decKeys r
    else decSystem r
  need (i.wf = true) .operandLimit
  pure i

/-- A little-endian value of bytes (R7). -/
def bytesVal : List Byte → Nat
  | [] => 0
  | b :: bs => b.toNat + 256 * bytesVal bs

/-- The first `n` bytes of a value, least significant first (R7). -/
def valBytes : Nat → Nat → List Byte
  | 0, _ => []
  | n + 1, v => BitVec.ofNat 8 v :: valBytes n (v / 256)

/-- Steps 1 to 3 of R151 on the bytes from the program counter to the end of its fetch block (R135, R136). -/
def decode (bs : List Byte) : Except Reject Instr :=
  match bs with
  | [] => .error .fetchBoundary
  | b :: _ =>
    let l : BitVec 2 := b.setWidth 2
    if l = 3#2 then .error .illegalLength
    else if bs.length < lenBytes l then .error .fetchBoundary
    else decodeRaw (Raw.ofWord (BitVec.ofNat 128 (bytesVal (bs.take (lenBytes l)))))

/-- The instruction read from a word whose bits are `w`, bit 0 the least significant of its first byte. -/
def decodeTableWord (_nbits w : Nat) : Option Instr :=
  match decode (valBytes 16 w) with
  | .ok i => some i
  | .error _ => none

/-! ### The encoder -/

/-- Field of a scalar register or a predicate. -/
def sF (r : BitVec 5) : BitVec 6 := r.setWidth 6
/-- Field of a vector register. -/
def vF (r : VReg) : BitVec 6 := 1#1 ++ r
/-- Field of an address term. -/
def tF : Option SReg → BitVec 6
  | none => 63#6
  | some r => sF r
/-- Field of a mask register. -/
def kF (r : MReg) : BitVec 6 := r.setWidth 6
/-- Field of a bound name. -/
def nF (n : PName) : BitVec 6 := BitVec.ofBool n.vec ++ 3#2 ++ n.n
/-- FN of a two-way function. -/
def bF (b : Bool) : BitVec 6 := bif b then 1#6 else 0#6

/-- The code of a TYPE (R144). -/
def Ty.code : Ty → BitVec 5
  | .f64 => 0 | .f32 => 1 | .f16 => 2 | .bf16 => 3 | .e4m3 => 4 | .e5m2 => 5 | .e2m1 => 6 | .e8m0 => 7
  | .bx8 => 8 | .bx4 => 9 | .fx64 => 10 | .s8 => 16 | .s16 => 17 | .s32 => 18 | .s64 => 19
  | .u8 => 20 | .u16 => 21 | .u32 => 22 | .u64 => 23
/-- The code of an RND (R145). -/
def Rnd.code : Rnd → BitVec 3
  | .rne => 0 | .rz => 1 | .rdn => 2 | .rup => 3 | .rst => 4 | .rdyn => 5
/-- The code of an order (R146). -/
def Ord.code : Ord → BitVec 3
  | .rlx => 1 | .acq => 2 | .rel => 3 | .acqRel => 4 | .seq => 5
/-- The code of a scope (R146). -/
def Scope.code : Scope → BitVec 3
  | .pkg => 0 | .th => 1 | .core => 2 | .cl => 3 | .pnl => 4 | .pod => 5
/-- The code of a condition (R147). -/
def Cond.code : Cond → BitVec 6
  | .eq => 0 | .ne => 1 | .lt => 2 | .ltu => 3 | .le => 4 | .leu => 5 | .gt => 6 | .gtu => 7 | .ge => 8 | .geu => 9
/-- The code of a vector condition (R244). -/
def VCond.code : VCond → BitVec 6
  | .eq => 0 | .ne => 1 | .lt => 2 | .le => 3 | .gt => 4 | .ge => 5 | .un => 6 | .ord => 7
/-- The code of an atomic operation (R147). -/
def AmoOp.code : AmoOp → BitVec 6
  | .add => 0 | .and => 1 | .or => 2 | .xor => 3 | .min => 4 | .max => 5 | .minu => 6 | .maxu => 7 | .swap => 8
  | .fadd => 9
/-- The code of a reduction (R240). -/
def RedOp.code : RedOp → BitVec 6
  | .add => 0 | .min => 1 | .max => 2
/-- The code of a block size (R240). -/
def BlockSize.code : BlockSize → BitVec 2
  | .b8 => 0 | .b16 => 1 | .b32 => 2
/-- The code of a scale type (R240). -/
def ScaleTy.code : ScaleTy → BitVec 2
  | .e8m0 => 0 | .e4m3 => 1 | .e5m2 => 2
/-- The code of an MMA mode (R264). -/
def MmaMode.code : MmaMode → BitVec 3
  | .once => 0 | .opn => 1 | .cont => 2
/-- MOD of the float and conversion classes (R143). -/
def tyMd (t : Ty) (r : Rnd) : BitVec 8 := t.code ++ r.code
/-- MOD of a type and a qualifier code (R143). -/
def tyQ (t : Ty) (q : BitVec 3) : BitVec 8 := t.code ++ q
/-- MOD of a memory access (R143, R146). -/
def MKind.md (k : MKind) (sz : BitVec 2) : BitVec 8 :=
  match k with
  | .plain => 0#3 ++ 0#3 ++ sz
  | .rp => 0#3 ++ 3#3 ++ sz
  | .atomic o s => o.code ++ s.code ++ sz
/-- MOD of an atomic read-write. -/
def rmwMd (o : Ord) (s : Scope) (dw : Bool) : BitVec 8 := o.code ++ s.code ++ (bif dw then 3#2 else 2#2)
/-- MOD of a plain access with its qualifier code. -/
def qMd (q : BitVec 3) (sz : BitVec 2) : BitVec 8 := 0#3 ++ q ++ sz
/-- X8 of a mask or of a segment without an index. -/
def x3 (m : BitVec 3) : BitVec 8 := m.setWidth 8

/-- The fields that every instruction has, the others zero (R138). -/
def rawOf (h : Hdr) (op : BitVec 8) : Raw :=
  ⟨0, 0, 0, 0, 0, 0, 0, 0, h.neg, h.grd, op, false, h.sw, 0⟩
/-- A word with an F64-I immediate. -/
def rawI (h : Hdr) (op : BitVec 8) (m : BitVec 28) : Raw :=
  { rawOf h op with c := m.extractLsb' 0 6, fn := m.extractLsb' 6 6, md := m.extractLsb' 12 8, x8 := m.extractLsb' 20 8 }
/-- A word with an F64-B offset. -/
def rawB (h : Hdr) (op : BitVec 8) (m : BitVec 34) : Raw :=
  { rawOf h op with
    b := m.extractLsb' 0 6, c := m.extractLsb' 6 6, fn := m.extractLsb' 12 6, md := m.extractLsb' 18 8,
    x8 := m.extractLsb' 26 8 }
/-- A word of the 128-bit forms. -/
def rawE (h : Hdr) (op : BitVec 8) (e : BitVec 64) : Raw := { rawOf h op with ext := e, len := 2 }
/-- LEN and the extension of a displacement. -/
def Raw.disp (r : Raw) : Option (BitVec 32) → Raw
  | none => r
  | some i => { r with len := 1, ext := i.setWidth 64 }
/-- A word with a memory operand (R32, R141). -/
def rawM (h : Hdr) (op : BitVec 8) (m : MemOp) : Raw :=
  Raw.disp { rawOf h op with x8 := 0#2 ++ m.k ++ m.seg, a := tF m.a, b := tF m.b } m.imm
/-- A word with a vector-indexed operand (R217). -/
def rawG (h : Hdr) (op : BitVec 8) (g : GatherOp) : Raw :=
  Raw.disp { rawOf h op with x8 := 0#2 ++ g.k ++ g.seg, a := tF g.a, b := vF g.vb } g.imm
/-- A word with three scalar registers. -/
def raw3 (h : Hdr) (op : BitVec 8) (d a b : BitVec 5) : Raw := { rawOf h op with d := sF d, a := sF a, b := sF b }
/-- A word with two scalar registers. -/
def raw2 (h : Hdr) (op : BitVec 8) (d a : BitVec 5) : Raw := { rawOf h op with d := sF d, a := sF a }
/-- A word with three vector registers and a mask. -/
def rawV3 (h : Hdr) (op : BitVec 8) (md : BitVec 8) (d a b : VReg) (k : MReg) : Raw :=
  { rawOf h op with md := md, d := vF d, a := vF a, b := vF b, x8 := x3 k }
/-- A word with two vector registers and a mask. -/
def rawV2 (h : Hdr) (op : BitVec 8) (md : BitVec 8) (d a : VReg) (k : MReg) : Raw :=
  { rawOf h op with md := md, d := vF d, a := vF a, x8 := x3 k }
/-- A scalar shift with its amount (R174). -/
def rawSh (h : Hdr) (op : BitVec 8) (d a : SReg) : Amt → Raw
  | .reg b => raw3 h op d a b
  | .imm n => { raw2 h op d a with b := n, md := 1 }
/-- A vector shift with its amount (R251). -/
def rawVSh (h : Hdr) (op : BitVec 8) (t : Ty) (d a : VReg) (k : MReg) : VAmt → Raw
  | .reg b => rawV3 h op (tyQ t 0) d a b k
  | .imm n => { rawV2 h op (tyQ t 3) d a k with b := n }
/-- FN of a tree and node (R277). -/
def trnd (t : BitVec 2) (n : BitVec 4) : BitVec 6 := t ++ n
/-- FN of SRET and XLINV (R329). -/
def fnSys (k : BitVec 2) (f : Bool) : BitVec 6 := 0#3 ++ BitVec.ofBool f ++ k

/-- The fields of an instruction's word, from the same encoding tables; none for the moves, which no word encodes. -/
def encode : Instr → Option Raw
  | .nop h => some (rawOf h 0x01)
  | .nop96 h => some { rawOf h 0x01 with len := 1 }
  | .nop128 h => some { rawOf h 0x01 with len := 2 }
  | .br h o => some (rawB h 0x02 o)
  | .brr h a => some { rawOf h 0x03 with a := sF a }
  | .call h d o => some { rawB h 0x04 o with d := sF d }
  | .callr h d a => some (raw2 h 0x05 d a)
  | .ret h a => some { rawOf h 0x06 with a := sF a }
  | .loop h a o => some { rawB h 0x07 o with a := sF a }
  | .callat h d a b c nr => some { raw3 h 0x08 d a b with c := sF c, len := 2, ext := bif nr then 1 else 0 }
  | .spawn h d a o => some { rawB h 0x09 o with d := sF d, a := sF a }
  | .join h a => some { rawOf h 0x0A with a := sF a }
  | .exit h a => some { rawOf h 0x0B with a := tF a }
  | .exitRep h a b c => some { rawOf h 0x0B with fn := 1, a := tF a, b := sF b, c := sF c }
  | .yield h => some (rawOf h 0x0C)
  | .waitFull h a => some { rawOf h 0x0D with a := sF a }
  | .waitZero h a => some { rawOf h 0x0D with fn := 1, a := sF a }
  | .waitNe h d a b => some { raw3 h 0x0D d a b with fn := 2 }
  | .send h a b c => some { rawOf h 0x0E with a := sF a, b := sF b, c := sF c, len := 2 }
  | .taskq h d a b c n =>
    some { rawOf h 0x0F with d := sF d, a := sF a, b := vF b, c := sF c, len := 2, ext := n.setWidth 64 }
  | .taskqDec h a => some { rawOf h 0x0F with fn := 1, a := sF a, len := 2 }
  | .evset h n => some (rawI h 0x10 (n.setWidth 28))
  | .evclr h n => some (rawI h 0x11 (n.setWidth 28))
  | .evwait h n => some (rawI h 0x12 (n.setWidth 28))
  | .cancel h a => some { rawOf h 0x13 with a := tF a }
  | .trapu h n => some (rawI h 0x14 (n.setWidth 28))
  | .exretRetry h a => some { rawOf h 0x15 with a := sF a }
  | .exretNext h a => some { rawOf h 0x15 with fn := 1, a := sF a }
  | .exretTo h a b => some { rawOf h 0x15 with fn := 2, a := sF a, b := sF b }
  | .tack h a m => some { rawI h 0x16 m with a := tF a }
  | .tackDone h => some { rawOf h 0x16 with b := 1 }
  | .tkwait h a => some { rawOf h 0x17 with a := sF a }
  | .tkwaitFrame h a => some { rawOf h 0x17 with fn := 1, a := sF a }
  | .tkstat h d a => some (raw2 h 0x18 d a)
  | .tkstatProg h d => some { rawOf h 0x18 with fn := 1, d := sF d }
  | .add h d a b => some (raw3 h 0x20 d a b)
  | .sub h d a b => some (raw3 h 0x21 d a b)
  | .mul h d a b => some (raw3 h 0x23 d a b)
  | .and h d a b => some (raw3 h 0x27 d a b)
  | .or h d a b => some (raw3 h 0x28 d a b)
  | .xor h d a b => some (raw3 h 0x29 d a b)
  | .andn h d a b => some (raw3 h 0x2A d a b)
  | .orn h d a b => some (raw3 h 0x2B d a b)
  | .hash h d a b => some (raw3 h 0x3F d a b)
  | .addi h d a m => some { rawI h 0x22 m with d := sF d, a := sF a }
  | .mulh h u d a b => some { raw3 h 0x24 d a b with fn := bF u }
  | .div h u d a b => some { raw3 h 0x25 d a b with fn := bF u }
  | .rem h u d a b => some { raw3 h 0x26 d a b with fn := bF u }
  | .min h u d a b => some { raw3 h 0x30 d a b with fn := bF u }
  | .max h u d a b => some { raw3 h 0x31 d a b with fn := bF u }
  | .shl h d a n => some (rawSh h 0x2C d a n)
  | .shr h d a n => some (rawSh h 0x2D d a n)
  | .sar h d a n => some (rawSh h 0x2E d a n)
  | .rot h u d a n => some { rawSh h 0x2F d a n with fn := bF u }
  | .abs h d a => some (raw2 h 0x32 d a)
  | .clz h d a => some (raw2 h 0x33 d a)
  | .ctz h d a => some (raw2 h 0x34 d a)
  | .popc h d a => some (raw2 h 0x35 d a)
  | .brev h d a => some (raw2 h 0x36 d a)
  | .bswap h d a => some (raw2 h 0x37 d a)
  | .mov h d a => some (raw2 h 0x3B d a)
  | .pnot h d a => some (raw2 h 0x45 d a)
  | .ext h u d a l w => some { raw2 h 0x38 d a with fn := bF u, b := l, c := w }
  | .ins h d a l w => some { raw2 h 0x39 d a with b := l, c := w }
  | .sel h d a b p => some { raw3 h 0x3A d a b with c := sF p }
  | .movi h d m => some { rawI h 0x3C m with d := sF d }
  | .movwF96 h u d m => some { rawOf h 0x3D with fn := bF u, d := sF d, len := 1, ext := m.setWidth 64 }
  | .movwF128 h d m => some { rawOf h 0x3D with d := sF d, len := 2, ext := m }
  | .lea h d m => some { rawM h 0x3E m with d := sF d }
  | .cmp h c p a b => some { raw3 h 0x40 p a b with fn := c.code }
  | .cmpi h c p a m => some { rawI h 0x41 m with d := sF p, a := sF a, b := c.code }
  | .pand h x y d a b => some { raw3 h 0x42 d a b with fn := 0#4 ++ BitVec.ofBool y ++ BitVec.ofBool x }
  | .por h x y d a b => some { raw3 h 0x43 d a b with fn := 0#4 ++ BitVec.ofBool y ++ BitVec.ofBool x }
  | .pxor h x y d a b => some { raw3 h 0x44 d a b with fn := 0#4 ++ BitVec.ofBool y ++ BitVec.ofBool x }
  | .prd h d => some { rawOf h 0x46 with d := sF d }
  | .pwr h a => some { rawOf h 0x47 with a := sF a }
  | .mfu h d n => some { rawI h 0x48 (n.setWidth 28) with d := sF d }
  | .mtu h n a => some { rawI h 0x49 (n.setWidth 28) with a := sF a }
  | .ld h u d m k z => some { rawM h 0x50 m with fn := bF u, d := sF d, md := k.md z }
  | .ldFe h u d m z => some { rawM h 0x50 m with fn := bF u, d := sF d, md := qMd 1 z }
  | .ldFec h u d m z => some { rawM h 0x50 m with fn := bF u, d := sF d, md := qMd 2 z }
  | .st h m c k none z => some { rawM h 0x51 m with c := sF c, md := k.md z }
  | .st h m c _ (some t) z => some { rawM h 0x51 m with d := sF t, c := sF c, md := qMd 4 z }
  | .ldv h d m rp k => some { rawM h 0x52 m with d := vF d, fn := kF k, md := qMd (bif rp then 3 else 0) 0 }
  | .stv h m c rp none k => some { rawM h 0x53 m with c := vF c, fn := kF k, md := qMd (bif rp then 3 else 0) 0 }
  | .stv h m c _ (some t) k => some { rawM h 0x53 m with d := sF t, c := vF c, fn := kF k, md := qMd 4 0 }
  | .vgath h d g rp w k =>
    some { rawG h 0x54 g with d := vF d, fn := kF k, md := qMd (bif rp then 3 else 0) (bif w then 3 else 2) }
  | .vscat h g c rp w k =>
    some { rawG h 0x55 g with c := vF c, fn := kF k, md := qMd (bif rp then 3 else 0) (bif w then 3 else 2) }
  | .amo h op d m c o s w => some { rawM h 0x56 m with fn := op.code, d := tF d, c := sF c, md := rmwMd o s w }
  | .cas h d m c o s w => some { rawM h 0x57 m with d := sF d, c := sF c, md := rmwMd o s w }
  | .fence h o s => some { rawOf h 0x58 with md := o.code ++ s.code ++ 0#2 }
  | .pref h m s => some { rawM h 0x59 m with md := bif s then 1 else 0 }
  | .stpair h a b c g t pp pt w =>
    some { rawE h 0x5A (0#29 ++ t ++ pt ++ pp) with
      a := sF a, b := sF b, c := sF c, x8 := x3 g, md := bif w then 2 else 1 }
  | .feset h m => some (rawM h 0x5B m)
  | .feclr h m => some (rawM h 0x5C m)
  | .vadd h t q d a b k => some (rawV3 h 0x70 (tyMd t q) d a b k)
  | .vsub h t q d a b k => some (rawV3 h 0x71 (tyMd t q) d a b k)
  | .vmul h t q d a b k => some (rawV3 h 0x72 (tyMd t q) d a b k)
  | .vdiv h t q d a b k => some (rawV3 h 0x7A (tyMd t q) d a b k)
  | .vscale h t q d a b k => some (rawV3 h 0x82 (tyMd t q) d a b k)
  | .vfma h t q d a b c k => some { rawV3 h 0x73 (tyMd t q) d a b k with c := vF c }
  | .vfms h t q d a b c k => some { rawV3 h 0x74 (tyMd t q) d a b k with c := vF c }
  | .vfnma h t q d a b c k => some { rawV3 h 0x75 (tyMd t q) d a b k with c := vF c }
  | .vsqrt h t q d a k => some (rawV2 h 0x7B (tyMd t q) d a k)
  | .vmin h t d a b k => some (rawV3 h 0x76 (tyQ t 0) d a b k)
  | .vmax h t d a b k => some (rawV3 h 0x77 (tyQ t 0) d a b k)
  | .vand h t d a b k => some (rawV3 h 0x93 (tyQ t 0) d a b k)
  | .vor h t d a b k => some (rawV3 h 0x94 (tyQ t 0) d a b k)
  | .vxor h t d a b k => some (rawV3 h 0x95 (tyQ t 0) d a b k)
  | .vimin h t d a b k => some (rawV3 h 0x99 (tyQ t 0) d a b k)
  | .vimax h t d a b k => some (rawV3 h 0x9A (tyQ t 0) d a b k)
  | .vperm h t d a b k => some (rawV3 h 0x9B (tyQ t 0) d a b k)
  | .vsel h t d a b k => some (rawV3 h 0x9D (tyQ t 0) d a b k)
  | .vabs h t d a k => some (rawV2 h 0x78 (tyQ t 0) d a k)
  | .vneg h t d a k => some (rawV2 h 0x79 (tyQ t 0) d a k)
  | .vmov h t d a k => some (rawV2 h 0x9E (tyQ t 0) d a k)
  | .vcmp h c t d a b k =>
    some { rawOf h 0x7C with fn := c.code, md := tyQ t 0, d := kF d, a := vF a, b := vF b, x8 := x3 k }
  | .vcvt h t y q d a k => some { rawV2 h 0x7D (tyMd t q) d a k with fn := sF y.code }
  | .vpack h t y q d a b k => some { rawV3 h 0x7E (tyMd t q) d a b k with fn := sF y.code }
  | .vunpk h t y q d a p k => some { rawV2 h 0x7F (tyMd t q) d a k with fn := sF y.code, b := p }
  | .vbxq h x d a p c =>
    some { rawV2 h 0x80 (tyQ (bif x then .bx4 else .bx8) 0) d a 0 with fn := 1, b := p, c := vF c }
  | .vbxd h t x q d a p c k =>
    some { rawV2 h 0x81 (tyMd t q) d a k with fn := bif x then 9 else 8, b := p, c := vF c }
  | .vred h o t q d a k => some { rawV2 h 0x83 (tyMd t q) d a k with fn := o.code }
  | .vsacc h x q d a b c n k =>
    some { rawOf h 0x84 with
      fn := n.setWidth 6, md := tyMd (bif x then .f64 else .f32) q, d := vF d, a := sF a, b := vF b, c := vF c, x8 := x3 k }
  | .vbdot h t q g y d a b c k =>
    some { rawV3 h 0x85 (tyMd t q) d a b k with fn := 0#2 ++ y.code ++ g.code, c := vF c }
  | .viadd h x t d a b k => some (rawV3 h 0x90 (tyQ t (bif x then 1 else 0)) d a b k)
  | .visub h x t d a b k => some (rawV3 h 0x91 (tyQ t (bif x then 1 else 0)) d a b k)
  | .vimul h x t d a b k => some (rawV3 h 0x92 (tyQ t (bif x then 2 else 0)) d a b k)
  | .vshl h t d a n k => some (rawVSh h 0x96 t d a k n)
  | .vshr h t d a n k => some (rawVSh h 0x97 t d a k n)
  | .vsar h t d a n k => some (rawVSh h 0x98 t d a k n)
  | .vbcast h t d a k => some { rawOf h 0x9C with md := tyQ t 0, d := vF d, a := sF a, x8 := x3 k }
  | .vmovTos h t d a n => some { rawOf h 0x9E with md := tyQ t 4, d := sF d, a := vF a, b := n }
  | .vmovTov h t d a n => some { rawOf h 0x9E with md := tyQ t 5, d := vF d, a := sF a, b := n }
  | .vidx h t d k => some { rawOf h 0x9F with md := tyQ t 0, d := vF d, x8 := x3 k }
  | .mand h d a b => some { rawOf h 0xA0 with d := kF d, a := kF a, b := kF b }
  | .mor h d a b => some { rawOf h 0xA1 with d := kF d, a := kF a, b := kF b }
  | .morFs h d a => some { rawOf h 0xA1 with fn := 1, d := kF d, a := sF a }
  | .mnot h d a => some { rawOf h 0xA2 with d := kF d, a := kF a }
  | .mpopc h d a => some { rawOf h 0xA3 with d := sF d, a := kF a }
  | .mpopcRaw h d a => some { rawOf h 0xA3 with fn := 1, d := sF d, a := kF a }
  | .embpool h t q d g a b c l =>
    some { rawOf h 0xA4 with md := tyMd t q, d := vF d, a := tF a, b := sF b, c := sF c, fn := l, x8 := x3 g }
  | .embupd h t q d g a b c l =>
    some { rawOf h 0xA5 with md := tyMd t q, d := sF d, a := tF a, b := sF b, c := vF c, fn := l, x8 := x3 g }
  | .oclaim h d n => some { rawOf h 0xB0 with d := sF d, b := sF n }
  | .oclaimM h d a => some { raw2 h 0xB0 d a with fn := 1 }
  | .orelease h a => some { rawOf h 0xB1 with a := sF a }
  | .ofill h d c m => some { rawM h 0xB2 m with d := sF d, c := sF c }
  | .ofillS h d c b => some { rawOf h 0xB2 with fn := 1, d := sF d, c := sF c, b := 7#3 ++ b }
  | .wlatch h t n => some { rawE h 0xB3 (n.setWidth 64) with md := tyQ t 0 }
  | .mma h t o a b n r => some { rawE h 0xB4 (0#39 ++ r ++ 0#11 ++ n) with md := tyQ t o.code, a := sF a, b := sF b }
  | .accz h a b => some { rawOf h 0xB5 with a := sF a, b := sF b }
  | .accrd h f d a k =>
    some { rawOf h 0xB6 with fn := bF f.isSome, b := bF (f.getD false), d := vF d, a := sF a, x8 := x3 k }
  | .accwr h f a c k =>
    some { rawOf h 0xB7 with fn := bF f.isSome, b := bF (f.getD false), a := sF a, c := vF c, x8 := x3 k }
  | .mstat h d => some { rawOf h 0xB8 with d := sF d }
  | .mstatPeek h d => some { rawOf h 0xB8 with fn := 1, d := sF d }
  | .pbind h n o f (.affine g a i) =>
    some (Raw.disp { rawOf h 0xB9 with
      d := nF n, a := tF a, b := 63, md := 0#6 ++ BitVec.ofBool f ++ BitVec.ofBool o, x8 := x3 g } i)
  | .pbind h n o f (.link x l) =>
    some (Raw.disp { rawOf h 0xB9 with fn := 1, d := nF n, md := 0#5 ++ BitVec.ofBool x ++ BitVec.ofBool f ++ BitVec.ofBool o }
      (if l then some 0 else none))
  | .pbind h n o f (.queue x l) =>
    some (Raw.disp { rawOf h 0xB9 with fn := 2, d := nF n, md := 0#3 ++ x ++ BitVec.ofBool f ++ BitVec.ofBool o }
      (if l then some 0 else none))
  | .pbind h n o f (.net x l) =>
    some (Raw.disp { rawOf h 0xB9 with fn := 3, d := nF n, md := 0#4 ++ x ++ BitVec.ofBool f ++ BitVec.ofBool o }
      (if l then some 0 else none))
  | .punbind h n => some { rawOf h 0xBA with d := nF n }
  | .pdrain h d n => some { rawOf h 0xBB with d := sF d, a := nF n }
  | .spopenIn h p => some { rawOf h 0xBC with md := p.setWidth 8 }
  | .spopenOut h d a b p => some { raw3 h 0xBC d a b with fn := 1, md := p.setWidth 8 }
  | .spopenLand h a b p => some { rawOf h 0xBC with fn := 2, a := sF a, b := sF b, md := p.setWidth 8 }
  | .spclose h p => some { rawOf h 0xBD with md := p.setWidth 8 }
  | .trset h t m => some { rawM h 0xC0 m with fn := t.setWidth 6 }
  | .kacc h t q a c r n x y k =>
    some { rawE h 0xC1 (0#32 ++ y ++ x) with md := tyMd t q, a := sF a, c := vF c, fn := trnd r n, x8 := x3 k }
  | .kget h t q d a p c r n =>
    some { rawOf h 0xC2 with md := tyMd t q, d := vF d, a := sF a, b := sF p, c := tF c, fn := trnd r n }
  | .kput h t q a b c r n =>
    some { rawOf h 0xC3 with md := tyMd t q, a := sF a, b := tF b, c := vF c, fn := trnd r n }
  | .kdel h a r n => some { rawOf h 0xC4 with a := sF a, fn := trnd r n }
  | .kscan h d a c r n => some { rawOf h 0xC5 with d := sF d, a := sF a, c := sF c, fn := trnd r n }
  | .kmerge h a r n => some { rawOf h 0xC6 with a := sF a, fn := trnd r n }
  | .kprobe h p a r n => some { rawOf h 0xC7 with d := sF p, a := sF a, fn := trnd r n }
  | .posset h a => some { rawOf h 0xC8 with a := sF a }
  | .hpos h d a s => some { raw2 h 0xC9 d a with fn := s.setWidth 6 }
  | .nbrS h n a b c l x =>
    some { rawE h 0xCA (0#62 ++ BitVec.ofBool x ++ BitVec.ofBool l) with d := nF n, a := sF a, b := sF b, c := sF c }
  | .nbrBuf h d a b c l x cap =>
    some { rawE h 0xCA (0#32 ++ cap ++ 0#14 ++ BitVec.ofBool x ++ BitVec.ofBool l) with
      fn := 1, d := sF d, a := sF a, b := sF b, c := sF c }
  | .migrCore h a => some { rawOf h 0xCB with a := sF a }
  | .migrAddr h a => some { rawOf h 0xCB with fn := 1, a := sF a }
  | .bindpos h a b => some { rawOf h 0xCC with a := sF a, b := sF b }
  | .unbind h => some (rawOf h 0xCD)
  | .cqput h d a c g nk =>
    some { rawE h 0xCE (bif nk then 1 else 0) with d := sF d, a := sF a, c := vF c, x8 := x3 g }
  | .hwaitFree h n => some { rawOf h 0xCF with md := n }
  | .hwaitFull h n => some { rawOf h 0xCF with fn := 1, md := n }
  | .hwaitTake h n => some { rawOf h 0xCF with fn := 2, md := n }
  | .hstate h d n => some { rawOf h 0xD0 with d := sF d, md := n }
  | .hfree h n => some { rawOf h 0xD1 with md := n }
  | .sretRetry h a x => some { rawOf h 0xE0 with fn := fnSys 0 x, a := sF a }
  | .sretNext h a x => some { rawOf h 0xE0 with fn := fnSys 1 x, a := sF a }
  | .sretTo h a b x => some { rawOf h 0xE0 with fn := fnSys 2 x, a := sF a, b := sF b }
  | .sretKill h a x => some { rawOf h 0xE0 with fn := fnSys 3 x, a := sF a }
  | .mfs h d n => some { rawI h 0xE1 (n.setWidth 28) with d := sF d }
  | .mts h n a => some { rawI h 0xE2 (n.setWidth 28) with a := sF a }
  | .segld h g m => some { rawM h 0xE3 m with d := kF g }
  | .accsave h d c m => some { rawM h 0xE4 m with d := sF d, c := sF c }
  | .accload h d c m => some { rawM h 0xE5 m with d := sF d, c := sF c }
  | .ctxoutCore h d a b => some (raw3 h 0xE6 d a b)
  | .ctxoutMem h d a b => some { raw3 h 0xE6 d a b with fn := 1 }
  | .ctxin h d a b => some (raw3 h 0xE7 d a b)
  | .xlinvVa h a b x => some { rawOf h 0xE8 with fn := fnSys 0 x, a := sF a, b := sF b }
  | .xlinvTag h a b x => some { rawOf h 0xE8 with fn := fnSys 1 x, a := sF a, b := sF b }
  | .xlinvAll h a b x => some { rawOf h 0xE8 with fn := fnSys 2 x, a := sF a, b := sF b }
  | .rtswap h d a b => some (raw3 h 0xE9 d a b)
  | .haltWait h => some (rawOf h 0xEA)
  | .haltStop h => some { rawOf h 0xEA with fn := 1 }
  | .rdstate h d a b => some (raw3 h 0xEB d a b)
  | .sysmsg h a c => some { rawOf h 0xEC with a := sF a, c := sF c }
  | .cancelSeen _ | .cancelMailboxWrite _ | .oclaimServe _ | .arrayPerform _ | .streamElementRead _ _
  | .streamElementWrite _ _ | .networkElementLand _ _ | .closingFlit _ _ | .keyTableApply _ _ | .handOver _
  | .copyPacketTake _ _ | .copyGranuleWrite _ _ | .copyCompletion _ _ | .tierEntryIssue _ _
  | .tierEntryComplete _ _ | .longResultReturn _ _ _ | .journalEntrySend _ _ | .postedWritePerform _ _
  | .journalAck _ _ | .trapEntry _ _ | .supervisorRequestTake _ | .systemMessageTake _ | .wakeMove _ _
  | .lightSlotTake _ _ | .stealServe _ _ | .stealRetry _ _ | .lightDeparture _ _ | .lightArrival _
  | .messageHandlerStart _ | .launchRequest _ | .launchStart _ | .launchCompletion _ | .faultReply _ _ _
  | .faultEntryWait _ | .updateSequence _ | .updateApply | .updateMailboxWrite _ | .bastingForward _ _
  | .migrationMarker _ _ | .bounceAppend _ _ | .crst _ _ | .partitionTableWrite _ _
  | .translationBlockWrite _ _ | .linkFailure _ _ | .packageLostFence _ | .hostAccess _ _ _ _ | .hint _
  | .nvmeMsix _ _ _ | .errorLogConfigWrite _ _ _ | .coreReset _ | .packageResetRelease | .memoryTraining _
  | .firmwareStart | .bupReady | .dbgWrite _ | .preqWrite _ | .powerTransition | .extend | .token | .quote
  | .readKeys | .readMeasurements | .mgmtRead _ | .mgmtWrite _ _ | .mgmtReadback _ _ | .registerWrite _ _
  | .bastingEntryRetire _ _ | .clusterResetDone _ | .nvmeControllerDma _ _ _ _ _ | .peerPackageAccess _ _ _ _ _
  | .lamvanBlockWrite _ _ | .entdaa _ => none

/-- The bytes of an instruction in memory (R135): its length of the value of its fields, least significant byte first. -/
def encodeBytes (i : Instr) : Option (List Byte) :=
  (encode i).map fun r => valBytes (lenBytes r.len) r.word.toNat

end Sys2Proof
end

