-- ==== Sys2Proof/Config.lean ====
section
/-!
DEFINITION. What the manual leaves to the implementation or to the individual part, and the free values. Each is an
opaque constant without a body: nothing can evaluate it, and a claim holds whatever it is. A free value is applied to the
counter `State.free`, which the step reads and advances (log 5 to 9, 11, 12).
-/

namespace Sys2Proof.Config

/-- Bytes of a context image, `sctxsz` (R326, R338: the content after the header is not architectural). -/
opaque imageBytes : BitVec 64

/-- Clock cycles that passed since the last reading of `cyc` (R48: the rate is not architectural). -/
opaque elapsed : Nat → BitVec 64

/-- Whether a translation cache still holds a leaf that the table no longer gives (R373: replacement is not
architectural). -/
opaque cached : Nat → Bool

/-- Whether the fabric grants a route to SPOPEN.out when its rules do not decide it (R273). -/
opaque routeGranted : Nat → Bool

/-- Port that a router takes for a message of the adaptive class, of the ports that its entry allows: by a free value's number
and the router (R380: any port). -/
opaque portPick : Nat → Nat → Nat

/-- A byte that no rule fixes: of a context image after its header (R338), of a signature made with a private seed
(R400), of a quote (R401). -/
opaque freeByte : Nat → BitVec 8

/-- A dword that no rule fixes. -/
opaque freeDword : Nat → BitVec 64

/-- A vector that no rule fixes: what the masked elements of a result pushed to a port hold, because a bound name keeps no
value (R38, R40). -/
opaque freeVec : Nat → BitVec 1024

/-- Where a tier engine keeps the completion dword of its n-th request to the service core (R302). -/
opaque planDword : Nat → Nat

/-- KIND of a bounce record of a kind of traffic, and the length of its body where no rule gives the layout (R361). -/
opaque bounceKind : Nat → BitVec 8
/-- Length of the body of a bounce record. -/
opaque bounceLen : Nat → BitVec 16

/-- Fuses: silicon stepping, serial number and source of the part (R394). -/
opaque fuseStep : BitVec 32
/-- Serial number (R394). -/
opaque fuseSerial : BitVec 64
/-- SRC, the source of the part: 0 or 1 (R394). -/
opaque fuseSrc : Bool
/-- SEC, the security state in the fuses: 0 to 2 (R394). -/
opaque fuseSec : Fin 3
/-- The vendor's public key, 60 bytes of an HSS key, byte by byte; firmware and tokens are verified against it (R400). -/
opaque vendorKey : Nat → BitVec 8
/-- The owner's public key, byte by byte (R400). -/
opaque ownerKey : Nat → BitVec 8
/-- Digest of the vendor key in the fuses (R396, R400). -/
opaque fuseVendorKey : BitVec 256
/-- Digest of the owner's key in its slot, which entering Vendor-return erases (R396, R400). -/
opaque fuseOwnerKey : BitVec 256
/-- The device identity public key of 32 bytes and more (R400), byte by byte. -/
opaque fusePublicKey : Nat → BitVec 8

end Sys2Proof.Config
end

