-- ==== Sys2Proof/Machine/State.lean ====
section
/-!
DEFINITION. The state of the machine: every piece of state that the manual gives it (INVENTORY.md lists them with
their rules), the coming turns, and the state after reset. Sparse tables list only what differs from reset.
-/

namespace Sys2Proof.Machine

/-! ### Memory -/

/-- Memory as bytes by address, addresses strictly rising, no entry 0: what an unlisted byte reads as (log 2). -/
abbrev Memory := List Host.Cell

/-- Where a byte lies: in the scratchpad of a core (R92) or at a package physical address (R378). -/
inductive Place where
  | sp (core off : Nat)
  | phys (pa : Nat)
  deriving DecidableEq, Repr, Inhabited

/-- An aligned 4-byte word: the unit of conflicts (R123). -/
inductive WordKey where
  | sp (core w : Nat)
  | phys (w : Nat)
  deriving DecidableEq, Repr, Inhabited

/-! ### Agents and synchronisation (R112, R113, R116) -/

/-- An agent of the abstract machine (R113). A copy has a number of its own for life, beside its handle, and each launch request is an
engine context of its partition's launch unit (R345). A thread keeps its
number for life; supervisor slot s of core c has the
agent number 16c + s, and the threads of launches are numbered from 18,432 on. -/
inductive Agent where
  | thread (aid : Nat)
  | copy (cluster id : Nat)
  | tier (tag id : Nat)
  | overflow (cluster : Nat)
  | launchUnit (part request : Nat)
  | tableUnit
  | host
  | peer (rank : Nat)
  | rot
  | mgmt
  | nvme (port : Nat)
  /-- A die as it writes its error log (R391, log 56). -/
  | die (n : Nat)
  deriving DecidableEq, Repr, Inhabited

/-- Entry of a clock: an agent's region; or what is known of an agent's accesses to one word, from a write that set a
granule full, which releases only the bytes that it wrote there (R96). -/
inductive ClockKey where
  | ag (a : Agent)
  | word (w : WordKey) (a : Agent)
  deriving DecidableEq, Repr, Inhabited

/-- A region clock: the region number of each entry, 0 where unlisted (R116). -/
abbrev Clock := AMap ClockKey Nat

/-- Where an agent stands for scopes (R118): on a core, at the engines of a cluster, which serve each of its cores,
elsewhere in the package, or in another package of the pod. -/
inductive Spot where
  | core (c : Nat)
  | cluster (cl : Nat)
  | package
  | peer (rank : Nat)
  deriving DecidableEq, Repr, Inhabited

/-- A release contribution: the clock, the releasing agent, its scope and where it stood (R112, R118). -/
structure Contrib where
  clk   : Clock
  ag    : Agent
  scope : Scope
  spot  : Spot
  tag   : BitVec 32
  deriving DecidableEq, Repr, Inhabited

/-- An access stamp: agent, region, whether the access was atomic (R123), and how a report names the agent (R208). -/
structure Stamp where
  ag   : Agent
  n    : Nat
  atom : Bool
  rep  : Dword
  deriving DecidableEq, Repr, Inhabited

/-- Last-write stamp and read stamps of a word (R112, R123). -/
structure WordStamp where
  w : Option Stamp
  r : List Stamp
  deriving DecidableEq, Repr, Inhabited

/-- Registry and cache state of a word of device memory: the registered owner, the cores that hold it owned, and the cores
that hold it valid with the data of their copies (R112, R120). Memory holds the data of the last write performed: the
owner's while the word is registered, else the slice's (log 4). -/
structure WordCache where
  reg   : Option Nat
  owned : List Nat
  valid : AMap Nat (BitVec 32)
  deriving DecidableEq, Repr, Inhabited

/-- A synchronisation object (R117). -/
inductive Obj where
  | word (w : WordKey)
  /-- A word as a mailbox, which a load acquires in any order (R117). -/
  | box (w : WordKey)
  /-- A word as a kick register, whose store a start of an engine acquires whatever scope the store names (R117). -/
  | kick (w : WordKey)
  | entry (tag tree node : Nat) (key : Dword)
  | event (cluster bit : Nat)
  | granule (core g : Nat)
  | handle (cluster n : Nat)
  | plan (tag id : Nat)
  | cancel (tag : Nat)
  | position (tag space rec : Nat)
  | thread (aid : Nat)
  | launch (tag : Nat)
  | latch (core l : Nat)
  /-- RSEQ of the root-of-trust mailbox (R402). -/
  | mailbox
  /-- The write index of the error log of a die (R391). -/
  | log (die : Nat)
  deriving DecidableEq, Repr, Inhabited

/-! ### Threads -/

/-- A register or predicate name, the unit of the outstanding set (R52). -/
inductive Nm where
  | s (n : BitVec 5)
  | v (n : BitVec 5)
  | p (n : BitVec 5)
  deriving DecidableEq, Repr, Inhabited

/-- A segment register: base, limit and rights V, X, W, RD (R41). -/
structure Seg where
  base  : Dword
  limit : Dword
  rts   : BitVec 4
  deriving DecidableEq, Repr, Inhabited

/-- The registers that an instruction computes with: what a precise exception of an earlier long-class instruction
takes back. `p` is the predicate word, whose bit 0 reads 1 (R39); `m` holds m1 to m7 at 1 to 7 (R38). -/
structure Regs where
  s      : Vector Dword 32
  v      : Vector Vec 32
  m      : Vector (BitVec 32) 8
  p      : BitVec 32
  fstat  : BitVec 6
  rm     : BitVec 3
  seed   : BitVec 32
  ovwc   : BitVec 32
  nanc   : BitVec 32
  segsel : BitVec 2
  deriving DecidableEq, Repr, Inhabited

/-- What a refused access leaves in the error log when its exception is taken (R390 to R392): nothing, a refused access, one
whose conflict names a second agent, a refused access with a machine check (R371), or one that met an uncorrectable soft
error. -/
inductive Note where
  | none | refused | conflict | check | soft
  deriving DecidableEq, Repr, Inhabited

/-- An exception with what its frame or latch records (R206, R208). -/
structure Exc where
  cause : Nat
  code  : BitVec 32 := 0
  addr  : Dword := 0
  data  : Dword := 0
  iaddr : Dword := 0
  agent : Dword := 0
  note  : Note := .none
  deriving DecidableEq, Repr, Inhabited

/-- An asynchronous trap pending for a thread (R213): its place in issue order, and whether replay brought it. -/
structure ATrap where
  exc    : Exc
  order  : Nat
  replay : Bool
  deriving DecidableEq, Repr, Inhabited

/-- One access of a long-class read: its address and bytes. -/
structure Acc where
  addr : Dword
  n    : Nat
  deriving DecidableEq, Repr, Inhabited

/-- An entry of a link or slot queue, with its width, its push's release (R106, R107) and the place of the push in issue order
(R272). -/
structure QEnt where
  wide : Bool
  val  : Vec
  rel  : List Contrib
  seq  : Nat
  deriving DecidableEq, Repr, Inhabited

/-- An affine stream: its descriptor (R98) with the address of element 0, the elements taken, those read ahead, and those pushed and not yet
written, each with its issue order, its address and the address of its push (R101, R102). A neighbour stream has all its dwords read ahead
(R294). `since` is the place of its PBIND in issue order (R119). An element read ahead stands with the words that it was read from, because
its read belongs to every region of the thread up to its pop. `fault` is the fault entry at which the oldest unwritten element waits (R103,
R375); entry 17 stands for an error reply. -/
structure Stream where
  size   : Nat
  counts : List Nat
  stride : List Int
  base   : Dword
  seg    : BitVec 3
  taken  : Nat
  ahead  : List (Dword × List WordKey)
  unwr   : List (Nat × Dword × Dword × Nat)
  since  : Nat
  fault  : Option (Nat × Nat)
  deriving DecidableEq, Repr, Inhabited

/-- What a bound name is attached to (R97). -/
inductive PortKind where
  | affine (st : Stream)
  | link (east : Bool)
  | queue (n : Nat)
  | net (n : Nat)
  deriving DecidableEq, Repr, Inhabited

/-- A binding of a name of a thread (R97, R105). -/
structure Binding where
  aid  : Nat
  name : PName
  out  : Bool
  fwd  : Bool
  port : PortKind
  deriving DecidableEq, Repr, Inhabited

/-- An element on a network stream, or its closing flit (R274, R275), with the number of the route on which it travels and the path that
the route reserves (R273, R381), and the place of its push in issue order (R272). -/
structure NetEl where
  close : Bool
  wide  : Bool
  val   : Vec
  rel   : List Contrib
  route : Nat
  path  : List Nat
  seq   : Nat
  deriving DecidableEq, Repr, Inhabited

/-- A row of accumulator storage (R110, R266): its state, the owner of an open row, the k-steps taken, and its 32
entries of 64 bits. -/
structure AccRow where
  opn   : Bool
  owner : Option Nat
  steps : Nat
  cells : Vector Dword 32
  deriving DecidableEq, Repr, Inhabited

/-- A task record (R353) with the contributions that its start acquires. `num` tells it from every other task (log 1): its
index repeats. `ready` is the place in which it became ready (R199), `sender` the id of the thread that made it (R361). -/
structure Task where
  entry  : Dword
  args   : List Dword
  s4     : Dword
  waitM  : BitVec 256
  setM   : BitVec 256
  seed   : BitVec 32
  rm     : BitVec 3
  count  : BitVec 16
  index  : Nat
  num    : Nat
  ready  : Option Nat
  ltag   : BitVec 32
  sender : BitVec 32
  rel    : List Contrib
  deriving DecidableEq, Repr, Inhabited

/-- A message record (R353). -/
structure Msg where
  handler : Dword
  payload : List Dword
  sender  : BitVec 32
  ltag    : BitVec 32
  rel     : List Contrib
  deriving DecidableEq, Repr, Inhabited

/-- Traffic that a vacated or absent core's port holds or carries (R359 to R363). -/
inductive Traffic where
  | message (m : Msg)
  | task (t : Task)
  /-- A reply to its cell, from a thread that sent it in region `n` (R201). -/
  | reply (off : Nat) (x : Dword) (rel : List Contrib) (aid n : Nat)
  | context (aid : Nat)
  | posted (src idx : Nat)
  /-- An element or closing flit for a port, from port `srcPort` of panel position `src` (R274, R275). -/
  | element (port : Nat) (el : NetEl) (src srcPort : Nat)
  /-- A cancel multicast of a launch, and a change of the cell map of a space (R292), from a panel position. -/
  | cancel (tag : BitVec 32) (src : Nat)
  | cellMap (space src : Nat)
  | ack (idx : Nat) (refusal : Option Exc) (fl : BitVec 6)
  | request (aid seq : Nat)
  | granule (ag : Agent) (off : Nat) (bs : List Byte)
  /-- A conflict trap of an engine for a thread, with the engine as reports name it (R124, R365). -/
  | trap (aid : Nat) (x : ATrap) (who : Dword)
  deriving DecidableEq, Repr, Inhabited

/-- What an operation without a result does at its target: what a journal entry writes (R121), and the operations of a
thread that perform without an entry, at the issuing core or as a message (R112: the pending set). -/
inductive JOp where
  /-- Plain or atomic stores of bytes at an address (ST, a block of STV, an element of VSCAT). -/
  | write (a : Dword) (bytes : List (Nat × Byte)) (k : MKind) (tag : Option Nat)
  /-- A no-result AMO (R229). -/
  | amo (op : AmoOp) (a : Dword) (n : Nat) (x : Dword) (o : Ord) (sc : Scope)
  /-- STPAIR (R235): both areas, one move. -/
  | pair (pb tb : Dword) (pp pt n : Nat) (bytes : List Byte)
  /-- FESET and FECLR on another core (R234). -/
  | fe (core g : Nat) (full : Bool)
  /-- The counter decrement of EXIT (R196). -/
  | dec (a : Dword)
  /-- TASKQ.dec of a task on another core (R198). -/
  | taskDec (h : Dword)
  /-- KACC, KPUT, KDEL and KMERGE (R283, R286): kind 0 to 3, the lanes as converted, the count, the rounding mode as
  resolved and the step tag. -/
  | key (kind : Nat) (tree node : Nat) (key : Dword) (lanes : List (Option (BitVec 80))) (count : Dword) (r : Rnd)
      (tag : BitVec 16)
  /-- EMBUPD (R255). -/
  | emb (ty : Ty) (r : Rnd) (row : Dword) (scale : Dword) (grad : Vec)
  /-- The parts of a store in the own scratchpad (R222, R223). -/
  | own (k : MKind) (ps : List (Dword × List (Nat × Byte)))
  /-- FENCE (R232). -/
  | fence (o : Ord) (sc : Scope)
  /-- EVSET and EVCLR (R197). -/
  | event (cl bit : Nat) (set : Bool)
  /-- A push through a link, a slot queue or a network port (R107, R274). -/
  | push (p : PortKind) (wide : Bool) (v : Vec)
  /-- SEND and CALLAT, with the granule of the reply cell that CALLAT sets empty (R201, R202). -/
  | send (dst : Nat) (tr : Traffic) (cell : Option Nat)
  /-- TASKQ (R198), and TASKQ.dec on the issuing core. -/
  | task (t : Task)
  | taskOwn (h : Dword)
  /-- CANCEL (R205). -/
  | cancel (box : Option Dword)
  /-- HFREE (R301). -/
  | free (cl n : Nat)
  /-- SPOPEN.in of a port, and SPOPEN.land with its ring's offset and size (R273). -/
  | listen (n : Nat) (ring : Option (Nat × Nat))
  /-- SPCLOSE (R275). -/
  | close (n : Nat)
  /-- SYSMSG (R343). -/
  | sysmsg (dst : Nat) (p0 p1 p2 p3 : Dword)
  /-- What SRET does to slot `l` of a record (R331, R334): it resumes at a target, or ends. -/
  | sret (rec_ l : Nat) (to_ : Option Dword)
  deriving DecidableEq, Repr, Inhabited

/-- A slot of operand memory (R108): its claim and its bytes, 0 where unlisted. -/
structure OpSlot where
  owner : Option Nat
  bytes : List Host.Cell
  deriving DecidableEq, Repr, Inhabited

/-- Registers of slot 15 that MTS, MFS and SRET change (R326, R331, R334). -/
structure SysRegs where
  ssel   : Nat
  stvec  : Dword
  sipc   : Dword
  sit    : Bool
  ew     : Bool
  ewC    : Bool
  ewA    : Bool
  ssvc   : Dword
  ssvcf  : Bool
  deriving DecidableEq, Repr, Inhabited

/-- A latch: `scause` to `sagent` (R328). -/
structure Latch where
  cause : Dword
  pc    : Dword
  npc   : Dword
  addr  : Dword
  data  : Dword
  iaddr : Dword
  agent : Dword
  deriving DecidableEq, Repr, Inhabited

/-- What an instruction did to a queue, a port or a unit of its core and a precise exception of an earlier one puts back
(R34, R40): the entry that it popped, a row, a slot of operand memory, the first dword of a frame, a full/empty bit that it
cleared, a latch of a record, the registers of slot 15, a segment of another slot. -/
inductive Undo where
  | queue (n : Nat) (e : QEnt)
  | link (east : Bool) (e : QEnt)
  | net (n : Nat) (e : NetEl)
  | row (n : Nat) (r : AccRow)
  | slot (n : Nat) (o : OpSlot)
  | frame (p : Place) (x : Dword)
  | full (g : Nat)
  | latch (rec_ l : Nat) (x : Latch)
  | sys (x : SysRegs)
  | seg (aid : Nat) (g : Nat) (x : Seg)
  deriving DecidableEq, Repr, Inhabited

/-- What is the thread's own as it stood before an instruction, and what the instruction and later ones took elsewhere,
newest first: what a precise exception goes back to (R34, R40, R124). -/
structure Saved where
  regs   : Regs
  segs   : Vector Seg 8
  hh     : Bool
  fidx   : BitVec 15
  reads  : List Obj
  fences : List Contrib
  binds  : List Binding
  stage  : BitVec 6
  undo   : List Undo
  deriving DecidableEq, Repr, Inhabited

/-- What an issued instruction is to do at its target (R52, R112: the pending set). -/
inductive LongOp where
  /-- LD, plain or atomic (R220). -/
  | ld (sx : Bool) (d : SReg) (a : Acc) (k : MKind)
  /-- LDV and VGATH: the active lanes and their addresses (R227, R228). -/
  | lanes (d : VReg) (w : Nat) (as : List (Nat × Dword)) (rp : Bool)
  /-- AMO with a result, or the comparison of CAS (R229, R230). -/
  | amo (op : AmoOp) (d : SReg) (a : Acc) (x : Dword) (o : Ord) (sc : Scope)
  | cas (d : SReg) (a : Acc) (exp new : Dword) (o : Ord) (sc : Scope)
  /-- KGET and KPROBE (R285). -/
  | kget (ty : Ty) (r : Rnd) (d : VReg) (p : PReg) (c : Option SReg) (tree node : Nat) (key : Dword)
  | kprobe (p : PReg) (tree node : Nat) (key : Dword)
  /-- OCLAIM, served or waiting (R259). -/
  | oclaim (d : SReg) (n : Nat) (mask : Option (BitVec 32)) (got : Option (BitVec 32))
  /-- OFILL of a slot from scratchpad, with the bytes read so far, and of `n` bytes from a stream, of which `left` have not been
  popped (R261). -/
  | ofill (d : SReg) (slot off : Nat) (a : Acc) (got : List Byte)
  | ofillS (d : SReg) (slot off n left : Nat) (name : PName)
  /-- SPOPEN.out of a port towards a port of a core (R273). -/
  | route (d : SReg) (n dst dp : Nat)
  /-- A result that is already known: PDRAIN of an input (R272). -/
  | known (d : SReg) (x : Dword)
  /-- PDRAIN of an output: waits for what earlier instructions pushed through the port (R272). -/
  | drain (d : SReg) (port : PortKind)
  /-- RDSTATE (R342). -/
  | rdstate (d : SReg) (sel idx : Dword)
  /-- EMBPOOL: the rows at a base through a segment, the index and weight streams, log2 of the pitch (R254), and the generator state
  from which it draws (R74). -/
  | embpool (ty : Ty) (r : Rnd) (d : VReg) (seg : BitVec 3) (base : Dword) (ix wt : PName) (lg : Nat) (seed : BitVec 32)
  /-- An operation without a result (R112). -/
  | post (op : JOp)
  deriving DecidableEq, Repr, Inhabited

/-- An issued operation of the pending set (R112): its place in issue order, its address, the names it has yet to write,
and what a precise exception of it goes back to (R53, R124). The names of these make the outstanding set (R52). `fault` is
the fault entry at which its access at `fva` waits (R375); entry 17 stands for an error reply (R376). -/
structure Outst where
  seq   : Nat
  sub   : Nat
  pc    : Dword
  npc   : Dword
  op    : LongOp
  names : List Nm
  saved : Saved
  fault : Option (Nat × Nat)
  fva   : Dword
  deriving DecidableEq, Repr, Inhabited

/-- What a thread waits for (R188, R194, R195, R221, R301). -/
inductive WaitObj where
  | event (cluster bit : Nat)
  | full (core g : Nat)
  | zero (p : Place)
  | ne (p : Place) (x : Dword) (d : SReg)
  | join (p : Place) (va : Dword)
  | load (core off n : Nat) (sx fec : Bool) (d : SReg)
  | plan (tag id : Nat)
  | handle (cluster n : Nat) (what : Nat)
  | queue (p : Place) (q w : Dword) (d : SReg) (pkt : List Byte) (nk : Bool)
  | halt
  /-- A TACK or an EXIT at which the entries of the thread are not all acknowledged (R188, R190, R214). -/
  | acks
  /-- A blocking instruction, or an EMBUPD, that cannot go on yet and is then carried out anew (R119, R121, R188, R255): an earlier access
  of the thread stands before its own of `n` bytes at an address, or that address lies with an absent context; or no journal entry is
  free. -/
  | clear (va : Dword) (n : Nat)
  | entry
  /-- An EXIT whose remote decrement is posted, with the reply that it is to write (R190, R196). -/
  | exiting (reply : Option (Nat × Nat × Dword))
  | fault (cluster entry : Nat) (va : Dword)
  deriving DecidableEq, Repr, Inhabited

/-- A wait: its object, its place in the order of waits, and the value with which its condition was met in the
object's order, once it was (R195). `saved` is what a precise exception of it goes back to, where its instruction took
elements from ports (R40). -/
structure Wait where
  obj   : WaitObj
  order : Nat
  npc   : Dword
  fired : Option Dword
  saved : Option Saved
  deriving DecidableEq, Repr, Inhabited

/-- Kinds of thread (R15, R20, R325). -/
inductive ThKind where
  | heavy | light | handler | super
  deriving DecidableEq, Repr, Inhabited

/-- Where a context is (R23); `ring` marks one that the overflow ring holds (R357). -/
inductive Loc where
  | slot | runq | deque | blocked | exited | image
  | transit (dst : Nat)
  deriving DecidableEq, Repr, Inhabited

/-- A thread (R112, R113, and the chapters that name its state). -/
structure Thread where
  kind    : ThKind
  pc      : Dword
  regs    : Regs
  segs    : Vector Seg 8
  pos     : Dword
  bnd     : Option Nat
  hh      : Bool
  fidx    : BitVec 15
  ltag    : BitVec 32
  core    : Nat
  slot    : Nat
  loc     : Loc
  outst   : List Outst
  traps   : List ATrap
  pend    : Option Exc
  /-- NPC of the raised exception that waits for its entry, or of the instruction that waits at a page fault. -/
  pnpc    : Dword
  ltack   : Option (BitVec 32)
  treg    : Bool
  wait    : Option Wait
  /-- In the rotation; false while an array instruction holds the thread (R262). -/
  inRot   : Bool
  /-- Passed a switch marker: issues nothing until the outstanding set is empty (R14). -/
  marked  : Bool
  /-- Waits to issue, at a port, for a journal entry or for an ordering rule; retried after the next move. -/
  parked  : Bool
  /-- Number of its next instruction in issue order. -/
  seq     : Nat
  /-- Fence contributions (R117). -/
  fences  : List Contrib
  /-- Objects read atomically since its last acquire (R117). -/
  reads   : List Obj
  /-- Set mask of the task that it runs (R199). -/
  setMask : BitVec 256
  /-- Contributions that its start, its arrival or its wake is to acquire. -/
  acq     : List Contrib
  /-- A POSSET, pleat or migration destination to depart for at the next marker (R130, R292). -/
  depart  : Option Nat
  /-- Flags of the updates of an EMBUPD that has not retired (R82, R255), and those of each that an exception suspended, with its
  address. -/
  stage   : BitVec 6
  kept    : List (Dword × BitVec 6)
  /-- Entered a user handler and has not fetched its first instruction (R209). -/
  entering : Bool
  /-- End at the next marker or blocking instruction (R205). -/
  ending  : Bool
  deriving DecidableEq, Repr, Inhabited

/-! ### The journal (R121, R223) -/

/-- State of a journal entry (R112): waiting, sent, appended to a bounce ring (R361), performed with its refusal, if any,
on the way back, or with its acknowledgement in the bounce ring of its own absent context; `replay` marks one that a replay
performed (R362). -/
inductive JState where
  | waiting
  | sent
  | bounced
  | performed (refusal : Option Exc) (fl : BitVec 6) (replay : Bool)
  | returning
  deriving DecidableEq, Repr, Inhabited

/-- A journal entry (R112); `home` is the core from which it was sent, to which its acknowledgement returns (R131, R359). -/
structure JEnt where
  home  : Nat
  aid   : Nat
  seq   : Nat
  sub   : Nat
  pc    : Dword
  op    : JOp
  st    : JState
  fault : Option (Nat × Nat)
  deriving DecidableEq, Repr, Inhabited

/-! ### Core -/

/-- State of a slot (`sslot`, R326). -/
inductive SlotSt where
  | empty | running | held | frozen
  deriving DecidableEq, Repr, Inhabited

/-- A request in the queue of slot 15: of a slot, or a system message (R332). -/
inductive Req where
  | slot (n : Nat)
  | msg (sender : Dword) (p0 p1 p2 p3 : Dword) (rel : List Contrib)
  deriving DecidableEq, Repr, Inhabited

/-- The latch of the matrix array (R263): weights by row and column, format, thread. -/
structure ArrLatch where
  aid : Nat
  ty  : Ty
  mem : List Host.Cell
  deriving DecidableEq, Repr, Inhabited

/-- An array instruction on its way to the array (R262); `opened` after the open step of an MMA (R266). -/
structure ArrOp where
  saved : Saved
  aid   : Nat
  pc    : Dword
  npc   : Dword
  instr : Instr
  a     : Dword
  b     : Dword
  opened : Bool
  deriving DecidableEq, Repr

/-- State of a network stream port (R273). -/
inductive NetSt where
  | closed
  | listening
  | receiving (src srcPort : Nat)
  | sending (dst dstPort : Nat)
  | landing (src : Option (Nat × Nat))
  deriving DecidableEq, Repr, Inhabited

/-- A network stream port: state, opening thread, elements arrived or landing, ring (R273, R274), the number of its route, which
tells a route from one that the same ports had before, and the routers of the path that a sender's route reserves (R381). -/
structure NetPort where
  st    : NetSt
  opener : Option Nat
  q     : List NetEl
  ring  : Nat
  size  : Nat
  cur   : Nat
  route : Nat
  path  : List Nat
  deriving DecidableEq, Repr, Inhabited

/-- A node of a tree type descriptor (R279): KIND, PARENT, the number of lanes, ELEM, SCALE. KEYCOL and USER are
software's own and stay in its memory. -/
structure TreeNode where
  kind   : Nat
  parent : Nat
  lanes  : Nat
  fx     : Bool
  scale  : Nat
  deriving DecidableEq, Repr, Inhabited

/-- A tree type (R279). -/
structure TreeTy where
  ksp   : Nat
  nodes : List TreeNode
  deriving DecidableEq, Repr, Inhabited

/-- A key-table entry (R282): its way's place is its key in the table; lanes hold FP32 in their low 32 bits or FX64
accumulators of 80 bits (R67). -/
structure KeyEnt where
  key   : Dword
  tree  : Nat
  node  : Nat
  sh    : Bool
  count : Dword
  lanes : List (BitVec 80)
  deriving DecidableEq, Repr, Inhabited

/-- A waiting operand-memory claim (R259). -/
structure Claim where
  aid  : Nat
  seq  : Nat
  n    : Nat
  mask : Option (BitVec 32)
  deriving DecidableEq, Repr, Inhabited

/-- The steal pass of a light slot (R355): none, a request out to the n-th victim, or waiting after a refused pass. -/
inductive StealSt where
  | calm
  | asking (n : Nat)
  | resting
  deriving DecidableEq, Repr, Inhabited

/-- Where the context of a panel position lies: on a core, or in an image since it left a core (R338, R361). -/
inductive Site where
  | on (core : Nat)
  | away (core : Nat)
  deriving DecidableEq, Repr, Inhabited

/-- Ordered traffic for a panel position that reached a core which its context had left, and waits there to be forwarded
(R359): the core, the panel position of the sender, the thread that sent it, and what is sent. -/
structure Fwd where
  at_ : Nat
  src : Nat
  aid : Nat
  tr  : Traffic
  deriving DecidableEq, Repr, Inhabited

/-- A message of the ordered class in flight (R112, R122): its sender, its destination and what is sent. -/
structure Flow where
  src : Nat
  aid : Nat
  tag : BitVec 32
  dst : Nat
  tr  : Traffic
  deriving DecidableEq, Repr, Inhabited

/-- A core (R112, and the chapters that name its state). The record of number n holds the state of slot 15 and the
supervisor of core n, and the context of panel position n: its other slots with their latches, its stores, journal and
queues. That context lies on the core that `site` names: n itself, until a live migration moves it (R338). `ewL` is the
latch whose entry opened the entry window (R331). The entries of the four queues that the overflow ring holds stand each with the
number of its record in the core's share (R357). `held` is traffic that waits for room in a queue (R358). `known` is the
core map that the context has installed: the core to which it sends traffic for a panel position, that position's own where
none is listed (R359, R360); `fwdq` is traffic for this position that waits at a core which it left. `img` is the number of
the free values that an image of the context holds (log 9), and `sreqs` its slots whose requests travel with it. -/
structure Core where
  part    : Dword
  ltag    : BitVec 32
  site    : Site
  occ     : Vector (Option Nat) 16
  sst     : Vector SlotSt 16
  sp      : Memory
  full    : List Nat
  jrn     : Vector (Option JEnt) 64
  acc     : AMap Nat AccRow
  opm     : Vector OpSlot 32
  claims  : List Claim
  latch   : Option ArrLatch
  arrq    : List ArrOp
  binds   : List Binding
  lkw     : List QEnt
  lke     : List QEnt
  sq      : Vector (List QEnt) 8
  net     : Vector NetPort 4
  trees   : Vector (Option TreeTy) 4
  keys    : AMap Nat KeyEnt
  bindCtr : Nat
  runq    : List Nat
  deque   : List Nat
  taskq   : List Task
  msgq    : List Msg
  runRing : List (Nat × Nat)
  dqRing  : List (Nat × Nat)
  tkRing  : List (Nat × Task)
  mgRing  : List (Nat × Msg)
  quota   : Bool
  taskIx  : Nat
  seen    : Bool
  fb      : Dword
  uxt     : Vector Dword 64
  lat     : Vector Latch 17
  ssel    : Nat
  stvec   : Dword
  sipc    : Dword
  sit     : Bool
  ew      : Bool
  ewC     : Bool
  ewA     : Bool
  ewL     : Nat
  ssvc    : Dword
  ssvcf   : Bool
  reqs    : List Req
  smsg    : Vector Dword 4
  steal   : Vector StealSt 16
  cyc     : Dword
  held    : List Traffic
  known   : AMap Nat Nat
  fwdq    : List Fwd
  img     : Nat
  sreqs   : List Nat
  deriving DecidableEq, Repr, Inhabited

/-! ### Clusters -/

/-- A buffer-table handle (R300): state 0 free, 1 filling, 2 full, 3 draining; its error bit and tag. -/
structure Handle where
  st  : Nat
  e   : Bool
  tag : BitVec 16
  deriving DecidableEq, Repr, Inhabited

/-- A copy (R299): its packet, the launch, the agent that kicked it, the addresses of its ends, the bytes done, the runs of bytes that are
left, each by its offset and its length, the pieces read and not yet written, each by its offset with its bytes (its pending set, R112), the
bytes that wait as records of an absent context, whether it has started, an error found, the agents with which a conflict was reported
(R124, R129), whether its handle is full, and whether it has ended: reports may still name it. Its number holds the order of its kick, then
that of its take. -/
structure Copy where
  pkt    : List Byte
  tag    : BitVec 32
  kicker : Agent
  src    : Dword
  dst    : Dword
  len    : Nat
  done   : Nat
  left   : List (Nat × Nat)
  got    : List (Nat × List Byte)
  out    : Nat
  going  : Bool
  err    : Bool
  told   : List Agent
  filled : Bool
  fin    : Bool
  deriving DecidableEq, Repr, Inhabited

/-- A queue binding of a streamer (R350): the header's address, its weight, the packets taken in this turn, the word of the
doorbell with the last write of it that was noted, the order and the agent of the last kick since the streamer found the
queue without a ready packet (R299), the kicks of packets not yet taken, each with its order, the index that it wrote and its agent
(R129), and the launch. -/
structure QBind where
  q      : Dword
  weight : Nat
  turn   : Nat
  bell   : WordKey
  last   : Option Stamp
  kick   : Option (Nat × Agent)
  kicks  : List (Nat × Nat × Agent)
  tag    : BitVec 32
  deriving DecidableEq, Repr, Inhabited

/-- A cached translation: ASID, page address, log2 of the page size, the leaf (R373), and APSEQ at the walk that gave it (R375). -/
structure Tlb where
  asid : Nat
  va   : Nat
  lg   : Nat
  leaf : Dword
  seq  : Dword
  deriving DecidableEq, Repr, Inhabited

/-- A waiter at a fault: a thread's fetch or blocking instruction, an outstanding access, a journal entry, or an
engine (R375). -/
inductive Waiter where
  | thread (aid : Nat)
  | outst (aid seq sub : Nat)
  | element (aid : Nat) (name : PName)
  | journal (core idx : Nat)
  | copy (id : Nat)
  | queue (q : Dword)
  | tier (tag id : Nat)
  | overflow (core : Nat)
  | launchUnit (part request : Nat)
  deriving DecidableEq, Repr, Inhabited

/-- A fault entry (R375): ASID, page, and the waiting accesses with their addresses. -/
structure FaultEnt where
  asid : Nat
  page : Nat
  ws   : List (Waiter × Dword)
  deriving DecidableEq, Repr, Inhabited

/-- A fault that waits for a free fault entry (R375): its key, payload, the core it is reported to, its waiter. -/
structure FaultReq where
  asid   : Nat
  va     : Dword
  kind   : Nat
  reason : Nat
  tag    : BitVec 32
  seqno  : Dword
  dest   : Nat
  w      : Waiter
  deriving DecidableEq, Repr, Inhabited

/-- A basting entry (R359): beside its fields, the vacated core whose traffic it forwards and the panel position of the
context that left it. -/
structure Basting where
  v    : Bool
  ltag : BitVec 32
  new  : Nat
  fwd  : Dword
  old  : Nat
  pos  : Nat
  deriving DecidableEq, Repr, Inhabited

/-- A receive translation entry (R361), with the records of its ring in order (log 13), the held traffic, and whether the
bounce-full message went out. -/
structure Recv where
  v    : Bool
  fwdn : Bool
  ltag : BitVec 32
  core : Nat
  base : Dword
  size : Dword
  wcur : Dword
  rcur : Dword
  newc : Nat
  recs : List (Nat × Traffic)
  wait : List Traffic
  told : Bool
  deriving DecidableEq, Repr, Inhabited

/-- A cluster (R112, and the chapters that name its state). -/
structure Cluster where
  event   : BitVec 256
  handles : AMap Nat Handle
  copies  : AMap Nat Copy
  qbinds  : List QBind
  qnext   : Nat
  route   : AMap Nat (BitVec 16)
  tlb     : List Tlb
  faults  : Vector (Option FaultEnt) 16
  fwait   : List FaultReq
  bast    : Vector Basting 8
  recv    : Vector Recv 8
  crst    : Bool
  gated   : Bool
  deriving DecidableEq, Repr, Inhabited

/-! ### Launches -/

/-- A plan entry with its state (R303, R304): 0 not issued, 1 in progress, 2 resident, 3 released, 4 failed; the bytes done, the runs of
bytes that are left, the pieces read and not yet written, and its request to the service core (R302): 0 none, 1 sent, 2 answered, with the
completion dword. -/
structure PlanEnt where
  id     : Nat
  due    : Nat
  rel    : Nat
  action : Nat
  src    : Nat
  dst    : Nat
  addr   : Dword
  len    : Nat
  core   : Nat
  t0off  : Nat
  st     : Nat
  asked  : Bool
  revoked : Bool
  done   : Nat
  left   : List (Nat × Nat)
  got    : List (Nat × List Byte)
  out    : Nat
  svc    : Nat
  box    : Nat
  deriving DecidableEq, Repr, Inhabited

/-- A bound record of a position registry (R132, R291). `hand` is the new position of a POSSET not yet handed over. -/
structure PosRec where
  num  : Nat
  aid  : Nat
  pos  : Dword
  tag  : Dword
  hand : Option Dword
  deriving DecidableEq, Repr, Inhabited

/-- A box of a cell map (R292): its corner and the point past its last, the core that owns it, and the shards of a
one-point box, the owner first (R293). -/
structure Box where
  lo     : Nat × Nat × Nat
  hi     : Nat × Nat × Nat
  core   : Nat
  shards : List Nat
  deriving DecidableEq, Repr, Inhabited

/-- A coordinate space of a launch: the header and owner array of its cell map, the boxes that pleats and shards made, and
the number of pleats (R288, R292). -/
structure Space where
  hdr    : List Dword
  owners : List Nat
  boxes  : List Box
  pleats : Nat
  deriving DecidableEq, Repr, Inhabited

/-- A launch (R344 to R349, R24 to R26). `qbinds` are its queue bindings, each with its cluster; `vmode` is its victim group
mode, which no value that a program reads depends on (R90). -/
structure Launch where
  tag    : BitVec 32
  part   : Nat
  asid   : Nat
  ox     : Nat
  oy     : Nat
  w      : Nat
  ph     : Nat
  stages : List Nat
  pw     : Dword
  ktu    : Nat
  sets   : List (List Seg)
  fctl   : Dword
  hentry : Dword
  lentry : Dword
  lcnt   : Nat
  ovq    : Nat
  ovring : Dword
  look   : Nat
  plan   : List PlanEnt
  taken  : Option Nat
  spaces : AMap Nat Space
  recs   : AMap Nat (List PosRec)
  fb     : Dword
  uxt    : Vector Dword 64
  trees  : Vector (Option TreeTy) 4
  vmode  : Nat
  qbinds : List (Nat × QBind)
  mbox   : Dword
  cancel : Bool
  cbox   : List (Dword × Nat)
  /-- Clusters that a containment reset took from the launch (R383). -/
  gone   : List Nat
  /-- Engines that have seen the cancel bit (R205): 1152 plus its index for those of a cluster, 1440 for the tier engines. -/
  engSeen : List Nat
  /-- The number of its request in the launch queue, whose engine context serves it to its end (R128, R345), and the agent whose
  doorbell store made the request visible. -/
  request : Nat
  kicker : Agent
  rel    : List Contrib
  deriving DecidableEq, Repr, Inhabited

/-! ### The package -/

/-- A page-table update with its sequence number and the cores that wait for it (R374). -/
structure SeqRec where
  n    : Nat
  r    : UpdRec
  own  : Bool
  kick : Agent
  deriving DecidableEq, Repr, Inhabited

/-- A mailbox write of the table update unit that is due (R374): the record's number, its mailbox, the value, and the agent whose
doorbell store brought the record. -/
structure MailDue where
  n    : Nat
  mba  : Dword
  v    : Dword
  kick : Agent
  deriving DecidableEq, Repr, Inhabited

/-- A turn: the next instruction of a slot, a move, or the arrival of the n-th message in flight (R114, log 1). -/
inductive Turn where
  | issue (core slot : Nat)
  | move (i : Instr)
  | deliver (n : Nat)
  /-- The ready tasks of a core enter its run queue (R199). -/
  | start (core : Nat)
  /-- A soft error of memory or of a scratchpad, corrected or not, at a place (R390, log 56). -/
  | soft (p : Place) (fatal : Bool)
  /-- A soft error of a slot of operand memory (R390, log 56). -/
  | softOp (core slot : Nat) (fatal : Bool)
  /-- A command of the management interfaces other than read, write and readback (R403). -/
  | mgmt (cmd : Byte)
  deriving DecidableEq, Repr

/-- The root-of-trust mailbox (R402): its registers, whether a request is in progress, and the release of its submission. -/
structure RotSt where
  blk  : List Byte
  cmd  : Byte
  rseq : Dword
  rres : Byte
  busy : Bool
  rel  : List Contrib
  deriving DecidableEq, Repr, Inhabited

/-- A rank's entry of the Lamvan block (R388). -/
structure Rank where
  v     : Bool
  f     : Bool
  fid   : BitVec 16
  ports : BitVec 16
  deriving DecidableEq, Repr, Inhabited

/-- The firmware image in flash (R395, R399, R400): what is signed and its signature, the service kernel image, the pool that
it supplies with the registers that place it (R371, R372), and its service map when it has one. How the image holds them no
rule gives (log 10). -/
structure Firmware where
  code   : List Byte
  sig    : List Byte
  kernel : List Byte
  ptpb   : Dword
  ptps   : Dword
  atb    : Dword
  atn    : Dword
  pool   : Memory
  svc    : Option (List Nat)
  deriving DecidableEq, Repr, Inhabited

/-- The doorbell of a launch queue or of the update queue (R296, R345, R374): the last write of it that was noted, and of each one the
indices of the slots that it made visible and that are not taken yet, with its agent. -/
structure Bell where
  last  : Option Stamp
  kicks : List (List Nat × Agent)
  deriving DecidableEq, Repr, Inhabited

/-- Error-log registers of a die (R391). -/
structure ErrLog where
  base : Dword
  size : Dword
  widx : Dword
  ridx : Dword
  lost : BitVec 32
  deriving DecidableEq, Repr, Inhabited

/-- The machine. `fencing` holds from a fence move until software writes FSTEP (R389); `broken` holds the senders and
destinations between which a failed link refused an ordered message (R382); `bad` holds the 32-byte blocks of memory
and of scratchpads, by their first byte, that hold an uncorrectable soft error, and `badOp` the slots of operand memory, by core, that do
(R390, log 56). `bootTree` numbers the free values of the boot's tree (R400, log 7). `luErr` holds the partitions whose launch unit gets
an error response at a page (R376), `bells` the doorbells of the launch queues by partition, and at 8 that of the update queue, `asids`
the address space of each launch that started, by its tag (R339, R346), and `answer` the dword that the last read by an agent outside
received, none for an error response. `trapq` holds conflict traps of engines on their way to a thread whose context is absent or has
moved (R365). -/
structure State where
  -- the model's own fields (log 1, log 5)
  turns   : List Turn
  cur     : Nat × Nat
  pace    : Nat × Nat
  free    : Nat
  nextAid : Nat
  order   : Nat
  -- agents and memory
  threads : AMap Nat Thread
  cores   : AMap Nat Core
  clus    : AMap Nat Cluster
  clocks  : AMap Agent Clock
  objs    : AMap Obj (List Contrib)
  stamps  : AMap WordKey WordStamp
  wcache  : AMap WordKey WordCache
  mem     : Memory
  fwd     : AMap Nat (Nat × BitVec 8)
  launches : List Launch
  pendingL : AMap Nat Launch
  counts  : AMap Nat Nat
  asids   : AMap Nat Nat
  flows   : List Flow
  trapq   : List (Nat × ATrap × Dword)
  -- translation block (R372) and updates
  ptpb    : Dword
  ptps    : Dword
  atb     : Dword
  atn     : Dword
  apseq   : Dword
  uq      : Dword
  seqr    : Bool
  seqn    : Nat
  upds    : List SeqRec
  mbdue   : List MailDue
  -- partitions, peers, dies
  cpart   : AMap Nat (BitVec 3)
  pqueue  : AMap Nat Dword
  ranks   : AMap Nat Rank
  rank    : Nat
  stepTag : Dword
  fstep   : Dword
  plc     : Dword
  elog    : AMap Nat ErrLog
  links   : List (Nat × Nat)
  msix    : List (Dword × List Contrib)
  fencing : Bool
  broken  : List (Nat × Nat)
  bad     : List Place
  badOp   : List (Nat × Nat)
  -- identification, bring-up, security (R394 to R403)
  bup     : BitVec 8
  pwr     : BitVec 2
  dbg     : BitVec 2
  sec     : BitVec 2
  preq    : BitVec 2
  meas    : Vector (BitVec 256) 8
  rotst   : RotSt
  bootc   : Nat
  quotes  : Nat
  bootTree : Nat
  image   : Option Firmware
  svcMap  : List Nat
  i3c     : Option (BitVec 7)
  luErr   : List (Nat × Nat)
  bells   : AMap Nat Bell
  answer  : Option Dword
  deriving DecidableEq, Repr

/-! ### Reset -/

/-- A register file of zeros: only p0 is true (R24, R39, R325). -/
def Regs.zero : Regs where
  s := Vector.replicate 32 0
  v := Vector.replicate 32 0
  m := Vector.replicate 8 0
  p := 1
  fstat := 0
  rm := 0
  seed := 0
  ovwc := 0
  nanc := 0
  segsel := 0

/-- The reset vector (R325, R395). -/
def resetVector : Dword := 0x0000000000010000

/-- A segment that grants nothing. -/
def Seg.none : Seg := ⟨0, 0, 0⟩

/-- The segments of a supervisor slot at core reset (R325). -/
def Seg.superReset : Vector Seg 8 :=
  (Vector.replicate 8 Seg.none).set 0 ⟨0, BitVec.allOnes 64, 0b1111⟩

/-- A thread that has issued nothing. -/
def Thread.fresh (kind : ThKind) (core slot : Nat) (pc : Dword) : Thread where
  kind := kind
  pc := pc
  regs := Regs.zero
  segs := Vector.replicate 8 Seg.none
  pos := 0
  bnd := Option.none
  hh := false
  fidx := 0
  ltag := 0
  core := core
  slot := slot
  loc := .slot
  outst := []
  traps := []
  pend := Option.none
  pnpc := 0
  ltack := Option.none
  treg := false
  wait := Option.none
  inRot := true
  marked := false
  parked := false
  seq := 0
  fences := []
  reads := []
  setMask := 0
  acq := []
  depart := Option.none
  stage := 0
  kept := []
  entering := false
  ending := false

/-- A supervisor slot at core reset (R325). -/
def Thread.superReset (core slot : Nat) : Thread :=
  { Thread.fresh .super core slot resetVector with segs := Seg.superReset }

/-- An empty latch (R328). -/
def Latch.zero : Latch := ⟨0, 0, 0, 0, 0, 0, 0⟩

/-- The agent number of supervisor slot `slot` of a core: with the numbers of R393, less their base 0x1_0000. -/
def superAid (core slot : Nat) : Nat := 16 * core + slot

/-- A core at core reset (R325): slot 15 holds its supervisor thread. -/
def Core.reset (c : Nat) : Core where
  part := 0
  ltag := 0
  site := .on c
  occ := (Vector.replicate 16 Option.none).set 15 (some (superAid c 15))
  sst := (Vector.replicate 16 SlotSt.empty).set 15 .running
  sp := []
  full := []
  jrn := Vector.replicate 64 Option.none
  acc := []
  opm := Vector.replicate 32 ⟨Option.none, []⟩
  claims := []
  latch := Option.none
  arrq := []
  binds := []
  lkw := []
  lke := []
  sq := Vector.replicate 8 []
  net := Vector.replicate 4 ⟨.closed, Option.none, [], 0, 0, 0, 0, []⟩
  trees := Vector.replicate 4 Option.none
  keys := []
  bindCtr := 0
  runq := []
  deque := []
  taskq := []
  msgq := []
  runRing := []
  dqRing := []
  tkRing := []
  mgRing := []
  quota := false
  taskIx := 0
  seen := false
  fb := 0
  uxt := Vector.replicate 64 0
  lat := Vector.replicate 17 Latch.zero
  ssel := 0
  stvec := resetVector
  sipc := 0
  sit := false
  ew := false
  ewC := false
  ewA := false
  ewL := 0
  ssvc := 0
  ssvcf := false
  reqs := []
  smsg := Vector.replicate 4 0
  steal := Vector.replicate 16 .calm
  cyc := 0
  held := []
  known := []
  fwdq := []
  img := 0
  sreqs := []

/-- A cluster at reset. -/
def Cluster.reset : Cluster where
  event := 0
  handles := []
  copies := []
  qbinds := []
  qnext := 0
  route := []
  tlb := []
  faults := Vector.replicate 16 Option.none
  fwait := []
  bast := Vector.replicate 8 ⟨false, 0, 0, 0, 0, 0⟩
  recv := Vector.replicate 8 ⟨false, false, 0, 0, 0, 0, 0, 0, 0, [], [], false⟩
  crst := false
  gated := false

/-- The machine right after package reset: bring-up phase 0, no image, nothing listed (R394, R395). -/
def State.reset : State where
  turns := []
  cur := (0, 15)
  pace := (0, 0)
  free := 0
  nextAid := 18432
  order := 0
  threads := []
  cores := []
  clus := []
  clocks := []
  objs := []
  stamps := []
  wcache := []
  mem := []
  fwd := []
  launches := []
  pendingL := []
  counts := []
  asids := []
  flows := []
  trapq := []
  ptpb := 0
  ptps := 0
  atb := 0
  atn := 0
  apseq := 0
  uq := 0
  seqr := false
  seqn := 0
  upds := []
  mbdue := []
  cpart := []
  pqueue := []
  ranks := []
  rank := 0
  stepTag := 0
  fstep := 0
  plc := 0
  elog := []
  links := []
  msix := []
  fencing := false
  broken := []
  bad := []
  badOp := []
  bup := 0
  pwr := 0
  dbg := 0
  sec := BitVec.ofNat 2 Config.fuseSec.val
  preq := 0
  meas := Vector.replicate 8 0
  rotst := ⟨[], 0, 0, 0, false, []⟩
  bootc := 0
  bootTree := 0
  quotes := 0
  image := Option.none
  svcMap := []
  i3c := Option.none
  luErr := []
  bells := []
  answer := Option.none

/-! ### Stops -/

/-- Why the machine stops: it never does. An instruction that cannot go on leaves the state as it is, and so does a step with no
enabled move (log 1). -/
inductive Fault where
  deriving DecidableEq, Repr

/-- Why an instruction has no meaning. -/
inductive Refusal where
  /-- Raised by the arm of an instruction without a meaning. Safe: nothing is claimed of it. -/
  | notModelled (mnemonic : String)
  deriving DecidableEq, Repr

end Sys2Proof.Machine
end

