-- ==== Sys2Proof/Machine/Mem.lean ====
section
/-!
DEFINITION. Bytes of memory and accessors of the state's tables: the one home of every thread, core and cluster, and of
every byte of memory, in its canonical form.
-/

namespace Sys2Proof.Machine

/-! ### Bytes -/

/-- The byte at an address: 0 where unlisted (log 2). -/
def Memory.get : Memory → Nat → Byte
  | [], _ => 0
  | (a, b) :: m, x => if a = x then b else Memory.get m x

/-- Insert a byte in address order; a byte 0 leaves the address unlisted. -/
def Memory.set : Memory → Nat → Byte → Memory
  | [], x, v => if v = 0 then [] else [(x, v)]
  | (a, b) :: m, x, v =>
    if a < x then (a, b) :: Memory.set m x v
    else if a = x then (if v = 0 then m else (x, v) :: m)
    else if v = 0 then (a, b) :: m else (x, v) :: (a, b) :: m

/-- The canonical form: addresses strictly rising, no byte 0. -/
def Memory.wf : Memory → Bool
  | [] => true
  | [(_, b)] => decide (b ≠ 0)
  | (a, b) :: (a', b') :: m => decide (b ≠ 0) && decide (a < a') && Memory.wf ((a', b') :: m)

/-- The `n` bytes at an address. -/
def Memory.bytes (m : Memory) (a : Nat) : Nat → List Byte
  | 0 => []
  | n + 1 => Memory.get m a :: Memory.bytes m (a + 1) n

/-- The bytes of a list written at an address. -/
def Memory.put (m : Memory) (a : Nat) : List Byte → Memory
  | [] => m
  | b :: bs => Memory.put (Memory.set m a b) (a + 1) bs

/-- A little-endian value of bytes (R7). -/
def leVal : List Byte → Nat
  | [] => 0
  | b :: bs => b.toNat + 256 * leVal bs

/-- The `n` bytes of a value, least significant first (R7). -/
def leBytes : Nat → Nat → List Byte
  | 0, _ => []
  | n + 1, v => BitVec.ofNat 8 v :: leBytes n (v / 256)

/-- The bytes of an address range `[a, a + n)` cleared. -/
def Memory.clear (m : Memory) (a n : Nat) : Memory :=
  m.filter (fun e => decide (e.1 < a ∨ a + n ≤ e.1))

/-! ### Accessors -/

/-- The core of a number; a core that nothing changed is as at reset. -/
def State.core (s : State) (c : Nat) : Core := (amGet? s.cores c).getD (Core.reset c)

/-- The state with a core replaced. -/
def State.putCore (s : State) (c : Nat) (x : Core) : State := { s with cores := amSet s.cores c x }

/-- The state with a core changed. -/
def State.modCore (s : State) (c : Nat) (f : Core → Core) : State := s.putCore c (f (s.core c))

/-- The cluster of an index cy × 24 + cx. -/
def State.clu (s : State) (i : Nat) : Cluster := (amGet? s.clus i).getD Cluster.reset

/-- The state with a cluster replaced. -/
def State.putClu (s : State) (i : Nat) (x : Cluster) : State := { s with clus := amSet s.clus i x }

/-- The state with a cluster changed. -/
def State.modClu (s : State) (i : Nat) (f : Cluster → Cluster) : State := s.putClu i (f (s.clu i))

/-- The thread of an agent number. A supervisor slot that nothing changed is as at core reset. -/
def State.th (s : State) (aid : Nat) : Thread :=
  (amGet? s.threads aid).getD (Thread.superReset (aid / 16) (aid % 16))

/-- The state with a thread replaced. -/
def State.putTh (s : State) (aid : Nat) (t : Thread) : State := { s with threads := amSet s.threads aid t }

/-- The state with a thread changed. -/
def State.modTh (s : State) (aid : Nat) (f : Thread → Thread) : State := s.putTh aid (f (s.th aid))

/-- The cluster index of a core (R12). -/
def clusterOf (c : Nat) : Nat := c / 4

/-- The core on which the context of a panel position lies, or which it left for an image. -/
def Site.core : Site → Nat
  | .on c => c
  | .away c => c

/-- The core on which the context of panel position `p` lies (R338). -/
def State.phys (s : State) (p : Nat) : Nat := (s.core p).site.core

/-- The context of a panel position is on a core, not in an image. -/
def State.here (s : State) (p : Nat) : Bool :=
  match (s.core p).site with
  | .on _ => true
  | .away _ => false

/-- The record of the context that core `c` holds; with none, a record that stands for its empty slots and stores. -/
def State.guest (s : State) (c : Nat) : Nat :=
  match s.cores.find? (fun e => e.2.site == .on c) with
  | some e => e.1
  | none => if (s.core c).site = .on c then c else 2048 + c

/-- The core on which a thread executes: the one of its context, but a supervisor's in slot 15 its own. -/
def State.place (s : State) (t : Thread) : Nat := if t.kind = .super then t.core else s.phys t.core

/-- The cluster whose port a thread's accesses take. -/
def State.port (s : State) (t : Thread) : Nat := clusterOf (s.place t)

/-- The thread id of a thread (R12). -/
def State.tid (s : State) (t : Thread) : Nat := 16 * s.place t + t.slot

/-- The agent that a slot of a core holds. -/
def State.occ (s : State) (c slot : Nat) : Option Nat := vrd (s.core c).occ slot

/-- The launch of a tag. -/
def State.launch? (s : State) (tag : BitVec 32) : Option Launch := s.launches.find? (fun l => l.tag == tag)

/-- The state with a launch changed. -/
def State.modLaunch (s : State) (tag : BitVec 32) (f : Launch → Launch) : State :=
  { s with launches := s.launches.map (fun l => if l.tag = tag then f l else l) }

/-- The byte at a place. -/
def State.byte (s : State) : Place → Byte
  | .sp c o => (s.core c).sp.get o
  | .phys a => s.mem.get a

/-- The bytes at a place. -/
def State.bytes (s : State) (p : Place) (n : Nat) : List Byte :=
  match p with
  | .sp c o => (s.core c).sp.bytes o n
  | .phys a => s.mem.bytes a n

/-- The value of `n` bytes at a place (R7). -/
def State.val (s : State) (p : Place) (n : Nat) : Nat := leVal (s.bytes p n)

/-- The state with bytes written at a place. -/
def State.putBytes (s : State) (p : Place) (bs : List Byte) : State :=
  match p with
  | .sp c o => s.modCore c (fun k => { k with sp := k.sp.put o bs })
  | .phys a => { s with mem := s.mem.put a bs }

/-- The state with a value of `n` bytes written at a place. -/
def State.putVal (s : State) (p : Place) (n v : Nat) : State := s.putBytes p (leBytes n v)

/-- A place some bytes further on. -/
def Place.plus : Place → Nat → Place
  | .sp c o, n => .sp c (o + n)
  | .phys a, n => .phys (a + n)

/-- The aligned word that holds a byte (R123). -/
def Place.word : Place → WordKey
  | .sp c o => .sp c (o / 4)
  | .phys a => .phys (a / 4)

/-- The words of `n` bytes from a place. -/
def Place.words (p : Place) (n : Nat) : List WordKey :=
  match p with
  | .sp c o => (List.range ((o + n + 3) / 4 - o / 4)).map (fun i => .sp c (o / 4 + i))
  | .phys a => (List.range ((a + n + 3) / 4 - a / 4)).map (fun i => .phys (a / 4 + i))

/-- Bytes of populated HBM of a package (R378). -/
def hbmBytes : Nat := 768000000000

/-- A word of the device memory of this package, which has a home slice and cache words (R120). -/
def WordKey.isHbm : WordKey → Bool
  | .sp _ _ => false
  | .phys w => decide (4 * w < hbmBytes)

/-- A rank of the pod that is not fenced (R388). -/
def State.rankUp (s : State) (r : Nat) : Bool :=
  match amGet? s.ranks r with
  | some x => x.v && !x.f
  | Option.none => false

/-- An element inserted into a list in rising order of a key, after those of the same key. -/
def insertBy {α : Type} (key : α → Nat) (x : α) : List α → List α
  | [] => [x]
  | y :: l => if key x < key y then x :: y :: l else y :: insertBy key x l

/-- A list in rising order of a key, elements of one key in their old order. -/
def sortBy {α : Type} (key : α → Nat) (l : List α) : List α := l.foldl (fun acc x => insertBy key x acc) []

/-- A fresh free value's number, and the state after taking it. -/
def State.takeFree (s : State) : Nat × State := (s.free, { s with free := s.free + 1 })

/-- A fresh number in the order of waits and arrivals, and the state after taking it. -/
def State.takeOrder (s : State) : Nat × State := (s.order, { s with order := s.order + 1 })

end Sys2Proof.Machine
end

