-- ==== Sys2Proof/Machine/Order.lean ====
section
/-!
DEFINITION. The abstract machine of chapter 06: clocks and synchronisation (R116, R117, R118), stamps and the conflict
check (R123), and the cache words and registry (R120).
-/

namespace Sys2Proof.Machine

/-! ### Clocks -/

/-- The clock of an agent; every agent starts in region 1 with every other entry 0 (R116). -/
def State.clock (s : State) (t : Agent) : Clock := (amGet? s.clocks t).getD [(.ag t, 1)]

/-- Entry of a clock. -/
def Clock.at (c : Clock) (u : Agent) : Nat := amGet c (.ag u) 0

/-- What a clock knows of an agent's accesses to a word (R96, R116). -/
def Clock.atWord (c : Clock) (w : WordKey) (u : Agent) : Nat := Nat.max (c.at u) (amGet c (.word w u) 0)

/-- The larger entry, agent by agent (R116). -/
def Clock.join (c d : Clock) : Clock :=
  d.foldl (fun acc e => if amGet acc e.1 0 < e.2 then amSet acc e.1 e.2 else acc) c

/-- The region number of an agent. -/
def State.region (s : State) (t : Agent) : Nat := (s.clock t).at t

/-! ### Where an agent stands, and how a report names it -/

/-- Where an agent stands for scopes (R118): a thread at the panel position of its core, which a live migration does not
change (R338). -/
def State.agSpot (s : State) : Agent → Spot
  | .thread a => .core (s.th a).core
  | .copy cl _ => .cluster cl
  | .overflow cl => .cluster cl
  | .peer r => .peer r
  | _ => .package

/-- The core whose cache words an agent uses: a thread's. An engine's accesses perform at the home (log 4). -/
def State.agCore (s : State) : Agent → Option Nat
  | .thread a => some (s.th a).core
  | _ => none

/-- The launch tag of an agent, 0 for one that belongs to no launch. -/
def State.agTag (s : State) : Agent → BitVec 32
  | .thread a => (s.th a).ltag
  | .copy cl h => match amGet? (s.clu cl).copies h with
    | some c => c.tag
    | none => 0
  | .tier tag _ => BitVec.ofNat 32 tag
  | _ => 0

/-- The numbers of R393. -/
def agNumber (s : State) : Agent → Nat
  | .thread a => 0x10000 + a
  | .copy _ _ => 0
  | .tier tag id =>
    match s.launch? (BitVec.ofNat 32 tag) with
    | some l => match l.plan.find? (fun e => e.id == id) with
      | some e => 4 * ((e.core / 4 / 24) / 6) + ((e.core / 4 % 24) / 6)
      | none => 0
    | none => 0
  | .overflow cl => 0x100 + cl
  | .launchUnit p _ => 0x200 + p
  | .tableUnit => 0x300
  | .host => 0x400
  | .peer r => 0x500 + r
  | .rot => 0x608
  | .mgmt => 0x609
  | .nvme _ => 0x400
  | .die n => 0x600 + n

/-- The AGENT field that names an agent (R113, R208): kind 0 a thread by launch tag and thread id, 1 a copy by cluster
and handle, 2 any other by its number. -/
def State.rep (s : State) (t : Agent) : Dword :=
  match t with
  | .thread a =>
    if (s.th a).kind = .super then BitVec.ofNat 64 (2 * 2 ^ 60 + agNumber s t)
    else BitVec.ofNat 64 ((s.th a).ltag.toNat * 2 ^ 16 + s.tid (s.th a))
  | .copy cl i =>
    let h := match amGet? (s.clu cl).copies i with
      | some c => (c.pkt.getD 1 0).toNat
      | none => 0
    BitVec.ofNat 64 (2 ^ 60 + cl * 2 ^ 16 + h)
  | _ => BitVec.ofNat 64 (2 * 2 ^ 60 + agNumber s t)

/-- The core scope of an agent takes in the threads of its core and the engines that serve it, which are those of its
cluster (R118). -/
def Spot.sameCore : Spot → Spot → Bool
  | .core c, .core d => c == d
  | .core c, .cluster k => c / 4 == k
  | .cluster k, .core c => c / 4 == k
  | .cluster k, .cluster j => k == j
  | _, _ => false

/-- The cluster scope of an agent takes in the threads and the engines of its cluster (R118). -/
def Spot.sameCluster (a b : Spot) : Bool :=
  let cl : Spot → Option Nat
    | .core c => some (c / 4)
    | .cluster k => some k
    | _ => none
  (cl a).isSome && cl a == cl b

/-- An agent of this package. -/
def Spot.inPackage : Spot → Bool
  | .peer _ => false
  | _ => true

/-- An agent of a package of the pod: of this one, or of a rank that is valid and not fenced (R388). -/
def State.inPod (s : State) : Spot → Bool
  | .peer r => s.rankUp r
  | _ => true

/-- Whether an agent at `b` of launch `g'` lies in the scope instance of one at `a` of launch `g` (R118). -/
def State.inScope (s : State) (sc : Scope) (same : Bool) (a : Spot) (g : BitVec 32) (b : Spot) (g' : BitVec 32) : Bool :=
  same || (match sc with
    | .th => false
    | .core => a.sameCore b
    | .cl => a.sameCluster b
    | .pnl => decide (g = g' ∧ g ≠ 0)
    | .pkg => a.inPackage && b.inPackage
    | .pod => s.inPod a && s.inPod b)

/-! ### Synchronisation -/

/-- A contribution that an agent would make now at a scope. -/
def State.contrib (s : State) (t : Agent) (sc : Scope) : Contrib :=
  ⟨s.clock t, t, sc, s.agSpot t, s.agTag t⟩

/-- The contributions that pass between two scope instances, joined into a clock (R116). -/
def State.joins (s : State) (t : Agent) (sc : Scope) (ks : List Contrib) : Clock :=
  ks.foldl (fun c k =>
    if s.inScope k.scope (k.ag == t) k.spot k.tag (s.agSpot t) (s.agTag t) &&
        s.inScope sc (k.ag == t) (s.agSpot t) (s.agTag t) k.spot k.tag
    then c.join k.clk else c) (s.clock t)

/-- Contributions of one agent, scope and place are kept as one, joined: what they give together does not change. -/
def addContrib (ks : List Contrib) (k : Contrib) : List Contrib :=
  let same (x : Contrib) : Bool := x.ag == k.ag && x.scope == k.scope && x.spot == k.spot && x.tag == k.tag
  ks.filter (fun x => !same x) ++ [{ k with clk := (ks.filter same).foldl (fun c x => x.clk.join c) k.clk }]

/-- Release contributions added to an object (R116). -/
def State.release (s : State) (o : Obj) (ks : List Contrib) : State :=
  { s with objs := amSet s.objs o (ks.foldl addContrib ((amGet? s.objs o).getD [])) }

/-- Contributions of an object. -/
def State.contribs (s : State) (o : Obj) : List Contrib := (amGet? s.objs o).getD []

/-- What a thread read atomically since its last acquire, for a fence, begins anew at an acquire (R117). -/
def State.forgetReads (s : State) : Agent → State
  | .thread a => s.modTh a (fun t => { t with reads := [] })
  | _ => s

/-- An acquire of contributions by an agent (R116), without ending its region. -/
def State.acquire (s : State) (t : Agent) (sc : Scope) (ks : List Contrib) : State :=
  { s with clocks := amSet s.clocks t (s.joins t sc ks) }

/-- Words whose stream elements a thread has read ahead and not yet popped: their reads belong to every region of the
thread until the pop (R102). -/
def State.aheadWords (s : State) (t : Agent) : List WordKey :=
  match t with
  | .thread a => ((s.core (s.th a).core).binds.filter (fun b => b.aid == a)).flatMap (fun b => match b.port with
    | .affine st => st.ahead.flatMap (·.2)
    | _ => [])
  | _ => []

/-- The read stamps of an agent at words, moved to a region (R102). -/
def restamp (m : AMap WordKey WordStamp) (t : Agent) (n : Nat) (ws : List WordKey) : AMap WordKey WordStamp :=
  m.map (fun e =>
    if ws.contains e.1 then (e.1, { e.2 with r := e.2.r.map (fun x => if x.ag = t then { x with n := n } else x) }) else e)

/-- End of an agent's region: its own entry plus 1 (R116). -/
def State.endRegion (s : State) (t : Agent) : State :=
  { s with
    clocks := amSet s.clocks t (amSet (s.clock t) (.ag t) (s.region t + 1))
    stamps := restamp s.stamps t (s.region t + 1) (s.aheadWords t) }

/-- Each acquire on a core clears valid in every cache word that the core does not own (R120). -/
def State.invalidate (s : State) : Option Nat → State
  | none => s
  | some c =>
    { s with wcache := s.wcache.map (fun e =>
        (e.1, { e.2 with valid := e.2.valid.filter (fun x => decide (x.1 ≠ c ∨ x.1 ∈ e.2.owned)) })) }

/-- What ends an acquire by an agent: its core's cache words (R120), and what a fence would still acquire (R117). -/
def State.acquired (s : State) (t : Agent) : State := (s.invalidate (s.agCore t)).forgetReads t

/-- A synchronising operation on an object (R116): release first, then acquire, then the region ends. -/
def State.sync (s : State) (t : Agent) (o : Obj) (rel acq : Bool) (sc : Scope) : State :=
  let s1 := if rel then s.release o [s.contrib t sc] else s
  let s2 := if acq then (s1.acquire t sc (s1.contribs o)).acquired t else s1
  s2.endRegion t

/-- An acquire of contributions that travelled with a message, an entry or a start, as a synchronising operation. -/
def State.syncFrom (s : State) (t : Agent) (ks : List Contrib) : State :=
  ((s.acquire t .pkg ks).acquired t).endRegion t

/-- A release whose contribution travels with what is sent: the contribution, and the state after the region ended. -/
def State.syncSend (s : State) (t : Agent) : List Contrib × State :=
  ([s.contrib t .pkg], s.endRegion t)

/-! ### Conflicts -/

/-- Stamps of a word; a word that nothing accessed has none (R123). -/
def State.stamp (s : State) (w : WordKey) : WordStamp := (amGet? s.stamps w).getD ⟨none, []⟩

/-- Whether an access by `t` races with an earlier stamped one (R123). -/
def State.races (s : State) (t : Agent) (w : WordKey) (atom : Bool) (x : Stamp) : Bool :=
  decide (x.ag ≠ t) && !(x.atom && atom) && decide ((s.clock t).atWord w x.ag < x.n)

/-- The first stamp of a word with which an access conflicts (R123). -/
def State.conflict? (s : State) (t : Agent) (w : WordKey) (writes atom : Bool) : Option Stamp :=
  let st := s.stamp w
  match st.w.filter (s.races t w atom) with
  | some x => some x
  | none => if writes then st.r.find? (s.races t w atom) else none

/-- The word's stamps after an access of region `n` that passed the check (R123). -/
def State.markIn (s : State) (t : Agent) (n : Nat) (w : WordKey) (writes atom : Bool) : State :=
  let x : Stamp := ⟨t, n, atom, s.rep t⟩
  let st := s.stamp w
  let st' : WordStamp :=
    if writes then ⟨some x, []⟩ else ⟨st.w, st.r.filter (fun y => decide (y.ag ≠ t)) ++ [x]⟩
  { s with stamps := amSet s.stamps w st' }

/-- The word's stamps after an access of the agent's current region (R123). -/
def State.mark (s : State) (t : Agent) (w : WordKey) (writes atom : Bool) : State := s.markIn t (s.region t) w writes atom

/-- The first word of a list at which an access conflicts, with the stamp it finds (R123, R125). -/
def State.conflicts? (s : State) (t : Agent) (writes atom : Bool) : List WordKey → Option (WordKey × Stamp)
  | [] => none
  | w :: ws => match s.conflict? t w writes atom with
    | some x => some (w, x)
    | none => State.conflicts? s t writes atom ws

/-- All words of an access stamped. -/
def State.markAll (s : State) (t : Agent) (writes atom : Bool) (ws : List WordKey) : State :=
  ws.foldl (fun s w => s.mark t w writes atom) s

/-! ### Cache words and registry (R120, R225): device memory of the package only -/

/-- Cache and registry state of a word. -/
def State.cacheOf (s : State) (w : WordKey) : WordCache := (amGet? s.wcache w).getD ⟨none, [], []⟩

/-- The data of a word: the last write performed to it. -/
def State.wordData (s : State) : WordKey → BitVec 32
  | .sp c w => BitVec.ofNat 32 (s.val (.sp c (4 * w)) 4)
  | .phys w => BitVec.ofNat 32 (s.val (.phys (4 * w)) 4)

/-- The copies of a word less the one of its previous owner, which a write takes back. -/
def WordCache.revoked (x : WordCache) : AMap Nat (BitVec 32) := x.valid.filter (fun e => !x.owned.contains e.1)

/-- A plain write, made already, by an agent on core `c`: the word is registered with owner `c`, whose cache word is owned
and valid, and a previous owner's copy is revoked; a copy that another core read stays as it was. Under `.rp`, or by an
engine, the word is left unregistered in the slice, and `.rp` revokes every copy. -/
def State.cacheWrite (s : State) (c : Option Nat) (rp : Bool) (w : WordKey) : State :=
  if w.isHbm = false then s
  else
    let x := s.cacheOf w
    let y : WordCache := match c with
      | some c => if rp then ⟨none, [], []⟩ else ⟨some c, [c], amSet (x.revoked) c (s.wordData w)⟩
      | none => ⟨none, [], if rp then [] else x.revoked⟩
    { s with wcache := amSet s.wcache w y }

/-- A plain read on core `c` leaves its cache word valid with the data read; `.rp` leaves it unchanged. -/
def State.cacheRead (s : State) (c : Option Nat) (rp : Bool) (w : WordKey) : State :=
  match c with
  | none => s
  | some c =>
    let x := s.cacheOf w
    if w.isHbm = false || rp || (amGet? x.valid c).isSome then s
    else { s with wcache := amSet s.wcache w { x with valid := amSet x.valid c (s.wordData w) } }

/-- An atomic access leaves the word unregistered with its data in the slice; an atomic write revokes every copy. -/
def State.cacheAtomic (s : State) (writes : Bool) (w : WordKey) : State :=
  if w.isHbm = false then s
  else
    let x := s.cacheOf w
    { s with wcache := amSet s.wcache w (if writes then ⟨none, [], []⟩ else ⟨none, [], x.valid⟩) }

/-- The data that a plain read on core `c` finds in a word: its own valid copy's, else the registry's or the owner's. -/
def State.readWord (s : State) (c : Option Nat) (rp : Bool) (w : WordKey) : BitVec 32 :=
  match c with
  | none => s.wordData w
  | some c => if rp then s.wordData w else (amGet? (s.cacheOf w).valid c).getD (s.wordData w)

/-- The order of an access has an acquire (R117). -/
def ordAcq : Ord → Bool
  | .acq | .acqRel | .seq => true
  | _ => false

/-- The order of an access has a release (R117). -/
def ordRel : Ord → Bool
  | .rel | .acqRel | .seq => true
  | _ => false

end Sys2Proof.Machine
end

