-- ==== Sys2Proof/Machine/Translate.lean ====
section
/-!
DEFINITION. Addresses: the scratchpad windows (R92, R93), the physical map (R378), page walks and translation caches
(R367 to R373), and the segment check (R41, R219).
-/

namespace Sys2Proof.Machine

/-! ### Bit fields -/

/-- Bits [hi:lo] of a value (R34). -/
def bits (x : Nat) (hi lo : Nat) : Nat := x / 2 ^ lo % 2 ^ (hi + 1 - lo)

/-- Bit `i` of a value. -/
def bitAt (x i : Nat) : Bool := x / 2 ^ i % 2 == 1

/-! ### Scratchpad windows -/

/-- First address of the global aperture (R92). -/
def apertureBase : Nat := 0xFFFF800000000000
/-- First address of the local alias (R92). -/
def aliasBase : Nat := 0xFFFFC00000000000
/-- Bytes of the aperture for one core (R92). -/
def apertureStep : Nat := 0x400000

/-- An address lies in one of the two windows (R92). -/
def inWindow (va : Dword) : Bool := decide (apertureBase ≤ va.toNat)

/-- Core and offset that a window address names, for an access that executes on core `c` (R92). -/
def windowOf (c : Nat) (va : Dword) : Nat × Nat :=
  if aliasBase ≤ va.toNat then (c, va.toNat - aliasBase)
  else ((va.toNat - apertureBase) / apertureStep, (va.toNat - apertureBase) % apertureStep)

/-- How a report gives an address: an alias address as the aperture address of the same byte (R92). -/
def reportAddr (c : Nat) (va : Dword) : Dword :=
  if aliasBase ≤ va.toNat ∧ va.toNat - aliasBase < apertureStep then
    BitVec.ofNat 64 (apertureBase + c * apertureStep + (va.toNat - aliasBase))
  else va

/-! ### Partition word (R86) -/

/-- Data cache granules. -/
def l1gOf (w : Dword) : Nat := bits w.toNat 7 0
/-- Scratchpad granules. -/
def spgOf (w : Dword) : Nat := bits w.toNat 15 8
/-- Accumulator granules. -/
def accgOf (w : Dword) : Nat := bits w.toNat 23 16
/-- Context and queue granules. -/
def rfgOf (w : Dword) : Nat := bits w.toNat 31 24
/-- Heavy slots. -/
def heavyOf (w : Dword) : Nat := bits w.toNat 35 32
/-- Key-table granules. -/
def ktgOf (w : Dword) : Nat := bits w.toNat 43 36

/-! ### Panels -/

/-- Cluster coordinates of a cluster index (R10). -/
def cxOf (i : Nat) : Nat := i % 24
/-- Cluster coordinates of a cluster index (R10). -/
def cyOf (i : Nat) : Nat := i / 24

/-- A cluster lies in the panel of a launch (R16) and was not taken from it by a containment reset (R383). -/
def Launch.hasClu (l : Launch) (i : Nat) : Bool :=
  !l.gone.contains i && decide (i < 288 ∧ l.ox ≤ cxOf i ∧ cxOf i < l.ox + l.w ∧ l.oy ≤ cyOf i ∧ cyOf i < l.oy + l.ph)

/-- A core lies in the panel of a launch (R16). -/
def Launch.hasCore (l : Launch) (c : Nat) : Bool := l.hasClu (clusterOf c)

/-- Cores of a panel in core order. -/
def Launch.cores (l : Launch) : List Nat := (List.range 1152).filter l.hasCore

/-- Cores of a panel in core order, those that a containment reset took among them. -/
def Launch.panelCores (l : Launch) : List Nat := ({ l with gone := [] } : Launch).cores

/-- A core number names a core of the launch's panel (R91, R198, R200, R202). -/
def State.inPanel (s : State) (tag : BitVec 32) (c : Nat) : Bool :=
  match s.launch? tag with
  | some l => l.hasCore c
  | none => false

/-- Offset of the first scratchpad byte that no access reaches under a partition word: the key-table window begins
there (R93, R111). -/
def spLimit (w : Dword) : Nat := (spgOf w - ktgOf w) * 65536

/-- The `n` bytes at an offset of core `c` exist and may be accessed (R93): inside the scratchpad, outside the key-table
window, in the panel of the launch. A supervisor slot belongs to no launch, and only the first two conditions bind it. -/
def State.spOk (s : State) (super : Bool) (tag : BitVec 32) (c off n : Nat) : Bool :=
  if super then decide (c < 1152 ∧ off + n ≤ spLimit (s.core (s.guest c)).part)
  else
    match s.launch? tag with
    | some l => l.hasCore c && decide (off + n ≤ spLimit l.pw)
    | none => false

/-- The context of panel position `p` of a launch is absent (R361). -/
def State.absent (s : State) (tag : BitVec 32) (p : Nat) : Bool := decide ((s.core p).ltag = tag) && !s.here p

/-! ### Where traffic finds a context (R359 to R362) -/

/-- The core at which traffic for panel position `p` arrives when it is sent to core `c`: the one to which its image was
restored, where a receive translation entry says so (R361, R362); at most three such entries are followed. -/
def State.arrives (s : State) (tag : BitVec 32) (p : Nat) : Nat → Nat → Nat
  | 0, c => c
  | n + 1, c =>
    if (s.core p).site.core = c then c
    else
      match (s.clu (clusterOf c)).recv.toList.find? (fun b => b.v && b.fwdn && b.ltag == tag && b.core == c) with
      | some b => State.arrives s tag p n b.newc
      | none => c

/-- The core at which traffic of a context for panel position `p` first arrives, by the core map that it has installed
(R359). -/
def State.firstStop (s : State) (tag : BitVec 32) (src p : Nat) : Nat :=
  s.arrives tag p 3 (if (s.core src).ltag = tag then amGet (s.core src).known p p else p)

/-- The valid basting entry that forwards the traffic for panel position `p` at a core which it left (R359). -/
def State.basting? (s : State) (tag : BitVec 32) (p c : Nat) : Option Basting :=
  (s.clu (clusterOf c)).bast.toList.find? (fun b => b.v && b.ltag == tag && b.old == c && b.pos == p)

/-- Traffic for panel position `p` that arrives at core `c` finds its context, there or through basting entries. -/
def State.findsFrom (s : State) (tag : BitVec 32) (p : Nat) : Nat → Nat → Bool
  | 0, c => decide (c = s.phys p)
  | n + 1, c =>
    decide (c = s.phys p) || (match s.basting? tag p c with
      | some b => State.findsFrom s tag p n (s.arrives tag p 3 b.new)
      | none => false)

/-- An access of a context to panel position `p` finds it (R359). -/
def State.finds (s : State) (tag : BitVec 32) (src p : Nat) : Bool := s.findsFrom tag p 8 (s.firstStop tag src p)

/-! ### Routing (R379 to R383) -/

/-- Routing-table entry of a cluster for a partition and destination (R380). -/
def State.routeEnt (s : State) (i part d : Nat) : BitVec 16 := amGet (s.clu i).route (290 * part + d) 0

/-- The compute die of a cluster (R10). -/
def dieOfClu (i : Nat) : Nat := 4 * (cyOf i / 6) + cxOf i / 6

/-- The die of a destination: a compute die, or IOD0 and IOD1 for destinations 288 and 289 (R380, R391). -/
def dieOfDest (d : Nat) : Nat := if d < 288 then dieOfClu d else d - 280

/-- The destination that a port of a cluster leads to (R380): a cluster, or an I/O die at the two ends. -/
def portNext (i p : Nat) : Option Nat :=
  match p with
  | 1 => some (if cxOf i = 0 then 288 else i - 1)
  | 2 => some (if cxOf i = 23 then 289 else i + 1)
  | 3 => if cyOf i = 0 then none else some (i - 24)
  | 4 => if cyOf i = 11 then none else some (i + 24)
  | _ => none

/-- Ports that may carry adaptive-class traffic (R380). -/
def adaptivePorts (e : BitVec 16) : List Nat := (List.range 5).filter (fun q => e.getLsbD (5 + q))

/-- The port that a message takes at a router (R380): ORD in the ordered class, one of ADP in the adaptive class. -/
def hopPort (ord : Bool) (n i : Nat) (e : BitVec 16) : Nat :=
  if ord then bits e.toNat 2 0
  else match adaptivePorts e with
    | [] => 0
    | [q] => q
    | qs => qs.getD (Config.portPick n i % qs.length) 0

/-- How a message fares: it arrives, it gets an error response, or it gets one at a failed boundary (R379, R380, R382). -/
inductive Way where
  | through | refused | failed
  deriving DecidableEq, Repr

/-- The boundary of two dies has not failed (R382). -/
def State.linkUp (s : State) (a b : Nat) : Bool := a == b || !(s.links.contains (a, b) || s.links.contains (b, a))

/-- The way of a message by the entries of each router that it meets, the destination's own among them, and over the
boundaries of the dies (R380, R382). `n` is the number of the free values of its choices. -/
def State.path (s : State) (ord : Bool) (n part d : Nat) : Nat → Nat → Way
  | 0, _ => .refused
  | f + 1, i =>
    if 288 ≤ i then (if i = d then .through else .refused)
    else
      let e := s.routeEnt i part d
      let p := hopPort ord n i e
      if e.getLsbD 15 = false then .refused
      else if p = 0 then (if i = d then .through else .refused)
      else
        match portNext i p with
        | none => .refused
        | some j => if s.linkUp (dieOfDest i) (dieOfDest j) then State.path s ord n part d f j else .failed

/-- The way of a message from a cluster to a destination (R379, R380, R382, R383, R397): one to a cluster under reset, gated,
or of another partition is refused. A supervisor's message carries the partition of its destination cluster, and its sender's to
an I/O die (log 36). A message within a cluster meets no router. -/
def State.way (s : State) (ord super : Bool) (a b : Nat) : Way :=
  let pa := (amGet s.cpart a 0).toNat
  let pb := if b < 288 then (amGet s.cpart b 0).toNat else pa
  if (s.clu b).crst || (s.clu b).gated || (!super && decide (pa ≠ pb)) then .refused
  else if a = b then .through
  else s.path ord s.free pb b 300 a

/-- The routers that an ordered-class message meets from a cluster to a destination (R380). -/
def State.pathNodes (s : State) (part d : Nat) : Nat → Nat → List Nat
  | 0, _ => []
  | f + 1, i =>
    if 288 ≤ i then [i]
    else
      match portNext i (hopPort true 0 i (s.routeEnt i part d)) with
      | none => [i]
      | some j => i :: State.pathNodes s part d f j

/-- The path that a held route from a cluster to another reserves (R273). -/
def State.heldPath (s : State) (a b : Nat) : List Nat := if a = b then [a] else s.pathNodes (amGet s.cpart b 0).toNat b 300 a

/-- The way of a message on a held route: its own path, whatever the tables say by now (R273, R381), unless an end has moved since. -/
def State.wayOn (s : State) (path : List Nat) (a b : Nat) : Way :=
  if path.head? ≠ some a ∨ path.getLast? ≠ some b then s.way true false a b
  else if (s.clu b).crst || (s.clu b).gated || decide (amGet s.cpart a 0 ≠ amGet s.cpart b 0) then .refused
  else if (path.zip path.tail).all (fun e => s.linkUp (dieOfDest e.1) (dieOfDest e.2)) then .through
  else .failed

/-- The router at which a message from an I/O die (288 or 289) to a cluster enters the mesh: the end of that cluster's row, which no rule
gives (DESIGN CHOICE, log 36). -/
def entryOf (io b : Nat) : Nat := 24 * cyOf b + (if io = 288 then 0 else 23)

/-- The way of a message from a cluster or an I/O die to a cluster (R380, R382, R383, R397); one from an I/O die bears the
partition of its destination (log 36). -/
def State.wayFrom (s : State) (ord super : Bool) (a b : Nat) : Way :=
  if a < 288 then s.way ord super a b
  else if (s.clu b).crst || (s.clu b).gated then .refused
  else if s.linkUp (dieOfDest a) (dieOfClu (entryOf a b)) then s.path ord s.free (amGet s.cpart b 0).toNat b 300 (entryOf a b)
  else .failed

/-- The state as an access of a control block meets it: CRST answers while its cluster is under reset (R383). -/
def State.resetSeen (s : State) (i off : Nat) : State :=
  if 0x400 ≤ off ∧ off < 0x408 then s.modClu i (fun k => { k with crst := false }) else s

/-- A message of the adaptive class from a cluster reaches a destination. -/
def State.reaches (s : State) (super : Bool) (a b : Nat) : Bool := s.way false super a b == .through

/-- Messages that basting entries forward on the way to panel position `p` are counted at them (R359). -/
def State.passFrom (s : State) (tag : BitVec 32) (p : Nat) : Nat → Nat → State
  | 0, _ => s
  | n + 1, c =>
    if c = s.phys p then s
    else match s.basting? tag p c with
      | none => s
      | some b =>
        let s1 := s.modClu (clusterOf c) (fun k =>
          { k with bast := k.bast.map (fun x => if x = b then { x with fwd := x.fwd + 1 } else x) })
        State.passFrom s1 tag p n (s1.arrives tag p 3 b.new)

/-- The state after a message of a context to a panel position has passed the basting entries on its way. -/
def State.passed (s : State) (tag : BitVec 32) (src p : Nat) : State := s.passFrom tag p 8 (s.firstStop tag src p)

/-! ### The physical map (R378) -/

/-- What a package physical address reaches. -/
inductive Target where
  | hbm (pa : Nat)
  | peer (rank pa : Nat)
  | host (pa : Nat)
  | cluster (i off : Nat)
  | package (off : Nat)
  | storage (port : Nat)
  | none
  deriving DecidableEq, Repr

/-- What a physical address reaches (R378); the package's own rank aliases local HBM. -/
def State.target (s : State) (pa : Nat) : Target :=
  if pa < 0x010000000000 then (if pa < hbmBytes then .hbm pa else .none)
  else if pa < 0x010000000000 + 0x10000 * 288 then
    .cluster ((pa - 0x010000000000) / 0x10000) ((pa - 0x010000000000) % 0x10000)
  else if 0x010100000000 ≤ pa ∧ pa < 0x010100010000 then .package (pa - 0x010100000000)
  else if 0x010200000000 ≤ pa ∧ pa < 0x010600000000 then .storage ((pa - 0x010200000000) / 2 ^ 32)
  else if 0x1000000000000 ≤ pa ∧ pa < 0x1000000000000 + 64 * 2 ^ 40 then
    let r := (pa - 0x1000000000000) / 2 ^ 40
    let o := (pa - 0x1000000000000) % 2 ^ 40
    if hbmBytes ≤ o then .none
    else if r = s.rank then .hbm o
    else if s.rankUp r then .peer r pa
    else .none
  else if 0x8000000000000 ≤ pa ∧ pa < 2 ^ 52 then .host pa
  else .none

/-- An address of the package control space: a cluster block or the package block (R378). -/
def inControl (va : Dword) : Bool :=
  decide ((0x010000000000 ≤ va.toNat ∧ va.toNat < 0x010000000000 + 0x10000 * 288) ∨
    (0x010100000000 ≤ va.toNat ∧ va.toNat < 0x010100010000))

/-! ### Walks (R369 to R371) -/

/-- The outcome of a walk. -/
inductive Walk where
  | leaf (e : Dword) (lg : Nat)
  | absent
  | malformed
  /-- It met an uncorrectable soft error (R390). -/
  | soft
  deriving DecidableEq, Repr

/-- An access of `n` bytes at a place meets an uncorrectable soft error (R390). -/
def State.meetsBad (s : State) (p : Place) (n : Nat) : Bool :=
  s.bad.any (fun b => match b, p with
    | .sp c o, .sp c' o' => c == c' && decide (o < o' + n ∧ o' < o + 32)
    | .phys a, .phys a' => decide (a < a' + n ∧ a' < a + 32)
    | _, _ => false)

/-- Entry `i` of a node of the pool; an entry with reserved bits set where the pool does not lie in populated HBM (R378). -/
def State.poolEntry (s : State) (node i : Nat) : Nat :=
  if hbmBytes < s.ptpb.toNat + node + 8 * i + 8 then 3 + 2 ^ 63 else leVal (s.mem.bytes (s.ptpb.toNat + node + 8 * i) 8)

/-- Entry `i` of a node of the pool cannot be read (R390). -/
def State.poolBad (s : State) (node i : Nat) : Bool := s.meetsBad (.phys (s.ptpb.toNat + node + 8 * i)) 8

/-- The walk from a node of level `lv` (R369); `lv` counts down to 1. -/
def State.walkAt (s : State) (va : Nat) : Nat → Nat → Walk
  | 0, _ => .malformed
  | lv + 1, node =>
    let lo := if lv = 0 then 16 else 12 + 9 * lv
    let hi := if lv = 0 then 20 else 20 + 9 * lv
    if s.ptps.toNat ≤ node then .malformed
    else if s.poolBad node (bits va hi lo) then .soft
    else
      let e := s.poolEntry node (bits va hi lo)
      if bitAt e 0 = false then .absent
      else if bitAt e 4 then
        if lv = 3 ∨ bits e 63 52 ≠ 0 ∨ bits e 15 5 ≠ 0 ∨ e % 2 ^ lo / 2 ^ 16 ≠ 0 then .malformed
        else .leaf (BitVec.ofNat 64 e) lo
      else if lv = 0 ∨ bits e 63 52 ≠ 0 ∨ bits e 7 5 ≠ 0 ∨ bits e 3 1 ≠ 0 then .malformed
      else if lv ≠ 1 ∧ bits e 11 8 ≠ 0 then .malformed
      else State.walkAt s va lv (e / 256 % 2 ^ 44 * 256)

/-- The walk of a virtual address in an address space (R369, R370, R371). -/
def State.walk (s : State) (asid : Nat) (va : Dword) : Walk :=
  if va.toNat / 2 ^ 48 ≠ 0 then .malformed
  else if s.atn.toNat ≤ asid then .malformed
  else if s.ptps.toNat ≤ s.atb.toNat + 8 * asid then .malformed
  else if s.poolBad s.atb.toNat asid then .soft
  else
    let r := s.poolEntry s.atb.toNat asid
    if bitAt r 0 = false then .malformed
    else if bits r 63 52 ≠ 0 ∨ bits r 11 1 ≠ 0 then .malformed
    else s.walkAt va.toNat 4 (bits r 51 12 * 4096)

/-- The right that an access needs of a leaf (R373). -/
inductive Need where
  | read | write | both | fetch
  deriving DecidableEq, Repr

/-- Reason of a page fault at a leaf, 0 when its rights grant the access (R375). -/
def leafReason (e : Dword) (n : Need) : Nat :=
  match n with
  | .read => if e.getLsbD 1 then 0 else 4
  | .write => if e.getLsbD 2 then 0 else 2
  | .both => if e.getLsbD 2 = false then 2 else if e.getLsbD 1 then 0 else 4
  | .fetch => if e.getLsbD 3 then 0 else 3

/-- Physical address of a virtual address through a leaf. -/
def leafPa (e : Dword) (lg : Nat) (va : Dword) : Nat := (bits e.toNat 51 16 * 65536) / 2 ^ lg * 2 ^ lg + va.toNat % 2 ^ lg

/-- A translation (R367, R373): a physical address, an error response, a machine check, a soft error, or a page fault. -/
inductive Xlat where
  | pa (a : Nat)
  | error
  | check
  | soft
  | fault (reason : Nat)
  deriving DecidableEq, Repr

/-- The cached leaf of a page, if the cache of the cluster port holds one. -/
def State.tlbHit (s : State) (cl asid : Nat) (va : Dword) : Option Tlb :=
  (s.clu cl).tlb.find? (fun t => t.asid == asid && va.toNat / 2 ^ t.lg * 2 ^ t.lg == t.va)

/-- The leaf that an access uses at a cluster port (R373): the one walked, or a cached one that no invalidation has
covered since; where the two differ, a free value says whether the cache still holds the old one (log 6). -/
def State.leafFor (s : State) (cl asid : Nat) (va : Dword) : Walk × State :=
  let w := s.walk asid va
  match s.tlbHit cl asid va with
  | some t =>
    if w = .leaf t.leaf t.lg then (w, s)
    else
      let (n, s1) := s.takeFree
      if Config.cached n then (.leaf t.leaf t.lg, s1)
      else (w, s1.modClu cl (fun k => { k with tlb := k.tlb.filter (fun x => x ≠ t) }))
  | none => (w, s)

/-- A valid leaf enters the cache of the port that walked (R373). -/
def State.fillTlb (s : State) (cl asid : Nat) (va : Dword) (e : Dword) (lg : Nat) : State :=
  let t : Tlb := ⟨asid, va.toNat / 2 ^ lg * 2 ^ lg, lg, e, s.apseq⟩
  if (s.clu cl).tlb.any (fun x => x.asid == t.asid && x.va == t.va && x.lg == lg && x.leaf == e) then s
  else s.modClu cl (fun k => { k with tlb := t :: k.tlb })

/-- APSEQ at the walk that gave the leaf of an access refused just now (R375): that of the cached leaf, where the cache still holds one
that the tables have changed since, else the present one. -/
def State.walkSeq (s : State) (cl asid : Nat) (va : Dword) : Dword :=
  match s.tlbHit cl asid va with
  | some t => if s.walk asid va = .leaf t.leaf t.lg then s.apseq else t.seq
  | none => s.apseq

/-- The cached translations of a page of a port are dropped, so that an access made again walks again (R376). -/
def State.dropPage (s : State) (cl asid page : Nat) : State :=
  s.modClu cl (fun k => { k with tlb := k.tlb.filter (fun t => !(t.asid == asid && page * 65536 / 2 ^ t.lg * 2 ^ t.lg == t.va)) })

/-- What an access that is to be made again leaves of its translation at a port: the free values that it took and the cached leaves. -/
def State.keepWalk (s s1 : State) (cl : Nat) : State :=
  let s2 : State := { s with free := s1.free }
  if (s1.clu cl).tlb = (s.clu cl).tlb then s2 else s2.modClu cl (fun k => { k with tlb := (s1.clu cl).tlb })

/-- Translation of an address outside the scratchpad windows by an access through a cluster port (R367, R373, R375).
The control space is not translated for a supervisor slot, and no user translation reaches it (R378). A fault in ASID 0
is an error response at once (R376). -/
def State.xlate (s : State) (cl asid : Nat) (super : Bool) (va : Dword) (n : Need) : Xlat × State :=
  if super && inControl va then (.pa va.toNat, s)
  else
    match s.leafFor cl asid va with
    | (.malformed, s1) => (.check, s1)
    | (.soft, s1) => (.soft, s1)
    | (.absent, s1) => (if asid = 0 then .error else .fault 1, s1)
    | (.leaf e lg, s1) =>
      let s2 := s1.fillTlb cl asid va e lg
      if leafReason e n = 0 then
        (if !super && inControl (BitVec.ofNat 64 (leafPa e lg va)) then .error else .pa (leafPa e lg va), s2)
      else (if asid = 0 then .error else .fault (leafReason e n), s2)

/-! ### Segments -/

/-- Entry `g` of a segment set of a launch. -/
def Launch.segOf (l : Launch) (set g : Nat) : Seg := (l.sets.getD set []).getD g Seg.none

/-- Segment `g` as an access of the thread uses it (R41, R43): its own register, or entry `g` of its current set; g7
grants nothing at user level. -/
def State.seg (s : State) (t : Thread) (g : BitVec 3) : Seg :=
  match t.kind with
  | .super => vrd t.segs g.toNat
  | .heavy | .handler => if g = 7 then Seg.none else vrd t.segs g.toNat
  | .light =>
    if g = 7 then Seg.none
    else match s.launch? t.ltag with
      | some l => l.segOf t.regs.segsel.toNat g.toNat
      | none => Seg.none

/-- A segment is valid, grants a right and holds `n` bytes at an address (R41, R219). -/
def Seg.grants (g : Seg) (a n : Nat) (rd wr : Bool) : Bool :=
  g.rts.getLsbD 3 && (!rd || g.rts.getLsbD 0) && (!wr || g.rts.getLsbD 1) &&
    decide (g.base.toNat ≤ a ∧ a + n ≤ g.base.toNat + g.limit.toNat)

/-- A segment may be fetched from (R42). -/
def Seg.fetches (g : Seg) (a n : Nat) : Bool :=
  g.rts.getLsbD 3 && g.rts.getLsbD 2 && decide (g.base.toNat ≤ a ∧ a + n ≤ g.base.toNat + g.limit.toNat)

/-- The segments that a fetch of the thread is checked against (R42): g0 to g6, the current set, or g0 to g7. -/
def State.fetchSegs (s : State) (t : Thread) : List Seg :=
  match t.kind with
  | .super => t.segs.toList
  | .heavy | .handler => t.segs.toList.take 7
  | .light =>
    match s.launch? t.ltag with
    | some l => l.sets.getD t.regs.segsel.toNat []
    | none => []

/-- The segment check of a fetch of `n` bytes (R42): nothing where no valid segment grants X, else every byte must lie in
a valid segment that grants X. -/
def State.fetchOk (s : State) (t : Thread) (n : Nat) : Bool :=
  let xs := (s.fetchSegs t).filter (fun g => g.rts.getLsbD 3 && g.rts.getLsbD 2)
  xs.isEmpty || (List.range n).all (fun i => xs.any (fun g => g.fetches (t.pc.toNat + i) 1))

/-- The address space of a thread (R367). -/
def State.asid (s : State) (t : Thread) : Nat :=
  match t.kind with
  | .super => 0
  | _ => match s.launch? t.ltag with
    | some l => l.asid
    | none => 0

end Sys2Proof.Machine
end

