-- ==== Sys2Proof/Machine/Ops.lean ====
section
/-!
DEFINITION. Shared operations: the error log (R391, R392), system messages (R343), page faults and machine checks (R371,
R375), registers of a thread, leaving and taking a slot (R22, R23), raising and taking an exception (R206 to R210, R213,
R331 to R333), returning from one (R212, R334), and waits with their wake moves (R188, R195).
-/

namespace Sys2Proof.Machine

/-! ### Registers of a thread (R36 to R39) -/

/-- S[n]. -/
def Thread.rS (t : Thread) (n : SReg) : Dword := vrd t.regs.s n.toNat
/-- V[n]. -/
def Thread.rV (t : Thread) (n : VReg) : Vec := vrd t.regs.v n.toNat
/-- P[n]; p0 is true (R39). -/
def Thread.rP (t : Thread) (n : PReg) : Bool := n == 0 || t.regs.p.getLsbD n.toNat
/-- M[n]; m0 is all ones (R38). -/
def Thread.rM (t : Thread) (n : MReg) : BitVec 32 := if n = 0 then BitVec.allOnes 32 else vrd t.regs.m n.toNat
/-- S[n] ← x. -/
def Thread.wS (t : Thread) (n : SReg) (x : Dword) : Thread := { t with regs := { t.regs with s := vwr t.regs.s n.toNat x } }
/-- V[n] ← x. -/
def Thread.wV (t : Thread) (n : VReg) (x : Vec) : Thread := { t with regs := { t.regs with v := vwr t.regs.v n.toNat x } }
/-- A predicate word with bit `n` replaced; a write to p0 is ignored (R39). -/
def setPred (w : BitVec 32) (n : PReg) (x : Bool) : BitVec 32 :=
  if n = 0 then w
  else if x then w ||| (1#32 <<< n.toNat) else w &&& ~~~(1#32 <<< n.toNat)
/-- P[n] ← x; a write to p0 is ignored (R39). -/
def Thread.wP (t : Thread) (n : PReg) (x : Bool) : Thread := { t with regs := { t.regs with p := setPred t.regs.p n x } }
/-- M[n] ← x; a write to m0 is ignored (R38). -/
def Thread.wM (t : Thread) (n : MReg) (x : BitVec 32) : Thread :=
  if n = 0 then t else { t with regs := { t.regs with m := vwr t.regs.m n.toNat x } }
/-- Flags ORed into `fstat` (R45). -/
def Thread.orFlags (t : Thread) (f : BitVec 6) : Thread := { t with regs := { t.regs with fstat := t.regs.fstat ||| f } }

/-- The predicate word, whose bit 0 reads 1 (R39, R182). -/
def Thread.pword (t : Thread) : BitVec 32 := t.regs.p ||| 1

/-- `fctl` (R46). -/
def Thread.fctl (t : Thread) : Dword := BitVec.ofNat 64 (t.regs.seed.toNat * 2 ^ 32 + t.regs.rm.toNat)
/-- `mstat` (R47). -/
def Thread.mstat (t : Thread) : Dword := BitVec.ofNat 64 (t.regs.ovwc.toNat * 2 ^ 32 + t.regs.nanc.toNat)

/-! ### Error log (R391, R392) -/

/-- The compute die of a core (R10). -/
def dieOf (c : Nat) : Nat := 4 * (cyOf (clusterOf c) / 6) + cxOf (clusterOf c) / 6

/-- The die of a thread's core. -/
def State.dieTh (s : State) (t : Thread) : Nat := dieOf (s.place t)

/-- Dword 0 to 3 of a record. -/
def logDwords (cls cause n : Nat) (addr : Dword) (agent : Dword) (p virt : Bool) : List Byte :=
  leBytes 8 (cls * 2 ^ 56 + cause * 2 ^ 48 + n % 2 ^ 32) ++ leBytes 8 addr.toNat ++ leBytes 8 agent.toNat ++
    leBytes 8 (2 * p.toNat + virt.toNat)

/-- An address in the pinned pool, which only the table update unit writes (R371). -/
def State.inPool (s : State) (p : Place) (n : Nat) : Bool :=
  match p with
  | .phys a => decide (s.ptps.toNat ≠ 0 ∧ a < s.ptpb.toNat + s.ptps.toNat ∧ s.ptpb.toNat < a + n)
  | .sp _ _ => false

/-- A write index of a log advanced with a release of the die that wrote the bytes from `a` on (R391). The die's writes are those of an
agent of its own, and look for no conflict (DESIGN CHOICE, log 56). -/
def State.logRelease (s : State) (die a n : Nat) : State :=
  let ag := Agent.die die
  let ws := (Place.phys a).words n
  let s1 := ws.foldl (fun s w => s.cacheWrite none false w) (s.markAll ag true false ws)
  (s1.release (.log die) [s1.contrib ag .pkg]).endRegion ag

/-- Records written in one step with one release, or dropped together when the ring has no room for all, keeps none, does not lie in
populated HBM or reaches into the pinned pool (R371, R378, R391, R392). -/
def State.logErr (s : State) (die cls cause : Nat) (addr : Dword) (virt : Bool) (agent : Dword)
    (second : Option Dword) : State :=
  let e := amGet s.elog die ⟨0, 0, 0, 0, 0⟩
  let k := if second.isSome then 2 else 1
  let cap := e.size.toNat / 32
  let at_ (i : Nat) : Nat := e.base.toNat + 32 * (i % cap)
  let w := e.widx.toNat
  let lost := decide (cap = 0 ∨ e.ridx.toNat + cap < w + k ∨ hbmBytes < e.base.toNat + e.size.toNat) ||
    (List.range k).any (fun i => s.inPool (.phys (at_ (w + i))) 32)
  if lost then
    { s with elog := amSet s.elog die { e with lost := BitVec.ofNat 32 (Nat.min (e.lost.toNat + k) 0xFFFFFFFF) } }
  else
    let m := s.mem.put (at_ w) (logDwords cls cause w addr agent second.isSome virt)
    let m := match second with
      | some a => m.put (at_ (w + 1)) (logDwords 7 0 (w + 1) addr a false virt)
      | none => m
    let s1 : State := { s with mem := m, elog := amSet s.elog die { e with widx := BitVec.ofNat 64 (w + k) } }
    (List.range k).foldl (fun s i => s.logRelease die (at_ (w + i)) 32) s1

/-- A refused access of a thread, logged at its core's die (R390). -/
def State.logThread (s : State) (aid cause : Nat) (va : Dword) : State :=
  let t := s.th aid
  s.logErr (s.dieTh t) 1 cause (reportAddr t.core va) true (s.rep (.thread aid)) none

/-! ### System messages (R332, R343) -/

/-- A system message from a cluster or an I/O die, which travels in the ordered class (R343), joins the request queue of slot 15 of a
core, in arrival order (R332). One that meets an error response is logged and lost, and so is every later one of its sender to that
core once a failed boundary refused one (R379 to R383, R397). -/
def State.sysMessage (s : State) (src core : Nat) (sender p0 p1 p2 p3 : Dword) (rel : List Contrib) : State :=
  let flow := (2 ^ 16 + src * 2 ^ 20 + sender.toNat % 2 ^ 16, core)
  let lost := s.logErr (dieOf core) 5 0 (BitVec.ofNat 64 core) false (BitVec.ofNat 64 (2 * 2 ^ 60 + 0x10000 + sender.toNat)) none
  if s.broken.contains flow then lost
  else
    match s.wayFrom true true src (clusterOf core) with
    | .through => s.modCore core (fun k => { k with reqs := k.reqs ++ [.msg sender p0 p1 p2 p3 rel] })
    | .failed => { lost with broken := flow :: lost.broken }
    | .refused => lost

/-- The core `ssvc` of a core (R326). -/
def State.service (s : State) (core : Nat) : Nat := (s.core core).ssvc.toNat % 1152

/-- The service core of a launch unit: the first that the service map lists for CD0 (R375, R395). -/
def State.service0 (s : State) : Nat :=
  (s.svcMap.find? (fun c => decide (c / 4 / 24 < 6 ∧ c / 4 % 24 < 6))).getD 0

/-- A message about a fault of a launch unit goes to the service core of CD0, any other to that of a core (R371, R375). -/
def State.faultMessage (s : State) (core agentKind : Nat) (p : Nat × Nat × Nat × Nat) : State :=
  let dst := if agentKind = 4 then s.service0 else s.service core
  s.sysMessage (if agentKind = 4 then 288 else clusterOf core) dst (BitVec.ofNat 64 (16 * (if agentKind = 4 then dst else core) + 15)) (BitVec.ofNat 64 p.1)
    (BitVec.ofNat 64 p.2.1) (BitVec.ofNat 64 p.2.2.1) (BitVec.ofNat 64 p.2.2.2) []

/-- A system message of the hardware of a core to its service core. -/
def State.hwMessage (s : State) (core : Nat) (p0 p1 p2 p3 : Nat) : State :=
  s.sysMessage (clusterOf core) (s.service core) (BitVec.ofNat 64 (16 * core + 15)) (BitVec.ofNat 64 p0) (BitVec.ofNat 64 p1)
    (BitVec.ofNat 64 p2) (BitVec.ofNat 64 p3) []

/-! ### Page faults (R371, R375) -/

/-- The payload of a fault message (R375), of kind 0x0002, or 0x0006 for a machine check (R371). -/
def faultPayload (kind cluster entry agentKind reason : Nat) (va : Dword) (tag : BitVec 32) (asid : Nat)
    (apseq : Dword) : Nat × Nat × Nat × Nat :=
  (kind * 2 ^ 48 + (if agentKind = 4 then 0xFFFF else cluster) * 2 ^ 32 + entry * 2 ^ 24 + agentKind * 2 ^ 16 + reason * 2 ^ 8, va.toNat,
    tag.toNat * 2 ^ 32 + asid, apseq.toNat)

/-- A machine check (R371): system message kind 0x0006 to `ssvc` of a core, and a class 4 record. Its payload has 0 in the field of the
fault entry, since it takes none (DESIGN CHOICE, log 60). -/
def State.machineCheck (s : State) (core agentKind : Nat) (va : Dword) (tag : BitVec 32) (asid : Nat)
    (agent : Dword) : State :=
  (s.faultMessage core agentKind (faultPayload 6 (clusterOf core) 0 agentKind 0 va tag asid s.apseq)).logErr (dieOf core) 4 0 va true agent none

/-- First index of a table at which a test holds. -/
def findIx {α : Type} (p : α → Bool) : List α → Nat → Option Nat
  | [], _ => none
  | x :: xs, i => if p x then some i else findIx p xs (i + 1)

/-- The waiter's own note of the fault entry at which it waits. -/
def State.noteFault (s : State) (w : Waiter) (at_ : Option (Nat × Nat)) (va : Dword) : State :=
  match w with
  | .thread a => s.modTh a (fun t =>
      { t with wait := at_.map (fun e => ⟨.fault e.1 e.2 va, 0, t.pc, none, none⟩) })
  | .outst a q u => s.modTh a (fun t =>
      { t with outst := t.outst.map (fun o =>
          if o.seq = q ∧ o.sub = u then { o with fault := at_, fva := if va = 0 then o.fva else va } else o) })
  | .element a n => s.modCore (s.th a).core (fun k =>
      { k with binds := k.binds.map (fun b => match b.port with
          | .affine st => if b.aid = a ∧ b.name = n then { b with port := .affine { st with fault := at_ } } else b
          | _ => b) })
  | .journal c i => s.modCore c (fun k =>
      { k with jrn := vwr k.jrn i ((vrd k.jrn i).map (fun j => { j with fault := at_ })) })
  | _ => s

/-- An access whose walk, at an APSEQ, found no usable leaf (R375): it joins the open entry of its key, or takes a free entry
and sends the fault message to `ssvc` of the core `dest`; with no free entry it waits for one. -/
def State.pageFaultAt (s : State) (cl asid : Nat) (va : Dword) (agentKind reason : Nat) (tag : BitVec 32) (apseq : Dword)
    (dest : Nat) (w : Waiter) : State :=
  let page := va.toNat / 65536
  let k := s.clu cl
  match findIx (fun e => match e with
      | some f => f.asid == asid && f.page == page
      | none => false) k.faults.toList 0 with
  | some n =>
    let s1 := s.modClu cl (fun k => { k with faults := vwr k.faults n ((vrd k.faults n).map (fun f => { f with ws := f.ws ++ [(w, va)] })) })
    s1.noteFault w (some (cl, n)) va
  | none =>
    match findIx (fun e => e.isNone) k.faults.toList 0 with
    | some n =>
      let s1 := s.modClu cl (fun k => { k with faults := vwr k.faults n (some ⟨asid, page, [(w, va)]⟩) })
      (s1.faultMessage dest agentKind (faultPayload 2 cl n agentKind reason va tag asid apseq)).noteFault w (some (cl, n)) va
    | none =>
      let s1 := s.modClu cl (fun k => { k with fwait := k.fwait ++ [⟨asid, va, agentKind, reason, tag, apseq, dest, w⟩] })
      s1.noteFault w (some (cl, 16)) va

/-- A page fault of an access made now (R375). -/
def State.pageFault (s : State) (cl asid : Nat) (va : Dword) (agentKind reason : Nat) (tag : BitVec 32) (dest : Nat)
    (w : Waiter) : State :=
  s.pageFaultAt cl asid va agentKind reason tag (s.walkSeq cl asid va) dest w

/-! ### Where an access goes -/

/-- What an address reaches for an access of a thread (R219 steps 3 and 4, R367, R378, R390). -/
inductive Reach where
  | mem (p : Place)
  | host (p : Place)
  | control (t : Target)
  | storage (port : Nat)
  | absent (core : Nat)
  | range
  | error
  | check
  | soft
  | fault (reason : Nat)
  deriving DecidableEq, Repr

/-- While bring-up has not ended only supervisor slots in phase 3 reach memory (R395), and in P3 nothing does (R397). -/
def State.gateOpen (s : State) (super : Bool) : Bool := s.pwr != 3 && (s.bup == 4 || (super && s.bup == 3))

/-- The registers of R394, which answer in every phase (R395). -/
def isStatus (t : Target) : Bool :=
  match t with
  | .package o => decide (0x7000 ≤ o ∧ o < 0x7028)
  | _ => false

/-- The I/O dies whose ports carry the traffic of a rank (R388): ports 0 to 7 are on IOD0, 8 to 15 on IOD1 (log 36). -/
def State.peerDests (s : State) (r : Nat) : List Nat :=
  let x := (amGet s.ranks r ⟨false, false, 0, 0⟩).ports.toNat
  (if bits x 7 0 = 0 then [] else [288]) ++ (if bits x 15 8 = 0 then [] else [289])

/-- An access of a cluster's port reaches the destination of a physical address (R380, R382, R384, R386, R388): another cluster
for its control block, IOD0 for host memory and the package block, IOD1 for a storage window, and for a peer the I/O die of
one of its ports. No rule gives the home of a line of HBM, whose accesses meet no entry (log 36). -/
def State.fabric (s : State) (super : Bool) (cl : Nat) (t : Target) : Bool :=
  match t with
  | .hbm _ => true
  | .peer r _ => (s.peerDests r).any (s.reaches super cl)
  | .host _ => s.reaches super cl 288
  | .package _ => s.reaches super cl 288
  | .storage _ => s.reaches super cl 289
  | .cluster i o => (s.resetSeen i o).reaches super cl i
  | .none => false

/-- What `n` bytes at an address reach for an agent of an address space: `core` is its core, a user's by its panel
position, and `cl` the cluster of the port that its accesses take. -/
def State.reach (s : State) (core cl asid : Nat) (super : Bool) (tag : BitVec 32) (va : Dword) (n : Nat) (nd : Need) :
    Reach × State :=
  let mem (p : Place) (s : State) : Reach × State := (if s.meetsBad p n then .soft else .mem p, s)
  if inWindow va then
    let (c, o) := windowOf core va
    if s.gateOpen super = false then (.error, s)
    else if s.spOk super tag c o n = false then (.range, s)
    else
      let h := if super then s.guest c else c
      if !super && s.absent tag h then (.absent h, s)
      else if !super && (decide ((s.core h).ltag ≠ tag) || !s.finds tag core c) then (.error, s)
      else if h = core then mem (.sp h o) s
      else if s.reaches super cl (clusterOf (if super then c else s.phys h)) = false then (.error, s)
      else mem (.sp h o) { (if super then s else s.passed tag core c) with free := s.free + 1 }
  else if s.gateOpen super = false && !(super && inControl va && isStatus (s.target va.toNat)) then (.error, s)
  else
    match s.xlate cl asid super va nd with
    | (.error, s1) => (.error, s1)
    | (.check, s1) => (.check, s1)
    | (.soft, s1) => (.soft, s1)
    | (.fault r, s1) => (.fault r, s1)
    | (.pa a, s1) =>
      let t := s1.target a
      if s1.fabric super cl t = false then (.error, s1)
      else
        match t with
        | .hbm p => mem (.phys p) s1
        | .peer _ p => (.mem (.phys p), { s1 with free := s1.free + 1 })
        | .host p => (.host (.phys p), { s1 with free := s1.free + 1 })
        | .cluster i o => (.control (.cluster i o), { s1 with free := s1.free + 1 })
        | .package o => (.control (.package o), { s1 with free := s1.free + 1 })
        | .storage p => (.storage p, { s1 with free := s1.free + 1 })
        | .none => (.error, s1)

/-- What `n` bytes at an address reach for an access of a thread. -/
def State.reachTh (s : State) (aid : Nat) (va : Dword) (n : Nat) (nd : Need) : Reach × State :=
  let t := s.th aid
  s.reach t.core (s.port t) (s.asid t) (t.kind == .super) t.ltag va n nd

/-! ### Slots (R15, R22, R23) -/

/-- The state with a slot's occupant and state replaced. -/
def State.setSlot (s : State) (core slot : Nat) (o : Option Nat) (st : SlotSt) : State :=
  s.modCore core (fun k => { k with occ := vwr k.occ slot o, sst := vwr k.sst slot st })

/-- A context that leaves its slot: v0 to v7 and everything that is the slot's own read as zero when it next holds one
(R22, R51). -/
def Thread.left (t : Thread) (l : Loc) : Thread :=
  { t with
    regs := { t.regs with v := Vector.replicate 32 0, m := Vector.replicate 8 0 }
    loc := l
    marked := false
    parked := false }

/-- A light thread leaves its slot (R22). -/
def State.leaveSlot (s : State) (aid : Nat) (l : Loc) : State :=
  let t := s.th aid
  (s.setSlot t.core t.slot none .empty).putTh aid (t.left l)

/-! ### Raising and taking an exception -/

/-- Traps in issue order of their entries (R213). -/
def insertTrap (x : ATrap) : List ATrap → List ATrap
  | [] => [x]
  | y :: l => if x.order < y.order then x :: y :: l else y :: insertTrap x l

/-- The word of a latch or frame that holds CAUSE (R208, R328). -/
def causeWord (e : Exc) (armed async replay : Bool) : Dword :=
  BitVec.ofNat 64 (e.code.toNat * 2 ^ 32 + armed.toNat * 2 ^ 31 + replay.toNat * 2 ^ 17 + async.toNat * 2 ^ 16 + e.cause)

/-- ARMED of a latch (R328). -/
def Latch.armed (l : Latch) : Bool := l.cause.getLsbD 31

/-- A latch of a record: those of slots 0 to 14 are a context's, 15 and 16 the core's own. -/
def State.latch (s : State) (core l : Nat) : Latch := vrd (s.core core).lat l

/-- The record that holds slot `n` of core `c` with its latch, as the supervisor of the core names it (R338). -/
def State.slotHome (s : State) (c n : Nat) : Nat := if n < 15 then s.guest c else c

/-- Slot 15 takes a request naming latch `n` (R331 step 3): `sipc` and SIT when SIT was 0, then `ssel`, EW and the
vector. -/
def State.takeRequest (s : State) (core n : Nat) : State :=
  let a := superAid core 15
  let k := s.core core
  let k1 := if k.sit then k else { k with sipc := (s.th a).pc, sit := true }
  (s.putCore core { k1 with ssel := n, ew := true, ewC := false, ewA := false, ewL := n }).modTh a
    (fun t => { t with pc := k.stvec, wait := none, marked := false, parked := false })

/-- A latch of a slot written by an entry, with the release that the supervisor acquires with the request, and the request
(R331). `st` is what becomes of the slot. -/
def State.latchSlot (s : State) (aid : Nat) (e : Exc) (async replay : Bool) (pc npc : Dword) (st : SlotSt) : State :=
  let t := s.th aid
  let l : Latch := ⟨causeWord e true async replay, pc, npc, e.addr, e.data, e.iaddr, e.agent⟩
  let s1 := (s.release (.latch t.core t.slot) [s.contrib (.thread aid) .pkg]).endRegion (.thread aid)
  let s2 := s1.modCore t.core (fun k => { k with lat := vwr k.lat t.slot l, sst := vwr k.sst t.slot st })
  s2.modCore (if t.kind = .super then t.core else s.phys t.core) (fun k => { k with reqs := k.reqs ++ [.slot t.slot] })

/-- Causes whose ADDR holds an address (R208). -/
def addrCauses : List Nat := [9, 12, 13, 14, 15, 16, 25, 26, 28]

/-- The slot-lost message of a frozen slot of a record, on core `c`, to `ssvc` (R333): `entered` is the latch that it names,
and the second fault's cause and address. -/
def State.slotLost (s : State) (core slot entered : Nat) (e : Exc) (pc : Dword) : State :=
  let c := if slot = 15 then core else s.phys core
  let l := s.latch (if slot = 15 then s.slotHome core entered else core) entered
  (s.modCore core (fun k => { k with sst := vwr k.sst slot .frozen })).hwMessage c
    (2 ^ 48 + c * 2 ^ 32 + slot * 2 ^ 24 + entered * 2 ^ 16 + e.cause) l.pc.toNat l.addr.toNat
    (if addrCauses.contains e.cause then e.addr else pc).toNat

/-- A double fault of a user handler (R209, R331, R333): its slot is frozen, the second fault `e` goes to the supervisor by
the slot's latch and request, and a slot-lost message names it. -/
def State.handlerLost (s : State) (aid : Nat) (e : Exc) (pc npc : Dword) : State :=
  let t := s.th aid
  (s.latchSlot aid e false false pc npc .frozen).slotLost t.core t.slot t.slot e pc

/-- An exception of a slot goes to the supervisor (R331): its latch, the hold of the slot and its request, or, for slot
15, the entry at once; a double fault when slot 15 raises with EW = 1 or with its latch armed (R333). -/
def State.superEntry (s : State) (aid : Nat) (e : Exc) (async replay : Bool) (pc npc : Dword) : State :=
  let t := s.th aid
  let core := t.core
  let k := s.core core
  if t.slot = 15 then
    if k.ew = true ∨ (s.latch core 15).armed = true then s.slotLost core 15 k.ssel e pc
    else
      let l : Latch := ⟨causeWord e true async replay, pc, npc, e.addr, e.data, e.iaddr, e.agent⟩
      let s1 := (s.release (.latch core 15) [s.contrib (.thread aid) .pkg]).endRegion (.thread aid)
      (s1.modCore core (fun k => { k with lat := vwr k.lat 15 l })).takeRequest core 15
  else s.latchSlot aid e async replay pc npc .held

/-- The frame of a thread id (R207). -/
def frameAddr (fb : Dword) (id : Nat) : Dword := BitVec.ofNat 64 (fb.toNat + 64 * id)

/-- The installed entry of a cause (R207). -/
def State.uxtEntry (s : State) (core cause : Nat) : Dword := vrd (s.core core).uxt cause

/-- The frame that trap entry writes (R208). -/
def frameBytes (e : Exc) (async replay : Bool) (pc npc s0 : Dword) : List Byte :=
  leBytes 8 (causeWord e true async replay).toNat ++ leBytes 8 pc.toNat ++ leBytes 8 npc.toNat ++
    leBytes 8 e.addr.toNat ++ leBytes 8 e.data.toNat ++ leBytes 8 e.iaddr.toNat ++ leBytes 8 e.agent.toNat ++
    leBytes 8 s0.toNat

/-- The records that an exception's refused access leaves (R371, R390 to R392). -/
def State.noteExc (s : State) (aid : Nat) (e : Exc) : State :=
  let t := s.th aid
  let r := s.rep (.thread aid)
  match e.note with
  | .none => s
  | .refused => s.logErr (s.dieTh t) 1 e.cause e.addr true r Option.none
  | .soft => s.logErr (s.dieTh t) 3 e.cause e.addr true r Option.none
  | .conflict => s.logErr (s.dieTh t) 1 e.cause e.addr true r (some e.agent)
  | .check =>
    (s.machineCheck (s.place t) 0 e.addr t.ltag (s.asid t) r).logErr (s.dieTh t) 1 e.cause e.addr true r Option.none

/-- An exception whose records are written; ADDR holds an address for the causes that R208 lists, else 0. -/
def Exc.noted (e : Exc) : Exc :=
  { e with note := .none, addr := if addrCauses.contains e.cause then e.addr else 0 }

/-- Bytes of a user frame written for a thread of a core, as a plain write of that core leaves them in the cache words (R120, R209);
no stamp is made (log 14). -/
def State.framePut (s : State) (core : Nat) (p : Place) (bs : List Byte) : State :=
  (p.words bs.length).foldl (fun s w => s.cacheWrite (some core) false w) (s.putBytes p bs)

/-- The staged flags of an EMBUPD that an exception or a trap suspends wait for it (R82, R255). -/
def Thread.keepStage (t : Thread) : Thread := { t with kept := (t.pc, t.stage) :: t.kept, stage := 0 }

/-- Taking an exception or a pending trap (R209), the outstanding set being empty: to the supervisor for a supervisor
slot, without an installed entry, with H = 1 or a busy frame; else the frame is written with BUSY, and H, FIDX, s0 and pc
change. A frame access that is refused is logged, and its segment exception is the second fault of a double fault (R333,
R371, R390); one that meets a page fault waits for the reply, a light thread as Blocked, and is made again (log 14). -/
def State.enterTrap (s : State) (aid : Nat) (e : Exc) (async replay : Bool) (pc npc : Dword) : State :=
  let s := s.noteExc aid e
  let s := if (s.th aid).stage = 0 then s else s.modTh aid Thread.keepStage
  let e := e.noted
  let t := s.th aid
  let ent := s.uxtEntry t.core e.cause
  if t.kind = .super ∨ ent.getLsbD 0 = false ∨ t.hh = true then s.superEntry aid e async replay pc npc
  else
    let f := frameAddr (s.core t.core).fb (s.tid t)
    let lost (note : Note) (s : State) : State :=
      let x : Exc := { cause := 9, addr := f, note := note }
      (s.noteExc aid x).handlerLost aid x.noted pc npc
    let write (p : Place) (s1 : State) : State :=
      if s1.inPool p 64 then lost .refused s1
      else if (s1.val p 8).testBit 31 then s1.superEntry aid e async replay pc npc
      else
        (s1.framePut t.core p (frameBytes e async replay pc npc (t.rS 0))).putTh aid
          { (t.wS 0 f) with
            hh := true, fidx := BitVec.ofNat 15 (s.tid t), pc := ent &&& ~~~(3#64), entering := true, pend := none
            marked := false, parked := false }
    match s.reachTh aid f 64 .both with
    | (.fault r, s1) =>
      let s2 := (s1.putTh aid { t with pend := if async then t.pend else some e, pnpc := npc }).pageFault (s.port t) (s.asid t) f 0 r
        t.ltag (s.place t) (.thread aid)
      if t.kind = .light then s2.leaveSlot aid .blocked else s2
    | (.mem p, s1) => write p s1
    | (.host p, s1) => write p s1
    | (.check, s1) => lost .check s1
    | (.soft, s1) => lost .soft s1
    | (_, s1) => lost .refused s1

/-- A precise exception at the thread's program counter (R34, R53, R209 step 1): taken at once when the outstanding set
is empty, else it waits for it. -/
def State.raise (s : State) (aid : Nat) (e : Exc) (npc : Dword) : State :=
  let t := s.th aid
  if t.outst.isEmpty then s.enterTrap aid e false false t.pc npc
  else s.putTh aid { t with pend := some e, pnpc := npc }

/-- What is the thread's own now, for a precise exception to go back to, and nothing taken elsewhere yet. -/
def State.save (s : State) (aid : Nat) : Saved :=
  let t := s.th aid
  ⟨t.regs, t.segs, t.hh, t.fidx, t.reads, t.fences, (s.core t.core).binds.filter (fun b => b.aid == aid), t.stage, []⟩

/-- Something that the instruction at place `seq` in issue order took from a queue or a unit of its core is noted at every
issued operation that does not come after it. -/
def State.record (s : State) (aid seq : Nat) (u : Undo) : State :=
  if (s.th aid).outst.isEmpty then s
  else
    s.modTh aid (fun t => { t with outst := t.outst.map (fun o =>
      if o.seq ≤ seq then { o with saved := { o.saved with undo := u :: o.saved.undo } } else o) })

/-- The input queue of a link end. -/
def Core.linkIn (k : Core) (east : Bool) : List QEnt := if east then k.lke else k.lkw

/-- The input queue of a link end replaced. -/
def Core.setLinkIn (k : Core) (east : Bool) (q : List QEnt) : Core := if east then { k with lke := q } else { k with lkw := q }

/-- The registers of slot 15 as they stand. -/
def Core.sysRegs (k : Core) : SysRegs := ⟨k.ssel, k.stvec, k.sipc, k.sit, k.ew, k.ewC, k.ewA, k.ssvc, k.ssvcf⟩

/-- The registers of slot 15 replaced. -/
def Core.setSys (k : Core) (x : SysRegs) : Core :=
  { k with ssel := x.ssel, stvec := x.stvec, sipc := x.sipc, sit := x.sit, ew := x.ew, ewC := x.ewC, ewA := x.ewA, ssvc := x.ssvc
           ssvcf := x.ssvcf }

/-- What was taken is put back: a popped entry at the head of its port (R40). -/
def Undo.apply (u : Undo) (core : Nat) (s : State) : State :=
  match u with
  | .queue n e => s.modCore core (fun k => { k with sq := vwr k.sq n (e :: vrd k.sq n) })
  | .link east e => s.modCore core (fun k => k.setLinkIn east (e :: k.linkIn east))
  | .net n e => s.modCore core (fun k => let p := vrd k.net n; { k with net := vwr k.net n { p with q := e :: p.q } })
  | .row n r => s.modCore core (fun k => { k with acc := amSet k.acc n r })
  | .slot n o => s.modCore core (fun k => { k with opm := vwr k.opm n o })
  | .frame p x => s.framePut core p (leBytes 8 x.toNat)
  | .full g => s.modCore core (fun k => { k with full := if k.full.contains g then k.full else g :: k.full })
  | .latch r l x => s.modCore r (fun k => { k with lat := vwr k.lat l x })
  | .sys x => s.modCore core (fun k => k.setSys x)
  | .seg a g x => s.modTh a (fun t => { t with segs := vwr t.segs g x })

/-- A binding as it stood, less the output elements that have been written since (R102); what was read ahead since stays read ahead
(R256). -/
def Binding.back (b : Binding) (now : List Binding) : Binding :=
  match b.port with
  | .affine st =>
    match (now.find? (fun x => x.aid == b.aid && x.name == b.name)).map Binding.port with
    | some (.affine y) =>
      { b with port := .affine { st with
          unwr := st.unwr.filter (fun e => y.unwr.contains e), ahead := if y.taken = st.taken then y.ahead else st.ahead } }
    | _ => { b with port := .affine { st with unwr := [] } }
  | _ => b

/-- The thread's own state, its bindings and what it took elsewhere as they stood (R34, R40, R124); the reads of the elements that stand
read ahead again belong to the thread's present region (R102). -/
def State.takeBack (s : State) (aid : Nat) (v : Saved) : State :=
  let core := (s.th aid).core
  let s1 := v.undo.foldl (fun s u => u.apply core s) s
  let s2 := s1.modCore core (fun k =>
    { k with binds := k.binds.filter (fun b => b.aid != aid) ++ v.binds.map (fun b => b.back k.binds) })
  let ag := Agent.thread aid
  let s3 := s2.modTh aid (fun t =>
    { t with regs := v.regs, segs := v.segs, hh := v.hh, fidx := v.fidx, reads := v.reads, fences := v.fences, stage := v.stage })
  { s3 with stamps := restamp s3.stamps ag (s3.region ag) (s3.aheadWords ag) }

/-- Place (`q`, `u`) in issue order comes before place (`q'`, `u'`). -/
def ordBefore (q u q' u' : Nat) : Bool := decide (q < q') || (q == q' && decide (u < u'))

/-- A precise exception of an issued operation (R34, R53, R124): the thread's own state is as it stood when it issued, and
it, every later operation, claim and journal entry (none of them sent, R119) leave no effect. The earliest in issue order is
the one reported. -/
def State.raiseLong (s : State) (aid : Nat) (o : Outst) (e : Exc) : State :=
  let core := (s.th aid).core
  let s1 := s.modCore core (fun k =>
    { k with
      claims := k.claims.filter (fun c => decide (c.aid ≠ aid ∨ c.seq < o.seq))
      jrn := k.jrn.map (fun j => match j with
        | some x => if x.aid = aid ∧ ordBefore x.seq x.sub o.seq o.sub = false then none else some x
        | none => none) })
  (s1.takeBack aid o.saved).modTh aid (fun t =>
    { t with
      pc := o.pc, pend := some e, pnpc := o.npc
      outst := t.outst.filter (fun x => ordBefore x.seq x.sub o.seq o.sub)
      marked := false, parked := false, wait := none, entering := false })

/-! ### Return from an exception -/

/-- The frame at an address is one that the thread's handler holds (R212): H is 1, the address is FB + 64 × FIDX and
lies in the frame area. BUSY is checked where the frame is read. -/
def State.holdsFrame (s : State) (aid : Nat) (f : Dword) : Bool :=
  let t := s.th aid
  t.hh && decide (f = frameAddr (s.core t.core).fb t.fidx.toNat) && decide (t.fidx.toNat < 18432)

/-- The return from a user handler (R212), its frame at a place and its target read: s0 restored, BUSY and H cleared. FIDX, which
counts only with H = 1 (R51, R210), keeps the id of that frame (DESIGN CHOICE, log 59). An EMBUPD to which it does not go
back is not resumed (R82). -/
def State.leaveHandler (s : State) (aid : Nat) (p : Place) (target : Dword) : State :=
  let s0 := BitVec.ofNat 64 (s.val (p.plus 56) 8)
  let w := s.val p 8
  let s1 := s.framePut (s.th aid).core p (leBytes 8 (if w.testBit 31 then w - 2 ^ 31 else w))
  s1.modTh aid (fun t => { (t.wS 0 s0) with hh := false, pc := target, kept := t.kept.filter (fun e => e.1 == target) })

/-- The end of a request (R334): the latch is no longer armed. -/
def State.disarm (s : State) (core l : Nat) : State :=
  s.modCore core (fun k =>
    { k with lat := vwr k.lat l { (vrd k.lat l) with cause := (vrd k.lat l).cause &&& ~~~(0x80000000#64) } })

/-- A held slot resumes at a target (R334): it acquires the release of the SRET. -/
def State.resumeSlot (s : State) (core l : Nat) (target : Dword) : State :=
  match s.occ core l with
  | some a =>
    let s1 := s.modCore core (fun k => if vrd k.sst l = .held then { k with sst := vwr k.sst l .running } else k)
    let s2 := s1.modTh a (fun t =>
      { t with pc := target, pend := none, marked := false, parked := false, wait := none
               kept := if t.hh then t.kept else t.kept.filter (fun e => e.1 == target) })
    s2.syncFrom (.thread a) (s2.contribs (.latch core l))
  | none => s

/-! ### Entries of the journal -/

/-- A thread has no entry in its core's journal: every entry it issued was acknowledged or refused (R121). -/
def State.journalClear (s : State) (aid : Nat) : Bool :=
  (s.core (s.th aid).core).jrn.toList.all (fun j => match j with
    | some x => x.aid != aid
    | none => true)

/-- Number of free journal entries of a core (R121). -/
def State.journalFree (s : State) (core : Nat) : Nat :=
  ((s.core core).jrn.toList.filter (fun j => j.isNone)).length

/-- Entries take the lowest-numbered free ones, in order (R121). -/
def placeEnts : List (Option JEnt) → List JEnt → List (Option JEnt)
  | [], _ => []
  | js, [] => js
  | some j :: js, es => some j :: placeEnts js es
  | none :: js, e :: es => some e :: placeEnts js es

/-- A list as a journal. -/
def toJournal (l : List (Option JEnt)) : Vector (Option JEnt) 64 := Vector.ofFn (fun i => (l.getD i.val none))

/-- Entries posted to a core's journal (R121, R223). -/
def State.postEnts (s : State) (core : Nat) (es : List JEnt) : State :=
  s.modCore core (fun k => { k with jrn := toJournal (placeEnts k.jrn.toList es) })

end Sys2Proof.Machine
end

