-- ==== Sys2Proof/Machine/Flags.lean ====
section
/-!
DEFINITION. The flags of `fstat` (R45, R82), rounding modes (R69, R145, R239), the generator of stochastic rounding (R73),
and the staging of flags and generator state until an instruction retires.
-/

namespace Sys2Proof.Machine

/-- Flags as a set of bits of `fstat` (R45). -/
abbrev Flags := BitVec 6

/-- Invalid operation. -/
def fNV : Flags := 1
/-- Division by zero. -/
def fDZ : Flags := 2
/-- Overflow. -/
def fOF : Flags := 4
/-- Underflow. -/
def fUF : Flags := 8
/-- Inexact. -/
def fNX : Flags := 16
/-- Saturation of a fixed-point sum. -/
def fKS : Flags := 32

/-- A flag when a condition holds. -/
def flagIf (b : Bool) (f : Flags) : Flags := if b then f else 0

/-- A rounding mode after .rdyn is resolved (R69, R72). -/
inductive Rm where
  | rne | rz | rdn | rup | st
  deriving DecidableEq, Repr, Inhabited

/-- Mode of an RM code of `fctl` (R46). -/
def Rm.ofCode (c : BitVec 3) : Rm :=
  match c.toNat with
  | 0 => .rne
  | 1 => .rz
  | 2 => .rdn
  | 3 => .rup
  | _ => .st

/-- Mode of an RND field (R145, R239): .rdyn takes the thread's mode. -/
def Thread.mode (t : Thread) (r : Rnd) : Rm :=
  match r with
  | .rne => .rne
  | .rz => .rz
  | .rdn => .rdn
  | .rup => .rup
  | .rst => .st
  | .rdyn => Rm.ofCode t.regs.rm

/-- Mode of an RND field in an instruction that may not round stochastically: it rounds as RNE then (R239). -/
def Thread.modeNoSt (t : Thread) (r : Rnd) : Rm :=
  match t.mode r with
  | .st => .rne
  | m => m

/-- stoch_draw (R73): the next state of the generator, which is also the value drawn. -/
def nextDraw (x : BitVec 32) : BitVec 32 :=
  let x := if x = 0 then 0x9E3779B9 else x
  let x := x ^^^ (x <<< 13)
  let x := x ^^^ (x >>> 17)
  x ^^^ (x <<< 5)

/-- Staged flags and generator state (R74, R82). -/
structure Staged where
  seed : BitVec 32
  fl   : Flags
  deriving DecidableEq, Repr, Inhabited

/-- What an instruction starts from: no flag, and the thread's generator. -/
def Thread.staged (t : Thread) : Staged := ⟨t.regs.seed, 0⟩

/-- Flags joined to the staged ones. -/
def Staged.flag (g : Staged) (f : Flags) : Staged := ⟨g.seed, g.fl ||| f⟩

/-- The draw of one element: the generator advances under stochastic rounding only (R74). -/
def Staged.draw (g : Staged) (rm : Rm) : Nat × Staged :=
  if rm = .st then ((nextDraw g.seed).toNat, ⟨nextDraw g.seed, g.fl⟩) else (0, g)

/-- Staged flags and generator state committed to the thread (R82). -/
def Thread.commit (t : Thread) (g : Staged) : Thread :=
  { t with regs := { t.regs with fstat := t.regs.fstat ||| g.fl, seed := g.seed } }

/-- Staged flags and generator state committed to a thread of the machine (R82). -/
def State.commit (s : State) (aid : Nat) (g : Staged) : State := s.modTh aid (fun t => t.commit g)

end Sys2Proof.Machine
end

