-- ==== Sys2Proof/Machine/Num.lean ====
section
/-!
DEFINITION. The number formats and their arithmetic (R55 to R84): exact values, decoding and encoding, rounding,
conversions, block quantisation, the window accumulator, the reduction tree. Values are exact; nothing is approximate.
-/

namespace Sys2Proof.Machine

/-! ### Exact values -/

/-- A decoded operand or an exact result: a NaN, signalling or not, an infinity, or (−1)^neg × m × 2^e. -/
inductive Val where
  | nan (sig : Bool)
  | inf (neg : Bool)
  | num (neg : Bool) (m : Nat) (e : Int)
  deriving DecidableEq, Repr, Inhabited

/-- A zero of a sign. -/
def Val.zero (neg : Bool) : Val := .num neg 0 0

/-- Is a NaN. -/
def Val.isNan : Val → Bool
  | .nan _ => true
  | _ => false

/-- Is a signalling NaN. -/
def Val.isSig : Val → Bool
  | .nan g => g
  | _ => false

/-- Is an infinity. -/
def Val.isInf : Val → Bool
  | .inf _ => true
  | _ => false

/-- Is a zero. -/
def Val.isZero : Val → Bool
  | .num _ m _ => m == 0
  | _ => false

/-- Sign; false of a NaN. -/
def Val.neg? : Val → Bool
  | .nan _ => false
  | .inf n => n
  | .num n _ _ => n

/-- Sign inverted; a NaN stays. -/
def Val.negate : Val → Val
  | .nan g => .nan g
  | .inf n => .inf (!n)
  | .num n m e => .num (!n) m e

/-- m × 2^e as an integer multiple of 2^q, for q at most e. -/
def scaleTo (m : Nat) (e q : Int) : Nat := m <<< (e - q).toNat

/-- Signed integer of a sign and a magnitude. -/
def signed (neg : Bool) (m : Nat) : Int := if neg then -(m : Int) else m

/-! ### Formats (R55 to R62) -/

/-- What a format's highest exponent code holds: infinities and NaNs, one NaN code, or numbers. -/
inductive FmtKind where
  | ieee | e4m3 | finite
  deriving DecidableEq, Repr, Inhabited

/-- A binary format: widths of exponent and fraction, bias, and its special codes. -/
structure Fmt where
  w    : Nat
  t    : Nat
  bias : Nat
  kind : FmtKind
  deriving DecidableEq, Repr, Inhabited

/-- FP64 (R55). -/
def f64 : Fmt := ⟨11, 52, 1023, .ieee⟩
/-- FP32 (R55). -/
def f32 : Fmt := ⟨8, 23, 127, .ieee⟩
/-- FP16 (R55). -/
def f16 : Fmt := ⟨5, 10, 15, .ieee⟩
/-- BF16 (R57). -/
def bf16 : Fmt := ⟨8, 7, 127, .ieee⟩
/-- FP8 E4M3 (R59). -/
def e4m3 : Fmt := ⟨4, 3, 7, .e4m3⟩
/-- FP8 E5M2 (R60). -/
def e5m2 : Fmt := ⟨5, 2, 15, .ieee⟩
/-- FP4 E2M1 (R61). -/
def e2m1 : Fmt := ⟨2, 1, 1, .finite⟩

/-- Width of a format. -/
def Fmt.bits (f : Fmt) : Nat := 1 + f.w + f.t

/-- Exponent of the subnormal step: 1 − bias − t (R56). -/
def Fmt.qmin (f : Fmt) : Int := 1 - (f.bias : Int) - (f.t : Int)

/-- Code of +infinity in an IEEE-like format. -/
def Fmt.infCode (f : Fmt) : Nat := (2 ^ f.w - 1) * 2 ^ f.t

/-- Code of the largest finite value. -/
def Fmt.maxCode (f : Fmt) : Nat :=
  match f.kind with
  | .ieee => f.infCode - 1
  | .e4m3 => 0x7E
  | .finite => 2 ^ (f.w + f.t) - 1

/-- Canonical NaN (R58, R75). FP4 has no NaN: a NaN becomes 0. -/
def Fmt.nanCode (f : Fmt) : Nat :=
  match f.kind with
  | .ieee => f.infCode + 2 ^ (f.t - 1)
  | .e4m3 => 0x7F
  | .finite => 0

/-- decode_fmt (R56 to R61, R84). -/
def Fmt.decode (f : Fmt) (x : Nat) : Val :=
  let neg := x / 2 ^ (f.w + f.t) % 2 == 1
  let e := x / 2 ^ f.t % 2 ^ f.w
  let m := x % 2 ^ f.t
  if f.kind = .ieee ∧ e = 2 ^ f.w - 1 then
    if m = 0 then .inf neg else .nan (m / 2 ^ (f.t - 1) == 0)
  else if f.kind = .e4m3 ∧ e = 15 ∧ m = 7 then .nan false
  else if e = 0 then .num neg m f.qmin
  else .num neg (2 ^ f.t + m) (f.qmin + (e - 1 : Nat))

/-- An E8M0 byte (R62). -/
def decodeE8m0 (x : Nat) : Val := if x = 0xFF then .nan false else .num false 1 ((x : Int) - 127)

/-! ### Rounding (R69 to R72) -/

/-- A magnitude m × 2^e, m not 0, as a multiple of 2^q, with whether the result is inexact. `u` is the draw of
stochastic rounding (R72). -/
def roundAt (rm : Rm) (u : Nat) (neg : Bool) (m : Nat) (e q : Int) : Nat × Bool :=
  if q ≤ e then (scaleTo m e q, false)
  else
    let sh := (q - e).toNat
    let k := m >>> sh
    let r := m - k <<< sh
    let up : Bool := match rm with
      | .rne => decide (2 ^ sh < 2 * r) || (decide (2 * r = 2 ^ sh) && k % 2 == 1)
      | .rz => false
      | .rdn => neg && decide (r ≠ 0)
      | .rup => !neg && decide (r ≠ 0)
      | .st => decide (2 ^ 32 ≤ (r <<< 32) >>> sh + u)
    (if up then k + 1 else k, decide (r ≠ 0))

/-- Exponent of the leading bit of m × 2^e, m not 0: floor(log2). -/
def topExp (m : Nat) (e : Int) : Int := (Nat.log2 m : Int) + e

/-- What overflow delivers (R70). -/
def Fmt.overflow (f : Fmt) (rm : Rm) (neg : Bool) : Nat :=
  if f.kind ≠ .ieee then f.maxCode
  else match rm with
    | .rne => f.infCode
    | .st => f.infCode
    | .rz => f.maxCode
    | .rdn => if neg then f.infCode else f.maxCode
    | .rup => if neg then f.maxCode else f.infCode

/-- Code and flags of a finite nonzero value rounded to a format (R69 to R72): the unsigned code counts steps from
zero, so that a carry into the next binade needs no case of its own. -/
def Fmt.roundFinite (f : Fmt) (rm : Rm) (u : Nat) (neg : Bool) (m : Nat) (e : Int) : Nat × Flags :=
  let top := topExp m e
  let q := max (top - f.t) f.qmin
  let (k, inex) := roundAt rm u neg m e q
  let code := (q - f.qmin).toNat * 2 ^ f.t + k
  let tiny := decide (top < f.qmin + f.t) &&
    decide ((roundAt rm u neg m e (top - f.t)).1 < 2 ^ (f.qmin + f.t - (top - f.t)).toNat)
  if f.maxCode < code then (f.overflow rm neg, fOF ||| fNX)
  else (code, flagIf inex fNX ||| flagIf (tiny && inex) fUF)

/-- encode_fmt (R58, R70 to R72, R75, R84): code and flags. -/
def Fmt.encode (f : Fmt) (rm : Rm) (u : Nat) (v : Val) : Nat × Flags :=
  let s : Nat := if v.neg? then 2 ^ (f.w + f.t) else 0
  match v with
  | .nan g => (f.nanCode, flagIf (g || f.kind == .finite) fNV)
  | .inf _ =>
    match f.kind with
    | .ieee => (s + f.infCode, 0)
    | .e4m3 => (f.nanCode, fNV)
    | .finite => (s + f.maxCode, fNV)
  | .num neg m e =>
    if m = 0 then (s, 0)
    else
      let (c, fl) := f.roundFinite rm u neg m e
      (s + c, fl)

/-- round_rne to an integer, of a magnitude (R84). -/
def roundInt (rm : Rm) (u : Nat) (neg : Bool) (m : Nat) (e : Int) : Nat × Bool :=
  if m = 0 then (0, false) else roundAt rm u neg m e 0

/-! ### Arithmetic on exact values (R241, IEEE 754-2019) -/

/-- Sign of an exact zero sum of operands of opposite signs (R241). -/
def zeroSum (rm : Rm) (a b : Bool) : Bool := if a = b then a else decide (rm = .rdn)

/-- Exact a + b; NV for opposite infinities and for signalling NaNs. -/
def addVal (rm : Rm) (a b : Val) : Val × Flags :=
  let nv := flagIf (a.isSig || b.isSig) fNV
  match a, b with
  | .nan _, _ => (.nan false, nv)
  | _, .nan _ => (.nan false, nv)
  | .inf x, .inf y => if x = y then (.inf x, 0) else (.nan false, fNV)
  | .inf x, _ => (.inf x, 0)
  | _, .inf y => (.inf y, 0)
  | .num x m e, .num y n g =>
    let q := min e g
    let z := signed x (scaleTo m e q) + signed y (scaleTo n g q)
    if z = 0 then (Val.zero (zeroSum rm x y), 0) else (.num (decide (z < 0)) z.natAbs q, 0)

/-- Exact a × b; NV for 0 × infinity and for signalling NaNs. -/
def mulVal (a b : Val) : Val × Flags :=
  let nv := flagIf (a.isSig || b.isSig) fNV
  match a, b with
  | .nan _, _ => (.nan false, nv)
  | _, .nan _ => (.nan false, nv)
  | .inf x, .inf y => (.inf (x != y), 0)
  | .inf x, .num y n _ => if n = 0 then (.nan false, fNV) else (.inf (x != y), 0)
  | .num x m _, .inf y => if m = 0 then (.nan false, fNV) else (.inf (x != y), 0)
  | .num x m e, .num y n g => (.num (x != y) (m * n) (e + g), 0)

/-- Bits that a quotient or a root carries before rounding; the lowest stands for all below it. -/
def quotBits : Nat := 160

/-- a ÷ b to `quotBits` bits with the remainder as its lowest bit, which no rounding of a format can tell from the
exact quotient. -/
def divVal' (a b : Val) : Val × Flags :=
  let nv := flagIf (a.isSig || b.isSig) fNV
  match a, b with
  | .nan _, _ => (.nan false, nv)
  | _, .nan _ => (.nan false, nv)
  | .inf _, .inf _ => (.nan false, fNV)
  | .inf x, .num y _ _ => (.inf (x != y), 0)
  | .num x _ _, .inf y => (Val.zero (x != y), 0)
  | .num x m e, .num y n g =>
    if n = 0 then (if m = 0 then (.nan false, fNV) else (.inf (x != y), fDZ))
    else if m = 0 then (Val.zero (x != y), 0)
    else
      let k := quotBits + Nat.log2 n
      let z := m <<< k
      (.num (x != y) (2 * (z / n) + (if z % n = 0 then 0 else 1)) (e - g - k - 1), 0)

/-- Integer square root of `x`, bit by bit from bit `n` − 1 down, above the root `r` found so far. -/
def isqrtFrom (x : Nat) : Nat → Nat → Nat
  | 0, r => r
  | n + 1, r => isqrtFrom x n (if (r + 2 ^ n) * (r + 2 ^ n) ≤ x then r + 2 ^ n else r)

/-- √a to at least `quotBits` bits with the remainder as its lowest bit. -/
def sqrtVal (a : Val) : Val × Flags :=
  match a with
  | .nan g => (.nan false, flagIf g fNV)
  | .inf neg => if neg then (.nan false, fNV) else (.inf false, 0)
  | .num neg m e =>
    if m = 0 then (.num neg 0 e, 0)
    else if neg then (.nan false, fNV)
    else
      let k := 2 * quotBits + (if (e - 2 * quotBits) % 2 = 0 then 0 else 1)
      let z := m <<< k
      let r := isqrtFrom z (Nat.log2 z / 2 + 1) 0
      (.num false (2 * r + (if r * r = z then 0 else 1)) ((e - k) / 2 - 1), 0)

/-- Exact a × b + c, with NV for 0 × infinity even when c is a quiet NaN (R241). -/
def fmaVal (rm : Rm) (a b c : Val) : Val × Flags :=
  let (p, f) := mulVal a b
  let (r, g) := addVal rm p c
  (r, f ||| g)

/-- a × 2^k (R247); k beyond 5,000 changes no result of a format. -/
def scaleVal (a : Val) (k : Int) : Val × Flags :=
  match a with
  | .nan g => (.nan false, flagIf g fNV)
  | .inf n => (.inf n, 0)
  | .num n m e => (.num n m (e + max (-5000) (min 5000 k)), 0)

/-- Order of two numbers or infinities: a < b. -/
def ltVal (a b : Val) : Bool :=
  match a, b with
  | .nan _, _ => false
  | _, .nan _ => false
  | .inf x, .inf y => x && !y
  | .inf x, _ => x
  | _, .inf y => !y
  | .num x m e, .num y n g =>
    let q := min e g
    decide (signed x (scaleTo m e q) < signed y (scaleTo n g q))

/-- a = b, with +0 equal to −0. -/
def eqVal (a b : Val) : Bool := !a.isNan && !b.isNan && !ltVal a b && !ltVal b a

/-- VMIN and VMAX of two operands (R242). -/
def minmaxVal (mx : Bool) (a b : Val) : Val × Flags :=
  if a.isNan || b.isNan then (.nan false, flagIf (a.isSig || b.isSig) fNV)
  else if a.isZero && b.isZero then (Val.zero (if mx then a.neg? && b.neg? else a.neg? || b.neg?), 0)
  else if ltVal a b then (if mx then b else a, 0)
  else (if mx then a else b, 0)

/-! ### Operations rounded to a format -/

/-- One staged rounding: the draw of the element, and its flags joined (R74, R82). -/
def Staged.enc (g : Staged) (f : Fmt) (rm : Rm) (r : Val × Flags) : Nat × Staged :=
  let (u, g1) := g.draw rm
  let (c, fl) := f.encode rm u r.1
  (c, g1.flag (fl ||| r.2))

/-! ### Types (R37, R144) -/

/-- Width of a type's elements (R37). -/
def tyBits : Ty → Nat
  | .f64 | .s64 | .u64 | .fx64 => 64
  | .f32 | .s32 | .u32 => 32
  | .f16 | .bf16 | .s16 | .u16 => 16
  | .e4m3 | .e5m2 | .e8m0 | .bx8 | .s8 | .u8 => 8
  | .e2m1 | .bx4 => 4

/-- Format of a float type; others take FP32's and are never asked. -/
def tyFmt : Ty → Fmt
  | .f64 => f64
  | .f16 => f16
  | .bf16 => bf16
  | .e4m3 => e4m3
  | .e5m2 => e5m2
  | .e2m1 => e2m1
  | _ => f32

/-- Integer types: signed or not. -/
def tyInt : Ty → Option Bool
  | .s8 | .s16 | .s32 | .s64 => some true
  | .u8 | .u16 | .u32 | .u64 => some false
  | _ => none

/-- An element read as an integer of a type. -/
def intOf (sgn : Bool) (w x : Nat) : Int := if sgn && decide (2 ^ (w - 1) ≤ x) then (x : Int) - 2 ^ w else x

/-- The code of an integer in w bits, modulo 2^w. -/
def ofInt (w : Nat) (z : Int) : Nat := (z % (2 ^ w : Nat)).toNat

/-- Smallest value of an integer type. -/
def intMin (sgn : Bool) (w : Nat) : Int := if sgn then -(2 ^ (w - 1) : Nat) else 0
/-- Largest value of an integer type. -/
def intMax (sgn : Bool) (w : Nat) : Int := if sgn then (2 ^ (w - 1) : Nat) - 1 else (2 ^ w : Nat) - 1

/-- An integer clamped to a type's range. -/
def clampInt (sgn : Bool) (w : Nat) (z : Int) : Int := max (intMin sgn w) (min (intMax sgn w) z)

/-- An element of a type, decoded (R56 to R62); an integer is exact. -/
def tyDecode (ty : Ty) (x : Nat) : Val :=
  match tyInt ty with
  | some sgn => let z := intOf sgn (tyBits ty) x; .num (decide (z < 0)) z.natAbs 0
  | none => if ty = .e8m0 then decodeE8m0 x else (tyFmt ty).decode x

/-- A value converted to an integer type (R75). -/
def toInt (sgn : Bool) (w : Nat) (rm : Rm) (u : Nat) (v : Val) : Nat × Flags :=
  match v with
  | .nan _ => (0, fNV)
  | .inf neg => (ofInt w (if neg then intMin sgn w else intMax sgn w), fNV)
  | .num neg m e =>
    let (k, inex) := roundInt rm u neg m e
    let z := signed neg k
    if z < intMin sgn w ∨ intMax sgn w < z then (ofInt w (clampInt sgn w z), fNV)
    else (ofInt w z, flagIf inex fNX)

/-- An element converted from one type to another (R75, R245). Between integer types it saturates without a flag. -/
def convert (src dst : Ty) (rm : Rm) (u x : Nat) : Nat × Flags :=
  let v := tyDecode src x
  match tyInt src, tyInt dst with
  | some a, some b => (ofInt (tyBits dst) (clampInt b (tyBits dst) (intOf a (tyBits src) x)), 0)
  | none, some b => toInt b (tyBits dst) rm u v
  | _, none => (tyFmt dst).encode rm u v

/-! ### FX64 (R65 to R68) -/

/-- Smallest FX64 integer. -/
def fxMin : Int := -(2 ^ 63)
/-- Largest FX64 integer. -/
def fxMax : Int := 2 ^ 63 - 1

/-- to_fx64 (R66). -/
def toFx64 (v : Val) (f : Nat) : Int × Flags :=
  match v with
  | .nan _ => (0, fNV)
  | .inf neg => (if neg then fxMin else fxMax, fKS)
  | .num neg m e =>
    let (k, inex) := roundInt .rne 0 neg m (e + f)
    let z := signed neg k
    if z < fxMin ∨ fxMax < z then (if neg then fxMin else fxMax, fKS ||| fNX) else (z, flagIf inex fNX)

/-- fx64_read (R67): a saturated sum of 80 bits. -/
def fx64Read (lane : BitVec 80) : Int × Flags :=
  let z := lane.toInt
  if z < fxMin then (fxMin, fKS) else if fxMax < z then (fxMax, fKS) else (z, 0)

/-- The value of an FX64 integer at a scale (R65). -/
def fxVal (z : Int) (f : Nat) : Val := .num (decide (z < 0)) z.natAbs (-(f : Int))

/-! ### Block formats (R63, R64, R76) -/

/-- Precision bits of a BX element: P of R76. -/
def bxP (bx4 : Bool) : Nat := if bx4 then 1 else 5
/-- Width of a BX element. -/
def bxBits (bx4 : Bool) : Nat := if bx4 then 4 else 8

/-- A BX element with its exponent pair (R64). -/
def bxDecode (bx4 : Bool) (e0 e1 x : Nat) : Val :=
  let p := bxP bx4
  let e := if x / 2 ^ (p + 2) % 2 = 1 then e1 else e0
  let neg := x / 2 ^ (p + 1) % 2 == 1
  if e = 0xFF then .nan false
  else if e = 0 then Val.zero neg
  else .num neg (x % 2 ^ (p + 1)) ((e : Int) - 127 - p)

/-- Magnitude of a finite FP32 value as a multiple of 2^−149. -/
def mag149 : Val → Nat
  | .num _ m e => scaleTo m e (-149)
  | _ => 0

/-- One element quantised under an exponent: the rounded integer, and its distance as a multiple of 2^−160. -/
def bxTry (p e : Nat) (a : Nat) : Nat × Nat :=
  let step : Int := (e : Int) - 127 - p
  let q := if a = 0 then 0 else (roundAt .rne 0 false a (-149) step).1
  let x : Int := a <<< 11
  (q, (x - scaleTo q step (-160)).natAbs)

/-- One element's code and flags under a pair (R76). -/
def bxElem (bx4 : Bool) (e0 e1 : Nat) (neg : Bool) (a : Nat) : Nat × Flags :=
  let p := bxP bx4
  let mmax := 2 ^ (p + 1) - 1
  let (q0, r0) := bxTry p e0 a
  let (q1, r1) := bxTry p e1 a
  let sel := decide (q1 ≤ mmax ∧ r1 < r0)
  let q := if sel then q1 else q0
  let r := if sel then r1 else r0
  let sat := decide (mmax < q)
  let q' := if sat then mmax else q
  (sel.toNat * 2 ^ (p + 2) + neg.toNat * 2 ^ (p + 1) + q',
    flagIf sat fOF ||| flagIf (decide (r ≠ 0) || sat) fNX ||| flagIf (decide (a ≠ 0 ∧ q' = 0)) fUF)

/-- bx_quant (R76): E0, E1, the 32 codes and the flags. -/
def bxQuant (bx4 : Bool) (x : List Val) : Nat × Nat × List Nat × Flags :=
  if x.any (fun v => v.isNan || v.isInf) then
    (0xFF, 0xFF, x.map (fun _ => 0), flagIf (x.any (fun v => v.isInf || v.isSig)) fNV)
  else
    let p := bxP bx4
    let mmax := 2 ^ (p + 1) - 1
    let mx := (x.map mag149).foldl Nat.max 0
    if mx = 0 then (0, 0, x.map (fun v => v.neg?.toNat * 2 ^ (p + 1)), 0)
    else
      let e := topExp mx (-149)
      let e := if mmax < (roundAt .rne 0 false mx (-149) (e - p)).1 then e + 1 else e
      let e0 := (max 1 (min 254 (e + 127))).toNat
      let e1 := Nat.max (e0 - 3) 1
      let cs := x.map (fun v => bxElem bx4 e0 e1 v.neg? (mag149 v))
      (e0, e1, cs.map (·.1), (cs.map (·.2)).foldl (· ||| ·) 0)

/-! ### The window accumulator (R77 to R80, R83) -/

/-- Layout of a window cell: width of v with its lowest bit at bit 1, bias and width of W. The bit `top` of the cell has
weight 2^(W − bias). -/
structure CellFmt where
  vBits : Nat
  wBits : Nat
  top   : Nat
  bias  : Nat
  fmt   : Fmt
  deriving DecidableEq, Repr, Inhabited

/-- The cell of every format but FP64 (R77). -/
def cell32 : CellFmt := ⟨55, 8, 46, 127, f32⟩
/-- The cell of FP64 (R80). -/
def cell64 : CellFmt := ⟨116, 11, 108, 1023, f64⟩

/-- A cell taken apart: special with sign, NaN mark and OVF, or W, v and S. -/
inductive WCell where
  | special (neg nan ovf : Bool)
  | sum (w : Nat) (v : Int) (st : Bool)
  deriving DecidableEq, Repr, Inhabited

/-- A cell from its bits (R77). -/
def CellFmt.unpack (c : CellFmt) (x : Nat) : WCell :=
  let w := x / 2 ^ (c.vBits + 1) % 2 ^ c.wBits
  if w = 2 ^ c.wBits - 1 then
    .special (x / 2 ^ c.vBits % 2 == 1) (x / 2 ^ (c.vBits - 1) % 2 == 1) (x / 2 ^ (c.vBits - 2) % 2 == 1)
  else .sum w (intOf true c.vBits (x / 2 % 2 ^ c.vBits)) (x % 2 == 1)

/-- The bits of a cell (R77). -/
def CellFmt.pack (c : CellFmt) : WCell → Nat
  | .special neg nan ovf =>
    (2 ^ c.wBits - 1) * 2 ^ (c.vBits + 1) + neg.toNat * 2 ^ c.vBits + nan.toNat * 2 ^ (c.vBits - 1) +
      ovf.toNat * 2 ^ (c.vBits - 2)
  | .sum w v st => w * 2 ^ (c.vBits + 1) + ofInt c.vBits v * 2 + st.toNat

/-- v shifted right by n places, toward zero. -/
def shiftMag (v : Int) (n : Nat) : Int := signed (decide (v < 0)) (v.natAbs >>> n)

/-- align_window (R78, R80) for the product of two decoded operands. Where the rules give no sign of a cell that becomes NaN its
sign bit is 0, and a v that software wrote so large that a sum leaves bits [55:1] is kept whole (DESIGN CHOICE, log 58). -/
def CellFmt.align (c : CellFmt) (cell : WCell) (a b : Val) : WCell :=
  let p := (mulVal a b).1
  match cell with
  | .special neg nan ovf =>
    if nan then cell
    else match p with
      | .nan _ => .special false true false
      | .inf n => if n = neg then .special neg false false else .special false true false
      | _ => .special neg false ovf
  | .sum w v st =>
    match p with
    | .nan _ => .special false true false
    | .inf n => .special n false false
    | .num n m e =>
      if m = 0 then cell
      else
        let ep := topExp m e
        if (c.bias : Int) + 1 ≤ ep then .special n false true
        else
          let cur := (w : Int) - c.bias
          let sh := (ep - cur).toNat
          let st1 := st || decide (v.natAbs % 2 ^ sh ≠ 0)
          let v1 := shiftMag v sh
          let w1 := if cur < ep then ep else cur
          let q := w1 - ((c.top : Int) - 1)
          let (k, inex) := roundAt .rz 0 n m e q
          .sum (w1 + c.bias).toNat (v1 + signed n k) (st1 || inex)

/-- deliver_window (R79): the partial's code, and whether it is an infinity that no infinite operand made (R83). -/
def CellFmt.deliver (c : CellFmt) (cell : WCell) : Nat × Bool :=
  match cell with
  | .special neg nan ovf => if nan then (c.fmt.nanCode, false) else ((c.fmt.encode .rne 0 (.inf neg)).1, ovf)
  | .sum w v st =>
    if v = 0 then (0, false)
    else
      let m := v.natAbs <<< 128 + st.toNat
      let (x, fl) := c.fmt.encode .rne 0 (.num (decide (v < 0)) m ((w : Int) - c.bias - ((c.top : Int) - 1) - 128))
      (x, fl &&& fOF != 0)

/-! ### Reduction (R81) -/

/-- One level of the tree: neighbours combined, with the staging threaded in order. -/
def treeLevel {α σ : Type} (f : σ → α → α → α × σ) : σ → List α → List α × σ
  | g, a :: b :: l =>
    let (x, g1) := f g a b
    let (xs, g2) := treeLevel f g1 l
    (x :: xs, g2)
  | g, l => (l, g)

/-- tree_reduce over 2^n elements (R81). -/
def treeReduce {α σ : Type} [Inhabited α] (f : σ → α → α → α × σ) : Nat → σ → List α → α × σ
  | 0, g, l => (l.headD default, g)
  | n + 1, g, l =>
    let (l1, g1) := treeLevel f g l
    treeReduce f n g1 l1

/-! ### Elements of a register (R37, R38) -/

/-- Element i of a register, elements of w bits (R37). -/
def elem (v : Vec) (w i : Nat) : Nat := v.toNat >>> (w * i) % 2 ^ w

/-- A number from its elements of w bits, the first lowest. -/
def packNat (w : Nat) : List Nat → Nat
  | [] => 0
  | x :: l => x % 2 ^ w + 2 ^ w * packNat w l

/-- A register from its elements. -/
def ofElems (w : Nat) (l : List Nat) : Vec := BitVec.ofNat 1024 (packNat w l)

/-- Number of elements of w bits. -/
def nElems (w : Nat) : Nat := 1024 / w

/-- Mask bit that governs an element of w bits is 1 (R38). -/
def active (m : BitVec 32) (w i : Nat) : Bool := if w = 64 then m.getLsbD i else m.getLsbD (w * i / 32)

/-- Elements from an index on, each computed when active and kept from `old` when not, with the staging threaded. -/
def mapElems (m : BitVec 32) (w : Nat) (old : Vec) (f : Nat → Staged → Nat × Staged) : Nat → Nat → Staged →
    List Nat × Staged
  | 0, _, g => ([], g)
  | k + 1, i, g =>
    let (x, g1) := if active m w i then f i g else (elem old w i, g)
    let (xs, g2) := mapElems m w old f k (i + 1) g1
    (x :: xs, g2)

/-- A register with every active element computed (R238). -/
def mapVec (m : BitVec 32) (w : Nat) (old : Vec) (g : Staged) (f : Nat → Staged → Nat × Staged) : Vec × Staged :=
  let (l, g1) := mapElems m w old f (nElems w) 0 g
  (ofElems w l, g1)

end Sys2Proof.Machine
end

