-- ==== Sys2Proof/Machine/Access.lean ====
section
/-!
DEFINITION. One access move at a place: conflict check, stamps, cache words and forward tags (R91, R120, R123), the
synchronisation of an atomic access (R116, R117), full/empty bits (R94 to R96), and the checks of R219 that a thread
makes at issue.
-/

namespace Sys2Proof.Machine

/-! ### Reports -/

/-- Address of a word of an access at `va`, from the word's distance to the access's first word. -/
def wordVa (va : Dword) (p : Place) (w : WordKey) : Dword :=
  let d := match p, w with
    | .sp _ o, .sp _ k => k - o / 4
    | .phys a, .phys k => k - a / 4
    | _, _ => 0
  BitVec.ofNat 64 (va.toNat / 4 * 4 + 4 * d)

/-- The memory-model exception of a conflict (R124, R208): the word's address and the other agent. -/
def conflictExc (core : Nat) (va : Dword) (p : Place) (x : WordKey × Stamp) : Exc :=
  { cause := 15, addr := reportAddr core (wordVa va p x.1), agent := x.2.rep, note := .conflict }

/-- The segment exception of a failed check (R219). -/
def segExc (core : Nat) (va : Dword) : Exc := { cause := 9, addr := reportAddr core va }

/-- The segment exception of an error response, which is logged (R376, R390). -/
def errExc (core : Nat) (va : Dword) : Exc := { segExc core va with note := .refused }

/-- The segment exception of an access that meets an uncorrectable soft error (R390). -/
def softExc (core : Nat) (va : Dword) : Exc := { segExc core va with note := .soft }

/-- The segment exception of a malformed walk (R371). -/
def checkExc (core : Nat) (va : Dword) : Exc := { segExc core va with note := .check }

/-! ### Forward-tagged lines (R91) -/

/-- A load, a gather or a stream element read by a thread on a core counts for the sectors that it touches. Whether an AMO or
a CAS counts the rule does not say: neither does (DESIGN CHOICE, log 55). -/
def State.forwardRead (s : State) (core : Nat) (p : Place) (n : Nat) : State :=
  match p with
  | .sp _ _ => s
  | .phys a =>
    (List.range ((a + n + 63) / 64 - a / 64)).foldl (fun s i =>
      let k := a / 64 + i
      match amGet? s.fwd (k / 8) with
      | none => s
      | some (c, sec) => if c ≠ core then s else { s with fwd := amSet s.fwd (k / 8) (c, sec ||| (1#8 <<< (k % 8))) }) s

/-- The read that completes the set of a line's sectors is over: the line is consumed, and reads as zero. -/
def State.consume (s : State) : State :=
  (s.fwd.filter (fun e => e.2.2 == 0xFF)).foldl (fun s e =>
    { s with
      fwd := amDel s.fwd e.1, mem := s.mem.clear (e.1 * 512) 512
      wcache := s.wcache.filter (fun x => match x.1 with
        | .phys w => decide (w / 128 ≠ e.1)
        | .sp _ _ => true) }) s

/-! ### Moves -/

/-- The check of R123 on every word of an access at a place, then its stamps. The access itself is not made. -/
def State.touch (s : State) (ag : Agent) (writes atom : Bool) (p : Place) (n : Nat) : Except (WordKey × Stamp) State :=
  let ws := p.words n
  match s.conflicts? ag writes atom ws with
  | some x => .error x
  | none => .ok (s.markAll ag writes atom ws)

/-- The value that a plain read of `n` bytes on core `c` finds: each word's in its own valid copy, else in memory (R120). -/
def State.readVal (s : State) (c : Option Nat) (rp : Bool) (p : Place) (n : Nat) : Nat :=
  match c, p with
  | some k, .phys a =>
    if (p.words n).all (fun w => (amGet? (s.cacheOf w).valid k).isNone) then s.val p n
    else leVal ((List.range n).map (fun i => (s.readWord c rp (.phys ((a + i) / 4))).extractLsb' (8 * ((a + i) % 4)) 8))
  | _, _ => s.val p n

/-- What a plain access leaves in the cache words of its words (R120, R225). -/
def State.cachePlain (s : State) (c : Option Nat) (writes rp : Bool) (ws : List WordKey) : State :=
  ws.foldl (fun s w => if writes then s.cacheWrite c rp w else s.cacheRead c rp w) s

/-- What an atomic access leaves in the cache words of its words (R120). -/
def State.cacheAtom (s : State) (writes : Bool) (ws : List WordKey) : State :=
  ws.foldl (fun s w => s.cacheAtomic writes w) s

/-- Contributions added to several objects, their contributions acquired, and the region ended once (R116). -/
def State.syncAll (s : State) (ag : Agent) (os : List Obj) (rel acq : Bool) (sc : Scope) : State :=
  let k := s.contrib ag sc
  let s1 := if rel then os.foldl (fun s o => s.release o [k]) s else s
  let s2 := if acq then
      (os.foldl (fun s o => s.acquire ag sc (s.contribs o)) s1).acquired ag
    else s1
  s2.endRegion ag

/-- The synchronisation of an atomic access of a thread on the words of a place (R116, R117): its fence contributions
join an atomic write; the words that it read without an acquire wait for a fence. -/
def State.atomSync (s : State) (aid : Nat) (p : Place) (n : Nat) (reads writes rel acq : Bool) (sc : Scope) : State :=
  let os := (p.words n).map Obj.word
  let s1 := if writes then os.foldl (fun s o => s.release o (s.th aid).fences) s else s
  let s2 := s1.syncAll (.thread aid) os (rel && writes) (acq && reads) sc
  if reads && !acq then s2.modTh aid (fun t => { t with reads := (os ++ t.reads).eraseDups }) else s2

/-- Granules of `n` bytes at an offset. -/
def granules (o n : Nat) : List Nat := (List.range ((o + n + 15) / 16 - o / 16)).map (fun i => o / 16 + i)

/-- A granule's full/empty bit. -/
def State.isFull (s : State) (core g : Nat) : Bool := (s.core core).full.contains g

/-- A granule's full/empty bit set. -/
def State.setFull (s : State) (core g : Nat) (b : Bool) : State :=
  s.modCore core (fun k =>
    { k with full := if b then (if k.full.contains g then k.full else g :: k.full) else k.full.filter (fun x => decide (x ≠ g)) })

/-- What a write releases in a granule that it sets full: its own access to the bytes that it wrote there (R96). -/
def State.fillContrib (s : State) (ag : Agent) (c o n g : Nat) : Contrib :=
  { s.contrib ag .pkg with
    clk := (((Place.sp c o).words n).filter (fun w => match w with
      | .sp _ k => k / 4 == g
      | .phys _ => false)).map (fun w => (.word w ag, s.region ag)) }

/-- Granules set full by a write, each as a release of an agent (R96). -/
def State.fill (s : State) (ag : Agent) (p : Place) (n : Nat) : State :=
  match p with
  | .sp c o =>
    ((granules o n).foldl (fun s g => (s.setFull c g true).release (.granule c g) [s.fillContrib ag c o n g]) s).endRegion ag
  | .phys _ => s

/-- What a mailbox store releases to the words of a mailbox (R117). -/
def State.boxRelease (s : State) (p : Place) (ks : List Contrib) : State :=
  (p.words 8).foldl (fun s w => s.release (.box w) ks) s

/-- What mailbox stores released to the words of an access (R117). -/
def State.boxContribs (s : State) (p : Place) (n : Nat) : List Contrib := (p.words n).flatMap (fun w => s.contribs (.box w))

/-- A load at a place by an agent: one of a mailbox acquires what its store released, before its own check (R117). -/
def State.load {α : Type} (s : State) (ag : Agent) (p : Place) (n : Nat) (f : State → Except (WordKey × Stamp) (α × State)) :
    Except (WordKey × Stamp) (α × State) :=
  let ks := s.boxContribs p n
  if ks.isEmpty then f s
  else (f (s.acquire ag .pkg ks)).map (fun e => (e.1, (e.2.acquired ag).endRegion ag))

/-- A plain read by a thread at a place (R115, R120, R123). -/
def State.plainRead (s : State) (aid core : Nat) (rp : Bool) (p : Place) (n : Nat) : Except (WordKey × Stamp) (Nat × State) :=
  s.load (.thread aid) p n (fun s =>
    match s.touch (.thread aid) false false p n with
    | .error x => .error x
    | .ok s1 => .ok (s1.readVal (some core) rp p n, (s1.cachePlain (some core) false rp (p.words n)).forwardRead core p n))

/-- An atomic read by a thread at a place. -/
def State.atomRead (s : State) (aid : Nat) (acq : Bool) (sc : Scope) (p : Place) (n : Nat) :
    Except (WordKey × Stamp) (Nat × State) :=
  s.load (.thread aid) p n (fun s =>
    match s.touch (.thread aid) false true p n with
    | .error x => .error x
    | .ok s1 => .ok (s1.val p n, (s1.cacheAtom false (p.words n)).atomSync aid p n true false false acq sc))

/-- A plain write by an agent at a place; `core` is the core whose cache words it uses. -/
def State.plainWrite (s : State) (ag : Agent) (core : Option Nat) (rp : Bool) (p : Place) (bs : List Byte) :
    Except (WordKey × Stamp) State :=
  match s.touch ag true false p bs.length with
  | .error x => .error x
  | .ok s1 => .ok ((s1.putBytes p bs).cachePlain core true rp (p.words bs.length))

/-- An atomic write by a thread at a place. -/
def State.atomWrite (s : State) (aid : Nat) (rel : Bool) (sc : Scope) (p : Place) (bs : List Byte) :
    Except (WordKey × Stamp) State :=
  match s.touch (.thread aid) true true p bs.length with
  | .error x => .error x
  | .ok s1 =>
    .ok (((s1.putBytes p bs).cacheAtom true (p.words bs.length)).atomSync aid p bs.length false true rel false sc)

/-- An atomic read-write by a thread at a place (R127): `f` gives the new value, or none when nothing is written (a CAS
whose values differ, R230). Answers the old value. -/
def State.atomUpdate (s : State) (aid : Nat) (rel acq : Bool) (sc : Scope) (p : Place) (n : Nat)
    (f : Nat → Option Nat) : Except (WordKey × Stamp) (Nat × State) :=
  let old := s.val p n
  let w := (f old).isSome
  match s.touch (.thread aid) w true p n with
  | .error x => .error x
  | .ok s1 =>
    let s2 := match f old with
      | some new => s1.putVal p n new
      | none => s1
    .ok (old, (s2.cacheAtom w (p.words n)).atomSync aid p n true w rel acq sc)

/-! ### Checks of a thread at issue (R219) -/

/-- The target of a window address is the scratchpad of the executing core. -/
def State.isOwn (s : State) (t : Thread) (va : Dword) : Bool :=
  let c := (windowOf t.core va).1
  inWindow va && decide (c = t.core) && (t.kind != .super || s.guest t.core == t.core)

/-- The launch tag with which a thread's scratchpad accesses are judged (R93). -/
def State.ownOk (s : State) (t : Thread) (va : Dword) (n : Nat) : Bool :=
  s.spOk (t.kind == .super) t.ltag (windowOf t.core va).1 (windowOf t.core va).2 n

/-- Alignment, then segment (R219 steps 1 and 2). -/
def State.chkSeg (s : State) (t : Thread) (g : BitVec 3) (va : Dword) (n al : Nat) (rd wr : Bool) : Option Exc :=
  if va.toNat % al ≠ 0 then some { cause := 12, addr := reportAddr t.core va }
  else if (s.seg t g).grants va.toNat n rd wr then none
  else some (segExc t.core va)

/-- The scratchpad check (R219 step 4) of a load, of an atomic with a result, or of a local store. -/
def State.chkSp (s : State) (t : Thread) (va : Dword) (n : Nat) : Option Exc :=
  if inWindow va && !s.ownOk t va n then some { cause := 13, addr := reportAddr t.core va } else none

/-- What an access of a thread that performs at issue meets: the state after it with its value, a precise exception, or
a page fault at which the thread waits. -/
inductive Met (α : Type) where
  | ok (x : α) (s : State)
  | exc (e : Exc) (s : State)
  | fault (va : Dword) (reason : Nat) (s : State)
  /-- Its target holds it: the context of the scratchpad is absent (R361). -/
  | wait

/-- The place that an access of a thread reaches, for an instruction that performs at issue on scratchpads or device
memory: `kind` says whether host memory is refused (atomic-target, R231). -/
def State.placeFor (s : State) (aid : Nat) (va : Dword) (n : Nat) (nd : Need) (atomic : Bool) : Met Place :=
  let t := s.th aid
  match s.reachTh aid va n nd with
  | (.mem p, s1) =>
    if (nd = .write ∨ nd = .both) ∧ s1.inPool p n then .exc (errExc t.core va) s1 else .ok p s1
  | (.host p, s1) => if atomic then .exc { cause := 32, addr := reportAddr t.core va } s1 else .ok p s1
  | (.control _, s1) | (.storage _, s1) =>
    .exc (if atomic then { cause := 32, addr := reportAddr t.core va } else errExc t.core va) s1
  | (.absent _, _) => .wait
  | (.range, s1) => .exc { cause := 13, addr := reportAddr t.core va } s1
  | (.fault r, s1) => .fault va r s1
  | (.check, s1) => .exc (checkExc t.core va) s1
  | (.soft, s1) => .exc (softExc t.core va) s1
  | (.error, s1) => .exc (errExc t.core va) s1

/-- The places of `n` bytes at an address, one for each page that they reach, each with its number of bytes (R367). -/
def State.piecesFor (s : State) (aid : Nat) (va : Dword) (nd : Need) : Nat → Nat → Met (List (Place × Nat))
  | 0, _ => .ok [] s
  | f + 1, n =>
    let k := if inWindow va then n else Nat.min n (65536 - va.toNat % 65536)
    match s.placeFor aid va k nd false with
    | .exc e s1 => .exc e s1
    | .fault a r s1 => .fault a r s1
    | .wait => .wait
    | .ok p s1 =>
      if n ≤ k then .ok [(p, k)] s1
      else match State.piecesFor s1 aid (va + BitVec.ofNat 64 k) nd f (n - k) with
        | .ok ps s2 => .ok ((p, k) :: ps) s2
        | r => r

/-- Plain reads of a thread at the pieces of a range, in order: the bytes, or the exception of the first conflict. -/
def State.readPieces (s : State) (aid : Nat) (va : Dword) : List (Place × Nat) → Except Exc (List Byte × State)
  | [] => .ok ([], s)
  | (p, n) :: l =>
    match s.plainRead aid (s.th aid).core false p n with
    | .error x => .error (conflictExc (s.th aid).core va p x)
    | .ok (v, s1) =>
      match State.readPieces s1 aid (va + BitVec.ofNat 64 n) l with
      | .ok (bs, s2) => .ok (leBytes n v ++ bs, s2)
      | .error x => .error x

/-- A thread waits at a page fault of its own instruction or fetch (R22, R375): a light thread leaves its slot as
Blocked, which it does only once nothing that it issued is outstanding (R54): until then it stays at the instruction. -/
def State.waitFault (s : State) (aid : Nat) (va : Dword) (reason : Nat) (npc : Dword) : State :=
  let t := s.th aid
  if t.kind = .light ∧ t.outst.isEmpty = false then s.modTh aid (fun t => { t with parked := true })
  else
    let s1 := (s.modTh aid (fun t => { t with pnpc := npc })).pageFault (s.port t) (s.asid t) va 0 reason t.ltag (s.place t) (.thread aid)
    if t.kind = .light then s1.leaveSlot aid .blocked else s1

end Sys2Proof.Machine
end

