-- ==== Sys2Proof/Machine/Engines.lean ====
section
/-!
DEFINITION. Accesses of the engines (R113, R124, R128): where an address leads for an engine, its reads and writes, which
perform despite a conflict, and the trap that then goes to the agent that kicked it.
-/

namespace Sys2Proof.Machine

/-- How an engine makes its accesses: its agent, the agent that kicked it (R124), the cluster port that translates for it (R375), the
launch's address space and tag, its agent kind in a fault message, the core to whose service core the message goes, what waits at
a fault, and whether its addresses are virtual (R392). -/
structure Eng where
  ag   : Agent
  kick : Agent
  cl   : Nat
  asid : Nat
  tag  : BitVec 32
  kind : Nat
  dest : Nat
  w    : Waiter
  virt : Bool

/-- What an engine's access meets. -/
inductive Eo (α : Type) where
  | ok (x : α) (s : State)
  | err (s : State)
  | fault (s : State)
  | absent (core : Nat) (s : State)

/-- Whether an agent waits at an open or a coming fault entry of a cluster port. -/
def State.atFault (s : State) (cl : Nat) (w : Waiter) : Bool :=
  let k := s.clu cl
  k.faults.toList.any (fun f => match f with
    | some x => x.ws.any (fun y => y.1 == w)
    | none => false) || k.fwait.any (fun f => f.w == w)

/-- A refused access of an engine in the log of its die (R390 to R392). -/
def State.logEng (s : State) (e : Eng) (cause : Nat) (va : Dword) : State :=
  s.logErr (dieOfClu e.cl) 1 cause (reportAddr (4 * e.cl) va) e.virt (s.rep e.ag) none

/-- An access of an engine that meets an uncorrectable soft error, in the log of its die (R390, R392). -/
def State.logSoft (s : State) (e : Eng) (va : Dword) : State :=
  s.logErr (dieOfClu e.cl) 3 9 (reportAddr (4 * e.cl) va) e.virt (s.rep e.ag) none

/-- Where an engine's access leads; nothing for a storage window, whose content no rule gives. -/
def State.engPlace (s : State) (e : Eng) (va : Dword) (n : Nat) (nd : Need) : Eo (Option Place) :=
  match s.reach (4 * e.cl) e.cl e.asid false e.tag va n nd with
  | (.mem p, s1) => if (nd = .write ∨ nd = .both) ∧ s1.inPool p n = true then .err (s1.logEng e 9 va) else .ok (some p) s1
  | (.host p, s1) => .ok (some p) s1
  | (.storage _, s1) => .ok none s1
  | (.absent c, s1) => .absent c s1
  | (.range, s1) => .err (s1.logEng e 13 va)
  | (.check, s1) => .err ((s1.machineCheck e.dest e.kind va e.tag e.asid (s1.rep e.ag)).logEng e 9 va)
  | (.fault r, s1) => .fault (s1.pageFault e.cl e.asid va e.kind r e.tag e.dest e.w)
  | (.soft, s1) => .err (s1.logSoft e va)
  | (.control _, s1) => .err (s1.logEng e 9 va)
  | (.error, s1) => .err (s1.logEng e 9 va)

/-- Address of the word that a conflict names (R124, R208), for an access of at most 16 bytes at `va`: pages and windows keep
the low bits of an address. -/
def engWordVa (va : Dword) (w : WordKey) : Dword :=
  let i := match w with
    | .sp _ k => k
    | .phys k => k
  let b := va.toNat / 4
  BitVec.ofNat 64 ((b + (i + 8 - b % 8) % 8) * 4)

/-- The conflict that an engine's access finds is logged and goes as an asynchronous trap to a thread that kicked the
engine, unless it has ended (R124, R208, R213); to one whose context has left its core it goes as traffic of the core does (R359,
R365). `replay` marks one that a replay brings (R362), `virt` a virtual address. -/
def State.engTrap (s : State) (die : Nat) (kicker : Agent) (self other : Dword) (addr data : Dword) (replay : Bool)
    (virt : Bool := true) : State :=
  let s1 := s.logErr die 1 15 addr virt self (some other)
  match kicker with
  | .thread a =>
    let t := s1.th a
    let x : ATrap := ⟨{ cause := 15, addr := addr, data := data, agent := other }, t.seq, replay⟩
    if t.loc = .exited then s1
    else if replay || (s1.core t.core).site == .on t.core || t.kind == .super then
      s1.modTh a (fun t => { t with traps := insertTrap x t.traps, parked := false })
    else { s1 with trapq := s1.trapq ++ [(a, x, self)] }
  | _ => s1

/-- A conflict that an access of an engine at an address and place found, if any, is reported to its kicker (R124). -/
def State.engReport (s : State) (e : Eng) (va : Dword) (p : Place) (x : Option (WordKey × Stamp)) : State :=
  match x with
  | some (w, st) => s.engTrap (dieOfClu e.cl) e.kick (s.rep e.ag) st.rep (reportAddr (4 * e.cl) (wordVa va p w)) 0 false e.virt
  | none => s

/-- An engine's plain read at a place: the bytes, and the conflict that it finds. It performs at the home, past every core's cache
words, and counts for no forward-tagged line (R91, R120). -/
def State.engRead (s : State) (e : Eng) (p : Place) (n : Nat) : List Byte × Option (WordKey × Stamp) × State :=
  let ws := p.words n
  (s.bytes p n, s.conflicts? e.ag false false ws, s.markAll e.ag false false ws)

/-- An engine's plain write at a place, and the conflict that it finds. -/
def State.engWrite (s : State) (e : Eng) (p : Place) (bs : List Byte) : Option (WordKey × Stamp) × State :=
  let ws := p.words bs.length
  (s.conflicts? e.ag true false ws, ((s.markAll e.ag true false ws).putBytes p bs).cachePlain none true false ws)

/-- An atomic access of an engine with release or acquire, made already where it writes, and the conflict that it finds (R123). -/
def State.engSync (s : State) (e : Eng) (p : Place) (n : Nat) (writes rel acq : Bool) : Option (WordKey × Stamp) × State :=
  let ws := p.words n
  (s.conflicts? e.ag writes true ws,
    ((s.markAll e.ag writes true ws).cacheAtom writes ws).syncAll e.ag (ws.map Obj.word) rel acq .pkg)

/-- An atomic access of an engine at an address, whose conflict is reported. -/
def State.engAtom (s : State) (e : Eng) (va : Dword) (p : Place) (n : Nat) (writes rel acq : Bool) : State :=
  let (x, s1) := s.engSync e p n writes rel acq
  s1.engReport e va p x

/-- A store-release of a dword by an engine (R128), and the conflict that it finds. -/
def State.engStore (s : State) (e : Eng) (p : Place) (v : Dword) : Option (WordKey × Stamp) × State :=
  (s.putVal p 8 v.toNat).engSync e p 8 true true false

/-- A store-release of a dword by an engine to its mailbox (R117, R128), and the conflict that it finds. -/
def State.mailStore (s : State) (e : Eng) (p : Place) (v : Dword) : Option (WordKey × Stamp) × State :=
  let (x, s1) := s.engStore e p v
  (x, s1.boxRelease p [s.contrib e.ag .pkg])

/-- A mailbox store of an engine at an address, whose conflict is reported. -/
def State.engMail (s : State) (e : Eng) (va : Dword) (p : Place) (v : Dword) : State :=
  let (x, s1) := s.mailStore e p v
  s1.engReport e va p x

/-- A store-release of a dword by an engine at an address, whose conflict is reported. -/
def State.engPut (s : State) (e : Eng) (va : Dword) (p : Place) (v : Dword) : State :=
  let (x, s1) := s.engStore e p v
  s1.engReport e va p x

/-- Bytes that a storage window answers with: free (R378). -/
def State.freeBytes (s : State) : Nat → List Byte × State
  | 0 => ([], s)
  | n + 1 =>
    let (i, s1) := s.takeFree
    let (bs, s2) := s1.freeBytes n
    (Config.freeByte i :: bs, s2)

/-- A plain read by an engine at an address, which may straddle two 16-byte granules. -/
def State.engLoad (s : State) (e : Eng) (va : Dword) (n : Nat) : Eo (List Byte × Option (WordKey × Stamp)) :=
  let one (s : State) (va : Dword) (n : Nat) : Eo (List Byte × Option (WordKey × Stamp)) :=
    match s.engPlace e va n .read with
    | .ok (some p) s1 =>
      let (bs, c, s2) := s1.engRead e p n
      .ok (bs, c) s2
    | .ok none s1 =>
      let (bs, s2) := s1.freeBytes n
      .ok (bs, none) s2
    | .err s1 => .err s1
    | .fault s1 => .fault s1
    | .absent c s1 => .absent c s1
  let n1 := Nat.min n (16 - va.toNat % 16)
  match one s va n1 with
  | .ok (bs, c) s1 =>
    if n1 = n then .ok (bs, c) s1
    else
      match one s1 (va + BitVec.ofNat 64 n1) (n - n1) with
      | .ok (bs', c') s2 => .ok (bs ++ bs', c <|> c') s2
      | r => r
  | r => r

/-- A window range of an engine's copy is one that R93 allows, core by core; any range outside the windows is. -/
def State.rangeOk (s : State) (tag : BitVec 32) (core : Nat) (va : Dword) (len : Nat) : Bool :=
  if va.toNat + len ≤ apertureBase then true
  else if inWindow va = false then false
  else if aliasBase ≤ va.toNat then s.spOk false tag core (windowOf core va).2 len
  else
    let (c, o) := windowOf core va
    let n := (o + len + apertureStep - 1) / apertureStep
    decide (c + n ≤ 1152) && (List.range n).all (fun i =>
      let lo := if i = 0 then o else 0
      let hi := Nat.min apertureStep (o + len - i * apertureStep)
      s.spOk false tag (c + i) lo (hi - lo))

end Sys2Proof.Machine
end

