-- ==== Sys2Proof/Machine/Ring.lean ====
section
/-!
DEFINITION. The records of light contexts, tasks and messages (R50, R51, R353), and the overflow engine, which writes them to the
ring of the launch and reads them back (R357, R358).
-/

namespace Sys2Proof.Machine

/-! ### Records -/

/-- The light context packet (R50, R51). -/
def Thread.packet (t : Thread) : List Byte :=
  (List.range 10).flatMap (fun i => leBytes 8 (vrd t.regs.s i).toNat) ++ leBytes 8 t.pc.toNat ++ leBytes 8 t.pos.toNat ++
    leBytes 8 (t.regs.seed.toNat * 2 ^ 32 + t.regs.rm.toNat * 2 ^ 8 + t.regs.fstat.toNat) ++
    leBytes 4 (t.regs.p.toNat ||| 1) ++
    leBytes 1 (t.regs.segsel.toNat + t.bnd.isSome.toNat * 4 + t.hh.toNat * 8) ++ leBytes 3 0 ++ leBytes 4 t.ltag.toNat ++
    leBytes 2 t.fidx.toNat ++ leBytes 10 0

/-- A task record (R353). -/
def Task.record (t : Task) : List Byte :=
  leBytes 8 t.entry.toNat ++ (List.range 4).flatMap (fun i => leBytes 8 (t.args.getD i 0).toNat) ++ leBytes 8 t.s4.toNat ++
    leBytes 32 t.waitM.toNat ++ leBytes 32 t.setM.toNat ++ leBytes 8 (t.seed.toNat * 2 ^ 32 + t.rm.toNat * 2 ^ 8) ++
    leBytes 4 (t.count.toNat + t.index % 2 ^ 16 * 2 ^ 16) ++ leBytes 4 t.ltag.toNat

/-- A message record (R353). -/
def Msg.record (m : Msg) : List Byte :=
  leBytes 8 m.handler.toNat ++ (List.range 4).flatMap (fun i => leBytes 8 (m.payload.getD i 0).toNat) ++
    leBytes 4 m.sender.toNat ++ leBytes 4 m.ltag.toNat ++ leBytes 16 0

/-- The field of `n` bytes at an offset of a record. -/
def fieldAt (bs : List Byte) (off n : Nat) : Nat := leVal ((bs.drop off).take n)

/-- A program counter, whose bits [1:0] are always 0 (R136). -/
def pcOf (x : Nat) : Dword := BitVec.ofNat 64 x &&& ~~~(3#64)

/-- A context as its packet gives it (R51). Flags that were committed since the packet was written stay (R45). Reserved bytes that
memory holds nonzero are not looked at (DESIGN CHOICE, log 13). -/
def Thread.unpack (t : Thread) (bs : List Byte) : Thread :=
  let f := fieldAt bs 96 8
  let x := fieldAt bs 108 1
  { t with
    regs :=
      { t.regs with
        s := Vector.ofFn (fun i => if i.val < 10 then BitVec.ofNat 64 (fieldAt bs (8 * i.val) 8) else vrd t.regs.s i.val)
        seed := BitVec.ofNat 32 (f / 2 ^ 32), rm := BitVec.ofNat 3 (f / 2 ^ 8), fstat := t.regs.fstat ||| BitVec.ofNat 6 f
        p := BitVec.ofNat 32 (fieldAt bs 104 4) ||| 1, segsel := BitVec.ofNat 2 x }
    pc := pcOf (fieldAt bs 80 8), pos := BitVec.ofNat 64 (fieldAt bs 88 8), hh := x.testBit 3
    fidx := BitVec.ofNat 15 (fieldAt bs 116 2) }

/-- A task as its record gives it (R353), with the join count of the queue; reserved bytes are not looked at (DESIGN CHOICE, log 13). -/
def Task.unpack (t : Task) (bs : List Byte) : Task :=
  { t with
    entry := pcOf (fieldAt bs 0 8), args := (List.range 4).map (fun i => BitVec.ofNat 64 (fieldAt bs (8 + 8 * i) 8))
    s4 := BitVec.ofNat 64 (fieldAt bs 40 8), waitM := BitVec.ofNat 256 (fieldAt bs 48 32), setM := BitVec.ofNat 256 (fieldAt bs 80 32)
    seed := BitVec.ofNat 32 (fieldAt bs 116 4), rm := BitVec.ofNat 3 (fieldAt bs 113 1) }

/-- A message as its record gives it (R353); reserved bytes are not looked at (DESIGN CHOICE, log 13). -/
def Msg.unpack (m : Msg) (bs : List Byte) : Msg :=
  { m with
    handler := pcOf (fieldAt bs 0 8), payload := (List.range 4).map (fun i => BitVec.ofNat 64 (fieldAt bs (8 + 8 * i) 8))
    sender := BitVec.ofNat 32 (fieldAt bs 40 4) }

/-! ### Shares of the ring (R357, R358) -/

/-- Records of a core's share of the ring of its launch (R357). -/
def State.share (s : State) (core : Nat) : Nat :=
  match s.launch? (s.core core).ltag with
  | some l => l.ovq * 65536 / (4 * l.w * l.ph) / 128
  | none => 0

/-- The records of a core's share that hold entries, each marked with its queue. -/
def Core.ringRecs (k : Core) : List Nat :=
  k.runRing.map (·.1) ++ k.dqRing.map (·.1) ++ k.tkRing.map (·.1) ++ k.mgRing.map (·.1)

/-- The free record of a core's share that the next entry takes: the lowest (log 13). -/
def State.ringFree (s : State) (core : Nat) : Option Nat :=
  let rs := (s.core core).ringRecs
  ((List.range (rs.length + 1)).find? (fun r => !rs.contains r)).filter (fun r => decide (r < s.share core))

/-- Address of a record: the shares lie in core-number order (R357). -/
def State.ringAddr (s : State) (core r : Nat) : Dword :=
  match s.launch? (s.core core).ltag with
  | some l =>
    l.ovring + BitVec.ofNat 64 (128 * (s.share core * (l.panelCores.filter (fun c => decide (c < core))).length + r))
  | none => 0

/-- How the overflow engine of a core's cluster makes its accesses (R357). No rule says who kicks it: its conflicts are logged
(DESIGN CHOICE, log 13). -/
def State.ringEng (s : State) (core : Nat) : Eng :=
  let cl := clusterOf core
  let tag := (s.core core).ltag
  ⟨.overflow cl, .host, cl, (s.launch? tag).elim 0 (·.asid), tag, 3, 4 * cl, .overflow core, true⟩

/-- An entry that finds no record waits, and one quota message goes out until the share has a free record again (R358). -/
def State.quotaWait (s : State) (core q : Nat) : State :=
  if (s.core core).quota then s
  else
    (s.modCore core (fun k => { k with quota := true })).hwMessage (s.phys core) (4 * 2 ^ 48 + s.phys core * 2 ^ 32 + q)
      (s.core core).ltag.toNat 0 0

/-- A refused access of the engine leaves its record in the log, once until the share has a free record again: the entry stays
where it is (log 13). -/
def State.ringRefused (s s1 : State) (core : Nat) : State :=
  if (s.core core).quota then s else s1.modCore core (fun k => { k with quota := true })

/-- The engine writes an entry of a queue to a free record of the ring and answers its number, or what the entry leaves as it waits:
for a free record (R358), or for the page of the record (R375). -/
def State.ringSpill (s : State) (core q : Nat) (bs : List Byte) : Except State (Nat × State) :=
  match s.ringFree core with
  | none => .error (s.quotaWait core q)
  | some r =>
    let e := s.ringEng core
    let va := s.ringAddr core r
    if s.atFault e.cl e.w then .error s
    else
      match s.engPlace e va 128 .write with
      | .ok (some p) s1 =>
        let (x, s2) := s1.engWrite e p (bs ++ List.replicate (128 - bs.length) 0)
        .ok (r, s2.engReport e va p x)
      | .ok none s1 => .ok (r, s1)
      | .fault s1 => .error s1
      | .err s1 => .error (s.ringRefused s1 core)
      | .absent _ _ => .error s

/-- What an entry of a queue leaves as it waits for the ring (R358, R375). -/
def State.ringWait (s : State) (core q : Nat) : State :=
  match s.ringSpill core q [] with
  | .ok _ => s
  | .error s1 => s1

/-- The engine reads a record of the ring; with no answer the entry stays there, in the state that it leaves. -/
def State.ringRead (s : State) (core r : Nat) : Except State (List Byte × State) :=
  let e := s.ringEng core
  let va := s.ringAddr core r
  if s.atFault e.cl e.w then .error s
  else
    match s.engPlace e va 128 .read with
    | .ok (some p) s1 =>
      let (bs, x, s2) := s1.engRead e p 128
      .ok (bs, s2.engReport e va p x)
    | .ok none s1 => .ok (s1.freeBytes 128)
    | .fault s1 => .error s1
    | .err s1 => .error (s.ringRefused s1 core)
    | .absent _ _ => .error s

/-- A record of the ring written again, where the engine reaches it: a task whose join count changed (R198, R353). -/
def State.ringRewrite (s : State) (core r : Nat) (bs : List Byte) : State :=
  let e := s.ringEng core
  let va := s.ringAddr core r
  match s.engPlace e va 128 .write with
  | .ok (some p) s1 =>
    let (x, s2) := s1.engWrite e p bs
    s2.engReport e va p x
  | _ => s

/-- The engine reads a context back from the ring, where the ring holds it. -/
def State.ringContext (s : State) (core aid : Nat) : Except State State :=
  match ((s.core core).runRing ++ (s.core core).dqRing).find? (fun e => e.2 == aid) with
  | none => .ok s
  | some e =>
    match s.ringRead core e.1 with
    | .ok (bs, s1) => .ok (s1.modTh aid (fun t => t.unpack bs))
    | .error s1 => .error s1

end Sys2Proof.Machine
end

