-- ==== Sys2Proof/Machine/Sched.lean ====
section
/-!
DEFINITION. Queues of a core and the overflow engine (R352 to R358), waits and their wake (R188, R194, R195), tasks (R199),
messages (R202), the end of a thread (R190, R275) and cancellation (R205).
-/

namespace Sys2Proof.Machine

/-! ### What an operation without a result touches (R119) -/

/-- Address ranges that an operation reads or writes, as reports give them (R119 first row). -/
def JOp.ranges (core : Nat) : JOp → List (Nat × Nat)
  | .write a bs _ _ => bs.map (fun b => ((reportAddr core (a + BitVec.ofNat 64 b.1)).toNat, 1))
  | .amo _ a n _ _ _ => [((reportAddr core a).toNat, n)]
  | .pair pb tb pp pt n _ => (List.range 32).flatMap (fun i => [(pb.toNat + pp * i, 32 * n), (tb.toNat + pt * i, 32 * n)])
  | .fe c g _ => [(apertureBase + c * apertureStep + 16 * g, 16)]
  | .dec a => [((reportAddr core a).toNat, 8)]
  | .emb _ _ row _ _ => [((reportAddr core row).toNat, 512)]
  | .own _ ps => ps.flatMap (fun p => p.2.map (fun b => ((reportAddr core (p.1 + BitVec.ofNat 64 b.1)).toNat, 1)))
  | .send _ _ (some g) => [(apertureBase + core * apertureStep + 16 * g, 16)]
  | _ => []

/-- Address ranges that a posted entry reads or writes. -/
def JEnt.ranges (core : Nat) (e : JEnt) : List (Nat × Nat) := e.op.ranges core

/-- ADDR and DATA with which an entry is reported (R224). -/
def JEnt.report (core : Nat) (e : JEnt) : Dword × Dword :=
  match e.op with
  | .write a bs _ _ =>
    let lo := bs.foldl (fun m b => Nat.min m b.1) (match bs with
      | b :: _ => b.1
      | [] => 0)
    (reportAddr core (a + BitVec.ofNat 64 lo), BitVec.ofNat 64 (leVal ((bs.map (·.2)).take 8)))
  | .amo _ a n x _ _ => (reportAddr core a, BitVec.ofNat 64 (x.toNat % 2 ^ (8 * n)))
  | .pair pb _ _ _ _ bs => (pb, BitVec.ofNat 64 (leVal (bs.take 8)))
  | .fe c g _ => (BitVec.ofNat 64 (apertureBase + c * apertureStep + 16 * g), 0)
  | .dec a => (reportAddr core a, 0)
  | .taskDec h => (h, 0)
  | .key kind _ _ key lanes _ _ _ =>
    (key, if kind ≤ 1 then (match lanes with
      | some x :: _ => x.setWidth 64
      | _ => 0) else 0)
  | .emb _ _ row _ g => (row, g.setWidth 64)
  | _ => (0, 0)

/-- An entry has not performed. -/
def JEnt.live (e : JEnt) : Bool :=
  match e.st with
  | .performed _ _ _ => false
  | .returning => false
  | _ => true

/-- Two address ranges share an aligned word. -/
def shareWord (a n b m : Nat) : Bool := decide (a / 4 < (b + m + 3) / 4 ∧ b / 4 < (a + n + 3) / 4)

/-- Entries of a core's journal. -/
def Core.entries (k : Core) : List JEnt := k.jrn.toList.filterMap id

/-- An address of a thread lies in the scratchpad of an absent context (R361). -/
def State.toAbsent (s : State) (aid : Nat) (va : Dword) (n : Nat) : Bool :=
  match (s.reachTh aid va n .read).1 with
  | .absent _ => true
  | _ => false

/-- The order of an atomic operation without a result, a store to a kick register aside. -/
def JOp.ord : JOp → Option Ord
  | .write _ _ (.atomic o _) _ => some o
  | .own (.atomic o _) _ => some o
  | .amo _ _ _ _ o _ => some o
  | .fence o _ => some o
  | _ => none

/-- An acquire, or an operation with one (R117). -/
def JOp.acq (op : JOp) : Bool := (op.ord.map ordAcq).getD false

/-- Two pages of an address space may give one word two addresses: the physical address of an access of a thread outside the windows. -/
def State.physOf (s : State) (aid : Nat) (va : Nat) : Option Nat :=
  let t := s.th aid
  let pa (nd : Need) : Option Nat := match (s.xlate (s.port t) (s.asid t) (t.kind == .super) (BitVec.ofNat 64 va) nd).1 with
    | .pa a => match s.target a with
      | .hbm p => some p
      | _ => some a
    | _ => none
  if apertureBase ≤ va then none else pa .read <|> pa .write

/-- An address range cut at the ends of pages. -/
def pageCuts (r : Nat × Nat) : List (Nat × Nat) :=
  let k := 65536 - r.1 % 65536
  if r.2 ≤ k then [r] else [(r.1, k), (r.1 + k, r.2 - k)]

/-- Two address ranges of a thread reach a common word (R119 first row): by their addresses, or through two pages. -/
def State.sameWord (s : State) (aid : Nat) (x y : Nat × Nat) : Bool :=
  shareWord x.1 x.2 y.1 y.2 ||
    (pageCuts x).any (fun a => (pageCuts y).any (fun b =>
      decide (a.1 / 65536 ≠ b.1 / 65536) && shareWord (a.1 % 65536) a.2 (b.1 % 65536) b.2 &&
        (match s.physOf aid a.1, s.physOf aid b.1 with
         | some p, some q => shareWord p a.2 q b.2
         | _, _ => false)))

/-- No entry of a thread that has not performed acquires or touches a word of `n` bytes at an address, and the address lies with no
absent context. -/
def State.clearAt (s : State) (aid : Nat) (va : Dword) (n : Nat) : Bool :=
  let core := (s.th aid).core
  (s.core core).entries.all (fun e => e.aid != aid || !e.live ||
    !(e.op.acq || (e.ranges core).any (fun r => s.sameWord aid r ((reportAddr core va).toNat, n)))) &&
    (n == 0 || !s.toAbsent aid va n)

/-! ### Capacities and the overflow ring (R352, R357, R358) -/

/-- Bytes of context storage after slot queues and supervisor (R352). -/
def ctxBytes (k : Core) : Nat := rfgOf k.part * 65536 - 32768
/-- Capacity of the light run queue. -/
def runCap (k : Core) : Nat := 3 * ctxBytes k / 1024
/-- Capacity of the deque, of the task queue and of the message queue. -/
def dqCap (k : Core) : Nat := ctxBytes k / 512

/-- An arriving entry of a first-in first-out queue stays in SRAM: the queue has room and nothing in the ring (R357). -/
def inSram (len cap : Nat) (ring : Bool) : Bool := decide (len < cap) && ring

/-- A context appended to the tail of the light run queue (R354), or the state in which it waits. -/
def State.pushRun (s : State) (core aid : Nat) : Except State State :=
  let k := s.core core
  let at_ (s : State) : State := s.modTh aid (fun t => { t with loc := .runq, core := core })
  if inSram k.runq.length (runCap k) k.runRing.isEmpty then .ok (at_ (s.modCore core (fun k => { k with runq := k.runq ++ [aid] })))
  else match s.ringSpill core 0 (s.th aid).packet with
    | .ok (r, s1) => .ok (at_ (s1.modCore core (fun k => { k with runRing := k.runRing ++ [(r, aid)] })))
    | .error s1 => .error s1

/-- A context pushed at the near end of the deque (R189, R356). The deque lists its far end first. The push that fills
it writes the far-end entry to the ring (R357). -/
def State.pushDeque (s : State) (core aid : Nat) : Except State State :=
  let k := s.core core
  let d := k.deque ++ [aid]
  let at_ (s : State) : State := s.modTh aid (fun t => { t with loc := .deque, core := core })
  if d.length < dqCap k then .ok (at_ (s.modCore core (fun k => { k with deque := d })))
  else
    let far := d.headD aid
    match s.ringSpill core 1 (s.th far).packet with
    | .ok (r, s1) => .ok (at_ (s1.modCore core (fun k => { k with deque := d.tail, dqRing := k.dqRing ++ [(r, far)] })))
    | .error s1 => .error s1

/-- A task appended to the task queue (R198), or the state in which the producer waits. -/
def State.pushTask (s : State) (core : Nat) (t : Task) : Except State State :=
  let k := s.core core
  if inSram k.taskq.length (dqCap k) k.tkRing.isEmpty then .ok (s.modCore core (fun k => { k with taskq := k.taskq ++ [t] }))
  else match s.ringSpill core 2 t.record with
    | .ok (r, s1) => .ok (s1.modCore core (fun k => { k with tkRing := k.tkRing ++ [(r, t)] }))
    | .error s1 => .error s1

/-- A message appended to the message queue (R202), or the state in which it waits in the fabric. -/
def State.pushMsg (s : State) (core : Nat) (m : Msg) : Except State State :=
  let k := s.core core
  if inSram k.msgq.length (dqCap k) k.mgRing.isEmpty then .ok (s.modCore core (fun k => { k with msgq := k.msgq ++ [m] }))
  else match s.ringSpill core 3 m.record with
    | .ok (r, s1) => .ok (s1.modCore core (fun k => { k with mgRing := k.mgRing ++ [(r, m)] }))
    | .error s1 => .error s1

/-- Entries of the ring return to SRAM in the order written, as far as it has room: `next` is the oldest with its record, `put` has it
return as its record gives it (R357). -/
def State.ringBack (s : State) (core : Nat) (next : Core → Option Nat) (put : List Byte → State → State) : Nat → State
  | 0 => s
  | n + 1 =>
    match next (s.core core) with
    | none => s
    | some r =>
      match s.ringRead core r with
      | .ok (bs, s1) => State.ringBack (put bs s1) core next put n
      | .error s1 => s1

/-- The first entry of a part of the ring, where its queue has room. -/
def ringNext {α : Type} (room : Bool) (l : List (Nat × α)) : Option Nat := if room then l.head?.map (·.1) else none

/-- The oldest entry of the run queue in the ring returns. -/
def State.runBack (s : State) (core : Nat) (bs : List Byte) : State :=
  match (s.core core).runRing with
  | [] => s
  | e :: l => (s.modCore core (fun k => { k with runq := k.runq ++ [e.2], runRing := l })).modTh e.2 (fun t => t.unpack bs)

/-- The last entry of the deque that went to the ring returns. -/
def State.dequeBack (s : State) (core : Nat) (bs : List Byte) : State :=
  match (s.core core).dqRing.getLast? with
  | none => s
  | some e =>
    (s.modCore core (fun k => { k with deque := e.2 :: k.deque, dqRing := k.dqRing.dropLast })).modTh e.2 (fun t => t.unpack bs)

/-- The oldest task in the ring returns. -/
def State.taskBack (s : State) (core : Nat) (bs : List Byte) : State :=
  s.modCore core (fun k => match k.tkRing with
    | [] => k
    | e :: l => { k with taskq := k.taskq ++ [e.2.unpack bs], tkRing := l })

/-- The oldest message in the ring returns. -/
def State.msgBack (s : State) (core : Nat) (bs : List Byte) : State :=
  s.modCore core (fun k => match k.mgRing with
    | [] => k
    | e :: l => { k with msgq := k.msgq ++ [e.2.unpack bs], mgRing := l })

/-- Ring entries of a core return as SRAM entries leave: in the order written, and for the deque in reverse order once its SRAM
part is empty (R357). The quota mark ends with a free record. -/
def State.refill (s : State) (core : Nat) : State :=
  let n := (s.core core).ringRecs.length
  let s1 := s.ringBack core (fun k => ringNext (decide (k.runq.length < runCap k)) k.runRing) (fun bs s => s.runBack core bs) n
  let s2 := s1.ringBack core (fun k => ringNext (decide (k.taskq.length < dqCap k)) k.tkRing) (fun bs s => s.taskBack core bs) n
  let s3 := s2.ringBack core (fun k => ringNext (decide (k.msgq.length < dqCap k)) k.mgRing) (fun bs s => s.msgBack core bs) n
  let s4 := s3.ringBack core (fun k => ringNext k.deque.isEmpty k.dqRing.reverse) (fun bs s => s.dequeBack core bs) n
  if (s4.core core).quota && (s4.ringFree core).isSome then s4.modCore core (fun k => { k with quota := false }) else s4

/-- A light slot of a core waits for the overflow engine: what it would take next is in the ring only (R192, R357). -/
def Core.waitsRing (k : Core) : Bool := k.deque.isEmpty && (!k.dqRing.isEmpty || (k.runq.isEmpty && !k.runRing.isEmpty))

/-- The context that the core's own light slot takes: the near end of the deque, else the head of the run queue (R192). -/
def Core.nextContext (k : Core) : Option (Nat × Core) :=
  match k.deque.getLast? with
  | some a => some (a, { k with deque := k.deque.dropLast })
  | none =>
    match k.runq with
    | a :: r => some (a, { k with runq := r })
    | [] => none

/-- A context may be stolen (R192): not bound, its journal entries acknowledged, no trap pending. -/
def State.stealable (s : State) (aid : Nat) : Bool :=
  (s.th aid).bnd.isNone && s.journalClear aid && (s.th aid).traps.isEmpty

/-- A context leaves every queue of a core. -/
def State.unqueue (s : State) (core aid : Nat) : State :=
  let f (l : List Nat) : List Nat := l.filter (fun x => decide (x ≠ aid))
  let g (l : List (Nat × Nat)) : List (Nat × Nat) := l.filter (fun x => decide (x.2 ≠ aid))
  s.modCore core (fun k =>
    { k with runq := f k.runq, deque := f k.deque, runRing := g k.runRing, dqRing := g k.dqRing })

/-! ### New threads -/

/-- A new agent (R113). -/
def State.newThread (s : State) (t : Thread) : Nat × State :=
  (s.nextAid, { s with nextAid := s.nextAid + 1, threads := amSet s.threads s.nextAid t })

/-- The registers of a context with given s0 to s9 and the rounding mode and generator state of its maker; its flags
are zero and only p0 is true (R24, R199). -/
def startRegs (ss : List Dword) (rm : BitVec 3) (seed : BitVec 32) : Regs :=
  { Regs.zero with s := Vector.ofFn (fun i => ss.getD i.val 0), rm := rm, seed := seed }

/-- RM and SEED of a `fctl` value (R46). -/
def rmOf (f : Dword) : BitVec 3 := f.setWidth 3
/-- SEED of a `fctl` value. -/
def seedOf (f : Dword) : BitVec 32 := (f >>> 32).setWidth 32

/-! ### Positions and network ports of a thread that ends -/

/-- The unbind move (R132, R291): the record goes, with a release of the position. -/
def State.unbindRec (s : State) (aid : Nat) : State :=
  let t := s.th aid
  match t.bnd, s.launch? t.ltag with
  | some n, some l =>
    let sp := (t.pos >>> 60).toNat
    let s1 := (s.release (.position t.ltag.toNat sp n) [s.contrib (.thread aid) .pkg]).endRegion (.thread aid)
    (s1.modLaunch l.tag (fun l =>
      { l with recs := l.recs.map (fun e => (e.1, e.2.filter (fun r => decide (r.aid ≠ aid)))) })).modTh aid
        (fun t => { t with bnd := none, pos := 0 })
  | _, _ => s

/-- The kinds of traffic, numbered (R361). -/
def Traffic.kind : Traffic → Nat
  | .message _ => 0
  | .task _ => 1
  | .reply _ _ _ _ _ => 2
  | .context _ => 3
  | .posted _ _ => 4
  | .element _ _ _ _ => 5
  | .cancel _ _ => 6
  | .ack _ _ _ => 7
  | .request _ _ => 8
  | .granule _ _ _ => 9
  | .trap _ _ _ => 10
  | .cellMap _ _ => 11

/-- The body of a bounce record: a message, a task or a context as R51 and R353 lay them out, else free bytes of a free length, because
no rule gives its layout (log 13). `n` is the number of the first free byte. -/
def State.recordBody (s : State) (n : Nat) (tr : Traffic) : List Byte :=
  match tr with
  | .message m => m.record
  | .task t => t.record
  | .context a => (s.th a).packet
  | tr => (List.range (Config.bounceLen tr.kind).toNat).map (fun i => Config.freeByte (n + i))

/-- Dword 1 of the header of a bounce record (R361): the target offset of traffic that has one, an offset in the scratchpad or the number
of a journal entry; else the sender, by its thread id, the number of its core, or its agent number (log 13). -/
def State.recordWho (s : State) (tr : Traffic) : Dword :=
  match tr with
  | .message m => m.sender.setWidth 64
  | .task t => t.sender.setWidth 64
  | .reply off _ _ _ _ => BitVec.ofNat 64 off
  | .context a => BitVec.ofNat 64 (s.tid (s.th a))
  | .posted src i => match vrd (s.core src).jrn i with
    | some e => BitVec.ofNat 64 (windowOf src (e.report src).1).2
    | none => 0
  | .element _ _ src _ => BitVec.ofNat 64 src
  | .cancel _ src => BitVec.ofNat 64 src
  | .cellMap _ src => BitVec.ofNat 64 src
  | .ack i _ _ => BitVec.ofNat 64 i
  | .request a _ => BitVec.ofNat 64 (s.tid (s.th a))
  | .granule _ off _ => BitVec.ofNat 64 off
  | .trap _ _ who => who

/-- A bounce record (R361): the header, and the body padded to 16 bytes. -/
def State.record16 (s : State) (tr : Traffic) : List Byte :=
  let b := s.recordBody s.free tr
  leBytes 8 ((Config.bounceKind tr.kind).toNat + b.length * 256) ++ leBytes 8 (s.recordWho tr).toNat ++ b ++
    List.replicate ((16 - b.length % 16) % 16) 0

/-- The receive translation entry of an absent context (R361). -/
def State.recvOf (s : State) (tag : BitVec 32) (core : Nat) : Option (Nat × Nat × Recv) :=
  let c := s.phys core
  let cl := clusterOf c
  (findIx (fun r => r.v && !r.fwdn && r.ltag == tag && r.core == c) (s.clu cl).recv.toList 0).map (fun i => (cl, i, vrd (s.clu cl).recv i))

/-- A receive translation entry replaced. -/
def State.putRecv (s : State) (cl i : Nat) (r : Recv) : State := s.modClu cl (fun k => { k with recv := vwr k.recv i r })

/-- Bytes of a record at a position of a ring of a cluster port, which runs modulo its size, in device memory (log 13). A ring outside
populated HBM or in the pinned pool gets an error response, with its address in the log (R371, R378). -/
def State.ringPut (s : State) (cl base size pos : Nat) (bs : List Byte) : State :=
  let at_ (i : Nat) : Nat := base + (pos + 16 * i) % size
  let n := bs.length / 16
  if size = 0 ∨ hbmBytes < base + size ∨ (List.range n).any (fun i => s.inPool (.phys (at_ i)) 16) = true then
    s.logErr (dieOfClu cl) 1 9 (BitVec.ofNat 64 (at_ 0)) false (s.rep (.overflow cl)) none
  else { s with mem := (List.range n).foldl (fun m i => m.put (at_ i) ((bs.drop (16 * i)).take 16)) s.mem }

/-- The record appended, when the ring has room (R361, R363). -/
def State.appendRec (s : State) (cl i : Nat) (tr : Traffic) : Option State :=
  let r := vrd (s.clu cl).recv i
  let bs := s.record16 tr
  if r.wcur.toNat + bs.length ≤ r.rcur.toNat + r.size.toNat then
    let s1 := { s with free := s.free + 1 + bs.length }.ringPut cl r.base.toNat r.size.toNat r.wcur.toNat bs
    some (s1.putRecv cl i { r with recs := r.recs ++ [(bs.length, tr)], wcur := r.wcur + BitVec.ofNat 64 bs.length })
  else none

/-- Traffic for an absent context (R361, R363): appended to the bounce ring, or held with all later traffic when the
ring has no room, with one bounce-full message. Whether it was appended. -/
def State.bounceTo (s : State) (tag : BitVec 32) (core : Nat) (tr : Traffic) : Bool × State :=
  let c := s.phys core
  match s.recvOf tag core with
  | none => (true, s.logErr (dieOf c) 5 0 (BitVec.ofNat 64 c) false 0 none)
  | some (cl, i, r) =>
    match (if r.wait.isEmpty then s.appendRec cl i tr else none) with
    | some s1 => (true, s1)
    | none =>
      let s1 := s.putRecv cl i { r with wait := r.wait ++ [tr], told := true }
      (false, if r.told then s1 else s1.hwMessage c (5 * 2 ^ 48 + cl * 2 ^ 16 + c) tag.toNat 0 0)

/-- Traffic for an absent context goes to its port. -/
def State.bounce (s : State) (tag : BitVec 32) (core : Nat) (tr : Traffic) : State := (s.bounceTo tag core tr).2

/-- Messages of the ordered class sent in order. -/
def State.withFlows (s : State) (fs : List Flow) : State := { s with flows := s.flows ++ fs }

/-- A message of the ordered class is sent: it is in flight behind every earlier one (R122). -/
def State.sendMsg (s : State) (src aid : Nat) (tag : BitVec 32) (dst : Nat) (tr : Traffic) : State :=
  { s with flows := s.flows ++ [⟨src, aid, tag, dst, tr⟩] }

/-- A network stream port of a thread closed (R275): a sending port sends its closing flit; a listening or receiving port
discards its elements. -/
def State.closePort (s : State) (core i aid : Nat) : State :=
  let p := vrd (s.core core).net i
  let put (q : NetPort) (s : State) : State := s.modCore core (fun k => { k with net := vwr k.net i q })
  match p.st with
  | .sending d dp =>
    (put { p with st := .closed, opener := none } s).sendMsg core aid (s.core core).ltag d (.element dp ⟨true, false, 0, [], p.route, p.path, 0⟩ core i)
  | .closed => s
  | _ => put { p with st := .closed, opener := none, q := [] } s

/-! ### Progress of a lay plan (R214, R304) -/

/-- L of a thread as an integer: −1 before its first tack (R214). -/
def Thread.lastTack (t : Thread) : Int :=
  match t.ltack with
  | some x => x.toNat
  | none => -1

/-- The panel's progress: the least L of the registered threads of a launch, none when unbounded (R214). -/
def State.progress (s : State) (tag : BitVec 32) : Option Int :=
  (s.threads.filter (fun e => e.2.ltag == tag && e.2.treg && e.2.loc != .exited)).foldl (fun m e =>
    match m with
    | none => some e.2.lastTack
    | some x => some (min x e.2.lastTack)) none

/-- The progress exceeds a tack; it is unbounded with no thread registered (R214). -/
def State.past (s : State) (tag : BitVec 32) (n : Nat) : Bool :=
  match s.progress tag with
  | none => true
  | some x => decide ((n : Int) < x)

/-- Resident entries whose REL the progress has passed are released (R304). -/
def State.releasePlan (s : State) (tag : BitVec 32) : State :=
  s.modLaunch tag (fun l =>
    { l with plan := l.plan.map (fun e => if e.st = 2 ∧ s.past tag e.rel = true then { e with st := 3 } else e) })

/-! ### The end of a thread (R190, R205, R108, R263, R266, R273, R291) -/

/-- What a core loses of a thread that ends: its claims, array latch, array instructions and bindings; rows that it
holds open are delivered as zero (R266). -/
def Core.dropThread (k : Core) (aid : Nat) : Core :=
  { k with
    opm := k.opm.map (fun o => if o.owner = some aid then ⟨none, []⟩ else o)
    claims := k.claims.filter (fun c => decide (c.aid ≠ aid))
    latch := k.latch.filter (fun l => decide (l.aid ≠ aid))
    arrq := k.arrq.filter (fun o => decide (o.aid ≠ aid))
    binds := k.binds.filter (fun b => decide (b.aid ≠ aid))
    acc := k.acc.map (fun e =>
      if e.2.opn ∧ e.2.owner = some aid then (e.1, ⟨false, none, 0, Vector.replicate 32 0⟩) else e) }

/-- Network ports that a thread opened are closed (R273). -/
def State.closePorts (s : State) (core aid : Nat) : State :=
  (List.range 4).foldl (fun s i => if (vrd (s.core core).net i).opener = some aid then s.closePort core i aid else s) s

/-- The set mask of a task ORed into the event word as one change, with a release on each bit (R199). -/
def State.orEvents (s : State) (aid cl : Nat) (m : BitVec 256) : State :=
  if m = 0 then s
  else
    let k := s.contrib (.thread aid) .pkg
    let s1 := (List.range 256).foldl (fun s b => if m.getLsbD b then s.release (.event cl b) [k] else s) s
    (s1.modClu cl (fun c => { c with event := c.event ||| m })).endRegion (.thread aid)

/-- The thread ends: its slot, claims, latch, rows, ports, bindings, position, registration and context go. By EXIT its
set mask is ORed into the event word. -/
def State.endThread (s : State) (aid : Nat) (byExit : Bool) : State :=
  let t := s.th aid
  let s1 := if byExit then s.orEvents aid (clusterOf t.core) t.setMask else s
  let s2 := (s1.unbindRec aid).closePorts t.core aid
  let s3 := (s2.modCore t.core (fun k => k.dropThread aid)).unqueue t.core aid
  let s4 := if s3.occ t.core t.slot = some aid then s3.setSlot t.core t.slot none .empty else s3
  let s5 := s4.modTh aid (fun t =>
    { t with loc := .exited, treg := false, wait := none, pend := none, outst := [], acq := [], setMask := 0
             marked := false, parked := false, ending := false, depart := none })
  if t.treg then s5.releasePlan t.ltag else s5

/-! ### Cancellation (R205) -/

/-- The cancel bit of a launch is set (R205): it is multicast in the ordered class to every core of the panel, to the engines
of its clusters and to its tier engines. -/
def State.setCancel (s : State) (src aid : Nat) (tag : BitVec 32) : State :=
  match s.launch? tag with
  | none => s
  | some l =>
    let ds := l.cores ++ ((l.cores.map clusterOf).eraseDups.map (1152 + ·)) ++ [1440]
    (s.modLaunch tag (fun l => { l with cancel := true })).withFlows (ds.map (fun d => ⟨src, aid, tag, d, .cancel tag src⟩))

/-- The bit is ordered at a core: queued work is discarded, blocked threads end at once, and running ones at their next
marker or blocking instruction, a handler of slot 14 excepted; their waiting claims are withdrawn (R259). -/
def State.cancelAt (s : State) (core : Nat) : State :=
  let tag := (s.core core).ltag
  let s1 := s.modCore core (fun k => { k with seen := true, taskq := [], tkRing := [], msgq := [], mgRing := [] })
  let mine := s1.threads.filter (fun e => e.2.core == core && e.2.ltag == tag && decide (tag ≠ 0) && e.2.kind != .super)
  mine.foldl (fun s e =>
    let t := s.th e.1
    match t.loc with
    | .runq | .deque | .blocked => s.endThread e.1 false
    | .slot =>
      if t.kind = .handler then s
      else if t.wait.isSome then s.endThread e.1 false
      else
        (s.modCore core (fun k => { k with claims := k.claims.filter (fun c => decide (c.aid ≠ e.1)) })).modTh e.1
          (fun t => { t with ending := true })
    | _ => s) s1

/-- Traffic that is a cancel multicast. -/
def Traffic.isCancel : Traffic → Bool
  | .cancel _ _ => true
  | _ => false

/-- An absent core counts as having seen the bit, and the threads of its image as ended (R364). -/
def State.endAway (s : State) (core : Nat) : State :=
  let tag := (s.core core).ltag
  (s.threads.filter (fun e => e.2.core == core && e.2.ltag == tag && e.2.kind != .super && e.2.loc != .exited)).foldl
    (fun s e => s.endThread e.1 false) (s.cancelAt core)

/-- The bit reaches the port of an absent context (R364): once its record is in the ring, it counts there. -/
def State.cancelAway (s : State) (core : Nat) : State :=
  let tag := (s.core core).ltag
  let (done, s1) := s.bounceTo tag core (.cancel tag core)
  if done then s1.endAway core else s1

/-- A light context arrives at a core (R130, R192): discarded where the cancel bit has been seen, else Queued at the
tail of the run queue; its acquire is made when it has arrived. -/
def State.arrive (s : State) (core aid : Nat) : Except State State :=
  if (s.core core).seen then .ok ((s.modTh aid (fun t => { t with core := core })).endThread aid false)
  else
    match s.pushRun core aid with
    | .error s1 => .error s1
    | .ok s1 =>
      let s2 := s1.syncFrom (.thread aid) (s1.th aid).acq
      .ok (s2.modTh aid (fun t => { t with acq := [] }))

/-! ### Waits -/

/-- The plan entry of a wait. -/
def State.planEnt? (s : State) (tag id : Nat) : Option PlanEnt :=
  match s.launch? (BitVec.ofNat 32 tag) with
  | some l => l.plan.find? (fun e => e.id == id)
  | none => none

/-- The global aperture address of a scratchpad place (R92). -/
def apertureVa : Place → Dword
  | .sp c o => BitVec.ofNat 64 (apertureBase + c * apertureStep + o)
  | .phys a => BitVec.ofNat 64 a

/-- A wait whose access finds a conflict when its condition holds raises in place of returning, with what its instruction took put
back (R40, R124). -/
def State.waitRaise (s : State) (aid : Nat) (w : Wait) (e : Exc) : State :=
  let s1 : State := match w.saved with
    | some v => s.takeBack aid v
    | none => s
  s1.modTh aid (fun t => { t with pend := some e, pnpc := w.npc, wait := t.wait.map (fun w => { w with npc := t.pc }) })

/-- A wait reads its counter or word: an atomic read with acquire that, on a conflict, raises in place of returning. -/
def State.pollRead (s : State) (aid : Nat) (w : Wait) (p : Place) (va : Dword) (ok : Nat → Bool) : Option (Dword × State) :=
  if ok (s.val p 8) = false then none
  else
    match s.atomRead aid true .pkg p 8 with
    | .ok (v, s1) => some (BitVec.ofNat 64 v, s1)
    | .error x => some (0, s.waitRaise aid w (conflictExc (s.th aid).core va p x))

/-- A thread's message to the event unit of a cluster reaches it: of its own, or of the one that its context left (R338, R379 to R383). -/
def State.eventUp (s : State) (aid cl : Nat) : Bool :=
  let t := s.th aid
  cl == s.port t || s.reaches (t.kind == .super) (s.port t) cl

/-- Whether the condition of a wait holds now, with the value it returns and the state after its acquire (R194, R195,
R221, R301). -/
def State.waitReady (s : State) (aid : Nat) (w : Wait) : Option (Dword × State) :=
  let ag := Agent.thread aid
  match w.obj with
  | .event cl b => if (s.clu cl).event.getLsbD b && s.eventUp aid cl then some (0, s.sync ag (.event cl b) false true .pkg) else none
  | .full c g => if s.isFull c g then some (0, s.sync ag (.granule c g) false true .pkg) else none
  | .zero p => s.pollRead aid w p (apertureVa p) (fun v => v == 0)
  | .ne p x _ => s.pollRead aid w p (apertureVa p) (fun v => v != x.toNat)
  | .join p va => s.pollRead aid w p va (fun v => v == 0)
  | .load c o n sx fec _ =>
    if s.isFull c (o / 16) = false then none
    else
      let s1 := s.sync ag (.granule c (o / 16)) false true .pkg
      let p := Place.sp c o
      match s1.plainRead aid (s1.th aid).core false p n with
      | .error x =>
        some (0, s.waitRaise aid w (conflictExc (s.th aid).core (apertureVa p) p x))
      | .ok (v, s2) =>
        let x : Dword := if sx then (BitVec.ofNat (8 * n) v).signExtend 64 else BitVec.ofNat 64 v
        some (x, if fec then s2.setFull c (o / 16) false else s2)
  | .plan tag id =>
    match s.planEnt? tag id with
    | some e => if 2 ≤ e.st ∧ e.st ≤ 4 then some (0, s.sync ag (.plan tag id) false true .pkg) else none
    | none => none
  | .handle cl n what =>
    let h := amGet (s.clu cl).handles n ⟨0, false, 0⟩
    if what = 0 then (if h.st = 0 then some (0, s.sync ag (.handle cl n) false true .pkg) else none)
    else if h.st ≠ 2 then none
    else
      let s1 := s.sync ag (.handle cl n) false true .pkg
      some (0, if what = 2 then s1.modClu cl (fun k => { k with handles := amSet k.handles n { h with st := 3 } }) else s1)
  | .queue _ _ _ _ _ _ => none
  | .halt => none
  | .acks => if s.journalClear aid then some (0, s) else none
  | .clear va n => if s.clearAt aid va n then some (0, s) else none
  | .entry => if 0 < s.journalFree (s.th aid).core then some (0, s) else none
  | .exiting _ => none
  | .fault _ _ _ => none

/-- Threads that wait, in the order in which their waits began; those of an absent context wait on (R188). -/
def State.waiting (s : State) : List (Nat × Wait) :=
  let ws := s.threads.filterMap (fun e => match e.2.wait with
    | some w => if w.fired.isNone ∧ (e.2.kind = .super ∨ s.here e.2.core = true) then some (e.1, w) else none
    | none => none)
  sortBy (fun e => e.2.order) ws

/-- Every wait whose condition holds wakes, in the order of the object: the wake is latched, and no later change undoes
it (R195). -/
def State.fireWaits (s : State) : State :=
  s.waiting.foldl (fun s e =>
    match s.waitReady e.1 e.2 with
    | none => s
    | some (v, s1) => s1.modTh e.1 (fun t => { t with wait := t.wait.map (fun w => { w with fired := some v }) })) s

/-! ### Tasks (R199) -/

/-- The light context of a ready task. -/
def Task.thread (t : Task) (core : Nat) (rel : List Contrib) : Thread :=
  { Thread.fresh .light core 0 t.entry with
    regs := startRegs (t.args ++ [t.s4]) t.rm t.seed
    ltag := t.ltag
    setMask := t.setM
    acq := rel
    loc := .runq }

/-- A task's condition holds (R199). -/
def Task.holds (t : Task) (ev : BitVec 256) : Bool := t.count == 0 && (ev &&& t.waitM) == t.waitM

/-- The tasks of a core, in queue order. -/
def Core.tasks (k : Core) : List Task := k.taskq ++ k.tkRing.map (·.2)

/-- A task that has become ready takes its place among the ready ones, and what its start is to acquire: the last release of
each bit of its wait mask (R199). -/
def State.makeReady (s : State) (core : Nat) (t : Task) : State :=
  let cl := clusterOf core
  let rel := (List.range 256).foldl (fun l b => if t.waitM.getLsbD b then l ++ s.contribs (.event cl b) else l) t.rel
  let (n, s1) := s.takeOrder
  let f (x : Task) : Task := if x.num = t.num then { x with ready := some n, rel := rel } else x
  s1.modCore core (fun k => { k with taskq := k.taskq.map f, tkRing := k.tkRing.map (fun e => (e.1, f e.2)) })

/-- Tasks whose condition holds become ready: those of one change in queue order (R197, R199). -/
def State.readyTasks (s : State) (core : Nat) : State :=
  ((s.core core).tasks.filter (fun t => t.ready.isNone && t.holds (s.clu (clusterOf core)).event)).foldl
    (fun s t => s.makeReady core t) s

/-- A task about to start, read back where the ring holds it. -/
def State.taskRead (s : State) (core : Nat) (t : Task) : Except State (Task × State) :=
  match (s.core core).tkRing.find? (fun e => decide (e.2.num = t.num)) with
  | none => .ok (t, s)
  | some e => (s.ringRead core e.1).map (fun x => (t.unpack x.1, x.2))

/-- The ready task of a core that entered that state first. -/
def Core.nextReady (k : Core) : Option Task := (sortBy (fun t => t.ready.getD 0) (k.tasks.filter (fun t => t.ready.isSome))).head?

/-- The next ready task of a core, in the order in which they became ready, enters the tail of its run queue; it waits for its record in
the ring, and where that queue has no room (R199, R354, R357, R358). -/
def State.startTask (s : State) (core : Nat) : State :=
  match (if s.here core then (s.core core).nextReady else none) with
  | none => s
  | some t =>
    match s.taskRead core t with
    | .error s1 => s1
    | .ok (t, s1) =>
      let (a, s2) := s1.newThread (t.thread core t.rel)
      match s2.pushRun core a with
      | .error _ => s.ringWait core 0
      | .ok s3 =>
        (s3.modCore core (fun k =>
          { k with taskq := k.taskq.filter (fun x => decide (x.num ≠ t.num)), tkRing := k.tkRing.filter (fun x => decide (x.2.num ≠ t.num)) })).refill
          core

/-- The tasks of a core, and those that its threads have issued and that are not queued yet. -/
def State.liveTasks (s : State) (core : Nat) : List Task :=
  (s.core core).tasks ++ ((s.core core).occ.toList.filterMap id).flatMap (fun a => (s.th a).outst.filterMap (fun o => match o.op with
    | .post (.task t) => some t
    | _ => none))

/-- The index that a new task takes (R198): the next one that no live task has, which no rule gives (log 5). -/
def State.freeIndex (s : State) (core : Nat) : Nat :=
  let k := s.core core
  let ts := (s.liveTasks core).map (·.index)
  (((List.range (ts.length + 1)).map (fun i => (k.taskIx + i) % 65536)).find? (fun i => !ts.contains i)).getD k.taskIx

/-- One less in the join count of a task of a core, with the release of the decrement; none when it finds zero (R196,
R198). The record of a task in the ring changes with it (R353). -/
def State.taskDec (s : State) (core index : Nat) (rel : List Contrib) : Option State :=
  let k := s.core core
  match k.tasks.find? (fun t => t.index == index && t.ready.isNone) with
  | none => none
  | some t =>
    if t.count = 0 then none
    else
      let u := { t with count := t.count - 1, rel := t.rel ++ rel }
      let f (x : Task) : Task := if x.num = t.num then u else x
      let s1 := s.modCore core (fun k => { k with taskq := k.taskq.map f, tkRing := k.tkRing.map (fun e => (e.1, f e.2)) })
      some (match k.tkRing.find? (fun e => decide (e.2.num = t.num)) with
        | some e => s1.ringRewrite core e.1 u.record
        | none => s1)

/-- CANCEL (R205): a release of the job's cancel bit, the bit's multicast, and the mailbox that it names. The issuer ends at its next
switch marker, unless it is a handler, which runs to its EXIT (DESIGN CHOICE, log 61). -/
def State.cancelLaunch (s : State) (aid : Nat) (box : Option Dword) : State :=
  let t := s.th aid
  (((s.release (.cancel t.ltag.toNat) [s.contrib (.thread aid) .pkg]).endRegion (.thread aid)).setCancel t.core aid t.ltag).modTh aid
      (fun t => { t with ending := t.ending || (t.kind != .handler && t.kind != .super) })
    |>.modLaunch t.ltag (fun l => { l with cbox := l.cbox ++ (match box with
        | some a => [(a, aid)]
        | none => []) })

/-! ### Ordered messages, contexts and absent cores (R122, R200 to R202, R359 to R364) -/

/-- The port still receives from a sender by the route on which an element travels (R273, R275). -/
def NetPort.from? (p : NetPort) (src srcPort route : Nat) : Bool :=
  p.route == route && match p.st with
  | .receiving a b => a == src && b == srcPort
  | .landing (some (a, b)) => a == src && b == srcPort
  | _ => false

/-- A reply of a thread, sent in its region `n`, is written to its cell (R201): bytes 0 to 7 the value, 8 to 15 zero, then
full, with the release that the thread made when it sent it. A conflict refuses it; the thread has ended, so it is only logged
(R124, R213). -/
def State.writeReply (s : State) (core off : Nat) (x : Dword) (rel : List Contrib) (aid n : Nat) : State :=
  let p := Place.sp core off
  let ag := Agent.thread aid
  match s.conflicts? ag true false (p.words 16) with
  | some c => s.logErr (dieOf (s.phys core)) 1 15 (conflictExc core (BitVec.ofNat 64 (apertureBase + core * apertureStep + off)) p c).addr
      true (s.rep ag) (some c.2.rep)
  | none =>
    let s1 := ((p.words 16).foldl (fun s w => s.markIn ag n w true false) s).putBytes p
      (leBytes 8 x.toNat ++ List.replicate 8 0)
    (s1.setFull core (off / 16) true).release (.granule core (off / 16)) rel

/-- An element or closing flit reaches a port of a core (R274, R275): one from a sender to which the port is not open goes no
further, an element with its record in the log. -/
def State.takeElement (s : State) (core port : Nat) (e : NetEl) (src srcPort aid : Nat) : State :=
  let p := vrd (s.core core).net port
  if p.from? src srcPort e.route then s.modCore core (fun k => { k with net := vwr k.net port { p with q := p.q ++ [e] } })
  else if e.close then s
  else s.logErr (dieOf (s.phys core)) 5 0 0 false (s.rep (.thread aid)) none

/-- A context packet, which is of the adaptive class (R122). -/
def Traffic.isContext : Traffic → Bool
  | .context _ => true
  | _ => false

/-- Traffic that a core's queue has no room for waits in the fabric, in arrival order (R358). -/
def State.hold (s : State) (core : Nat) (tr : Traffic) : State :=
  s.modCore core (fun k => { k with held := k.held ++ [tr] })

/-- An ordered message or context at a core that holds its launch. `none` when it must wait for a queue. -/
def State.takeIn (s : State) (core aid : Nat) (tr : Traffic) : Option State :=
  match tr with
  | .message m =>
    if (s.core core).seen then some s
    else match s.pushMsg core m with
      | .ok s1 => some s1
      | .error _ => none
  | .task t =>
    if (s.core core).seen then some s
    else
      let t1 := { t with index := s.freeIndex core, num := s.order }
      match s.pushTask core t1 with
      | .ok s1 => some { s1.modCore core (fun k => { k with taskIx := (t1.index + 1) % 65536 }) with order := s1.order + 1 }
      | .error _ => none
  | .reply off x rel a n => some (s.writeReply core off x rel a n)
  | .element port e src sp => some (s.takeElement core port e src sp aid)
  | .context a =>
    match s.arrive core a with
    | .ok s1 => some s1
    | .error _ => none
  | .cancel _ _ => some (s.cancelAt core)
  | _ => some s

/-- The quota message's number of the queue that traffic waits for (R358). -/
def Traffic.queue : Traffic → Nat
  | .message _ => 3
  | .task _ => 2
  | _ => 0

/-- Traffic that has reached the core that holds its context, or where the context is absent (R361); `none` while it must wait
for a queue (R358). -/
def State.land (s : State) (aid : Nat) (tag : BitVec 32) (h : Nat) (tr : Traffic) : Option State :=
  if s.absent tag h then some (if tr.isCancel then s.cancelAway h else s.bounce tag h tr)
  else if (s.core h).held.any (fun x => !x.isContext) then none
  else s.takeIn h aid tr

/-- Traffic dropped with an error response and its address logged (R359, R379, R382, R383). -/
def State.dropAt (s : State) (c : Nat) (who : Dword) : State :=
  s.logErr (dieOf c) 5 0 (BitVec.ofNat 64 c) false who none

/-- Traffic of a context arrives for panel position `dst` of a launch: dropped and logged where the fabric or the core gives an
error response, and no later message of its flow is delivered once a failed boundary refused one (R382); kept at a core that
its context has left until it is forwarded (R359), else landed. -/
def State.deliver (s : State) (src aid : Nat) (tag : BitVec 32) (dst : Nat) (tr : Traffic) : Option State :=
  let c := s.firstStop tag src dst
  let drop (s : State) : State := s.dropAt c (s.rep (.thread aid))
  let way := if s.phys src = c then .through else match tr with
    | .element _ e _ _ => s.wayOn e.path (clusterOf (s.phys src)) (clusterOf c)
    | _ => s.way true false (clusterOf (s.phys src)) (clusterOf c)
  if s.broken.contains (src, dst) then some (drop s)
  else if way = .failed then some { drop s with broken := (src, dst) :: s.broken }
  else if way = .refused ∨ (s.core dst).ltag ≠ tag then some (drop s)
  else if c = s.phys dst then s.land aid tag dst tr
  else if (s.basting? tag dst c).isSome then some (s.modCore dst (fun k => { k with fwdq := k.fwdq ++ [⟨c, src, aid, tr⟩] }))
  else some (drop s)

/-- A light context packet, of the adaptive class, reaches a core (R122); with no room in its run queue it waits there in
arrival order (R358). -/
def State.sendContext (s : State) (aid : Nat) (tag : BitVec 32) (dst : Nat) : State :=
  if s.absent tag dst then s.bounce tag dst (.context aid)
  else if (s.core dst).held ≠ [] then s.hold dst (.context aid)
  else match s.takeIn dst aid (.context aid) with
    | some s1 => s1
    | none => (s.ringWait dst 0).hold dst (.context aid)

/-- The queue of the fabric in which a message of the ordered class travels: one for each ordered pair of routers (R112). -/
def Flow.lane (f : Flow) : Nat × Nat := (clusterOf f.src, if f.dst < 1152 then clusterOf f.dst else f.dst)

/-- The `n`-th message in flight, when it is the first of its queue (R122). -/
def State.nextFlow (s : State) (n : Nat) : Option Flow :=
  match s.flows[n]? with
  | none => none
  | some f => if (s.flows.take n).any (fun x => x.lane == f.lane) then none else some f

/-- Held traffic of a core is taken in as its queues gain room, in order, and the waits that it ends wake. -/
def State.drainHeld (s : State) (core : Nat) : Nat → State
  | 0 => s
  | n + 1 =>
    match (s.core core).held with
    | [] => s
    | tr :: r =>
      match s.takeIn core 0 tr with
      | some s1 => State.drainHeld (s1.modCore core (fun k => { k with held := r })).fireWaits core n
      | none => s

/-- The place of a physical address in memory. -/
def State.physPlace (s : State) (a : Nat) : Option Place :=
  match s.target a with
  | .hbm p => some (.phys p)
  | .peer _ p => some (.phys p)
  | .host p => some (.phys p)
  | _ => none

/-- The slots of a queue of the package that stand filled at RIDX or after it, below an index (R296, R344, R374), by their indices. -/
def State.standing (s : State) (h : Place) (below : Nat) : List Nat :=
  let r := s.val (h.plus 8) 8
  let n := Nat.min 65536 (2 ^ bits (s.val (h.plus 16) 8) 4 0)
  (List.range (Nat.min n (below - r))).filterMap (fun i =>
    match s.physPlace (s.val (h.plus 32) 8 + 64 * ((r + i) % n)) with
    | some p => if s.val (p.plus 56) 8 = r + i + 1 then some (r + i) else none
    | none => none)

/-- A doorbell store that a move performed is noted at the unit that serves the queue (R345, R374), with the slots that it makes
visible. -/
def State.noteBell (s : State) (n : Nat) (a : Dword) : State :=
  let b := amGet s.bells n ⟨none, []⟩
  match s.physPlace a.toNat with
  | none => s
  | some h =>
    match (s.stamp (h.plus 24).word).w with
    | none => s
    | some x =>
      if b.last = some x then s
      else { s with bells := amSet s.bells n ⟨some x, b.kicks ++ [(s.standing h (s.val (h.plus 24) 8), x.ag)]⟩ }

/-- The value that a doorbell holds: its word is the low half of a dword. -/
def State.bellVal (s : State) : WordKey → Nat
  | .sp c w => s.val (.sp c (4 * w)) 8
  | .phys w => s.val (.phys (4 * w)) 8

/-- Kicks that a move performed are noted at the queue bindings of their doorbells, each with the index that it wrote (R299), and at the
units of the package. -/
def State.noteKicks (s : State) : State :=
  let s0 : State := (s.pqueue ++ [(8, s.uq)]).foldl (fun (s : State) (e : Nat × Dword) => s.noteBell e.1 e.2) s
  let bells := s.clus.flatMap (fun e => e.2.qbinds.map (fun b => (e.1, b)))
  bells.foldl (fun s e =>
    let w := (s.stamp e.2.bell).w
    match w with
    | none => s
    | some x =>
      if e.2.last = some x then s
      else
        let v := s.bellVal e.2.bell
        let (n, s1) := s.takeOrder
        s1.modClu e.1 (fun k => { k with qbinds := k.qbinds.map (fun b =>
          if b.q = e.2.q then { b with last := some x, kick := some (n, x.ag), kicks := b.kicks ++ [(n, v, x.ag)] } else b) })) s0

/-! ### Conflict traps of engines for contexts that have moved or are absent (R359, R365) -/

/-- A conflict trap of an engine reaches its thread: at a moved core through the basting entries, for an absent context as a record of
its bounce ring. -/
def State.landTrap (s : State) (aid : Nat) (x : ATrap) (who : Dword) : State :=
  let t := s.th aid
  if t.loc = .exited then s
  else if s.here t.core then
    (s.passFrom t.ltag t.core 8 t.core).modTh aid (fun t => { t with traps := insertTrap x t.traps, parked := false })
  else s.bounce t.ltag t.core (.trap aid x who)

/-- The traps that a move sent on their way. -/
def State.landTraps (s : State) : State :=
  s.trapq.foldl (fun s e => s.landTrap e.1 e.2.1 e.2.2) { s with trapq := [] }

/-- What follows each move before the next: traps of engines arrive, kicks are noted, waits wake, and tasks become ready (R195, R197,
R199, R365). -/
def State.settle (s : State) : State :=
  (s.cores.map (·.1)).foldl (fun s c =>
    if s.here c = false then s
    else
      let s1 := if (s.core c).held.isEmpty then s else s.drainHeld c (s.core c).held.length
      if (s1.core c).tasks.isEmpty then s1 else s1.readyTasks c) (if s.trapq.isEmpty then s else s.landTraps).noteKicks.fireWaits

end Sys2Proof.Machine
end

