-- ==== Sys2Proof/Machine/KeyTable.lean ====
section
/-!
DEFINITION. Coordinate spaces and cell maps (R288 to R290), tree types (R279), and key tables: where a key lives, how its
entry is laid out, and what each operation does to it at its owner (R281 to R286).
-/

namespace Sys2Proof.Machine

/-! ### Points and cell maps (R288 to R290) -/

/-- hash64 (R179). -/
def hash64 (k s : Dword) : Dword :=
  let x := k ^^^ (s * 0x9E3779B97F4A7C15)
  let x := x ^^^ (x >>> 31)
  let x := x * 0xC2B73E5D94A16F0B
  let x := x ^^^ (x >>> 29)
  let x := x * 0x8F1D6A43B7E925C5
  x ^^^ (x >>> 32)

/-- Dword `i` of a cell map's header. -/
def Space.hd (sp : Space) (i : Nat) : Nat := (sp.hdr.getD i 0).toNat

/-- log2 of the number of cells along an axis, 0 to 2 for x, y, z. -/
def Space.kAx (sp : Space) (ax : Nat) : Nat := bits (sp.hd 0) (7 + 4 * ax) (4 + 4 * ax)
/-- log2 of the cell edge along an axis. -/
def Space.lAx (sp : Space) (ax : Nat) : Nat := bits (sp.hd 0) (20 + 5 * ax) (16 + 5 * ax)
/-- Space present. -/
def Space.present (sp : Space) : Bool := bitAt (sp.hd 0) 31
/-- Selvage width. -/
def Space.sel (sp : Space) : Nat := bits (sp.hd 0) 51 32
/-- Code of the number of shards of a hot point. -/
def Space.shl (sp : Space) : Nat := bits (sp.hd 0) 54 52
/-- Crowding threshold. -/
def Space.crowd (sp : Space) : Nat := sp.hd 1 % 2 ^ 32

/-- Space of a point. -/
def ptSpace (p : Dword) : Nat := bits p.toNat 63 60
/-- Coordinate of a point along an axis. -/
def ptAx (p : Dword) (ax : Nat) : Nat := bits p.toNat (19 + 20 * ax) (20 * ax)
/-- A point from its space and coordinates. -/
def mkPoint (sp x y z : Nat) : Dword := BitVec.ofNat 64 (sp * 2 ^ 60 + z * 2 ^ 40 + y * 2 ^ 20 + x)
/-- The coordinates of a point. -/
def ptXyz (p : Dword) : Nat × Nat × Nat := (ptAx p 0, ptAx p 1, ptAx p 2)

/-- Coordinate of a triple. -/
def ax3 (t : Nat × Nat × Nat) (ax : Nat) : Nat :=
  match ax with
  | 0 => t.1
  | 1 => t.2.1
  | _ => t.2.2

/-- A triple with one coordinate replaced. -/
def setAx3 (t : Nat × Nat × Nat) (ax v : Nat) : Nat × Nat × Nat :=
  match ax with
  | 0 => (v, t.2.1, t.2.2)
  | 1 => (t.1, v, t.2.2)
  | _ => (t.1, t.2.1, v)

/-- A space of a launch that is present. -/
def Launch.space? (l : Launch) (n : Nat) : Option Space := (amGet? l.spaces n).filter Space.present

/-- A point of a present space within its extent (R288). -/
def Launch.validPoint (l : Launch) (p : Dword) : Bool :=
  match l.space? (ptSpace p) with
  | some sp => (List.range 3).all (fun a => decide (ptAx p a < 2 ^ (sp.lAx a + sp.kAx a)))
  | none => false

/-- A box holds a point. -/
def Box.holds (b : Box) (t : Nat × Nat × Nat) : Bool :=
  (List.range 3).all (fun a => decide (ax3 b.lo a ≤ ax3 t a ∧ ax3 t a < ax3 b.hi a))

/-- The cell of a point as a box (R288). -/
def Space.cellBox (sp : Space) (t : Nat × Nat × Nat) : Box :=
  let c (a : Nat) : Nat := ax3 t a / 2 ^ sp.lAx a
  let lo (a : Nat) : Nat := c a * 2 ^ sp.lAx a
  let hi (a : Nat) : Nat := (c a + 1) * 2 ^ sp.lAx a
  ⟨(lo 0, lo 1, lo 2), (hi 0, hi 1, hi 2), sp.owners.getD ((c 2 * 2 ^ sp.kAx 1 + c 1) * 2 ^ sp.kAx 0 + c 0) 0, []⟩

/-- The last box that the descent of R290 reaches: a box that a pleat or a shard made, else the cell. -/
def Space.boxOf (sp : Space) (t : Nat × Nat × Nat) : Box := (sp.boxes.find? (fun b => b.holds t)).getD (sp.cellBox t)

/-- owner_of (R290), as the cell map names the core. -/
def Space.ownerOf (sp : Space) (t : Nat × Nat × Nat) : Nat := (sp.boxOf t).core

/-- Residence of a bound thread (R290). -/
def Space.residence (sp : Space) (t : Nat × Nat × Nat) (num : Nat) : Nat :=
  let b := sp.boxOf t
  if b.shards.isEmpty then b.core else b.shards.getD (num % b.shards.length) b.core

/-- HPOS's point of a key (R289). -/
def Space.hposPoint (sp : Space) (n : Nat) (key : Dword) : Dword :=
  let h := (hash64 key (sp.hdr.getD 2 0)).toNat
  let co (a : Nat) : Nat := h / 2 ^ (20 * a) % 2 ^ (sp.lAx a + sp.kAx a)
  mkPoint n (co 0) (co 1) (co 2)

/-! ### Tree types (R279) -/

/-- A node record (R279). -/
def readNode (d : Nat) : TreeNode := ⟨d % 16, bits d 7 4, bits d 13 8 + 1, bitAt d 14, bits d 21 16⟩

/-- Bytes of an entry of a node with its header (R279, R282). -/
def TreeNode.entryBytes (n : TreeNode) : Nat := 24 + n.lanes * (if n.fx then 10 else 4)

/-- The descriptor of 272 bytes at a place, when it is valid (R279); `ktu` gives the entry unit. -/
def readTree (ktu : Nat) (dw : Nat → Nat) : Option TreeTy :=
  let h := dw 0
  let n := h % 256
  let ns := (List.range n).map (fun i => dw (2 + 2 * i))
  let nodes := ns.map readNode
  let kids (i : Nat) : Bool := (List.range n).any (fun j => decide (1 ≤ j) && (nodes.getD j default).parent == i)
  let okNode (i : Nat) : Bool :=
    let d := ns.getD i 0
    let x := nodes.getD i default
    decide (d / 2 ^ 32 = 0 ∧ bits d 23 22 = 0 ∧ bitAt d 15 = false ∧ x.lanes ≤ 32 ∧ x.kind ≤ 3) &&
      decide (if i = 0 then x.parent = 0 else x.parent < i) &&
      (if x.kind = 0 ∨ x.kind = 3 then !kids i else kids i) &&
      decide (x.entryBytes ≤ 64 * ktu) && decide (x.fx = true ∨ x.scale = 0)
  if h / 2 ^ 12 ≠ 0 ∨ dw 1 ≠ 0 ∨ n = 0 ∨ 16 < n then none
  else if (List.range n).all okNode then some ⟨bits h 11 8, nodes⟩
  else none

/-- An installed tree type of a core, and its node. -/
def Core.node? (k : Core) (tree node : Nat) : Option TreeNode :=
  match vrd k.trees tree with
  | some t => t.nodes[node]?
  | none => none

/-! ### Layout (R282) -/

/-- Entry unit of a launch in bytes. -/
def Launch.unit (l : Launch) : Nat := 64 * l.ktu

/-- Number of buckets of a core's table (R282). -/
def Launch.buckets (l : Launch) : Nat := ktgOf l.pw * 65536 / (8 * l.unit)

/-- Bucket of an entry (R282). -/
def Launch.bucket (l : Launch) (tree node : Nat) (key : Dword) : Nat :=
  (hash64 key (BitVec.ofNat 64 (16 * tree + node + 1))).toNat % l.buckets

/-- The way that holds an entry on a core. -/
def Core.findKey (k : Core) (tree node : Nat) (key : Dword) : Option (Nat × KeyEnt) :=
  k.keys.find? (fun e => decide (e.2.tree = tree ∧ e.2.node = node ∧ e.2.key = key))

/-- Lowest free way of a bucket (R282). -/
def Core.freeWay (k : Core) (bucket : Nat) : Option Nat :=
  ((List.range 8).map (fun w => 8 * bucket + w)).find? (fun w => (amGet? k.keys w).isNone)

/-- An entry with its way created, none when the bucket is full or the table has no bucket. -/
def Core.entryAt (k : Core) (l : Launch) (tree node : Nat) (key : Dword) (new : KeyEnt) : Option (Nat × KeyEnt) :=
  match k.findKey tree node key with
  | some e => some e
  | none =>
    if l.buckets = 0 then none
    else (k.freeWay (l.bucket tree node key)).map (fun w => (w, new))

/-- An entry stored at a way. -/
def State.putKey (s : State) (core w : Nat) (e : KeyEnt) : State :=
  s.modCore core (fun k => { k with keys := amSet k.keys w e })

/-- An entry removed from a core: its way is free. -/
def State.dropKey (s : State) (core tree node : Nat) (key : Dword) : State :=
  s.modCore core (fun k =>
    { k with keys := k.keys.filter (fun e => !(e.2.tree == tree && e.2.node == node && e.2.key == key)) })

/-- The bytes of an entry (R282). -/
def KeyEnt.bytes (e : KeyEnt) (fx : Bool) : List Byte :=
  let head := leBytes 8 e.key.toNat ++ leBytes 8 (e.sh.toNat * 128 + 64 + e.tree * 16 + e.node) ++ leBytes 8 e.count.toNat
  if fx then head ++ e.lanes.flatMap (fun x => leBytes 8 (x.toNat % 2 ^ 64)) ++ e.lanes.flatMap (fun x => leBytes 2 (x.toNat / 2 ^ 64))
  else head ++ e.lanes.flatMap (fun x => leBytes 4 (x.toNat % 2 ^ 32))

/-! ### Where a key lives (R281) -/

/-- The cores of a key of a launch: the primary, and all its shards with the primary first. -/
def State.keyCores (_ : State) (l : Launch) (ksp : Nat) (key : Dword) : List Nat :=
  match amGet? l.spaces ksp with
  | some sp =>
    let b := sp.boxOf (ptXyz (sp.hposPoint ksp key))
    (if b.shards.isEmpty then [b.core] else b.shards)
  | none => []

/-- KSP of a tree index on a core. -/
def Core.ksp (k : Core) (tree : Nat) : Nat :=
  match vrd k.trees tree with
  | some t => t.ksp
  | none => 0

/-! ### What an operation does at the owner (R283 to R286) -/

/-- A lane added to (R67, R283). -/
def addLane (fx : Bool) (rm : Rm) (x a : BitVec 80) : BitVec 80 × Flags :=
  if fx then (x + a, 0)
  else
    let (v, f0) := addVal rm (f32.decode (x.toNat % 2 ^ 32)) (f32.decode (a.toNat % 2 ^ 32))
    let (c, f1) := f32.encode rm 0 v
    (BitVec.ofNat 80 c, f0 ||| f1)

/-- Lanes added one by one; an absent addend leaves its lane. -/
def addLanes (fx : Bool) (rm : Rm) : List (BitVec 80) → List (Option (BitVec 80)) → List (BitVec 80) × Flags
  | x :: xs, some a :: as =>
    let (y, f) := addLane fx rm x a
    let (ys, g) := addLanes fx rm xs as
    (y :: ys, f ||| g)
  | x :: xs, none :: as =>
    let (ys, g) := addLanes fx rm xs as
    (x :: ys, g)
  | xs, _ => (xs, 0)

/-- An empty entry of a node. -/
def newEntry (n : TreeNode) (tree node : Nat) (key : Dword) (sh : Bool) : KeyEnt :=
  ⟨key, tree, node, sh, 0, List.replicate n.lanes 0⟩

/-- What a posted operation does (R283, R286), or none when it is refused as table-full; with the flags of additions at
the owner. `issuer` is the panel position of the issuing core, whose tree types are used, and `num` its number (R281). -/
def State.keyApply (s : State) (l : Launch) (issuer num kind tree node : Nat) (key : Dword)
    (lanes : List (Option (BitVec 80))) (count : Dword) (rm : Rm) : Option (State × Flags) :=
  let k0 := s.core issuer
  match k0.node? tree node, s.keyCores l (k0.ksp tree) key with
  | some n, p :: shards =>
    let all := p :: shards
    let rest := (shards.filter (fun c => decide (c ≠ p))).eraseDups
    let drop (s : State) (cs : List Nat) : State := cs.foldl (fun s c => s.dropKey c tree node key) s
    match kind with
    | 0 =>
      let h := if n.fx then all.getD (num % all.length) p else p
      match (s.core h).entryAt l tree node key (newEntry n tree node key (decide (h ≠ p))) with
      | none => none
      | some (w, e) =>
        let (ls, fl) := addLanes n.fx rm e.lanes lanes
        some (s.putKey h w { e with count := e.count + count, lanes := ls }, fl)
    | 1 =>
      match (s.core p).entryAt l tree node key (newEntry n tree node key false) with
      | none => none
      | some (w, e) => some ((drop s rest).putKey p w { e with count := count, lanes := lanes.map (fun x => x.getD 0) }, 0)
    | 2 => some (drop s all, 0)
    | _ =>
      let parts := rest.filterMap (fun c => (s.core c).findKey tree node key)
      if parts.isEmpty || !n.fx || n.kind == 3 then some (s, 0)
      else
        match (s.core p).entryAt l tree node key (newEntry n tree node key false) with
        | none => none
        | some (w, e) =>
          let e1 := parts.foldl (fun acc x =>
            { acc with count := acc.count + x.2.count
                       lanes := (addLanes true rm acc.lanes (x.2.lanes.map some)).1 }) e
          some ((drop s rest).putKey p w e1, 0)
  | _, _ => some (s, 0)

/-- What KGET and KPROBE read (R285): absence, the count, and the lanes as summed. -/
def State.keyRead (s : State) (l : Launch) (issuer tree node : Nat) (key : Dword) : Bool × Dword × List (BitVec 80) :=
  let k0 := s.core issuer
  let found := (s.keyCores l (k0.ksp tree) key).eraseDups.filterMap (fun c => (s.core c).findKey tree node key)
  let n := (k0.node? tree node).getD default
  (found.isEmpty, found.foldl (fun a e => a + e.2.count) 0,
    match found with
    | [] => List.replicate n.lanes 0
    | e :: es => es.foldl (fun acc x => (addLanes true .rne acc (x.2.lanes.map some)).1) e.2.lanes)

/-! ### Conversions (R283, R285) -/

/-- Element `j` of a register, or of the pair with the next one (R283). -/
def wideElem (v v1 : Vec) (w j : Nat) : Nat := if w = 32 then elem v 32 j else if j < 16 then elem v 64 j else elem v1 64 (j - 16)

/-- Lane `j` as KACC and KPUT convert it (R283). -/
def keyLane (n : TreeNode) (ty : Ty) (rm : Rm) (x : Nat) : BitVec 80 × Flags :=
  if n.fx then
    if ty = .fx64 then (BitVec.ofInt 80 (intOf true 64 x), 0)
    else
      let (z, fl) := toFx64 ((tyFmt ty).decode x) n.scale
      (BitVec.ofInt 80 z, fl)
  else
    let (c, fl) := f32.encode rm 0 ((tyFmt ty).decode x)
    (BitVec.ofNat 80 c, fl)

/-- The lanes of a node from a register or a pair, with the flags of their conversions; masked lanes are absent. -/
def keyLanes (n : TreeNode) (ty : Ty) (rm : Rm) (m : BitVec 32) (v v1 : Vec) : List (Option (BitVec 80)) × Flags :=
  (List.range n.lanes).foldr (fun j acc =>
    if m.getLsbD j then
      let (x, fl) := keyLane n ty rm (wideElem v v1 (tyBits ty) j)
      (some x :: acc.1, fl ||| acc.2)
    else (none :: acc.1, acc.2)) ([], 0)

/-- A lane as KGET delivers it (R285): the element's code and its flags. -/
def keyOut (n : TreeNode) (ty : Ty) (rm : Rm) (x : BitVec 80) : Nat × Flags :=
  if n.fx then
    let (z, f0) := fx64Read x
    if ty = .fx64 then (ofInt 64 z, f0)
    else
      let (c, f1) := (tyFmt ty).encode rm 0 (fxVal z n.scale)
      (c, f0 ||| f1)
  else if ty = .f64 then f64.encode rm 0 (f32.decode (x.toNat % 2 ^ 32))
  else (x.toNat % 2 ^ 32, 0)

end Sys2Proof.Machine
end

