-- ==== Sys2Proof/Machine/Items.lean ====
section
/-!
DEFINITION. The layouts in which contexts, tasks, messages, journal entries, key tables and maps are shown (R50, R51, R224,
R282, R301, R342, R353), and the dwords that RDSTATE and a debug readback return (R342, R398).
-/

namespace Sys2Proof.Machine

/-- The data of an entry as far as R342 fixes it: the bytes that it stores. -/
def JEnt.data? (e : JEnt) : Option (List Byte) :=
  match e.op with
  | .write _ bs _ _ => some (bs.map (·.2))
  | .amo _ _ n x _ _ => some (leBytes n x.toNat)
  | .pair _ _ _ _ _ bs => some bs
  | .emb _ _ _ _ g => some (leBytes 128 g.toNat)
  | .key _ _ _ _ _ _ _ _ => none
  | _ => some []

/-- HSTATE's value of a handle (R301). -/
def handleWord (h : Handle) : Dword := BitVec.ofNat 64 (h.tag.toNat * 2 ^ 16 + h.e.toNat * 4 + h.st)

/-- A handle of a cluster. -/
def State.handle (s : State) (cl n : Nat) : Handle := amGet (s.clu cl).handles n ⟨0, false, 0⟩

/-- Dword `i` of a byte list, 0 past its end. -/
def dwordAt (bs : List Byte) (i : Nat) : Dword := BitVec.ofNat 64 (leVal ((bs.drop (8 * i)).take 8))

/-- A copy packet asks for its mailbox store (R297). -/
def pktMailed (pkt : List Byte) : Bool := bits (dwordAt pkt 0).toNat 33 33 == 1

/-- A count, then entries of `n` dwords each. -/
def listed (es : List (List Byte)) (n i : Nat) : Dword :=
  if i = 0 then BitVec.ofNat 64 es.length
  else if (i - 1) / n < es.length then dwordAt (es.getD ((i - 1) / n) []) ((i - 1) % n)
  else 0

/-- Dword `i` of a slot's registers (R342). -/
def Thread.regDword (t : Thread) (i : Nat) : Dword :=
  if i < 32 then vrd t.regs.s i
  else if i < 544 then BitVec.ofNat 64 (elem (vrd t.regs.v ((i - 32) / 16)) 64 ((i - 32) % 16))
  else if i = 544 then t.pc
  else if i = 545 then t.pword.setWidth 64
  else if i = 546 then t.regs.fstat.setWidth 64
  else if i = 547 then t.fctl
  else if i = 548 then t.mstat
  else 0

/-- Dword `i` of a latch (R328, R342). -/
def Latch.dword (l : Latch) (i : Nat) : Dword :=
  match i with
  | 0 => l.cause
  | 1 => l.pc
  | 2 => l.npc
  | 3 => l.addr
  | 4 => l.data
  | 5 => l.iaddr
  | 6 => l.agent
  | _ => 0

/-- The bytes of a core's key-table window from an offset (R282); bytes outside every entry are zero. -/
def State.keyWindow (s : State) (core off n : Nat) : List Byte :=
  let k := s.core core
  match s.launch? k.ltag with
  | some l =>
    (List.range n).map (fun i =>
      let o := off + i
      match amGet? k.keys (o / l.unit) with
      | some e =>
        if o / l.unit < 8 * l.buckets then
          (e.bytes (match k.node? e.tree e.node with
            | some x => x.fx
            | none => false)).getD (o % l.unit) 0
        else 0
      | none => 0)
  | none => List.replicate n 0

/-- A dword of a state item (R342), none where no rule fixes its content. -/
def State.rdItem (s : State) (sel idx : Dword) : Option Dword :=
  let kind := bits sel.toNat 63 48
  let who := bits sel.toNat 31 16
  let unit := bits sel.toNat 15 0
  let i := idx.toNat
  let gst := s.guest who
  let k := s.core gst
  let ctx (l : List Nat) : List (List Byte) := l.map (fun a => (s.th a).packet)
  match kind with
  | 1 =>
    match (if unit < 16 ∧ who < 1152 then s.occ (s.slotHome who unit) unit else none) with
    | some a => some ((s.th a).regDword i)
    | none => some 0
  | 2 => some (if unit < 17 ∧ who < 1152 then (s.latch (s.slotHome who unit) unit).dword i else 0)
  | 3 =>
    match unit with
    | 0 => some (listed (ctx (k.runq ++ k.runRing.map (·.2))) 16 i)
    | 1 => some (listed (ctx (k.deque ++ k.dqRing.map (·.2))) 16 i)
    | 2 => some (listed (k.tasks.map Task.record) 16 i)
    | 3 => some (listed ((k.msgq ++ k.mgRing.map (·.2)).map Msg.record) 8 i)
    | _ => some 0
  | 4 =>
    if 64 ≤ unit ∨ 19 ≤ i then some 0
    else
      match vrd k.jrn unit with
      | none => some 0
      | some e =>
        if i = 0 then some (e.report gst).1
        else if i = 1 then some e.pc
        else if i = 2 then some (match e.st with
          | .waiting => 1
          | .sent => 2
          | .bounced => 2
          | .performed _ _ _ => 3
          | .returning => 3)
        else e.data?.map (fun bs => dwordAt bs (i - 3))
  | 5 =>
    if ktgOf k.part * 8192 ≤ i then some 0 else some (dwordAt (s.keyWindow gst (8 * i) 8) 0)
  | 6 =>
    match s.launch? k.ltag with
    | some l =>
      let rs := (amGet l.recs unit []).filter (fun r => match amGet? l.spaces unit with
        | some sp => sp.residence (ptXyz r.pos) r.num == gst
        | none => false)
      some (if i = 0 then BitVec.ofNat 64 rs.length
        else match rs[(i - 1) / 3]? with
          | some r => if (i - 1) % 3 = 0 then BitVec.ofNat 64 r.num else if (i - 1) % 3 = 1 then r.pos else r.tag
          | none => 0)
    | none => some 0
  | 7 =>
    match (s.launch? k.ltag).bind (fun l => amGet? l.spaces unit) with
    | some sp =>
      if i < 8 then some (sp.hdr.getD i 0)
      else if 4 * (i - 8) < sp.owners.length then
        some (BitVec.ofNat 64 (leVal ((List.range 4).flatMap (fun j => leBytes 2 (sp.owners.getD (4 * (i - 8) + j) 0)))))
      else if sp.boxes.isEmpty then some 0
      else none
    | none => some 0
  | 8 =>
    if who < 288 ∧ 4 * i < 2320 then
      some (BitVec.ofNat 64 (leVal ((List.range 4).flatMap (fun j => leBytes 2 (amGet (s.clu who).route (4 * i + j) 0).toNat))))
    else some 0
  | 9 =>
    if 288 ≤ who then some 0
    else if i < 4 then some (BitVec.ofNat 64 ((s.clu who).event.toNat / 2 ^ (64 * i) % 2 ^ 64))
    else if i < 260 then some (handleWord (s.handle who (i - 4)))
    else some 0
  | _ => some 0

/-- The dword that a readback returns: free where no rule fixes it (log 21). -/
def State.readItem (s : State) (sel idx : Dword) : Dword × State :=
  match s.rdItem sel idx with
  | some x => (x, s)
  | none =>
    let (n, s1) := s.takeFree
    (Config.freeDword n, s1)

end Sys2Proof.Machine
end

