-- ==== Sys2Proof/Machine/Fabric.lean ====
section
/-!
DEFINITION. The package control space: registers of the cluster and package blocks (R359, R361, R372, R376, R378 to R385,
R388, R391, R394, R402), each read and written in one place, with what a write does (R8, R9).
-/

namespace Sys2Proof.Machine

/-! ### Log records of control writes -/

/-- Physical address of a register. -/
def ctlAddr : Target → Nat
  | .cluster i o => 0x010000000000 + 0x10000 * i + o
  | .package o => 0x010100000000 + o
  | _ => 0

/-- The die that logs an access of a block: the cluster's, or IOD0 for the package block. -/
def ctlDie : Target → Nat
  | .cluster i _ => dieOfClu i
  | _ => 8

/-- An ignored control write is logged with class 6 (R392). -/
def State.ignored (s : State) (t : Target) (who : Dword) : State :=
  s.logErr (ctlDie t) 6 0 (BitVec.ofNat 64 (ctlAddr t)) false who none

/-- A launch runs. -/
def State.running (s : State) : Bool := !s.launches.isEmpty

/-! ### Cluster block -/

/-- Dword `d` of a basting entry (R359). -/
def Basting.dword (b : Basting) (d : Nat) : Dword :=
  if d = 0 then BitVec.ofNat 64 (b.v.toNat * 2 ^ 63 + b.ltag.toNat * 2 ^ 16 + b.new) else b.fwd

/-- Dword `d` of a receive translation entry (R361). -/
def Recv.dword (r : Recv) (d : Nat) : Dword :=
  match d with
  | 0 => BitVec.ofNat 64 (r.v.toNat * 2 ^ 63 + r.fwdn.toNat * 2 ^ 62 + r.ltag.toNat * 2 ^ 16 + r.core)
  | 1 => r.base
  | 2 => r.size
  | 3 => r.wcur
  | 4 => r.rcur
  | 5 => BitVec.ofNat 64 r.newc
  | _ => 0

/-- A write to a receive translation entry (R361): V, LTAG and CORE, BASE, SIZE are RW. Making it valid starts its
counts. -/
def Recv.write (r : Recv) (d : Nat) (v : Dword) : Recv :=
  match d with
  | 0 =>
    let r1 := { r with v := v.getLsbD 63, ltag := BitVec.ofNat 32 (bits v.toNat 47 16), core := bits v.toNat 10 0 }
    if r1.v && !r.v then { r1 with fwdn := false, wcur := 0, rcur := 0, recs := [], told := false } else r1
  | 1 => { r with base := v }
  | 2 => { r with size := v }
  | _ => r

/-- V of a basting entry written (R359): 0 retires it. -/
def State.setBasting (s : State) (cl i : Nat) (v : Bool) : State :=
  s.modClu cl (fun k => { k with bast := vwr k.bast i { (vrd k.bast i) with v := v } })

/-- The thread's wait at a fault ends (R376): after an error reply its access raises, and the segment exception of a frame
access is the second fault of a double fault, which the slot takes (R209, R333). A Blocked light thread returns through its
wake move. -/
def State.endFaultWait (s : State) (a : Nat) (err : Bool) : State :=
  let t := s.th a
  match t.wait with
  | some ⟨.fault _ _ va, _, _, _, _⟩ =>
    let wake (t : Thread) : Thread :=
      if t.loc = .slot then { t with wait := none, parked := false }
      else { t with wait := t.wait.map (fun w => { w with fired := some 0, npc := t.pc }) }
    if err then
      let frame := va = frameAddr (s.core t.core).fb (s.tid t) ∧ (t.pend.isSome ∨ t.traps ≠ [])
      s.modTh a (fun t => { wake t with pend := some (errExc t.core va), entering := t.entering || decide frame })
    else s.modTh a wake
  | _ => s

/-- An entry of a plan changed. -/
def State.modPlan (s : State) (tag : BitVec 32) (id : Nat) (f : PlanEnt → PlanEnt) : State :=
  s.modLaunch tag (fun l => { l with plan := l.plan.map (fun e => if e.id = id then f e else e) })

/-- An entry of a plan ends as resident or failed, as a release of its engine (R304); its progress may already have passed
REL. -/
def State.planEnds (s : State) (tag : BitVec 32) (id st : Nat) : State :=
  ((s.sync (.tier tag.toNat id) (.plan tag.toNat id) true false .pkg).modPlan tag id (fun e =>
    { e with st := st, revoked := e.revoked && st != 2 })).releasePlan tag

/-- An access of an engine that got an error response, in the log of its die (R376, R390). -/
def State.logReply (s : State) (cl : Nat) (ag : Agent) (va : Dword) : State :=
  s.logErr (dieOfClu cl) 1 9 (reportAddr (4 * cl) va) true (s.rep ag) none

/-- What a fault reply at a cluster port does to a waiter, whose access is at `va` (R376): it acquires the reply. -/
def State.replyTo (s : State) (cl page : Nat) (rel : List Contrib) (err : Bool) (w : Waiter) (va : Dword) : State :=
  let mark : Option (Nat × Nat) := if err then some (0, 17) else none
  match w with
  | .thread a => (s.syncFrom (.thread a) rel).endFaultWait a err
  | .outst a _ _ => (s.syncFrom (.thread a) rel).noteFault w mark 0
  | .element a _ => (s.syncFrom (.thread a) rel).noteFault w mark 0
  | .journal c i =>
    let s1 := match vrd (s.core c).jrn i with
      | some j => s.syncFrom (.thread j.aid) rel
      | none => s
    s1.noteFault w mark 0
  | .copy h =>
    let s1 := s.syncFrom (.copy cl h) rel
    if err then
      (s1.modClu cl (fun k => { k with copies := k.copies.map (fun e => if e.1 = h then (e.1, { e.2 with err := true }) else e) })).logReply
        cl (.copy cl h) va
    else s1
  | .tier tag id =>
    let s1 := s.syncFrom (.tier tag id) rel
    if err then (s1.planEnds (BitVec.ofNat 32 tag) id 4).logReply cl (.tier tag id) va else s1
  | .overflow _ =>
    let s1 := s.syncFrom (.overflow cl) rel
    if err then s1.logReply cl (.overflow cl) va else s1
  | .queue q =>
    let s1 := s.syncFrom (.copy cl 0) rel
    if err then
      (s1.modClu cl (fun k => { k with qbinds := k.qbinds.map (fun b => if b.q = q then { b with kick := none } else b) })).logReply
        cl (.copy cl 0) va
    else s1
  | .launchUnit p n =>
    let s1 := s.syncFrom (.launchUnit p n) rel
    if err then { s1 with luErr := (p, page) :: s1.luErr } else s1

/-- FRPY: the reply to a fault entry (R376). The reply frees the entry, and every waiting access acquires it; one that is to be made again
walks again, and the overflow engine of a core takes up its work. -/
def State.faultReply (s : State) (cl n : Nat) (v : Dword) (rel : List Contrib) (who : Dword) : State :=
  let act := v.toNat % 4
  if 2 ≤ act then s.ignored (.cluster cl (0x100 + 8 * n)) who
  else
    match vrd (s.clu cl).faults n with
    | none => s.ignored (.cluster cl (0x100 + 8 * n)) who
    | some f =>
      let s1 := f.ws.foldl (fun s w => s.replyTo cl f.page rel (act == 1) w.1 w.2) (if act = 0 then s.dropPage cl f.asid f.page else s)
      let s2 := s1.modClu cl (fun k => { k with faults := vwr k.faults n none })
      f.ws.foldl (fun s w => match w.1 with
        | .overflow c => s.refill c
        | _ => s) s2

/-- A free fault entry is taken by the longest-waiting fault of a port, or it joins an open entry of its key (R375). -/
def State.faultTake (s : State) (cl : Nat) : State :=
  match (s.clu cl).fwait with
  | [] => s
  | f :: r =>
    if (s.clu cl).faults.toList.all (fun e => match e with
        | some x => !(x.asid == f.asid && x.page == f.va.toNat / 65536)
        | none => false) then s
    else
      (s.modClu cl (fun k => { k with fwait := r })).pageFaultAt cl f.asid f.va f.kind f.reason f.tag f.seqno f.dest f.w

/-- The cluster belongs to a launch. -/
def State.launchAt (s : State) (cl : Nat) : Option Launch := s.launches.find? (fun l => l.hasClu cl)

/-- The unsent journal entries of a record's context, or of its slot 15, are dropped and logged (R383) at core `c`; those that were sent
perform where they go. -/
def State.dropUnsent (s : State) (p c : Nat) (super : Bool) : State :=
  let hit (x : JEnt) : Bool := decide (x.st = .waiting) && ((s.th x.aid).kind == .super) == super
  let s1 := (s.core p).jrn.toList.foldl (fun s j => match j with
    | some x => if hit x then s.logErr (dieOf c) 5 0 x.pc true (s.rep (.thread x.aid)) none else s
    | none => s) s
  s1.modCore p (fun k => { k with jrn := k.jrn.map (fun j => j.filter (fun x => !hit x)) })

/-- The context that a core holds ends: its unsent entries, the threads of its slots, and those that wait or are queued. -/
def State.dropContext (s : State) (p : Nat) : State :=
  let s1 := (List.range 15).foldl (fun s i => match s.occ p i with
    | some a => (s.endThread a false).setSlot p i none .empty
    | none => s.setSlot p i none .empty) (s.dropUnsent p (s.phys p) false)
  (s1.threads.filter (fun e => e.2.core == p && e.2.kind != .super && e.2.loc != .exited)).foldl
    (fun s e => s.endThread e.1 false) s1

/-- A core's slots become empty (R383): those of the context that it holds, and slot 15. -/
def State.resetCoreSlots (s : State) (c : Nat) : State :=
  let g := s.guest c
  let s1 := if g < 1152 then s.dropContext g else s
  let s2 := s1.dropUnsent c c true
  (match s2.occ c 15 with
    | some a => s2.endThread a false
    | none => s2).setSlot c 15 none .empty

/-- CRST (R383): the containment reset of a cluster begins. The cancel of its launch comes from slot 15 of its first core. -/
def State.startReset (s : State) (cl : Nat) : State :=
  let s1 := match s.launchAt cl with
    | some l => s.setCancel (4 * cl) (superAid (4 * cl) 15) l.tag
    | none => s
  let s2 := (List.range 4).foldl (fun s k => s.resetCoreSlots (4 * cl + k)) s1
  s2.modClu cl (fun k => { k with crst := true, faults := Vector.replicate 16 none, fwait := [] })

/-- A record with the fields that are a context's from one record and those of slot 15 and the core itself from another. -/
def Core.withSuper (k u : Core) : Core :=
  { k with
    occ := vwr k.occ 15 (vrd u.occ 15), sst := vwr k.sst 15 (vrd u.sst 15)
    lat := vwr (vwr k.lat 15 (vrd u.lat 15)) 16 (vrd u.lat 16)
    ssel := u.ssel, stvec := u.stvec, sipc := u.sipc, sit := u.sit, ew := u.ew, ewC := u.ewC, ewA := u.ewA, ewL := u.ewL
    ssvc := u.ssvc, ssvcf := u.ssvcf, reqs := u.reqs, smsg := u.smsg, cyc := u.cyc }

/-- The site of a record whose context is no more: its own core, or away while another context lies there. -/
def State.bareSite (s : State) (p : Nat) : Site :=
  if s.cores.any (fun e => decide (e.1 ≠ p) && e.2.site == .on p) then .away p else .on p

/-- The stores of a core read as at launch start (R88, R383): the context that it held is no more, and neither is what slot 15
held. -/
def State.resetCore (s : State) (c : Nat) : State :=
  let g := s.guest c
  let k := s.core c
  let bare : Core := { Core.reset c with
    occ := Vector.replicate 16 none, sst := Vector.replicate 16 .empty, stvec := k.stvec, ssvc := k.ssvc, ssvcf := k.ssvcf, cyc := k.cyc }
  let s1 := if g ≠ c ∧ g < 1152 then
      s.putCore g { ((Core.reset g).withSuper (s.core g)) with site := .away g }
    else s
  let s2 := if g = c ∨ k.ltag = 0 then s1.putCore c bare else s1.putCore c (k.withSuper bare)
  if g ≠ c ∧ g < 1152 then s2.modCore g (fun k => { k with site := s2.bareSite g }) else s2

/-- A reset may end when the entries that the cluster sent have performed: their acknowledgements meet an error response, like
every message to the cluster, and are logged (R383). -/
def State.resetDue (s : State) (cl : Nat) : Bool :=
  (s.clu cl).crst && (List.range 4).all (fun j => (s.core (s.guest (4 * cl + j))).jrn.toList.all (fun x => match x with
    | some e => e.st != .sent
    | none => true))

/-- The containment reset is done (R383): the cluster's stores read as at launch start, and it belongs to no launch. The
cluster keeps its routing table. -/
def State.endReset (s : State) (cl : Nat) : State :=
  let s0 := match s.launchAt cl with
    | some l => s.modLaunch l.tag (fun l => { l with gone := cl :: l.gone })
    | none => s
  let s1 := (List.range 4).foldl (fun s j =>
    let c := 4 * cl + j
    let acks := ((s.core (s.guest c)).jrn.toList.filterMap id).map (fun e => e.aid)
    (acks.foldl (fun s a => s.dropAt c (s.rep (.thread a))) s).resetCore c) s0
  s1.modClu cl (fun k => { Cluster.reset with route := k.route })

/-! ### Package block -/

/-- Partition of a cluster as the table holds it (R379). -/
def State.partOf (s : State) (i : Nat) : Nat := (amGet s.cpart i 0).toNat

/-- A write of 8 bytes of the partition table (R379), ignored and logged when a launch runs on a cluster that it would
change. -/
def State.writePart (s : State) (o : Nat) (v : Dword) (who : Dword) : State :=
  let new (i : Nat) : BitVec 3 := BitVec.ofNat 3 (bits v.toNat (8 * i + 2) (8 * i))
  if (List.range 8).any (fun i => decide ((new i).toNat ≠ s.partOf (o + i)) && (s.launchAt (o + i)).isSome) then
    s.ignored (.package (0x1000 + o)) who
  else { s with cpart := (List.range 8).foldl (fun m i => amSet m (o + i) (new i)) s.cpart }

/-- A rank's entry as a dword (R388). -/
def Rank.dword (r : Rank) : Dword :=
  BitVec.ofNat 64 (r.v.toNat * 2 ^ 63 + r.f.toNat * 2 ^ 62 + r.fid.toNat % 64 * 2 ^ 16 + r.ports.toNat)

/-- The value of the register at an offset of the Lamvan block (R388). -/
def State.readLamvan (s : State) (o : Nat) : Option Dword :=
  if o < 0x200 then some (amGet s.ranks (o / 8) ⟨false, false, 0, 0⟩).dword
  else match o with
    | 0x200 => some (BitVec.ofNat 64 s.rank)
    | 0x208 => some s.stepTag
    | 0x210 => some s.fstep
    | 0x218 => some s.plc
    | _ => none

/-- A write to the Lamvan block (R388). A write to FSTEP ends the discarding that a fence move began (R389). -/
def State.writeLamvan (s : State) (o : Nat) (v : Dword) : State :=
  if o < 0x200 then
    let r : Rank := ⟨v.getLsbD 63, false, BitVec.ofNat 16 (bits v.toNat 21 16), BitVec.ofNat 16 (bits v.toNat 15 0)⟩
    { s with ranks := amSet s.ranks (o / 8) r }
  else match o with
    | 0x200 => { s with rank := bits v.toNat 5 0 }
    | 0x208 => { s with stepTag := BitVec.ofNat 64 (bits v.toNat 15 0) }
    | 0x210 => { s with fstep := BitVec.ofNat 64 (bits v.toNat 15 0), fencing := false }
    | 0x218 => { s with plc := BitVec.ofNat 64 (bits v.toNat 10 0) }
    | _ => s

/-- The value of a register of the translation block (R372). -/
def State.readXlat (s : State) (o : Nat) : Option Dword :=
  match o with
  | 0x00 => some s.ptpb
  | 0x08 => some s.ptps
  | 0x10 => some s.atb
  | 0x18 => some s.atn
  | 0x20 => some s.apseq
  | 0x28 => some s.uq
  | 0x30 => some (BitVec.ofNat 64 s.seqr.toNat)
  | _ => none

/-- A write to the translation block (R372): the four table registers are frozen while a launch runs; APSEQ is RO. -/
def State.writeXlat (s : State) (o : Nat) (v : Dword) (who : Dword) : State :=
  if o < 0x20 ∧ s.running = true then s.ignored (.package o) who
  else match o with
    | 0x00 => { s with ptpb := v }
    | 0x08 => { s with ptps := v }
    | 0x10 => { s with atb := v }
    | 0x18 => { s with atn := BitVec.ofNat 64 (bits v.toNat 16 0) }
    | 0x28 => { s with uq := v }
    | 0x30 => { s with seqr := v.getLsbD 0 }
    | _ => s

/-- Registers of an error log (R391). -/
def ErrLog.read (e : ErrLog) (o : Nat) : Option Dword :=
  match o with
  | 0x00 => some e.base
  | 0x08 => some e.size
  | 0x10 => some e.widx
  | 0x18 => some e.ridx
  | 0x20 => some (e.lost.setWidth 64)
  | _ => none

/-- A write to a register of an error log (R391): a write of base or size zeroes the two indices. -/
def ErrLog.write (e : ErrLog) (o : Nat) (v : Dword) : ErrLog :=
  match o with
  | 0x00 => { e with base := v, widx := 0, ridx := 0 }
  | 0x08 => { e with size := v, widx := 0, ridx := 0 }
  | 0x18 => { e with ridx := v }
  | 0x20 => { e with lost := e.lost &&& ~~~(v.setWidth 32) }
  | _ => e

/-- Status and identity registers (R394). -/
def State.readStatus (s : State) (o : Nat) : Option Dword :=
  match o with
  | 0x00 => some (0x0C18#16 ++ 0x01#8 ++ BitVec.ofNat 8 Config.fuseSrc.toNat ++ Config.fuseStep)
  | 0x08 => some Config.fuseSerial
  | 0x10 => some (s.bup.setWidth 64)
  | 0x18 => some (BitVec.ofNat 64 (s.pwr.toNat * 64 + s.dbg.toNat * 4 + s.sec.toNat))
  | 0x20 => some (s.preq.setWidth 64)
  | _ => none

/-- A write to DBG without a token (R397): it lowers the level at once, and a raise is ignored and logged. -/
def State.writeDbg (s : State) (v : Dword) (who : Dword) : State :=
  let d := BitVec.ofNat 2 (bits v.toNat 3 2)
  if d.toNat ≤ s.dbg.toNat then { s with dbg := d } else s.ignored (.package 0x7018) who

/-- A write to BUP (R395): 4 from a supervisor slot in phase 3; every other one is ignored and logged. -/
def State.writeBup (s : State) (v : Dword) (super : Bool) (who : Dword) : State :=
  if super ∧ s.bup = 3 ∧ v = 4 then { s with bup := 4 } else s.ignored (.package 0x7010) who

/-- A submission to the root of trust (R402). -/
def State.submit (s : State) (v : Dword) (rel : List Contrib) : State :=
  if s.rotst.busy then { s with rotst := { s.rotst with rres := 5, rseq := s.rotst.rseq + 1 } }
  else { s with rotst := { s.rotst with blk := leBytes 8 (v.toNat / 4096 * 4096), cmd := v.setWidth 8, busy := true, rel := rel } }

/-- The mailbox registers (R402). -/
def State.readRot (s : State) (o : Nat) : Option Dword :=
  match o with
  | 0x00 => some (BitVec.ofNat 64 (leVal s.rotst.blk + s.rotst.cmd.toNat))
  | 0x08 => some s.rotst.rseq
  | 0x10 => some (s.rotst.rres.setWidth 64)
  | _ => none

/-! ### Reads and writes of the control space -/

/-- The 8-byte register that holds an offset, with the state after reading it; none where no register is. HINT has no
stated value (log 7). -/
def State.ctlDword (s : State) (t : Target) : Option (Dword × State) :=
  match t with
  | .cluster i o =>
    if o < 0x80 then
      some ((vrd (s.clu i).bast (o / 16)).dword (o / 8 % 2), s)
    else if 0x100 ≤ o ∧ o < 0x180 then some (0, s)
    else if 0x200 ≤ o ∧ o < 0x400 then some ((vrd (s.clu i).recv ((o - 0x200) / 64)).dword (o / 8 % 8), s)
    else if 0x400 ≤ o ∧ o < 0x408 then some (BitVec.ofNat 64 (s.clu i).crst.toNat, s)
    else none
  | .package o =>
    let q := o / 8 * 8
    if q < 0x1000 then (s.readXlat q).map (·, s)
    else if q < 0x1120 then
      some (BitVec.ofNat 64 (leVal ((List.range 8).map (fun j => (amGet s.cpart (q - 0x1000 + j) 0).setWidth 8))), s)
    else if 0x1200 ≤ q ∧ q < 0x1240 then some (amGet s.pqueue ((q - 0x1200) / 8) 0, s)
    else if 0x2000 ≤ q ∧ q < 0x3000 then (s.readLamvan (q - 0x2000)).map (·, s)
    else if q = 0x3000 then
      let (n, s1) := s.takeFree
      some (Config.freeDword n, s1)
    else if 0x4000 ≤ q ∧ q < 0x4A00 then
      ((amGet s.elog ((q - 0x4000) / 0x100) ⟨0, 0, 0, 0, 0⟩).read (q % 0x100)).map (·, s)
    else if 0x6000 ≤ q ∧ q < 0x7000 then (s.readRot (q - 0x6000)).map (·, s)
    else if 0x7000 ≤ q then (s.readStatus (q - 0x7000)).map (·, s)
    else none
  | _ => none

/-- A write of a whole register by an agent (`who` as reports name it) with the contributions of its release. -/
def State.ctlPut (s : State) (t : Target) (v : Dword) (super : Bool) (who : Dword) (rel : List Contrib) : State :=
  match t with
  | .cluster i o =>
    if o < 0x80 then (if o / 8 % 2 = 0 then s.setBasting i (o / 16) (v.getLsbD 63) else s)
    else if 0x100 ≤ o ∧ o < 0x180 then s.faultReply i ((o - 0x100) / 8) v rel who
    else if 0x200 ≤ o ∧ o < 0x400 then
      s.modClu i (fun k =>
        { k with recv := vwr k.recv ((o - 0x200) / 64) ((vrd k.recv ((o - 0x200) / 64)).write (o / 8 % 8) v) })
    else if 0x400 ≤ o ∧ o < 0x408 then (if v.getLsbD 0 && !(s.clu i).crst then s.startReset i else s)
    else s
  | .package o =>
    let q := o / 8 * 8
    if q < 0x1000 then s.writeXlat q v who
    else if q < 0x1120 then s.writePart (q - 0x1000) v who
    else if 0x1200 ≤ q ∧ q < 0x1240 then { s with pqueue := amSet s.pqueue ((q - 0x1200) / 8) v }
    else if 0x2000 ≤ q ∧ q < 0x3000 then s.writeLamvan (q - 0x2000) v
    else if q = 0x3000 then { s with msix := s.msix ++ [(BitVec.ofNat 64 (bits v.toNat 5 0), rel)] }
    else if 0x4000 ≤ q ∧ q < 0x4A00 then
      let n := (q - 0x4000) / 0x100
      { s with elog := amSet s.elog n ((amGet s.elog n ⟨0, 0, 0, 0, 0⟩).write (q % 0x100) v) }
    else if q = 0x6000 then s.submit v rel
    else if q = 0x7010 then s.writeBup v super who
    else if q = 0x7018 then s.writeDbg v who
    else if q = 0x7020 then { s with preq := BitVec.ofNat 2 (bits v.toNat 1 0) }
    else s
  | _ => s

/-- Offset of a target within its 8-byte register. -/
def ctlSub : Target → Nat
  | .cluster _ o => o % 8
  | .package o => o % 8
  | _ => 0

/-- A read of RSEQ acquires the response of the root of trust (R402), and one of ELWIDX the records that its die released (R391). -/
def State.rotAcquire (s : State) (ag : Agent) (t : Target) : State :=
  match t with
  | .package o =>
    if o / 8 = 0x6008 / 8 then s.syncFrom ag (s.contribs .mailbox)
    else if 0x4000 ≤ o ∧ o < 0x4A00 ∧ o % 0x100 / 8 = 2 then s.syncFrom ag (s.contribs (.log ((o - 0x4000) / 0x100)))
    else s
  | _ => s

/-- A read of `n` bytes of the control space: none is an error response (R378). -/
def State.ctlRead (s : State) (t : Target) (n : Nat) : Option (Nat × State) :=
  match (if n ≤ 8 then s.ctlDword t else none) with
  | some (v, s1) => some (v.toNat / 2 ^ (8 * ctlSub t) % 2 ^ (8 * n), s1)
  | none => none

/-- A write of `n` bytes of the control space; the bytes of the register that it does not write keep their value, and
write 0 where a 1 would clear. -/
def State.ctlWrite (s : State) (t : Target) (n v : Nat) (super : Bool) (who : Dword) (rel : List Contrib) : Option State :=
  match s.ctlDword t with
  | none => none
  | some (old, _) =>
    let sh := 8 * ctlSub t
    let keep := match t with
      | .package o => if 0x4000 ≤ o ∧ o < 0x4A00 ∧ o % 0x100 / 8 = 4 then 0 else old.toNat
      | _ => old.toNat
    let new := if n = 8 then v else keep % 2 ^ sh + v % 2 ^ (8 * n) * 2 ^ sh + keep / 2 ^ (sh + 8 * n) * 2 ^ (sh + 8 * n)
    some (s.ctlPut t (BitVec.ofNat 64 new) super who rel)

end Sys2Proof.Machine
end

