-- ==== Sys2Proof/Machine/Ports.lean ====
section
/-!
DEFINITION. Ports: pops and pushes of bound names (R40, R97 to R107), the stream unit's element accesses (R99, R102), links
and slot queues (R104 to R107), and network stream ports (R273 to R275).
-/

namespace Sys2Proof.Machine

/-! ### Bindings -/

/-- The binding of a name of a thread. -/
def State.bindOf (s : State) (aid : Nat) (n : PName) : Option Binding :=
  (s.core (s.th aid).core).binds.find? (fun b => b.aid == aid && b.name == n)

/-- The bindable name of a register (R40). -/
def Nm.pname : Nm → Option PName
  | .s n => if 24 ≤ n.toNat then some ⟨false, BitVec.ofNat 3 (n.toNat - 24)⟩ else none
  | .v n => if 24 ≤ n.toNat then some ⟨true, BitVec.ofNat 3 (n.toNat - 24)⟩ else none
  | .p _ => none

/-- The binding that a register name of a thread has. -/
def State.boundTo (s : State) (aid : Nat) (n : Nm) : Option Binding :=
  match n.pname with
  | some p => s.bindOf aid p
  | none => none

/-- A binding replaced. -/
def State.putBind (s : State) (b : Binding) : State :=
  s.modCore (s.th b.aid).core (fun k =>
    { k with binds := k.binds.map (fun x => if x.aid = b.aid ∧ x.name = b.name then b else x) })

/-! ### Affine streams -/

/-- The affine stream bound to a name of a thread. -/
def State.streamOf (s : State) (aid : Nat) (n : PName) : Option Stream :=
  match s.bindOf aid n with
  | some b => match b.port with
    | .affine st => some st
    | _ => none
  | none => none

/-- Number of elements of a stream (R99). -/
def Stream.total (st : Stream) : Nat := st.counts.foldl (· * ·) 1

/-- Index of element `i` along each dimension, innermost first (R99). -/
def streamIdx : List Nat → Nat → List Nat
  | [], _ => []
  | c :: cs, i => i % (if c = 0 then 1 else c) :: streamIdx cs (i / (if c = 0 then 1 else c))

/-- Address of element `i` (R99). -/
def Stream.addr (st : Stream) (i : Nat) : Dword :=
  let off := ((streamIdx st.counts i).zip st.stride).foldl (fun (acc : Int) e => acc + (e.1 : Int) * e.2) 0
  BitVec.ofInt 64 ((st.base.toNat : Int) + off)

/-- An entry of the thread before place `seq` in issue order that has not performed touches a word of a stream's element
(R119 first row). -/
def State.elemBusy (s : State) (aid seq : Nat) (va : Dword) (n : Nat) : Bool :=
  let core := (s.th aid).core
  (s.core core).jrn.toList.any (fun j => match j with
    | some e => e.aid == aid && decide (e.seq < seq) && e.live &&
        (e.ranges core).any (fun r => s.sameWord aid r ((reportAddr core va).toNat, n))
    | none => false)

/-- An operation of the thread before place `seq` in issue order that has not performed touches a word of a stream's element
(R119 first row). -/
def State.elemHeld (s : State) (aid seq : Nat) (va : Dword) (n : Nat) : Bool :=
  let t := s.th aid
  let a := ((reportAddr t.core va).toNat, n)
  t.outst.any (fun o => decide (o.seq < seq) && (match o.op with
    | .post op => (op.ranges t.core).any (fun r => s.sameWord aid r a)
    | .amo _ _ x _ _ _ => s.sameWord aid ((reportAddr t.core x.addr).toNat, x.n) a
    | .cas _ x _ _ _ _ => s.sameWord aid ((reportAddr t.core x.addr).toNat, x.n) a
    | _ => false))

/-- One of the next `n` elements of a stream that are not read ahead cannot be read yet: the binding waits for an earlier
store (R102, R119). -/
def State.nextBusy (s : State) (aid : Nat) (st : Stream) (n : Nat) : Bool :=
  (List.range n).any (fun i => decide (st.ahead.length ≤ i ∧ st.taken + i < st.total) &&
    (s.elemBusy aid st.since (st.addr (st.taken + i)) (2 ^ st.size) || s.elemHeld aid st.since (st.addr (st.taken + i)) (2 ^ st.size)))

/-- The stream unit reads element `i` for the binding thread (R102): its value and the words that it was read from. -/
def State.elemRead (s : State) (aid : Nat) (st : Stream) (i : Nat) : Met (Dword × List WordKey) :=
  let n := 2 ^ st.size
  match s.placeFor aid (st.addr i) n .read false with
  | .exc e s1 => .exc e s1
  | .fault a r s1 => .fault a r s1
  | .wait => .wait
  | .ok p s1 =>
    match s1.plainRead aid (s.th aid).core false p n with
    | .error x => .exc (conflictExc (s.th aid).core (st.addr i) p x) s1
    | .ok (v, s2) => .ok (BitVec.ofNat 64 v, p.words n) s2

/-- An affine input stream has elements left (R101). -/
def Binding.more (b : Binding) : Bool :=
  match b.port with
  | .affine st => decide (st.taken < st.total)
  | _ => false

/-- The stream unit has read ahead `n` elements of a binding, or what is left of it (R102): the last read that it needs may raise, meet a
page fault, or have to wait; those before it stay read. `k` bounds the reads. -/
def State.fillAhead (s : State) (aid : Nat) (name : PName) (n : Nat) : Nat → Met Unit
  | 0 => .ok () s
  | k + 1 =>
    match s.bindOf aid name with
    | none => .ok () s
    | some b =>
      match b.port with
      | .affine st =>
        let i := st.taken + st.ahead.length
        if b.out || decide (n ≤ st.ahead.length) || decide (st.total ≤ i) then .ok () s
        else if s.nextBusy aid st n then .wait
        else
          match s.elemRead aid st i with
          | .exc e s1 => .exc e (s.keepWalk s1 (s.port (s.th aid)))
          | .fault a r s1 => .fault a r (s.keepWalk s1 (s.port (s.th aid)))
          | .wait => .wait
          | .ok x s1 => State.fillAhead (s1.putBind { b with port := .affine { st with ahead := st.ahead ++ [x] } }).consume aid name n k
      | _ => .ok () s

/-- The elements that a pop of a name takes. -/
def Binding.popLen (b : Binding) : Nat :=
  match b.port with
  | .affine st => if b.name.vec then 1024 / (8 * 2 ^ st.size) else 1
  | _ => 1

/-- The first `n` elements of what is read ahead, those past the end of the stream 0 (R101): none while one is still to be read. -/
def Stream.heads (st : Stream) (n : Nat) : Option (List Dword × Stream) :=
  let m := Nat.min n (st.total - st.taken)
  if st.ahead.length < m then none
  else some ((st.ahead.take m).map (·.1) ++ List.replicate (n - m) 0, { st with taken := st.taken + m, ahead := st.ahead.drop m })

/-- Elements of `w` bits placed in a vector register (R37). -/
def packLanes (w : Nat) (xs : List Nat) : Vec :=
  BitVec.ofNat 1024 (xs.reverse.foldl (fun acc x => acc * 2 ^ w + x % 2 ^ w) 0)

/-- Element `i` of `w` bits of a vector register (R37). -/
def laneOf (w : Nat) (v : Vec) (i : Nat) : Nat := v.toNat / 2 ^ (w * i) % 2 ^ w

/-! ### Links -/

/-- Grid x of a core (R11). -/
def gridX (c : Nat) : Nat := 2 * cxOf (clusterOf c) + c % 2
/-- Grid y of a core (R11). -/
def gridY (c : Nat) : Nat := 2 * cyOf (clusterOf c) + c % 4 / 2
/-- The core at a grid position (R10, R11). -/
def coreAt (x y : Nat) : Nat := (y / 2 * 24 + x / 2) * 4 + 2 * (y % 2) + x % 2

/-- The core to which a link end of a core leads, when it lies in the panel and the grid (R104). -/
def State.linkPeer (s : State) (core : Nat) (east : Bool) : Option Nat :=
  let k := s.core core
  let x := gridX core
  let y := gridY core
  if east then
    (if x = 47 then none
     else if s.inPanel k.ltag (coreAt (x + 1) y) then some (coreAt (x + 1) y) else none)
  else if x = 0 then none
  else if s.inPanel k.ltag (coreAt (x - 1) y) then some (coreAt (x - 1) y) else none

/-- Pushes of the threads of a core through one of its ports that wait to perform. -/
def State.pendingPushes (s : State) (core : Nat) (port : PortKind) : Nat :=
  ((s.core core).occ.toList.filterMap id).foldl (fun n a => n + ((s.th a).outst.filter (fun o => match o.op with
    | .post (.push q _ _) => q == port
    | _ => false)).length) 0

/-- The queue into which an out end of a link pushes has room (R104). -/
def State.linkRoom (s : State) (core : Nat) (east : Bool) : Bool :=
  match s.linkPeer core east with
  | some d => decide (((s.core d).linkIn (!east)).length + s.pendingPushes core (.link east) < 8)
  | none => false

/-- A push through an out end of a link. -/
def State.linkPush (s : State) (core : Nat) (east : Bool) (e : QEnt) : State :=
  match s.linkPeer core east with
  | some d => s.modCore d (fun k => k.setLinkIn (!east) (k.linkIn (!east) ++ [e]))
  | none => s

/-! ### Operations without a result -/

/-- Unwritten elements of a thread: the place of the push in issue order, the address and the width. -/
def State.unwrOf (s : State) (aid : Nat) : List (Nat × Dword × Nat) :=
  ((s.core (s.th aid).core).binds.filter (fun b => b.aid == aid)).flatMap (fun b => match b.port with
    | .affine st => st.unwr.map (fun e => (e.1, e.2.1, 2 ^ st.size))
    | _ => [])

/-- Every element that the thread has pushed is written: what a synchronising operation that performs at issue waits for
(R102). -/
def State.allWritten (s : State) (aid : Nat) : Bool := (s.unwrOf aid).isEmpty

/-- The place within its instruction of the push of a forwarding pop (R105): after every other operation of the instruction, which may
still raise and take it back (R34). -/
def lateSub : Nat := 2 ^ 20

/-- The place in issue order, within its instruction, of the next operation that a thread issues. -/
def State.nextSub (s : State) (aid : Nat) : Nat :=
  let t := s.th aid
  let a := (t.outst.filter (fun o => o.seq == t.seq && decide (o.sub < lateSub))).foldl (fun m o => Nat.max m o.sub) 0
  (s.core t.core).jrn.toList.foldl (fun m j => match j with
    | some e => if e.aid = aid ∧ e.seq = t.seq ∧ e.sub < lateSub then Nat.max m e.sub else m
    | none => m) a + 1

/-- An operation without a result joins the pending set, after what the instruction has issued already (R112). -/
def State.postOp (s : State) (aid : Nat) (npc : Dword) (saved : Saved) (op : JOp) : State :=
  let sub := s.nextSub aid
  s.modTh aid (fun t => { t with outst := t.outst ++ [⟨t.seq, sub, t.pc, npc, .post op, [], saved, none, 0⟩] })

/-- The push of a forwarding pop joins the pending set. -/
def State.postFwd (s : State) (aid : Nat) (port : PortKind) (wide : Bool) (v : Vec) : State :=
  let sv := s.save aid
  s.modTh aid (fun t =>
    let n := (t.outst.filter (fun o => o.seq == t.seq)).length
    { t with outst := t.outst ++ [⟨t.seq, lateSub + 1 + n, t.pc, t.pc, .post (.push port wide v), [], sv, none, 0⟩] })

/-- A push through a link, a queue or a network port joins the pending set: it is a release (R107, R119). -/
def State.postPush (s : State) (aid : Nat) (port : PortKind) (wide : Bool) (v : Vec) : State :=
  s.postOp aid (s.th aid).pc (s.save aid) (.push port wide v)

/-! ### Pops -/

/-- What a pop meets. -/
inductive Pop where
  | got (v : Vec) (s : State)
  | empty
  | exc (e : Exc) (s : State)
  | fault (va : Dword) (reason : Nat) (s : State)

/-- An entry of a queue popped by a name for the instruction at place `at_` in issue order (R106, R107): the width must match; the
pop acquires its push. `u` puts it back. -/
def State.popEntry (s : State) (aid at_ : Nat) (wide : Bool) (q : List QEnt) (u : QEnt → Undo) (take : List QEnt → State → State) :
    Pop :=
  match q with
  | [] => .empty
  | e :: r =>
    if e.wide ≠ wide then .exc { cause := 21 } s
    else .got e.val (((take r s).record aid at_ (u e)).syncFrom (.thread aid) e.rel)

/-- What puts back the entry that a pop through a port takes next. -/
def State.popUndo (s : State) (b : Binding) : List Undo :=
  let k := s.core (s.th b.aid).core
  match b.port with
  | .affine _ => []
  | .link east => ((k.linkIn east).head?.map (fun e => Undo.link east e)).toList
  | .queue n => ((vrd k.sq n).head?.map (fun e => Undo.queue n e)).toList
  | .net n => ((vrd k.net n).q.head?.map (fun e => Undo.net n e)).toList

/-- A pop of an input-bound name for the instruction at place `q` in issue order (R40, R101, R105, R106, R274). The elements of an affine
stream were read before. A forwarding pop stalls while the out end is full, and its instruction pushes the entry on, as its last operation:
one that raises, at once or later, has forwarded nothing (R34, R105; DEDUCED, log 37). -/
def State.pop (s : State) (b : Binding) (q : Nat) : Pop :=
  let aid := b.aid
  let core := (s.th aid).core
  match b.port with
  | .affine st =>
    if st.total ≤ st.taken then .empty
    else
      match st.heads b.popLen with
      | none => .empty
      | some (xs, st1) => .got (packLanes (8 * 2 ^ st.size) (xs.map (·.toNat))) (s.putBind { b with port := .affine st1 })
  | .link east =>
    if b.fwd ∧ s.linkRoom core (!east) = false then .empty
    else
      match s.popEntry aid q b.name.vec ((s.core core).linkIn east) (.link east) (fun r s => s.modCore core (fun k => k.setLinkIn east r)) with
      | .got v s1 => .got v (if b.fwd then s1.postFwd aid (.link (!east)) b.name.vec v else s1)
      | r => r
  | .queue n =>
    s.popEntry aid q b.name.vec (vrd (s.core core).sq n) (.queue n) (fun r s => s.modCore core (fun k => { k with sq := vwr k.sq n r }))
  | .net n =>
    let p := vrd (s.core core).net n
    match p.q with
    | ⟨false, w, v, rel, route, path, seq⟩ :: r =>
      s.popEntry aid q b.name.vec (⟨w, v, rel, seq⟩ :: []) (fun e => .net n ⟨false, e.wide, e.val, e.rel, route, path, e.seq⟩)
        (fun _ s => s.modCore core (fun k => { k with net := vwr k.net n { p with q := r } }))
    | _ => .empty

/-! ### Pushes -/

/-- Capacity of a route in elements (R274 leaves it open, log 12). -/
def routeCap : Nat := 16

/-- Elements in flight to port `dp` of panel position `d`. -/
def State.inFlight (s : State) (d dp : Nat) : Nat :=
  (s.flows.filter (fun f => f.dst == d && (match f.tr with
    | .element p _ _ _ => p == dp
    | _ => false))).length

/-- An output-bound name takes a push now (R40, R101, R104, R106, R274). -/
def State.portRoom (s : State) (b : Binding) : Bool :=
  let core := (s.th b.aid).core
  match b.port with
  | .affine st => decide (st.taken < st.total)
  | .link east => s.linkRoom core east
  | .queue n => decide ((vrd (s.core core).sq n).length + s.pendingPushes core b.port < 16)
  | .net n =>
    match (vrd (s.core core).net n).st with
    | .sending d dp =>
      decide ((vrd (s.core d).net dp).q.length + s.inFlight d dp + s.pendingPushes core b.port < routeCap)
    | _ => false

/-- The elements that a push through an affine stream adds: at most those that are left (R101). -/
def Binding.nextOut (b : Binding) (st : Stream) : Nat := Nat.min (if b.name.vec then 1024 / (8 * 2 ^ st.size) else 1) (st.total - st.taken)

/-- A page fault on an element that the next push through a name would add blocks the thread at that push (R103): the element's
address and the reason. -/
def State.pushFault (s : State) (b : Binding) : Option (Dword × Nat) :=
  match b.port with
  | .affine st =>
    (List.range (b.nextOut st)).findSome? (fun i =>
      let va := st.addr (st.taken + i)
      match (s.reachTh b.aid va (2 ^ st.size) .write).1 with
      | .fault r => some (va, r)
      | _ => none)
  | _ => none

/-- A push through an output-bound name (R40, R101, R107, R274). The element of an affine stream is written later
(R102). -/
def State.push (s : State) (b : Binding) (v : Vec) : State :=
  let t := s.th b.aid
  match b.port with
  | .affine st =>
    let es := (List.range (b.nextOut st)).map (fun i => (t.seq, st.addr (st.taken + i), t.pc, laneOf (8 * 2 ^ st.size) v i))
    s.putBind { b with port := .affine { st with taken := st.taken + es.length, unwr := st.unwr ++ es } }
  | p => s.postPush b.aid p b.name.vec v

/-! ### Output elements (R102) -/

/-- The stream unit writes the oldest unwritten element of a binding: a conflict or a refusal is an asynchronous
posted-store trap for no journal entry. -/
def State.elemWrite (s : State) (b : Binding) : Met Unit :=
  match b.port with
  | .affine st =>
    match st.unwr with
    | [] => .ok () s
    | (q, va, pc, v) :: r =>
      let n := 2 ^ st.size
      let t := s.th b.aid
      let done (s : State) : State := s.putBind { b with port := .affine { st with unwr := r, fault := none } }
      let trap (cause : Nat) (agent : Dword) (s : State) : State :=
        let x : ATrap :=
          ⟨{ cause := 16, code := BitVec.ofNat 32 (cause * 65536 + 0xFF), addr := reportAddr t.core va
             data := BitVec.ofNat 64 v, iaddr := pc, agent := agent }, q, false⟩
        (done s).modTh b.aid (fun t => { t with traps := insertTrap x t.traps })
      match st.fault with
      | some (_, 17) => .ok () (trap 9 0 (s.noteExc b.aid (errExc t.core va)))
      | some _ => .wait
      | none =>
        match s.placeFor b.aid va n .write false with
        | .fault a re s1 => .fault a re s1
        | .wait => .wait
        | .exc e s1 => .ok () (trap e.cause 0 (s1.noteExc b.aid e))
        | .ok p s1 =>
          match s1.plainWrite (.thread b.aid) (some t.core) false p (leBytes n v) with
          | .error x => .ok () (trap 15 x.2.rep (s1.noteExc b.aid (conflictExc t.core va p x)))
          | .ok s2 => .ok () (done (s2.fill (.thread b.aid) p n))
  | _ => .ok () s

end Sys2Proof.Machine
end

