-- ==== Sys2Proof/Machine/Posted.lean ====
section
/-!
DEFINITION. Operations that perform after their instruction issued (R52, R112): what an outstanding instruction, a posted
entry or an operation without a result does when it performs (R120, R123, R220 to R235, R254, R261, R272, R283 to R286), and
the rules of R119 that say when it may.
-/

namespace Sys2Proof.Machine

/-! ### Reads -/

/-- A read of a thread (R115, R220, R225, R361, R378). -/
def State.readAt (s : State) (aid : Nat) (va : Dword) (n : Nat) (k : MKind) : Met Nat :=
  let t := s.th aid
  let at_ (p : Place) (s1 : State) : Met Nat :=
    let r := match k with
      | .plain => s1.plainRead aid t.core false p n
      | .rp => s1.plainRead aid t.core true p n
      | .atomic o sc => (s1.atomRead aid (ordAcq o) sc p n).map (fun (x : Nat × State) => (x.1, x.2.forwardRead t.core p n))
    match r with
    | .error x => .exc (conflictExc t.core va p x) s1
    | .ok (v, s2) => .ok v s2
  match s.reachTh aid va n .read with
  | (.mem p, s1) => at_ p s1
  | (.host p, s1) => at_ p s1
  | (.control c, s1) =>
    match s1.ctlRead c n with
    | some (v, s2) => .ok v (s2.rotAcquire (.thread aid) c)
    | none => .exc (errExc t.core va) s1
  | (.storage _, s1) =>
    let (i, s2) := s1.takeFree
    .ok ((Config.freeDword i).toNat % 2 ^ (8 * n)) s2
  | (.absent _, _) => .wait
  | (.range, s1) => .exc { cause := 13, addr := reportAddr t.core va } s1
  | (.fault r, s1) => .fault va r s1
  | (.check, s1) => .exc (checkExc t.core va) s1
  | (.soft, s1) => .exc (softExc t.core va) s1
  | (.error, s1) => .exc (errExc t.core va) s1

/-- Reads of several elements in order, with their index. Those before one that raises stay performed. -/
def State.readEach (s : State) (aid w : Nat) (k : MKind) : List (Nat × Dword) → Met (List (Nat × Nat))
  | [] => .ok [] s
  | (i, va) :: l =>
    match s.readAt aid va w k with
    | .ok v s1 =>
      match State.readEach s1 aid w k l with
      | .ok vs s2 => .ok ((i, v) :: vs) s2
      | r => r
    | .exc e s1 => .exc e s1
    | .fault a r s1 => .fault a r s1
    | .wait => .wait

/-- A plain read of one word of a thread's own access (R123, R219). -/
def State.readWord4 (s : State) (aid : Nat) (va : Dword) : Met (List Byte) :=
  let core := (s.th aid).core
  match s.placeFor aid va 4 .read false with
  | .exc e s1 => .exc e s1
  | .fault a r s1 => .fault a r s1
  | .wait => .wait
  | .ok p s1 =>
    match s1.plainRead aid core false p 4 with
    | .error x => .exc (conflictExc core va p x) s1
    | .ok (v, s2) => .ok (leBytes 4 v) s2

/-! ### Atomics (R229, R230) -/

/-- The value that an AMO writes and its flags (R229). -/
def amoVal (op : AmoOp) (n old x : Nat) : Nat × Flags :=
  let w := 8 * n
  let a := old % 2 ^ w
  let b := x % 2 ^ w
  let f := if n = 4 then f32 else f64
  match op with
  | .add => ((a + b) % 2 ^ w, 0)
  | .and => (a &&& b, 0)
  | .or => (a ||| b, 0)
  | .xor => (a ^^^ b, 0)
  | .min => (if intOf true w a ≤ intOf true w b then a else b, 0)
  | .max => (if intOf true w a ≤ intOf true w b then b else a, 0)
  | .minu => (if a ≤ b then a else b, 0)
  | .maxu => (if a ≤ b then b else a, 0)
  | .swap => (b, 0)
  | .fadd =>
    let (v, f0) := addVal .rne (f.decode a) (f.decode b)
    let (c, f1) := f.encode .rne 0 v
    (c, f0 ||| f1)

/-- An AMO or CAS of a thread performs (R127, R229 to R231): the old value and the flags. `exp` is the value that a CAS
compares. -/
def State.amoAt (s : State) (aid : Nat) (va : Dword) (n : Nat) (o : Ord) (sc : Scope) (exp : Option Nat)
    (op : AmoOp) (x : Nat) : Met (Nat × Flags) :=
  let core := (s.th aid).core
  if s.toAbsent aid va n then .wait
  else
    match s.placeFor aid va n .both true with
    | .exc e s1 => .exc e s1
    | .fault a r s1 => .fault a r s1
    | .wait => .wait
    | .ok p s1 =>
      let old := s1.val p n
      let f (v : Nat) : Option Nat :=
        match exp with
        | some y => if v = y % 2 ^ (8 * n) then some (x % 2 ^ (8 * n)) else none
        | none => some (amoVal op n v x).1
      match s1.atomUpdate aid (ordRel o) (ordAcq o) sc p n f with
      | .error c => .exc (conflictExc core va p c) s1
      | .ok (v, s2) => .ok (v, if exp.isSome then 0 else (amoVal op n old x).2) s2

/-! ### Embedding rows (R254) -/

/-- Bytes of an embedding row of a type. -/
def rowBytes (ty : Ty) : Nat := 4 * tyBits ty

/-- Elements that are left of the stream bound to a name of a thread. -/
def State.left (s : State) (aid : Nat) (n : PName) : Nat :=
  match s.streamOf aid n with
  | some st => st.total - st.taken
  | none => 0

/-- Element `i` from its place on of the stream bound to a name, which is read ahead and not popped (R102). -/
def State.peekElem (s : State) (aid : Nat) (n : PName) (i : Nat) : Met Dword :=
  match s.fillAhead aid n (i + 1) (i + 1) with
  | .exc e s1 => .exc e s1
  | .fault a r s1 => .fault a r s1
  | .wait => .wait
  | .ok _ s1 =>
    match (s1.streamOf aid n).bind (fun st => st.ahead[i]?) with
    | some x => .ok x.1 s1
    | none => .wait

/-- A stream moves on by `n` elements, which were read ahead. -/
def State.skipElems (s : State) (aid : Nat) (n : PName) (k : Nat) : State :=
  match s.bindOf aid n with
  | none => s
  | some b => match b.port with
    | .affine st => s.putBind { b with port := .affine { st with taken := st.taken + k, ahead := st.ahead.drop k } }
    | _ => s

/-- The accumulation of EMBPOOL from element `i` of the index stream on, `k` of them (R254), from a vector of FP32 codes. -/
def State.embRows (s : State) (aid : Nat) (ty : Ty) (rm : Rm) (seg : BitVec 3) (base : Dword) (ix wt : PName) (lg : Nat) :
    Nat → Nat → List Nat → Staged → Met (List Nat × Staged)
  | 0, _, acc, g => .ok (acc, g) s
  | k + 1, i, acc, g =>
    match s.peekElem aid ix i with
    | .exc e s1 => .exc e s1
    | .fault a r s1 => .fault a r s1
    | .wait => .wait
    | .ok x s1 =>
      match s1.peekElem aid wt i with
      | .exc e s2 => .exc e s2
      | .fault a r s2 => .fault a r s2
      | .wait => .wait
      | .ok w s2 =>
        let t := s2.th aid
        let rb := rowBytes ty
        let va := base + (x <<< lg)
        match s2.chkSeg t seg va rb rb true false with
        | some e => .exc e s2
        | none =>
          match s2.chkSp t va rb with
          | some e => .exc e s2
          | none =>
            match s2.readAt aid va rb .plain with
            | .exc e s3 => .exc e s3
            | .fault a r s3 => .fault a r s3
            | .wait => .wait
            | .ok row s3 =>
              let weight := f32.decode (w.toNat % 2 ^ 32)
              let (acc1, g1) := (List.range 32).foldl (fun (st : List Nat × Staged) j =>
                let y := (tyFmt ty).decode (row / 2 ^ (tyBits ty * j) % 2 ^ tyBits ty)
                let (c, g') := st.2.enc f32 rm (fmaVal rm y weight (f32.decode (acc.getD j 0)))
                (st.1 ++ [c], g')) ([], g)
              State.embRows s3.consume aid ty rm seg base ix wt lg k (i + 1) acc1 g1

/-- EMBPOOL as a whole (R254): the pooled vector; the streams move on with its completion. -/
def State.embPool (s : State) (aid : Nat) (ty : Ty) (rm : Rm) (seg : BitVec 3) (base : Dword) (ix wt : PName) (lg : Nat)
    (g : Staged) : Met (Vec × Staged) :=
  let n := s.left aid ix
  match s.embRows aid ty rm seg base ix wt lg n 0 (List.replicate 32 0) g with
  | .ok (acc, g1) s1 => .ok (ofElems 32 acc, g1) ((s1.skipElems aid ix n).skipElems aid wt n)
  | .exc e s1 => .exc e s1
  | .fault a r s1 => .fault a r s1
  | .wait => .wait

/-- The generator after `n` draws (R74). -/
def seedAfter (x : BitVec 32) : Nat → BitVec 32
  | 0 => x
  | n + 1 => seedAfter (nextDraw x) n

/-! ### Results of outstanding instructions -/

/-- A long-class result: the names written, and the flags (R45, R52). -/
structure LongVal where
  ws : List (Nm × Vec)
  fl : Flags

/-- Bytes of a slot of operand memory replaced (R108). -/
def State.putSlot (s : State) (core slot off : Nat) (bs : List Byte) : State :=
  s.modCore core (fun k =>
    let o := vrd k.opm slot
    { k with opm := vwr k.opm slot { o with bytes := Memory.put o.bytes off bs } })

/-- The next 128 bytes of a bound vector name popped into a slot of operand memory, for the OFILL.s at place `q` in issue order
(R261): what an exception of it, or of an earlier operation, puts back is noted. -/
def State.fillPop (s : State) (aid q slot off : Nat) (name : PName) : Met Unit :=
  match s.fillAhead aid name 128 128 with
  | .exc e s0 => .exc e s0
  | .fault a r s0 => .fault a r s0
  | .wait => .wait
  | .ok _ s0 =>
  match s0.bindOf aid name with
  | none => .wait
  | some b =>
    let core := (s.th aid).core
    match s0.pop b q with
    | .empty => .wait
    | .exc e s1 => .exc e s1
    | .fault a r s1 => .fault a r s1
    | .got v s1 => .ok () ((s1.record aid q (.slot slot (vrd (s1.core core).opm slot))).putSlot core slot off (leBytes 128 v.toNat))

/-- What travels or waits towards a port of another core, from a port of a panel position (R274, R359, R361). -/
def State.onWay (s : State) (core n : Nat) : List NetEl :=
  let f (tr : Traffic) : List NetEl := match tr with
    | .element _ e c i => if c = core ∧ i = n then [e] else []
    | _ => []
  s.flows.flatMap (fun x => f x.tr) ++
    s.clus.flatMap (fun e => e.2.recv.toList.flatMap (fun r => r.recs.flatMap (fun x => f x.2) ++ r.wait.flatMap f)) ++
    s.cores.flatMap (fun e => e.2.fwdq.flatMap (fun x => f x.tr) ++ e.2.held.flatMap f)

/-- What a thread pushed through a port before place `q` in issue order is not popped, not at the receiving end, or not written
(R272). -/
def State.undrained (s : State) (aid : Nat) (port : PortKind) (q : Nat) : Bool :=
  let core := (s.th aid).core
  let own (es : List (Nat × List Contrib)) : Bool := es.any (fun e => decide (e.1 < q) && e.2.any (fun k => k.ag == .thread aid))
  match port with
  | .link east => own (match s.linkPeer core east with
    | some d => ((s.core d).linkIn (!east)).map (fun e => (e.seq, e.rel))
    | none => [])
  | .queue n => own ((vrd (s.core core).sq n).map (fun e => (e.seq, e.rel)))
  | .net n => own (((s.onWay core n).filter (fun e => !e.close)).map (fun e => (e.seq, e.rel)))
  | .affine st => (s.core core).binds.any (fun b => b.aid == aid && b.out && (match b.port with
    | .affine x => x.since == st.since && x.unwr.any (fun e => decide (e.1 < q))
    | _ => false))

/-! ### Routes of network streams (R273) -/

/-- What a sender's route meets at a port (R273): 0 it listens, 1 it does not, 2 it receives from another sender. -/
def NetPort.answer (p : NetPort) (src sp : Nat) : Nat :=
  match p.st with
  | .listening | .landing none => 0
  | .receiving a b | .landing (some (a, b)) => if a = src ∧ b = sp then 1 else 2
  | _ => 1

/-- A sender's route arrives (R273). -/
def NetPort.routed (p : NetPort) (src sp : Nat) : NetPort :=
  match p.st with
  | .landing _ => { p with st := .landing (some (src, sp)) }
  | _ => { p with st := .receiving src sp }

/-- A network port replaced. -/
def State.putNet (s : State) (core i : Nat) (p : NetPort) : State := s.modCore core (fun k => { k with net := vwr k.net i p })

/-- Status of an SPOPEN.out of a thread and the state after it (R273). A context that is away, a cluster that the fabric does not
reach, or one to which it cannot reserve a route now, is status 3 (log 12). -/
def State.openRoute (s : State) (aid i dst dp : Nat) : Nat × State :=
  let t := s.th aid
  let q := vrd (s.core dst).net dp
  let (n, s1) := s.takeFree
  if (s.core dst).ltag ≠ t.ltag ∨ s.absent t.ltag dst = true ∨
      (dst ≠ t.core ∧ s.way true (t.kind == .super) (s.port t) (clusterOf (s.phys dst)) ≠ .through) then (3, s)
  else if q.answer t.core i ≠ 0 then (q.answer t.core i, s)
  else if Config.routeGranted n = false then (3, s1)
  else
    let (r, s2) := s1.takeOrder
    let s3 := s2.putNet dst dp { (q.routed t.core i) with route := r + 1 }
    let p := vrd (s3.core t.core).net i
    (0, s3.putNet t.core i { p with
      st := .sending dst dp, opener := some aid, q := [], route := r + 1, path := s.heldPath (s.port t) (clusterOf (s.phys dst)) })

/-- SPOPEN of a port that is not Closed (R273). -/
def State.listenExc (s : State) (aid n : Nat) : Option Exc :=
  if (vrd (s.core (s.th aid).core).net n).st ≠ .closed then some { cause := 17 } else none

/-- A network port is bound by a name. -/
def Core.netBound (k : Core) (i : Nat) : Bool :=
  k.binds.any (fun b => match b.port with
    | .net n => n == i
    | _ => false)

/-- What SPCLOSE of a port raises (R275): one that is Closed is not open in any direction, and one that another thread opened is not the
issuer's. -/
def State.closeExc (s : State) (aid n : Nat) : Option Exc :=
  let k := s.core (s.th aid).core
  let p := vrd k.net n
  let busy := match p.st with
    | .receiving _ _ | .landing (some _) => true
    | _ => false
  if p.st = .closed then some { cause := 37 }
  else if busy || k.netBound n || p.opener != some aid then some { cause := 17 }
  else none

/-- SPOPEN.in and SPOPEN.land (R273). -/
def State.listenOp (s : State) (aid n : Nat) (ring : Option (Nat × Nat)) : State :=
  let core := (s.th aid).core
  let p := vrd (s.core core).net n
  s.putNet core n (match ring with
    | none => { p with st := .listening, opener := some aid, q := [] }
    | some (o, size) => ⟨.landing none, some aid, [], o, size, 0, 0, []⟩)

/-- Sign or zero extension of a loaded value (R220). -/
def extLoad (sx : Bool) (n v : Nat) : Vec :=
  ((if sx then BitVec.ofInt 64 (intOf true (8 * n) v) else BitVec.ofNat 64 v).setWidth 1024)

/-- A predicate's value as a result. -/
def predVec (b : Bool) : Vec := if b then 1 else 0

/-! ### Writes -/

/-- What performing an entry meets. -/
inductive Perf where
  | done (fl : Flags) (s : State)
  | refuse (e : Exc) (s : State)
  | fault (va : Dword) (reason : Nat) (s : State)
  | absent (core : Nat)

/-- Runs of consecutive bytes: offset and bytes. -/
def byteRuns : List (Nat × Byte) → List (Nat × List Byte)
  | [] => []
  | (o, b) :: l =>
    match byteRuns l with
    | (o', bs) :: r => if o + 1 = o' then (o, b :: bs) :: r else (o, [b]) :: (o', bs) :: r
    | [] => [(o, [b])]

/-- Bytes that a write puts at a place, with the address by which it reaches them. -/
structure Run where
  va : Dword
  p  : Place
  bs : List Byte

/-- Where the runs of a write go, or what stops it. -/
inductive Dest where
  | places (rs : List Run) (s : State)
  | control (t : Target) (s : State)
  | drop (s : State)
  | stop (p : Perf)

/-- The places of a write's runs, each a run within a page (R93, R219, R371, R378). -/
def State.destOf (s : State) (aid : Nat) : List (Dword × List Byte) → Dest
  | [] => .places [] s
  | (va, bs) :: l =>
    let t := s.th aid
    let go (p : Place) (s1 : State) : Dest :=
      if s1.inPool p bs.length then .stop (.refuse (errExc t.core va) s1)
      else
        match State.destOf s1 aid l with
        | .places rs s2 => .places (⟨va, p, bs⟩ :: rs) s2
        | r => r
    match s.reachTh aid va bs.length .write with
    | (.mem p, s1) => go p s1
    | (.host p, s1) => go p s1
    | (.control c, s1) => .control c s1
    | (.storage _, s1) => .drop s1
    | (.absent h, _) => .stop (.absent h)
    | (.range, s1) => .stop (.refuse { cause := 13, addr := reportAddr t.core va, note := .refused } s1)
    | (.fault r, s1) => .stop (.fault va r s1)
    | (.check, s1) => .stop (.refuse (checkExc t.core va) s1)
    | (.soft, s1) => .stop (.refuse (softExc t.core va) s1)
    | (.error, s1) => .stop (.refuse (errExc t.core va) s1)

/-- Lines of device memory that a forward-tagged store writes, tagged for a core of the panel; a store to host memory or to a
scratchpad performs untagged (R91, R226). The HBM of a peer package counts as device memory, as R231 has it (DESIGN CHOICE, log 55). -/
def State.tagLines (s : State) (aid : Nat) (tag : Option Nat) (p : Place) (n : Nat) : State :=
  match tag, p with
  | some c, .phys x =>
    if s.inPanel (s.th aid).ltag c && decide (x < 0x8000000000000) then
      (List.range ((x + n - 1) / 512 + 1 - x / 512)).foldl (fun s i => { s with fwd := amSet s.fwd (x / 512 + i) (c, 0) }) s
    else s
  | _, _ => s

/-- The first conflict of a write of several runs. -/
def State.runsConflict (s : State) (aid : Nat) (atom : Bool) : List Run → Option (Run × (WordKey × Stamp))
  | [] => none
  | r :: l =>
    match s.conflicts? (.thread aid) true atom (r.p.words r.bs.length) with
    | some x => some (r, x)
    | none => State.runsConflict s aid atom l

/-- A word of a doorbell: of a launch queue, of the update queue, or of a bound copy queue (R296, R344, R374). -/
def State.isBell (s : State) (w : WordKey) : Bool :=
  let near (b : WordKey) : Bool := match b, w with
    | .phys x, .phys y => x == y || x + 1 == y
    | .sp c x, .sp d y => c == d && (x == y || x + 1 == y)
    | _, _ => false
  let unit (a : Dword) : Bool := a != 0 && (match s.physPlace a.toNat with
    | some h => near (h.plus 24).word
    | none => false)
  (List.range 8).any (fun p => unit (amGet s.pqueue p 0)) || unit s.uq || s.clus.any (fun e => e.2.qbinds.any (fun b => near b.bell))

/-- A store to kick registers among some words, made already: a release to the engine, whatever its order and scope (R117), of the
contribution that the agent had before it. `own` marks one that ended its region as a release of its own. -/
def State.kickRelease (s : State) (ag : Agent) (ws : List WordKey) (k : Contrib) (own : Bool) : State :=
  match ws.filter s.isBell with
  | [] => s
  | bs =>
    let s1 := bs.foldl (fun s w => s.release (.kick w) [k]) s
    if own then s1 else s1.endRegion ag

/-- What the stores to the kick register at a place released. -/
def State.kickContribs (s : State) (p : Place) : List Contrib := (p.words 8).flatMap (fun w => s.contribs (.kick w))

/-- The start of an engine acquires the stores to its kick register, whatever scope they name (R117). -/
def State.kickSync (s : State) (ag : Agent) (p : Place) : State :=
  ((s.acquire ag .pod (s.kickContribs p)).acquired ag).endRegion ag

/-- One run written; its conflict was looked for before. -/
def State.runWrite (s : State) (aid : Nat) (k : MKind) (own : Bool) (tag : Option Nat) (p : Place) (bs : List Byte) : State :=
  let core := (s.th aid).core
  let r := match k with
    | .plain => s.plainWrite (.thread aid) (some core) false p bs
    | .rp => s.plainWrite (.thread aid) (some core) true p bs
    | .atomic o sc => s.atomWrite aid (ordRel o) sc p bs
  match r with
  | .error _ => s
  | .ok s1 =>
    let ends := match k with
      | .atomic _ _ => true
      | _ => false
    ((if own then s1 else s1.fill (.thread aid) p bs.length).tagLines aid tag p bs.length).kickRelease (.thread aid) (p.words bs.length)
      (s.contrib (.thread aid) .pod) ends

/-- Runs written, once every one has passed its check (R121, R123, R222, R227). `own` marks a store to the issuing core's own
scratchpad, which leaves full/empty bits alone (R94). -/
def State.writeAt (s : State) (aid : Nat) (rs : List Run) (k : MKind) (tag : Option Nat) (own : Bool) : Perf :=
  let atom := match k with
    | .atomic _ _ => true
    | _ => false
  match s.runsConflict aid atom rs with
  | some (r, x) => .refuse (conflictExc (s.th aid).core r.va r.p x) s
  | none => .done 0 (rs.foldl (fun s r => s.runWrite aid k own tag r.p r.bs) s)

/-- Place `d` bytes on in a block. -/
def Target.plus : Target → Nat → Target
  | .cluster i o, d => .cluster i (o + d)
  | .package o, d => .package (o + d)
  | t, _ => t

/-- A run of a store to a block, `d` bytes after its first byte, cut where its registers of 8 bytes end; `o` is the first byte's offset
within its register. -/
def regPieces (o d : Nat) (bs : List Byte) : List (Nat × List Byte) :=
  let k := (o + d) % 8
  (List.range ((k + bs.length + 7) / 8)).map (fun i => (d + (8 * i - k), (bs.drop (8 * i - k)).take (8 * (i + 1) - k - (8 * i - k))))

/-- A store to a block: register by register in increasing order; none where one of them does not exist (R8, R378). -/
def State.ctlWrites (s : State) (c : Target) (super : Bool) (who : Dword) (rel : List Contrib) : List (Nat × List Byte) → Option State
  | [] => some s
  | (d, bs) :: l =>
    match s.ctlWrite (c.plus d) bs.length (leVal bs) super who rel with
    | some s1 => State.ctlWrites s1 c super who rel l
    | none => none

/-- A store's bytes at an address. -/
def State.writeRuns (s : State) (aid : Nat) (a : Dword) (bs : List (Nat × Byte)) (k : MKind) (tag : Option Nat) (own : Bool) : Perf :=
  let t := s.th aid
  match s.destOf aid ((byteRuns bs).map (fun r => (a + BitVec.ofNat 64 r.1, r.2))) with
  | .stop p => p
  | .drop s1 => .done 0 s1
  | .control c s1 =>
    let rel := match k with
      | .atomic o sc => if ordRel o then [s1.contrib (.thread aid) sc] else []
      | _ => []
    let first := (bs.map (·.1)).headD 0
    match s1.ctlWrites c (t.kind == .super) (s1.rep (.thread aid)) rel
        ((byteRuns bs).flatMap (fun r => regPieces (ctlSub c) (r.1 - first) r.2)) with
    | some s2 => .done 0 (if rel.isEmpty then s2 else s2.endRegion (.thread aid))
    | none => .refuse (errExc t.core a) s1
  | .places rs s1 => s1.writeAt aid rs k tag own

/-- STPAIR's rows: address and bytes of each row of both areas (R235), cut at the ends of pages (R367). -/
def pairRows (pb tb : Dword) (pp pt n : Nat) (bs : List Byte) : List (Dword × List Byte) :=
  let e (i j : Nat) : List Byte := (bs.drop (32 * n * i + n * j)).take n
  let cut (va : Dword) (b : List Byte) : List (Dword × List Byte) :=
    let k := 65536 - va.toNat % 65536
    if b.length ≤ k then [(va, b)] else [(va, b.take k), (va + BitVec.ofNat 64 k, b.drop k)]
  (List.range 32).flatMap (fun i => cut (pb + BitVec.ofNat 64 (pp * i)) ((List.range 32).flatMap (fun j => e i j))) ++
    (List.range 32).flatMap (fun j => cut (tb + BitVec.ofNat 64 (pt * j)) ((List.range 32).flatMap (fun i => e i j)))

/-- The places of STPAIR's rows: device memory only (R235). -/
def State.pairPlaces (s : State) (aid : Nat) : List (Dword × List Byte) → Dest
  | [] => .places [] s
  | (va, bs) :: l =>
    let t := s.th aid
    match s.reachTh aid va bs.length .write with
    | (.mem (.phys a), s1) =>
      if s1.inPool (.phys a) bs.length then .stop (.refuse (errExc t.core va) s1)
      else
        match State.pairPlaces s1 aid l with
        | .places rs s2 => .places (⟨va, .phys a, bs⟩ :: rs) s2
        | r => r
    | (.fault r, s1) => .stop (.fault va r s1)
    | (.check, s1) => .stop (.refuse (checkExc t.core va) s1)
    | (.soft, s1) => .stop (.refuse (softExc t.core va) s1)
    | (.error, s1) => .stop (.refuse (errExc t.core va) s1)
    | (_, s1) => .stop (.refuse { cause := 33, addr := reportAddr t.core va, note := .refused } s1)

/-- One update of an embedding row (R255): a plain read and a plain write of the whole row in one move. -/
def State.embUpdate (s : State) (aid : Nat) (ty : Ty) (rm : Rm) (va scale : Dword) (grad : Vec) : Perf :=
  let t := s.th aid
  let rb := rowBytes ty
  match s.placeFor aid va rb .both true with
  | .exc e s1 => .refuse e s1
  | .fault a r s1 => .fault a r s1
  | .wait => .absent (windowOf t.core va).1
  | .ok p s1 =>
    match s1.conflicts? (.thread aid) true false (p.words rb) with
    | some x => .refuse (conflictExc t.core va p x) s1
    | none =>
      let row := s1.readVal (some t.core) false p rb
      let w := tyBits ty
      let c := f32.decode (scale.toNat % 2 ^ 32)
      let es := (List.range 32).map (fun j =>
        let (v, f0) := fmaVal rm c (f32.decode (elem grad 32 j)) ((tyFmt ty).decode (row / 2 ^ (w * j) % 2 ^ w))
        let (x, f1) := (tyFmt ty).encode rm 0 v
        (x, f0 ||| f1))
      let fl := (es.map (·.2)).foldl (· ||| ·) 0
      .done fl (s1.runWrite aid .plain true none p (leBytes rb (packNat w (es.map (·.1)))))

/-- A set or clear of a granule (R96, R234): FESET releases; both end the region. -/
def State.feOp (s : State) (aid core g : Nat) (full : Bool) : State :=
  (s.setFull core g full).sync (.thread aid) (.granule core g) full false .pkg

/-- A message of a thread's context reaches a panel position: no partition, router or boundary refuses it, and it finds the context,
where need be through basting entries (R359, R379 to R383). -/
def State.meetsCore (s : State) (aid c : Nat) : Bool :=
  let t := s.th aid
  c == t.core || (s.reaches false (s.port t) (clusterOf (s.phys c)) && s.finds t.ltag t.core c)

/-- Messages of a thread's context to panel positions are counted where basting entries forward them (R359). -/
def State.passedAll (s : State) (aid : Nat) (cs : List Nat) : State :=
  let t := s.th aid
  cs.foldl (fun s c => if c = t.core then s else s.passed t.ltag t.core c) s

/-- The cores that a key-table operation of a thread goes to. -/
def State.keyGoes (s : State) (aid : Nat) (l : Launch) (tree : Nat) (key : Dword) : List Nat :=
  s.keyCores l ((s.core (s.th aid).core).ksp tree) key

/-- KACC, KPUT, KDEL and KMERGE at the owner (R283, R284, R286): a synchronising operation on the entry. `home` is the core from which it
was sent (R281, R338). -/
def State.keyOp (s : State) (aid home : Nat) (kind tree node : Nat) (key : Dword) (lanes : List (Option (BitVec 80))) (count : Dword)
    (r : Rnd) (tag : BitVec 16) : Perf :=
  let t := s.th aid
  match s.launch? t.ltag with
  | none => .done 0 s
  | some l =>
    let cs := s.keyGoes aid l tree key
    match cs.find? (s.absent l.tag) with
    | some h => .absent h
    | none =>
      if cs.any (fun c => !s.meetsCore aid c) then .refuse (errExc t.core key) s
      else if kind = 0 ∧ tag ≠ 0 ∧ s.fencing = true ∧ s.fstep.toNat % 65536 = tag.toNat then
        .done 0 (s.logErr (s.dieTh t) 5 0 key false (s.rep (.thread aid)) none)
      else
        match (s.passedAll aid cs).keyApply l t.core home kind tree node key lanes count (t.modeNoSt r) with
        | none => .refuse { cause := 38, addr := key, note := .refused } s
        | some (s1, fl) =>
          let o := Obj.entry l.tag.toNat tree node key
          .done fl (((s1.release o t.fences).endRegion (.thread aid)).modTh aid (fun t => { t with reads := (o :: t.reads).eraseDups }))

/-- The decrement of a remote EXIT's counter (R196). -/
def State.decAt (s : State) (aid : Nat) (a : Dword) : Perf :=
  let t := s.th aid
  match s.placeFor aid a 8 .both true with
  | .exc x s1 => .refuse { x with note := if x.note = .none then .refused else x.note } s1
  | .fault va r s1 => .fault va r s1
  | .wait => .absent (windowOf t.core a).1
  | .ok p s1 =>
    if s1.val p 8 = 0 then .refuse { cause := 25, addr := reportAddr t.core a, note := .refused } s1
    else
      match s1.atomUpdate aid true false .pkg p 8 (fun v => some (v - 1)) with
      | .error x => .refuse (conflictExc t.core a p x) s1
      | .ok (_, s2) => .done 0 s2

/-- What a sent entry does at its destination (R121). -/
def State.perform (s : State) (e : JEnt) : Perf :=
  let aid := e.aid
  let t := s.th aid
  match e.op with
  | .write a bs k tag => s.writeRuns aid a bs k tag (s.isOwn t a)
  | .amo op a n x o sc =>
    match s.amoAt aid a n o sc none op x.toNat with
    | .ok (_, fl) s1 => .done fl s1
    | .exc x s1 => .refuse { x with note := if x.note = .none then .refused else x.note } s1
    | .fault va r s1 => .fault va r s1
    | .wait => .absent (windowOf t.core a).1
  | .pair pb tb pp pt n bs =>
    match s.pairPlaces aid (pairRows pb tb pp pt n bs) with
    | .places rs s1 => s1.writeAt aid rs .plain none true
    | .stop p => p
    | _ => .done 0 s
  | .fe c g full =>
    let va := BitVec.ofNat 64 (apertureBase + c * apertureStep + 16 * g)
    match s.reachTh aid va 16 .write with
    | (.mem (.sp h _), s1) => .done 0 (s1.feOp aid h g full)
    | (.absent h, _) => .absent h
    | (.range, s1) => .refuse { cause := 13, addr := va, note := .refused } s1
    | (.soft, s1) => .refuse (softExc t.core va) s1
    | (_, s1) => .refuse (errExc t.core va) s1
  | .dec a => s.decAt aid a
  | .taskDec h =>
    let dst := h.toNat / 65536
    if s.absent t.ltag dst then .absent dst
    else if s.meetsCore aid dst = false then .refuse (errExc t.core h) s
    else
      match (s.passedAll aid [dst]).taskDec dst (h.toNat % 65536) (s.contrib (.thread aid) .pkg :: t.fences) with
      | none => .refuse { cause := 25, addr := h, note := .refused } s
      | some s1 => .done 0 (s1.endRegion (.thread aid))
  | .key kind tree node key lanes count r tag => s.keyOp aid e.home kind tree node key lanes count r tag
  | .emb ty r row scale g => s.embUpdate aid ty (t.modeNoSt r) row scale g
  | _ => .done 0 s

/-! ### Operations without a result (R112) -/

/-- Performing with no result. -/
def Perf.met : Perf → Met LongVal
  | .done fl s => .ok ⟨[], fl⟩ s
  | .refuse e s => .exc e s
  | .fault va r s => .fault va r s
  | .absent _ => .wait

/-- FENCE (R117, R232): a release adds the clock to the agent's fence contributions; an acquire takes the contributions of
every object read atomically since the last one. -/
def State.fenceOp (s : State) (aid : Nat) (o : Ord) (sc : Scope) : State :=
  let ag := Agent.thread aid
  let s1 := if ordRel o then s.modTh aid (fun t => { t with fences := addContrib t.fences (s.contrib ag sc) }) else s
  let s2 := if ordAcq o then ((s1.th aid).reads.foldl (fun s x => s.acquire ag sc (s.contribs x)) s1).acquired ag else s1
  s2.endRegion ag

/-- EVSET, a release, and EVCLR, which is neither release nor acquire (R197). From a context that has moved to where the fabric refuses
it, the event unit gets nothing, and the log a record (R379 to R383). -/
def State.eventOp (s : State) (aid cl bit : Nat) (set : Bool) : State :=
  let m : BitVec 256 := 1#256 <<< bit
  if s.eventUp aid cl = false then (s.dropAt (4 * cl) (s.rep (.thread aid))).endRegion (.thread aid)
  else (if set then s.sync (.thread aid) (.event cl bit) true false .pkg else s.endRegion (.thread aid)).modClu cl (fun k =>
    { k with event := if set then k.event ||| m else k.event &&& ~~~m })

/-- A push through a link, a queue or a network port (R104, R107, R274) by the instruction at place `q` in issue order: a release that
travels with the entry. -/
def State.pushOp (s : State) (aid q : Nat) (port : PortKind) (wide : Bool) (v : Vec) : State :=
  let core := (s.th aid).core
  let (ks, s1) := s.syncSend (.thread aid)
  match port with
  | .link east => s1.linkPush core east ⟨wide, v, ks, q⟩
  | .queue n => s1.modCore core (fun k => { k with sq := vwr k.sq n (vrd k.sq n ++ [⟨wide, v, ks, q⟩]) })
  | .net n =>
    let p := vrd (s1.core core).net n
    match p.st with
    | .sending d dp => s1.sendMsg core aid (s1.core core).ltag d (.element dp ⟨false, wide, v, ks, p.route, p.path, q⟩ core n)
    | _ => s1
  | .affine _ => s1

/-- A message or a task with the release of its sending (R201, R202). -/
def Traffic.withRel (ks : List Contrib) : Traffic → Traffic
  | .message m => .message { m with rel := ks }
  | .task t => .task { t with rel := ks }
  | tr => tr

/-- SEND and CALLAT (R201, R202): a release that travels with the message. CALLAT set its reply cell empty at issue, and does so again
where an earlier operation of the thread could have filled it since (R94, R200). -/
def State.sendOp (s : State) (aid dst : Nat) (tr : Traffic) (cell : Option Nat) : State :=
  let t := s.th aid
  let (ks, s1) := s.syncSend (.thread aid)
  let s2 := match cell with
    | some g => s1.setFull t.core g false
    | none => s1
  s2.sendMsg t.core aid t.ltag dst (tr.withRel ks)

/-- SYSMSG (R343): a release that travels with the message to a core. -/
def State.sysmsgOp (s : State) (aid dst : Nat) (p0 p1 p2 p3 : Dword) : State :=
  let t := s.th aid
  let c := s.place t
  let (ks, s1) := s.syncSend (.thread aid)
  s1.sysMessage (clusterOf c) dst (BitVec.ofNat 64 (c * 16 + t.slot)) p0 p1 p2 p3 ks

/-- A handle of a cluster replaced. -/
def State.putHandle (s : State) (cl n : Nat) (h : Handle) : State :=
  s.modClu cl (fun k => { k with handles := amSet k.handles n h })

/-- HFREE (R301): a release; a handle that is filling raises. -/
def State.freeOp (s : State) (aid cl n : Nat) : Met LongVal :=
  let x := s.handle cl n
  if x.st = 1 then .exc { cause := 41 } s
  else
    let s1 := s.sync (.thread aid) (.handle cl n) true false .pkg
    .ok ⟨[], 0⟩ (if x.st = 0 then s1 else s1.putHandle cl n { x with st := 0, e := false })

/-- The parts of a store in the own scratchpad, in order (R222, R223). -/
def State.ownParts (s : State) (aid : Nat) (k : MKind) : List (Dword × List (Nat × Byte)) → Perf
  | [] => .done 0 s
  | (va, bs) :: l =>
    match s.writeRuns aid va bs k none true with
    | .done _ s1 => State.ownParts s1 aid k l
    | r => r

/-- A held slot's thread ends as a running thread does by cancellation (R205, R334); a frozen slot stays frozen (R333). -/
def State.killSlot (s : State) (core l : Nat) : State :=
  match s.occ core l with
  | none => s
  | some a =>
    let frozen := vrd (s.core core).sst l == .frozen
    (s.endThread a true).setSlot core l none (if frozen then .frozen else .empty)

/-- What SRET does to a slot of 0 to 14 of a record (R331, R334): a release that the slot acquires when it resumes, at a target, or the
end of its thread. -/
def State.sretOp (s : State) (aid rec_ l : Nat) (to_ : Option Dword) : State :=
  let s1 := s.sync (.thread aid) (.latch rec_ l) true false .pkg
  match to_ with
  | some t => s1.resumeSlot rec_ l t
  | none => s1.killSlot rec_ l

/-- What an operation without a result, of the instruction at place `q` in issue order, does when it performs. A task waits where its
queue has no room (R358); SPOPEN and SPCLOSE meet the port as earlier ones have left it (R273, R275). -/
def State.postVal (s : State) (aid q : Nat) (op : JOp) : Met LongVal :=
  let t := s.th aid
  match op with
  | .own k ps => (s.ownParts aid k ps).met
  | .fence o sc => .ok ⟨[], 0⟩ (s.fenceOp aid o sc)
  | .event cl bit set => .ok ⟨[], 0⟩ (s.eventOp aid cl bit set)
  | .push p wide v => .ok ⟨[], 0⟩ (s.pushOp aid q p wide v)
  | .send dst tr cell => .ok ⟨[], 0⟩ (s.sendOp aid dst tr cell)
  | .task x =>
    if (s.core t.core).seen then .ok ⟨[], 0⟩ s
    else match s.pushTask t.core { x with num := s.order } with
      | .ok s1 => .ok ⟨[], 0⟩ { s1 with order := s1.order + 1 }
      | .error _ => .wait
  | .taskOwn h =>
    match s.taskDec t.core (h.toNat % 65536) (s.contrib (.thread aid) .pkg :: t.fences) with
    | none => .exc { cause := 25 } s
    | some s1 => .ok ⟨[], 0⟩ (s1.endRegion (.thread aid))
  | .cancel box => .ok ⟨[], 0⟩ (s.cancelLaunch aid box)
  | .free cl n => s.freeOp aid cl n
  | .listen n ring => match s.listenExc aid n with
    | some e => .exc e s
    | none => .ok ⟨[], 0⟩ (s.listenOp aid n ring)
  | .close n => match s.closeExc aid n with
    | some e => .exc e s
    | none => .ok ⟨[], 0⟩ (s.closePort t.core n aid)
  | .sysmsg dst p0 p1 p2 p3 => .ok ⟨[], 0⟩ (s.sysmsgOp aid dst p0 p1 p2 p3)
  | .sret r l to_ => .ok ⟨[], 0⟩ (s.sretOp aid r l to_)
  | .emb ty r row scale g => (s.embUpdate aid ty (t.modeNoSt r) row scale g).met
  | .fe c g full => .ok ⟨[], 0⟩ (s.feOp aid c g full)
  | op => (s.perform ⟨s.place t, aid, t.seq, 0, t.pc, op, .sent, none⟩).met

/-! ### What an outstanding instruction does when it performs -/

/-- What an outstanding instruction of a thread does when it performs. -/
def State.longVal (s : State) (aid q : Nat) (op : LongOp) : Met LongVal :=
  let t := s.th aid
  let core := t.core
  match op with
  | .ld sx d a k =>
    match s.readAt aid a.addr a.n k with
    | .ok v s1 => .ok ⟨[(.s d, extLoad sx a.n v)], 0⟩ s1.consume
    | .exc e s1 => .exc e s1
    | .fault x r s1 => .fault x r s1
    | .wait => .wait
  | .lanes d w as rp =>
    match s.readEach aid w (if rp then .rp else .plain) as with
    | .ok vs s1 =>
      let old := (s1.th aid).rV d
      let l := (List.range (nElems (8 * w))).map (fun i => match vs.find? (fun e => e.1 == i) with
        | some e => e.2
        | none => elem old (8 * w) i)
      .ok ⟨[(.v d, ofElems (8 * w) l)], 0⟩ s1.consume
    | .exc e s1 => .exc e s1
    | .fault x r s1 => .fault x r s1
    | .wait => .wait
  | .amo o d a x od sc =>
    match s.amoAt aid a.addr a.n od sc none o x.toNat with
    | .ok (v, fl) s1 => .ok ⟨[(.s d, extLoad false a.n v)], fl⟩ s1
    | .exc e s1 => .exc e s1
    | .fault y r s1 => .fault y r s1
    | .wait => .wait
  | .cas d a exp new od sc =>
    match s.amoAt aid a.addr a.n od sc (some exp.toNat) .swap new.toNat with
    | .ok (v, _) s1 => .ok ⟨[(.s d, extLoad false a.n v)], 0⟩ s1
    | .exc e s1 => .exc e s1
    | .fault y r s1 => .fault y r s1
    | .wait => .wait
  | .kget ty r d p c tree node key =>
    match s.launch? t.ltag with
    | none => .ok ⟨[], 0⟩ s
    | some l =>
      let cs := s.keyGoes aid l tree key
      if cs.any (s.absent l.tag) then .wait
      else if cs.any (fun c => !s.meetsCore aid c) then .exc (errExc core key) s
      else
        let s := s.passedAll aid cs
        let n := ((s.core core).node? tree node).getD default
        let (gone, cnt, ls) := s.keyRead l core tree node key
        let rs := ls.map (keyOut n ty (t.modeNoSt r))
        let w := tyBits ty
        let xs := rs.map (·.1) ++ List.replicate (64 - rs.length) 0
        let fl := (rs.map (·.2)).foldl (· ||| ·) 0
        let vs := if w = 32 then [(Nm.v d, ofElems 32 (xs.take 32))]
          else [(Nm.v d, ofElems 64 (xs.take 16)), (Nm.v (d + 1), ofElems 64 ((xs.drop 16).take 16))]
        let o := Obj.entry l.tag.toNat tree node key
        let s1 := (s.endRegion (.thread aid)).modTh aid (fun t => { t with reads := (o :: t.reads).eraseDups })
        .ok ⟨vs ++ [(.p p, predVec gone)] ++ (match c with
          | some x => [(Nm.s x, cnt.setWidth 1024)]
          | none => []), fl⟩ s1
  | .kprobe p tree node key =>
    match s.launch? t.ltag with
    | none => .ok ⟨[], 0⟩ s
    | some l =>
      let cs := s.keyGoes aid l tree key
      if cs.any (s.absent l.tag) then .wait
      else if cs.any (fun c => !s.meetsCore aid c) then .exc (errExc core key) s
      else
        let s := s.passedAll aid cs
        let (gone, _, _) := s.keyRead l core tree node key
        let o := Obj.entry l.tag.toNat tree node key
        let s1 := (s.endRegion (.thread aid)).modTh aid (fun t => { t with reads := (o :: t.reads).eraseDups })
        .ok ⟨[(.p p, predVec !gone)], 0⟩ s1
  | .oclaim d _ _ got =>
    match got with
    | some m => .ok ⟨[(.s d, m.setWidth 1024)], 0⟩ s
    | none => .wait
  | .ofill _ _ _ _ _ => .wait
  | .ofillS _ _ _ _ _ _ => .wait
  | .known d x => .ok ⟨[(.s d, x.setWidth 1024)], 0⟩ s
  | .route d n dst dp =>
    match s.listenExc aid n with
    | some e => .exc e s
    | none =>
      let (x, s1) := s.openRoute aid n dst dp
      .ok ⟨[(.s d, BitVec.ofNat 1024 x)], 0⟩ s1
  | .drain d port => if s.undrained aid port q then .wait else .ok ⟨[(.s d, 0)], 0⟩ s
  | .rdstate d sel idx =>
    let (x, s1) := s.readItem sel idx
    .ok ⟨[(.s d, x.setWidth 1024)], 0⟩ s1
  | .embpool ty r d seg base ix wt lg seed =>
    match s.embPool aid ty (t.mode r) seg base ix wt lg ⟨seed, 0⟩ with
    | .ok (v, g) s1 => .ok ⟨[(.v d, v)], g.fl⟩ s1
    | .exc e s1 => .exc e s1
    | .fault x k s1 => .fault x k s1
    | .wait => .wait
  | .post op => s.postVal aid q op

/-! ### The rules of R119 -/

/-- Addresses that an outstanding instruction reads or writes. -/
def LongOp.accs : LongOp → List Acc
  | .ld _ _ a _ => [a]
  | .lanes _ w as _ => as.map (fun e => ⟨e.2, w⟩)
  | .amo _ _ a _ _ _ => [a]
  | .cas _ a _ _ _ _ => [a]
  | .ofill _ _ _ a _ => [a]
  | _ => []

/-- Address ranges that an operation reads or writes, as reports give them. -/
def LongOp.ranges (core : Nat) : LongOp → List (Nat × Nat)
  | .post op => op.ranges core
  | op => op.accs.map (fun a => ((reportAddr core a.addr).toNat, a.n))

/-- The order of an atomic access. -/
def LongOp.ord : LongOp → Option Ord
  | .ld _ _ _ (.atomic o _) => some o
  | .amo _ _ _ _ o _ => some o
  | .cas _ _ _ _ o _ => some o
  | .post op => op.ord
  | _ => none

/-- An acquire, or a synchronising operation with one (R117); the pops of OFILL.s are taken for acquires (log 5). -/
def LongOp.acq : LongOp → Bool
  | .ofillS _ _ _ _ _ _ => true
  | op => (op.ord.map ordAcq).getD false

/-- A release, or an operation with one (R117, R119 third row). -/
def LongOp.rel : LongOp → Bool
  | .post op => match op with
    | .fe _ _ full => full
    | .event _ _ set => set
    | .dec _ | .taskDec _ | .taskOwn _ | .push _ _ _ | .send _ _ _ | .cancel _ | .free _ _ | .close _ | .sysmsg _ _ _ _ _ | .sret _ _ _ => true
    | op => ((LongOp.post op).ord.map ordRel).getD false
  | op => (op.ord.map ordRel).getD false

/-- A `.seq` operation (R119). -/
def LongOp.seqOp (op : LongOp) : Bool := op.ord == some .seq

/-- It may write, or change what another agent sees (R119 last row). -/
def LongOp.writes : LongOp → Bool
  | .amo _ _ _ _ _ _ => true
  | .cas _ _ _ _ _ _ => true
  | .route _ _ _ _ => true
  | .post (.fence _ _) => false
  | .post _ => true
  | _ => false

/-- An atomic write, to which the fence contributions of the thread go (R117). -/
def LongOp.atomWrites : LongOp → Bool
  | .amo _ _ _ _ _ _ => true
  | .cas _ _ _ _ _ _ => true
  | .post (.write _ _ (.atomic _ _) _) => true
  | .post (.own (.atomic _ _) _) => true
  | .post (.amo _ _ _ _ _ _) => true
  | .post (.key _ _ _ _ _ _ _ _) => true
  | .post (.taskDec _) => true
  | .post (.taskOwn _) => true
  | _ => false

/-- An atomic read, which a later FENCE with an acquire takes in (R117). -/
def LongOp.atomReads : LongOp → Bool
  | .ld _ _ _ (.atomic _ _) => true
  | .amo _ _ _ _ _ _ => true
  | .cas _ _ _ _ _ _ => true
  | .kget _ _ _ _ _ _ _ _ => true
  | .kprobe _ _ _ _ => true
  | .post (.amo _ _ _ _ _ _) => true
  | .post (.key _ _ _ _ _ _ _ _) => true
  | _ => false

/-- Its completion cannot raise: its result is known, waits for a claim, or its checks were made at issue (log 5). -/
def LongOp.quiet : LongOp → Bool
  | .oclaim _ _ _ _ => true
  | .known _ _ => true
  | .rdstate _ _ _ => true
  | .drain _ _ => true
  | .post op => match op with
    | .own _ _ | .amo _ _ _ _ _ _ | .emb _ _ _ _ _ | .taskOwn _ | .free _ _ | .listen _ _ | .close _ => false
    | _ => true
  | _ => false

/-- What an operation acts on beside words of memory: a key-table entry, an operand slot, an event bit, a handle. -/
inductive Unit1 where
  | entry (tree node : Nat) (key : Dword)
  | slot (n : Nat)
  | slots
  | event (cl bit : Nat)
  | handle (cl n : Nat)
  | port (n : Nat)
  deriving DecidableEq, Repr

/-- The unit that an operation acts on. -/
def LongOp.unit : LongOp → Option Unit1
  | .kget _ _ _ _ _ t n k => some (.entry t n k)
  | .kprobe _ t n k => some (.entry t n k)
  | .post (.key _ t n k _ _ _ _) => some (.entry t n k)
  | .ofill _ m _ _ _ => some (.slot m)
  | .ofillS _ m _ _ _ _ => some (.slot m)
  | .post (.event cl b _) => some (.event cl b)
  | .post (.free cl n) => some (.handle cl n)
  | .route _ n _ _ => some (.port n)
  | .post (.listen n _) => some (.port n)
  | .post (.close n) => some (.port n)
  | _ => none

/-- A synchronising operation (R117). -/
def LongOp.sync (op : LongOp) : Bool :=
  op.ord.isSome || op.rel || op.acq || (match op.unit with
    | some (.entry _ _ _) | some (.event _ _) | some (.handle _ _) => true
    | _ => false)

/-- Neither an access nor a synchronising operation, so that no release waits for it. -/
def LongOp.inert : LongOp → Bool
  | .oclaim _ _ _ _ => true
  | .known _ _ => true
  | .rdstate _ _ _ => true
  | .route _ _ _ _ => true
  | .post (.listen _ _) => true
  | .drain _ _ => true
  | _ => false

/-- EMBPOOL, whose rows are known only as its indices arrive: it is taken to touch every word (log 5). -/
def LongOp.anyRow : LongOp → Bool
  | .embpool _ _ _ _ _ _ _ _ _ => true
  | _ => false

/-- Two operations touch a common word (R119 first row), one key-table entry (R284), or one other unit; two fills from streams
take their elements in order. -/
def LongOp.meets (core : Nat) (a b : LongOp) : Bool :=
  (a.anyRow && (b.anyRow || !(b.ranges core).isEmpty)) || (b.anyRow && !(a.ranges core).isEmpty) ||
    (a.ranges core).any (fun x => (b.ranges core).any (fun y => shareWord x.1 x.2 y.1 y.2)) ||
    (a.unit.isSome && a.unit == b.unit) ||
    (match a, b with
     | .ofillS _ _ _ _ _ _, .ofillS _ _ _ _ _ _ => true
     | _, _ => false)

/-- Two operations of a thread act on a common thing: also a word that two pages give them (R119 first row). -/
def State.clash (s : State) (aid : Nat) (a b : LongOp) : Bool :=
  let core := (s.th aid).core
  a.meets core b || (a.ranges core).any (fun x => (b.ranges core).any (fun y => s.sameWord aid x y))

/-- The word at an address of a thread. -/
def State.wordAt (s : State) (aid va : Nat) : Option WordKey :=
  if apertureBase ≤ va then let (c, o) := windowOf (s.th aid).core (BitVec.ofNat 64 va); some (.sp c (o / 4))
  else (s.physOf aid va).map (fun p => .phys (p / 4))

/-- Some queue has a doorbell. -/
def State.anyBell (s : State) : Bool :=
  s.pqueue.any (fun e => e.2 != 0) || s.uq != 0 || s.clus.any (fun e => !e.2.qbinds.isEmpty)

/-- A store or an atomic of a thread writes a kick register: it is a release, whatever its order (R117). -/
def State.kicks (s : State) (aid : Nat) (op : LongOp) : Bool :=
  s.anyBell && op.writes && (op.ranges (s.th aid).core).any (fun r =>
    (List.range ((r.1 + r.2 + 3) / 4 - r.1 / 4)).any (fun i => ((s.wordAt aid (r.1 + 4 * i)).map s.isBell).getD false))

/-- The addresses of mailboxes that an engine may yet write for a launch: of its copies, and of its CANCEL (R205, R297). -/
def State.boxVas (s : State) (tag : BitVec 32) : List Nat :=
  s.clus.flatMap (fun e => e.2.copies.filterMap (fun c =>
    if c.2.tag = tag ∧ c.2.fin = false ∧ pktMailed c.2.pkt then some ((dwordAt c.2.pkt 4).toNat / 8 * 8) else none)) ++
    ((s.launch? tag).elim [] (fun l => l.cbox.map (fun x => x.1.toNat)))

/-- A load of a thread that is plain, of a word that is a mailbox: it acquires too (R117). -/
def State.boxLoad (s : State) (aid : Nat) (op : LongOp) : Bool :=
  match op with
  | .ld _ _ a _ =>
    let t := s.th aid
    let va := reportAddr t.core a.addr
    let vas := s.boxVas t.ltag
    vas.any (fun b => shareWord va.toNat a.n (reportAddr t.core (BitVec.ofNat 64 b)).toNat 8) ||
      (s.objs.any (fun e => match e.1 with
          | .box _ => true
          | _ => false) &&
        (List.range ((va.toNat + a.n + 3) / 4 - va.toNat / 4)).any (fun i =>
          ((s.wordAt aid (va.toNat + 4 * i)).map (fun w => !(s.contribs (.box w)).isEmpty)).getD false))
  | _ => false

/-- An acquire of a thread, or an operation with one. -/
def State.acqOp (s : State) (aid : Nat) (op : LongOp) : Bool :=
  op.acq || (match op with
    | .ld _ _ _ .plain | .ld _ _ _ .rp => s.boxLoad aid op
    | _ => false)

/-- Entries of a thread that stand before a place in issue order and have not been acknowledged. -/
def State.entsBefore (s : State) (aid q u : Nat) : List JEnt :=
  (s.core (s.th aid).core).entries.filter (fun e => e.aid == aid && ordBefore e.seq e.sub q u)

/-- Operations of the pending set that stand before a place in issue order. -/
def Thread.before (t : Thread) (q u : Nat) : List Outst := t.outst.filter (fun x => ordBefore x.seq x.sub q u)

/-- The last four rows of R119 for an operation at a place in issue order: no earlier acquire, `.seq` operation or read that can
raise is in its way, a release has everything before it performed and acknowledged, and a synchronising operation every element
pushed before it written (R102). A FENCE with a release
stands before later atomic writes, and one with an acquire after earlier atomic reads (log 5). -/
def State.ordered (s : State) (aid q u : Nat) (op : LongOp) : Bool :=
  let t := s.th aid
  let ents := s.entsBefore aid q u
  let rel := op.rel || s.kicks aid op
  let bars (x : LongOp) : Bool := s.acqOp aid x || (x.seqOp && op.seqOp) || (match x, op with
    | .post (.fence o _), y => ordRel o && y.atomWrites
    | x, .post (.fence o _) => ordAcq o && x.atomReads
    | _, _ => false)
  (t.before q u).all (fun x => !bars x.op && (!op.writes || x.op.quiet)) &&
    ents.all (fun e => !e.live || !bars (.post e.op)) &&
    (!(op.sync || rel) || (s.unwrOf aid).all (fun e => decide (q ≤ e.1))) &&
    (!rel || ((t.before q u).all (fun x => x.op.inert) && ents.isEmpty))

/-- No earlier operation or element of the thread that has not performed touches what one touches (R119 first row). -/
def State.wordsFree (s : State) (aid q u : Nat) (op : LongOp) : Bool :=
  let t := s.th aid
  (t.before q u).all (fun x => !s.clash aid x.op op) &&
    (s.entsBefore aid q u).all (fun e => !e.live || !s.clash aid (.post e.op) op) &&
    (s.unwrOf aid).all (fun e => decide (q ≤ e.1) ||
      (op.ranges t.core).all (fun r => !s.sameWord aid ((reportAddr t.core e.2.1).toNat, e.2.2) r))

/-- An operation without a result of the instruction at which its thread waits: it is part of an instruction that may still raise. -/
def State.held? (s : State) (aid q : Nat) (op : LongOp) : Bool :=
  (s.th aid).wait.isSome && q == (s.th aid).seq && (match op with
    | .post _ => true
    | _ => false)

/-- An operation at a place in issue order may perform (R119). PDRAIN of an output waits for the pushes before it. -/
def State.canGo (s : State) (aid q u : Nat) (op : LongOp) : Bool :=
  !s.held? aid q op && s.ordered aid q u op && s.wordsFree aid q u op && (match op with
    | .drain _ _ => ((s.th aid).before q u).all (fun x => match x.op with
      | .post (.push _ _ _) => false
      | _ => true)
    | _ => true)

/-- An instruction of the thread that performs at issue finds an acquire before it that has not performed (R119 second row). -/
def State.acqPending (s : State) (aid : Nat) : Bool :=
  (s.th aid).outst.any (fun x => s.acqOp aid x.op) || (s.entsBefore aid (s.th aid).seq 0).any (fun e => e.live && (LongOp.post e.op).acq)

/-! ### The return of a result (R52) -/

/-- Names written in a register file. -/
def Regs.put (r : Regs) : List (Nm × Vec) → Regs
  | [] => r
  | (.s n, v) :: l => Regs.put { r with s := vwr r.s n.toNat (v.setWidth 64) } l
  | (.v n, v) :: l => Regs.put { r with v := vwr r.v n.toNat v } l
  | (.p n, v) :: l => Regs.put { r with p := setPred r.p n (v.getLsbD 0) } l

/-- Bindings of a thread whose elements an operation takes when it performs (R254, R261). -/
def LongOp.takes : LongOp → List PName
  | .ofillS _ _ _ _ _ n => [n]
  | .embpool _ _ _ _ _ ix wt _ _ => [ix, wt]
  | _ => []

/-- The update of an EMBUPD in the own scratchpad. -/
def LongOp.isEmb : LongOp → Bool
  | .post (.emb _ _ _ _ _) => true
  | _ => false

/-- A result written to the thread, and to what a precise exception of a later operation would go back to: its registers, and the
places of the streams that it took elements from. The flags of an update of an EMBUPD that has not retired are staged (R82, R255). -/
def State.accept (s : State) (aid : Nat) (o : Outst) (x : LongVal) : State :=
  let put (fl : Flags) (r : Regs) : Regs := let r1 := r.put x.ws; { r1 with fstat := r1.fstat ||| fl }
  let now (b : Binding) : Binding := if o.op.takes.contains b.name then (s.bindOf aid b.name).getD b else b
  let emb := o.op.isEmb
  s.modTh aid (fun t =>
    let at_ := emb && (t.seq == o.seq || (t.pend.isSome && t.pc == o.pc))
    { t with
      regs := put (if at_ then 0 else x.fl) t.regs, parked := false
      stage := if at_ then t.stage ||| x.fl else t.stage
      outst := (t.outst.filter (fun y => decide (y.seq ≠ o.seq ∨ y.sub ≠ o.sub))).map (fun y =>
        if ordBefore o.seq o.sub y.seq y.sub then
          let part := emb && y.seq == o.seq
          { y with saved := { y.saved with
              regs := put (if part then 0 else x.fl) y.saved.regs, binds := y.saved.binds.map now
              stage := if part then y.saved.stage ||| x.fl else y.saved.stage } }
        else y) })

/-- An OFILL has read or popped some of its bytes: what is left of it, and the place of its stream for a precise exception of a later
operation to go back to (R261). -/
def State.fillOn (s : State) (aid : Nat) (o : Outst) (op : LongOp) : State :=
  let now (b : Binding) : Binding := if op.takes.contains b.name then (s.bindOf aid b.name).getD b else b
  s.modTh aid (fun t =>
    { t with outst := t.outst.map (fun y =>
        if y.seq = o.seq ∧ y.sub = o.sub then { y with op := op }
        else if ordBefore o.seq o.sub y.seq y.sub then { y with saved := { y.saved with binds := y.saved.binds.map now } }
        else y) })

/-- An outstanding operation performs, or takes its next part: the state with its result written. An OFILL from scratchpad reads a
word in each move, from the lowest address on, which no rule gives (DESIGN CHOICE, log 30), and writes the slot with the last (R261,
R315). -/
def State.longStep (s : State) (aid : Nat) (o : Outst) : Met Unit :=
  match o.op with
  | .ofill d slot off a got =>
    match s.readWord4 aid (a.addr + BitVec.ofNat 64 got.length) with
    | .exc e s1 => .exc e s1
    | .fault va r s1 => .fault va r s1
    | .wait => .wait
    | .ok bs s1 =>
      if a.n ≤ got.length + 4 then
        let core := (s.th aid).core
        let s2 := s1.record aid o.seq (.slot slot (vrd (s1.core core).opm slot))
        .ok () ((s2.putSlot core slot off (got ++ bs)).accept aid o ⟨[(.s d, BitVec.ofNat 1024 a.n)], 0⟩)
      else .ok () (s1.fillOn aid o (.ofill d slot off a (got ++ bs)))
  | .ofillS d slot off n left name =>
    match s.fillPop aid o.seq slot (off + (n - left)) name with
    | .ok _ s1 =>
      if left ≤ 128 then .ok () (s1.accept aid o ⟨[(.s d, BitVec.ofNat 1024 n)], 0⟩)
      else .ok () (s1.fillOn aid o (.ofillS d slot off n (left - 128) name))
    | r => r
  | op =>
    match s.longVal aid o.seq op with
    | .ok x s1 => .ok () (s1.accept aid o x)
    | .exc e s1 => .exc e s1
    | .fault va r s1 => .fault va r s1
    | .wait => .wait

/-- Flags of an entry that was acknowledged, committed to the thread, and to what a precise exception of an outstanding
operation would go back to (R45, R82). -/
def Thread.commitFlags (t : Thread) (f : Flags) : Thread :=
  let keep (v : Saved) : Saved := { v with regs := { v.regs with fstat := v.regs.fstat ||| f } }
  { t.orFlags f with
    outst := t.outst.map (fun y => { y with saved := keep y.saved })
    wait := t.wait.map (fun w => { w with saved := w.saved.map keep }) }

/-- An operation of the pending set is one without a result. -/
def LongOp.isPost : LongOp → Bool
  | .post _ => true
  | _ => false

/-- The first of the operations without a result that the instruction at place `q` in issue order has issued. -/
def Thread.nextPost (t : Thread) (q : Nat) : Option Outst :=
  (sortBy (fun o => o.sub) (t.outst.filter (fun o => o.seq == q && o.op.isPost))).head?

/-- The operations without a result that the instruction at place `q` has just issued perform at once, in their order, as far as
R119 lets them; the others stay in the pending set. An exception of one is the instruction's own. -/
def State.runPosts (s : State) (aid q : Nat) : Nat → Except Exc State
  | 0 => .ok s
  | n + 1 =>
    match (s.th aid).nextPost q with
    | none => .ok s
    | some o =>
      if s.canGo aid o.seq o.sub o.op = false then .ok s
      else
        match s.longVal aid o.seq o.op with
        | .ok x s1 => State.runPosts (s1.accept aid o x) aid q n
        | .exc e _ => .error e
        | _ => .ok s

/-! ### What may wait for ever (R101, R205, R256, R259) -/

/-- An operation waits for what another thread is to do, or for elements of a stream that has none: a cancelled thread does not wait for
it. -/
def State.idle (s : State) (aid : Nat) (op : LongOp) : Bool :=
  match op with
  | .oclaim _ _ _ got => got.isNone
  | .drain _ _ => true
  | .ofillS _ _ _ _ _ n => s.left aid n == 0
  | .embpool _ _ _ _ _ ix wt _ _ => decide (s.left aid wt < s.left aid ix)
  | .post (.task _) => true
  | _ => false

/-- All that a thread has issued and that has not performed waits for ever, itself or behind what does. -/
def State.stuck (s : State) (aid : Nat) : Bool :=
  let t := s.th aid
  s.journalClear aid && t.outst.all (fun o => o.fault.isNone &&
    (s.idle aid o.op || (!s.canGo aid o.seq o.sub o.op && (t.before o.seq o.sub).any (fun x => s.idle aid x.op))))

end Sys2Proof.Machine
end

