-- ==== Sys2Proof/Machine/Operands.lean ====
section
/-!
DEFINITION. The course of one instruction: the checks of R151 in their order, the pops and pushes of bound names (R40), the
operand forms (R31, R32, R141), the completion at the next instruction, and what an exception, a wait and a stall do.
-/

namespace Sys2Proof.Machine

/-! ### What an instruction's fields name -/

/-- The names and class of an instruction. `rd` are the source fields in the order in which bound ones pop (R40); `own` are names that the
instruction's own entry treats when bound, `aff` those of them that must be affine inputs, `peek` sources that it reads itself, and `nob`
names that may not be bound. `blk` marks a blocking instruction (R188). `first` marks instructions that act as a switch marker before they
execute; `mem` marks those that are or may order memory accesses, and `sync` those that synchronise at issue beside the marker-first ones of
them. -/
structure Op where
  h : Hdr
  len : Nat := 8
  rd : List Nm := []
  wr : List Nm := []
  own : List Nm := []
  aff : List Nm := []
  peek : List Nm := []
  nob : List Nm := []
  masks : List MReg := []
  priv : Bool := false
  heavy : Bool := false
  light : Bool := false
  noHandler : Bool := false
  long : Bool := false
  blk : Bool := false
  first : Bool := false
  mem : Bool := false
  sync : Bool := false

/-- Value of a source field: a scalar register zero-extended, or a vector register. -/
abbrev Src := Vec

/-- What a meaning works with: the state `s0` before its pops and the state `s` after them, whose thread still stands at the
instruction, what a precise exception of an operation that it issues goes back to, and its sources in the order of `Op.rd`. -/
structure Cx where
  s0    : State
  s     : State
  core  : Nat
  slot  : Nat
  aid   : Nat
  pc    : Dword
  npc   : Dword
  vals  : List Src
  saved : Saved

/-- The thread. -/
def Cx.t (c : Cx) : Thread := c.s.th c.aid
/-- Scalar source `i`. -/
def Cx.x (c : Cx) (i : Nat) : Dword := (c.vals.getD i 0).setWidth 64
/-- Vector source `i`. -/
def Cx.v (c : Cx) (i : Nat) : Vec := c.vals.getD i 0
/-- The agent. -/
def Cx.ag (c : Cx) : Agent := .thread c.aid
/-- The thread is a supervisor slot. -/
def Cx.super (c : Cx) : Bool := c.t.kind == .super
/-- The core on which the thread executes (R12). -/
def Cx.num (c : Cx) : Nat := c.s.place c.t
/-- The cluster whose event unit and buffer table the core uses (R338). -/
def Cx.clu (c : Cx) : Nat := clusterOf c.core

/-- How an instruction ends. -/
inductive R where
  /-- It completes, and the thread goes on at the next instruction. -/
  | ok (s : State)
  /-- It completes, and the thread goes on at a target. -/
  | jump (s : State) (pc : Dword)
  /-- It completes with its thread's place already set: ended, out of its slot, or waiting. -/
  | raw (s : State)
  /-- A precise exception: no effect remains (R34). -/
  | exc (e : Exc)
  /-- A precise exception after effects that are kept (R214, R390). -/
  | excKeep (s : State) (e : Exc)
  /-- It cannot proceed yet: its thread stays at it, and nothing of it remains (R40). `block` marks a wait that a cancellation
  ends: at a port or for a journal entry (R101, R205). -/
  | stall (block : Bool)
  /-- It waits for a free record of a queue of its core (R358). -/
  | full (q : Nat)
  /-- Its access waits at a page fault (R375); the instruction is then carried out anew. -/
  | fault (va : Dword) (reason : Nat) (s : State)

/-! ### Outstanding names (R52) -/

/-- Names that issued long-class instructions have yet to write. -/
def Thread.outNames (t : Thread) : List Nm := t.outst.flatMap (·.names)

/-- A name is outstanding. -/
def Thread.isOut (t : Thread) (n : Nm) : Bool := t.outNames.contains n

/-! ### Light threads (R21) -/

/-- A light thread may name a register (R20, R21). -/
def Nm.lightOk : Nm → Bool
  | .s n => decide (n.toNat < 10)
  | .v n => decide (n.toNat < 8)
  | .p _ => true

/-! ### The checks (R151) -/

/-- Guard (R30, R139): the predicate, inverted by N. -/
def Thread.guardHolds (t : Thread) (h : Hdr) : Bool := t.rP h.grd != h.neg

/-- Every name of an instruction but its guard. -/
def Op.names (o : Op) : List Nm := o.rd ++ o.wr ++ o.own ++ o.peek ++ o.nob

/-- A name of a thread is bound to an affine input (R97). -/
def State.affineIn (s : State) (aid : Nat) (n : Nm) : Bool :=
  match s.boundTo aid n with
  | some b => !b.out && (match b.port with
    | .affine _ => true
    | _ => false)
  | none => false

/-- Checks 6 to 8 of R151, and handler-block (R204). -/
def State.opExc (s : State) (aid slot : Nat) (o : Op) : Option Exc :=
  let t := s.th aid
  if o.priv && t.kind != .super then some { cause := 4 }
  else if t.kind = .light && (o.heavy || !(o.names.all Nm.lightOk) || o.masks.any (fun m => m != 0)) then some { cause := 6 }
  else if t.kind != .light && o.light then some { cause := 7 }
  else if slot = 14 && t.kind != .super && o.noHandler then some { cause := 29 }
  else if (o.rd ++ o.peek).any (fun n => match s.boundTo aid n with
      | some b => b.out
      | none => false) then some { cause := 8 }
  else if o.wr.any (fun n => match s.boundTo aid n with
      | some b => !b.out || o.long
      | none => false) then some { cause := 8 }
  else if o.nob.any (fun n => (s.boundTo aid n).isSome) then some { cause := 8 }
  else if o.aff.any (fun n => !s.affineIn aid n) then some { cause := 8 }
  else if o.names.any t.isOut then some { cause := 5 }
  else none

/-! ### Sources -/

/-- Value of a register name (R36); a predicate has no value here. -/
def Thread.src (t : Thread) : Nm → Src
  | .s n => (t.rS n).setWidth 1024
  | .v n => t.rV n
  | .p _ => 0

/-- What reading the sources meets: `us` puts back what was popped, newest first. -/
inductive Srcs where
  | got (vs : List Src) (us : List Undo) (s : State)
  | empty
  | exc (e : Exc) (s : State)
  | fault (va : Dword) (reason : Nat) (s : State)

/-- The sources read in order; bound ones pop (R40). -/
def State.sources (s : State) (aid : Nat) : List Nm → Srcs
  | [] => .got [] [] s
  | n :: ns =>
    match s.boundTo aid n with
    | none =>
      match State.sources s aid ns with
      | .got vs us s1 => .got ((s.th aid).src n :: vs) us s1
      | r => r
    | some b =>
      match s.pop b (s.th aid).seq with
      | .empty => .empty
      | .exc e s1 => .exc e s1
      | .fault a r s1 => .fault a r s1
      | .got v s1 =>
        match State.sources s1 aid ns with
        | .got vs us s2 => .got (v :: vs) (us ++ s.popUndo b) s2
        | r => r

/-- Every output-bound destination has room (R40). -/
def State.roomFor (s : State) (aid : Nat) (ns : List Nm) : Bool :=
  ns.all (fun n => match s.boundTo aid n with
    | some b => s.portRoom b
    | none => true)

/-- The page fault that a push of a destination meets (R103). -/
def State.pushFaults (s : State) (aid : Nat) (ns : List Nm) : Option (Dword × Nat) :=
  ns.findSome? (fun n => (s.boundTo aid n).bind s.pushFault)

/-- Sources of an instruction that pop when bound: those that are read before its effect, and those that it reads itself. -/
def Op.srcs (o : Op) : List Nm := o.rd ++ o.peek

/-- A source is popped (R40). -/
def State.pops (s : State) (aid : Nat) (o : Op) : Bool := o.srcs.any (fun n => (s.boundTo aid n).isSome)

/-- A source is popped from a link, a queue or a network port, which synchronises (R107). -/
def State.popSync (s : State) (aid : Nat) (o : Op) : Bool := o.srcs.any (fun n => (s.boundTo aid n).isSome && !s.affineIn aid n)

/-- An input port has nothing to pop. -/
def State.dry (s : State) (b : Binding) : Bool :=
  let k := s.core (s.th b.aid).core
  match b.port with
  | .affine st => decide (st.total ≤ st.taken)
  | .link east => (k.linkIn east).isEmpty
  | .queue n => (vrd k.sq n).isEmpty
  | .net n => match (vrd k.net n).q with
    | e :: _ => e.close
    | [] => true

/-- The stream unit has read every element that some sources will pop, in their order, for the instruction that pops them (R102); each
may be named again (R40). What it read stays read ahead, whatever becomes of the instruction. A port with nothing to pop stands in the
way of what comes after it. -/
def State.prefetch (s : State) (aid : Nat) (past : List Nm) : List Nm → Met Unit
  | [] => .ok () s
  | n :: ns =>
    match n.pname, s.boundTo aid n with
    | some p, some b =>
      if b.out then State.prefetch s aid (n :: past) ns
      else if s.dry b then .wait
      else
        let k := b.popLen * (1 + past.count n)
        match s.fillAhead aid p k k with
        | .ok _ s1 => State.prefetch s1 aid (n :: past) ns
        | r => r
    | _, _ => State.prefetch s aid (n :: past) ns

/-- A bound name of an instruction belongs to an issued EMBPOOL or OFILL.s that has not taken its elements (R254, R261). -/
def State.taken (s : State) (aid : Nat) (o : Op) : Bool :=
  o.names.any (fun n => match n.pname with
    | some p => (s.th aid).outst.any (fun x => x.op.takes.contains p)
    | none => false)

/-- An instruction waits before its sources are read (R14, R102, R119): for elements of a stream that an earlier one is to take, for
an acquire before what performs at issue, or for output elements before a synchronising operation. -/
def State.mustWait (s : State) (aid : Nat) (o : Op) : Bool :=
  let now := o.sync || (o.first && o.mem) || s.popSync aid o
  s.taken aid o || ((now || s.pops aid o) && s.acqPending aid) || (now && !s.allWritten aid)

/-! ### Completion -/

/-- The thread has completed an instruction and stands at `pc`; an instruction that carries the marker is passed (R14). -/
def State.finish (s : State) (aid : Nat) (pc : Dword) (sw : Bool) : State :=
  s.modTh aid (fun t => { t with pc := pc, seq := t.seq + 1, marked := sw, parked := false, entering := false })

/-- The thread stays at its instruction until something else has moved. A cancelled thread ends, as by EXIT, at a wait that could last
for ever, once all that it issued has performed but what waits for ever as well (R101, R205, R256, R259). -/
def State.park (s : State) (aid : Nat) (block : Bool) : State :=
  if block && (s.th aid).ending && s.stuck aid then s.endThread aid true
  else s.modTh aid (fun t => { t with parked := true })

/-- The thread waits for an object, and its instruction is then carried out anew (R188, R190, R214); a light thread leaves its slot as
Blocked. -/
def State.waitAnew (s : State) (aid : Nat) (o : WaitObj) : State :=
  let (n, s1) := s.takeOrder
  let s2 := s1.modTh aid (fun t => { t with wait := some ⟨o, n, t.pc, none, none⟩, parked := false })
  if (s.th aid).kind = .light then s2.leaveSlot aid .blocked else s2

/-- An instruction has completed with operations to perform: they do, as far as they may, and the thread goes on; an exception of
one leaves nothing of the instruction (R34). -/
def State.complete (s s0 : State) (aid : Nat) (npc pc : Dword) (sw : Bool) : State :=
  match s.runPosts aid (s0.th aid).seq 64 with
  | .ok s1 => s1.finish aid pc sw
  | .error e => s0.raise aid e npc

/-- What follows from how an instruction ends; `s0` is the state before it. -/
def R.close (r : R) (s0 : State) (aid : Nat) (npc : Dword) (sw : Bool) : State :=
  match r with
  | .ok s => s.complete s0 aid npc npc sw
  | .jump s pc => s.complete s0 aid npc pc sw
  | .raw s => s
  | .exc e => s0.raise aid e npc
  | .excKeep s e => s.raise aid e npc
  | .stall b => s0.park aid b
  | .full q => (s0.ringWait (s0.th aid).core q).park aid true
  | .fault va r s => (s0.keepWalk s (s0.port (s0.th aid))).waitFault aid va r npc

/-! ### The course of an instruction -/

/-- The instruction after its checks: its waits, its sources, and its own effect. -/
def runBody (o : Op) (body : Cx → R) (s : State) (core slot aid : Nat) : State :=
  let t := s.th aid
  let npc := t.pc + BitVec.ofNat 64 o.len
  if s.mustWait aid o then
    (if o.blk && t.kind == .light then s.waitAnew aid (.clear 0 0) else s.park aid (!t.outst.isEmpty))
  else if s.roomFor aid o.wr = false then s.park aid true
  else
    match s.pushFaults aid o.wr with
    | some (va, r) => s.waitFault aid va r npc
    | none =>
      match s.prefetch aid [] o.srcs with
      | .exc e s1 => s1.raise aid e npc
      | .fault va r s1 => s1.waitFault aid va r npc
      | .wait => s.park aid true
      | .ok _ s1 =>
        match s1.sources aid o.rd with
        | .empty => s1.park aid true
        | .exc e _ => s1.raise aid e npc
        | .fault va r _ => s1.waitFault aid va r npc
        | .got vs us s2 => (body ⟨s1, s2, core, slot, aid, t.pc, npc, vs, { s1.save aid with undo := us }⟩).close s1 aid npc o.h.sw

/-- One instruction of the thread in a slot (R151): steps 4 to 9. -/
def runAt (o : Op) (body : Cx → R) (s : State) (core slot aid : Nat) : State :=
  let t := s.th aid
  let npc := t.pc + BitVec.ofNat 64 o.len
  if o.first && !t.outst.isEmpty then s.park aid true
  else if t.isOut (.p o.h.grd) then s.raise aid { cause := 5 } npc
  else if t.guardHolds o.h = false then s.finish aid npc o.h.sw
  else
    match s.opExc aid slot o with
    | some e => s.raise aid e npc
    | none => runBody o body s core slot aid

/-- One instruction of the current slot; an empty slot issues nothing. -/
def runS (o : Op) (body : Cx → R) (s : State) : Host.Outcome State Fault Refusal :=
  match s.occ s.cur.1 s.cur.2 with
  | some aid => .next (runAt o body s s.cur.1 s.cur.2 aid)
  | none => .next s

/-! ### Results -/

/-- A result to a scalar destination: the register, or one push (R40). -/
def State.wrS (s : State) (aid : Nat) (d : SReg) (x : Dword) : State :=
  match s.boundTo aid (.s d) with
  | some b => s.push b (x.setWidth 1024)
  | none => s.modTh aid (fun t => t.wS d x)

/-- A result to a vector destination: the register, or one push, after which the next free value is another. -/
def State.wrV (s : State) (aid : Nat) (d : VReg) (x : Vec) : State :=
  match s.boundTo aid (.v d) with
  | some b => { s.push b x with free := s.free + 1 }
  | none => s.modTh aid (fun t => t.wV d x)

/-- The old value of a vector destination, for masked elements (R38). A bound name holds no value: it is free (log 19). -/
def Cx.oldV (c : Cx) (d : VReg) : Vec :=
  match c.s.boundTo c.aid (.v d) with
  | some _ => Config.freeVec c.s.free
  | none => c.t.rV d

/-- A result to a scalar destination. -/
def Cx.setS (c : Cx) (d : SReg) (x : Dword) : State := c.s.wrS c.aid d x
/-- A result to a vector destination. -/
def Cx.setV (c : Cx) (d : VReg) (x : Vec) : State := c.s.wrV c.aid d x

/-! ### Operand forms -/

/-- Names of an optional scalar register. -/
def optS : Option SReg → List Nm
  | some r => [.s r]
  | none => []

/-- Source names of a memory operand: base term, then index term (R32). -/
def memNames (m : MemOp) : List Nm := optS m.a ++ optS m.b

/-- Length of an instruction with a memory operand (R141). -/
def memLen (m : MemOp) : Nat := if m.imm.isSome then 12 else 8

/-- Sum of the register terms and the displacement of a memory operand, the operand's sources from position `i` on
(R32): sA + (sB << k) + sext(imm). -/
def Cx.term (c : Cx) (m : MemOp) (i : Nat) : Dword :=
  let a := if m.a.isSome then c.x i else 0
  let b := if m.b.isSome then c.x (i + m.a.isSome.toNat) <<< m.k.toNat else 0
  let d := match m.imm with
    | some x => x.signExtend 64
    | none => 0
  a + b + d

/-- ea(g, A, B, k, IMM) (R32): base of the segment plus the terms. -/
def Cx.ea (c : Cx) (m : MemOp) (i : Nat) : Dword := (c.s.seg c.t m.seg).base + c.term m i

/-- Sources of a run of four registers from C (R185). -/
def quad (r : SReg) : List Nm := [.s r, .s (r + 1), .s (r + 2), .s (r + 3)]

/-! ### Posting, and what an instruction waits for before it performs -/

/-- An entry or an operation of the thread that has not performed touches a word of `n` bytes at an address (R119 first
row). -/
def State.wordBusy (s : State) (aid : Nat) (va : Dword) (n : Nat) : Bool :=
  let t := s.th aid
  let q : Nat × Nat := ((reportAddr t.core va).toNat, n)
  t.outst.any (fun x => x.op.anyRow || (x.op.ranges t.core).any (fun r => s.sameWord aid r q)) ||
    (s.core t.core).entries.any (fun e => e.aid == aid && e.live && (e.ranges t.core).any (fun r => s.sameWord aid r q))

/-- An entry of the thread has not performed. -/
def State.unperformed (s : State) (aid : Nat) : Bool := (s.core (s.th aid).core).entries.any (fun e => e.aid == aid && e.live)

/-- A release, or a synchronising operation with one, may perform now: every earlier access has performed, every earlier entry
has been acknowledged, and every element is written (R102, R119). -/
def Cx.relReady (c : Cx) : Bool :=
  c.t.outst.all (fun x => x.op.inert) && c.s.journalClear c.aid && c.s.allWritten c.aid

/-- An operation without a result is issued (R112): it performs at once, or when R119 lets it. -/
def Cx.send (c : Cx) (s : State) (op : JOp) : State := s.postOp c.aid c.npc c.saved op

/-- Entries posted by the instruction, in the order of its accesses; with too few free ones the thread parks (R121,
R223). -/
def Cx.post (c : Cx) (s : State) (ops : List JOp) : R :=
  if s.journalFree c.core < ops.length then .stall true
  else
    let u := s.nextSub c.aid
    .ok (s.postEnts c.core ((List.range ops.length).zip ops |>.map
      (fun e => ⟨c.num, c.aid, c.t.seq, u + e.1, c.pc, e.2, .waiting, none⟩)))

/-- The instruction waits until every entry of its thread is acknowledged, and is then carried out anew (R188, R190, R214). -/
def Cx.blockAcks (c : Cx) : R := .raw (c.s0.waitAnew c.aid .acks)

/-- A blocking instruction cannot make its access yet: a heavy thread stays at it, and a light one leaves its slot as Blocked (R188).
`absent` marks an access to an absent context, which may last for ever. -/
def Cx.hold (c : Cx) (va : Dword) (n : Nat) (absent : Bool) : R :=
  if c.t.kind = .light then .raw (c.s0.waitAnew c.aid (.clear va n)) else .stall absent

/-- The instruction waits for an object (R188, R195): it completes at once when its condition holds, else it waits; a
light thread leaves its slot as Blocked. `done` completes it with the value returned. -/
def Cx.block (c : Cx) (obj : WaitObj) (done : Dword → State → State) : R :=
  let w : Wait := ⟨obj, c.s.order, c.npc, none, if c.t.kind = .light then none else some c.saved⟩
  let s0 := { c.s with order := c.s.order + 1 }
  match s0.waitReady c.aid w with
  | some (v, s1) =>
    match (s1.th c.aid).pend with
    | some e => .exc e
    | none => .ok (done v s1)
  | none =>
    let s1 := s0.modTh c.aid (fun t => { t with wait := some w, marked := true, parked := false })
    .raw (if c.t.kind = .light then s1.leaveSlot c.aid .blocked else s1)

end Sys2Proof.Machine
end

