-- ==== Sys2Proof/Machine/Control.lean ====
section
/-!
DEFINITION. Control flow, tasks, messages, events and exceptions: the meanings of opcodes 0x01 to 0x18 (R152, R185 to R216).
-/

namespace Sys2Proof.Machine

/-! ### NOP and transfers of control (R152, R186, R187) -/

/-- NOP has no effect (R152). -/
def nopBody (c : Cx) : R := .ok c.s

/-- NOP (R152): only its switch marker acts. -/
def execNop (h : Hdr) : State → Host.Outcome State Fault Refusal := runS { h := h } nopBody
/-- NOP of 96 bits (R152). -/
def execNop96 (h : Hdr) : State → Host.Outcome State Fault Refusal := runS { h := h, len := 12 } nopBody
/-- NOP of 128 bits (R152). -/
def execNop128 (h : Hdr) : State → Host.Outcome State Fault Refusal := runS { h := h, len := 16 } nopBody

/-- Target of a relative branch: pc + sext(OFF34, 34) × 4 (R186). -/
def relTarget (pc : Dword) (off : BitVec 34) : Dword := pc + off.signExtend 64 * 4

/-- A transfer to a register's address, which must be aligned to 4 (R187). -/
def Cx.jumpTo (_ : Cx) (s : State) (t : Dword) : R :=
  if t.toNat % 4 ≠ 0 then .exc { cause := 12, addr := t } else .jump s t

/-- BR (R186). -/
def execBr (h : Hdr) (off : BitVec 34) : State → Host.Outcome State Fault Refusal :=
  runS { h := h } (fun c => .jump c.s (relTarget c.pc off))

/-- BRR (R186, R187). -/
def execBrr (h : Hdr) (a : SReg) : State → Host.Outcome State Fault Refusal :=
  runS { h := h, rd := [.s a] } (fun c => c.jumpTo c.s (c.x 0))

/-- CALL (R186): the link is pc + 8. -/
def execCall (h : Hdr) (d : SReg) (off : BitVec 34) : State → Host.Outcome State Fault Refusal :=
  runS { h := h, wr := [.s d] } (fun c => .jump (c.setS d (c.pc + 8)) (relTarget c.pc off))

/-- CALLR (R186, R187): the target is read before the link is written. -/
def execCallr (h : Hdr) (d a : SReg) : State → Host.Outcome State Fault Refusal :=
  runS { h := h, rd := [.s a], wr := [.s d] } (fun c => c.jumpTo (c.setS d (c.pc + 8)) (c.x 0))

/-- RET (R186, R187). -/
def execRet (h : Hdr) (a : SReg) : State → Host.Outcome State Fault Refusal :=
  runS { h := h, rd := [.s a] } (fun c => c.jumpTo c.s (c.x 0))

/-- LOOP (R186): the counter is decremented, and the branch is taken when it is not zero. -/
def execLoop (h : Hdr) (a : SReg) (off : BitVec 34) : State → Host.Outcome State Fault Refusal :=
  runS { h := h, rd := [.s a], wr := [.s a] } (fun c =>
    let n := c.x 0 - 1
    if n ≠ 0 then .jump (c.setS a n) (relTarget c.pc off) else .ok (c.setS a n))

/-! ### Counters (R189 to R191, R196) -/

/-- The address checks of a join counter or mailbox, up to where it lies (R189): alignment to 8, segment 0 with W, the
kind of target, R93. -/
def Cx.counter (c : Cx) (va : Dword) (nd : Need) : Met Place :=
  match c.s.chkSeg c.t 0 va 8 8 false true with
  | some e => .exc e c.s
  | none => c.s.placeFor c.aid va 8 nd true

/-- How an instruction ends where an access of its own is refused or waits, `w` what it does where its target is absent; `ok` goes on. -/
def Met.bindOr {α : Type} (m : Met α) (w : R) (f : α → State → R) : R :=
  match m with
  | .ok x s => f x s
  | .exc e _ => .exc e
  | .fault va r s => .fault va r s
  | .wait => w

/-- How an instruction ends where an access of its own is refused or waits in its slot; `ok` goes on. -/
def Met.bind {α : Type} (m : Met α) (f : α → State → R) : R := m.bindOr (.stall true) f

/-- A conflict found at issue: the precise memory-model exception (R124), logged as a refused access. -/
def Cx.conflict (c : Cx) (va : Dword) (p : Place) (x : WordKey × Stamp) : R := .exc (conflictExc c.core va p x)

/-- CALLAT (R200, R201, R203): a task on core S[B] with a reply cell in the issuer's own scratchpad. -/
def execCallat (h : Hdr) (d a b cc : SReg) (nr : Bool) : State → Host.Outcome State Fault Refusal :=
  runS { h := h, len := 16, rd := [.s a, .s b] ++ quad cc ++ (if nr then [] else [.s d]), mem := true } (fun c =>
    let t := c.t
    let entry := c.x 0
    let dst := (c.x 1).toNat
    let cell := c.x 6
    if entry.toNat % 4 ≠ 0 then .exc { cause := 12, addr := entry }
    else if c.s.inPanel t.ltag dst = false then .exc { cause := 31 }
    else if !nr && cell.toNat % 16 ≠ 0 then .exc { cause := 12, addr := reportAddr c.core cell }
    else if !nr && !(c.s.isOwn t cell && c.s.ownOk t cell 16) then .exc { cause := 13, addr := reportAddr c.core cell }
    else
      let task : Task :=
        { entry := entry, args := [c.x 2, c.x 3, c.x 4, c.x 5], s4 := if nr then 0 else reportAddr c.core cell
          waitM := 0, setM := 0, seed := t.regs.seed, rm := t.regs.rm, count := 0, index := 0, num := 0, ready := none, ltag := t.ltag
          sender := BitVec.ofNat 32 (c.s.tid t), rel := [] }
      let g := (windowOf c.core cell).2 / 16
      if nr then .ok (c.send c.s (.send dst (.task task) none))
      else
        let s1 := if c.s.isFull c.core g then (c.s.record c.aid t.seq (.full g)).setFull c.core g false else c.s
        let v := if c.s.isFull c.core g then { c.saved with undo := Undo.full g :: c.saved.undo } else c.saved
        .ok (s1.postOp c.aid c.npc v (.send dst (.task task) (if c.s.wordBusy c.aid cell 16 then some g else none))))

/-! ### SPAWN, JOIN, EXIT, YIELD (R189 to R193) -/

/-- The registers of a child or continuation (R189): s0 to s9, the predicate word, RM and SEED of the issuer, flags and
segment-set index zero. -/
def forkRegs (r : Regs) : Regs :=
  { Regs.zero with
    s := Vector.ofFn (fun i => if i.val < 10 then vrd r.s i.val else 0), p := r.p, rm := r.rm, seed := r.seed }

/-- The new light child of a SPAWN: its status is 0, and it acquires the release of its parent when it starts. -/
def childOf (t : Thread) (core slot : Nat) (pc : Dword) (d : SReg) (ks : List Contrib) : Thread :=
  { Thread.fresh .light core slot pc with
    regs := forkRegs t.regs, ltag := t.ltag, acq := ks } |>.wS d 0

/-- SPAWN by a heavy thread or a handler: the child goes to the deque, and the issuer goes on with status 1. -/
def spawnHeavy (c : Cx) (s : State) (d : SReg) (pc : Dword) : Except State R :=
  let (ks, s1) := s.syncSend c.ag
  let (a, s2) := s1.newThread (childOf c.t c.core 0 pc d ks)
  match s2.pushDeque c.core a with
  | .error s3 => .error s3
  | .ok s3 => .ok (.ok (s3.wrS c.aid d 1))

/-- SPAWN by a light thread: the child takes the slot with its v0 to v7, and the continuation, which is the parent, goes
to the deque with status 1. -/
def spawnLight (c : Cx) (s : State) (d : SReg) (pc : Dword) (sw : Bool) : Except State R :=
  let t := c.t
  let (ks, s1) := s.syncSend c.ag
  let child := childOf t c.core c.slot pc d ks
  let (a, s2) := s1.newThread { child with regs := { child.regs with v := t.regs.v }, marked := sw }
  let s3 := (s2.leaveSlot c.aid .deque).modTh c.aid (fun t => { (t.wS d 1) with pc := c.npc, seq := t.seq + 1, entering := false })
  match s3.pushDeque c.core c.aid with
  | .error s4 => .error s4
  | .ok s4 =>
    let s5 := (s4.setSlot c.core c.slot (some a) .running).syncFrom (.thread a) ks
    .ok (.raw (s5.modTh a (fun t => { t with acq := [] })))

/-- SPAWN (R189, R205). -/
def execSpawn (h : Hdr) (d a : SReg) (off : BitVec 34) : State → Host.Outcome State Fault Refusal :=
  runS { h := h, rd := [.s a], wr := [.s d], first := true, mem := true } (fun c =>
    let va := c.x 0
    if (c.s.core c.core).seen && c.t.kind != .super then .ok (c.setS d (BitVec.allOnes 64))
    else if c.relReady = false then .stall false
    else
      (c.counter va .both).bind (fun p s1 =>
        match s1.atomUpdate c.aid false false .pkg p 8 (fun v => some (v + 1)) with
        | .error x => c.conflict va p x
        | .ok (_, s2) =>
          let r := if c.t.kind = .light then spawnLight c s2 d (relTarget c.pc off) h.sw
                   else spawnHeavy c s2 d (relTarget c.pc off)
          match r with
          | .ok x => x
          | .error _ => .full 1))

/-- JOIN (R191): waits until the counter reads zero; an acquire. -/
def execJoin (h : Hdr) (a : SReg) : State → Host.Outcome State Fault Refusal :=
  runS { h := h, rd := [.s a], noHandler := true, blk := true, first := true, mem := true } (fun c =>
    let va := c.x 0
    if c.s.wordBusy c.aid va 8 then c.hold va 8 false
    else (c.counter va .read).bindOr (c.hold va 8 true) (fun p s1 => ({ c with s := s1 } : Cx).block (.join p va) (fun _ s => s)))

/-- The reply cell of EXIT.rep (R201): the core and offset of a granule-aligned global aperture address of a core of the
launch. -/
def Cx.replyCell (c : Cx) (va : Dword) : Option (Nat × Nat) :=
  let (k, o) := windowOf c.core va
  if inWindow va ∧ va.toNat < aliasBase ∧ va.toNat % 16 = 0 ∧ c.s.spOk false c.t.ltag k o 16 = true then some (k, o) else none

/-- The end of a thread by EXIT, after its reply (R190, R201). -/
def State.exitThread (s : State) (aid : Nat) (reply : Option (Nat × Nat × Dword)) : State :=
  let t := s.th aid
  let s1 := match reply with
    | some (k, o, x) =>
      let (ks, s1) := s.syncSend (.thread aid)
      s1.sendMsg t.core aid t.ltag k (.reply o x ks aid (s.region (.thread aid)))
    | none => s
  s1.endThread aid true

/-- The state in which the pushes of the forwarding pops of EXIT have been made (R105): nothing of the thread is outstanding then. -/
def Cx.left (c : Cx) : State :=
  match c.s.runPosts c.aid c.t.seq 64 with
  | .ok s => s
  | .error _ => c.s

/-- The effect of EXIT before the thread ends (R190, R196): the counter's subtract, at once in the issuer's own
scratchpad, else posted and awaited. A light thread waits as Blocked (R188). -/
def exitBody (c : Cx) (ctr : Option Dword) (reply : Option (Nat × Nat × Dword)) : R :=
  if c.t.traps ≠ [] then .stall false
  else if c.s.journalClear c.aid = false then c.blockAcks
  else
    match ctr with
    | none => .raw (c.left.exitThread c.aid reply)
    | some va =>
      match c.s.chkSeg c.t 0 va 8 8 false true with
      | some e => .exc e
      | none =>
        if c.s.isOwn c.t va then
          match c.s.chkSp c.t va 8 with
          | some e => .exc e
          | none =>
            (c.s.placeFor c.aid va 8 .both true).bind (fun p s1 =>
              if s1.val p 8 = 0 then .exc { cause := 25 }
              else
                match s1.atomUpdate c.aid true false .pkg p 8 (fun v => some (v - 1)) with
                | .error x => c.conflict va p x
                | .ok (_, s2) => .raw (({ c with s := s2 } : Cx).left.exitThread c.aid reply))
        else
          match c.post c.s [.dec va] with
          | .ok s1 =>
            let s2 := s1.modTh c.aid (fun t =>
              { t with wait := some ⟨.exiting reply, 0, c.npc, none, none⟩, seq := t.seq + 1, parked := false, pnpc := c.npc })
            .raw (if c.t.kind = .light then s2.leaveSlot c.aid .blocked else s2)
          | r => r

/-- EXIT and `exit sA` (R190). -/
def execExit (h : Hdr) (a : Option SReg) : State → Host.Outcome State Fault Refusal :=
  runS { h := h, rd := optS a, blk := true, first := true, mem := true } (fun c => exitBody c (a.map (fun _ => c.x 0)) none)

/-- `exit.rep` with or without a counter (R190, R201). -/
def execExitRep (h : Hdr) (a : Option SReg) (b cc : SReg) : State → Host.Outcome State Fault Refusal :=
  runS { h := h, rd := optS a ++ [.s b, .s cc], blk := true, first := true, mem := true } (fun c =>
    let i := a.isSome.toNat
    match c.replyCell (c.x (i + 1)) with
    | none => .exc { cause := 13, addr := reportAddr c.core (c.x (i + 1)) }
    | some (k, o) => exitBody c (a.map (fun _ => c.x 0)) (some (k, o, c.x i)))

/-- YIELD (R193): a light thread goes to the tail of the run queue; in a heavy one it is a switch marker only. -/
def execYield (h : Hdr) : State → Host.Outcome State Fault Refusal :=
  runS { h := h, noHandler := true, blk := true, first := true, mem := true } (fun c =>
    if c.t.kind ≠ .light then .ok c.s
    else
      let s1 := (c.s.leaveSlot c.aid .runq).modTh c.aid (fun t => { t with pc := c.npc, seq := t.seq + 1, entering := false })
      match s1.pushRun c.core c.aid with
      | .error _ => .full 0
      | .ok s2 => .raw s2)

/-! ### WAIT (R194) -/

/-- Checks of WAIT, in the order of R219, up to the location. -/
def Cx.waitAt (c : Cx) (va : Dword) (n : Nat) (f : Nat → Nat → State → R) : R :=
  match c.s.chkSeg c.t 0 va n n true false with
  | some e => .exc e
  | none =>
    if inWindow va = false then .exc { cause := 28, addr := va }
    else if c.s.wordBusy c.aid va n then c.hold va n false
    else (c.s.placeFor c.aid va n .read false).bindOr (c.hold va n true) (fun p s1 => match p with
      | .sp k o => f k o s1
      | .phys _ => .exc { cause := 28, addr := va })

/-- WAIT.full (R194). -/
def execWaitFull (h : Hdr) (a : SReg) : State → Host.Outcome State Fault Refusal :=
  runS { h := h, rd := [.s a], noHandler := true, blk := true, first := true, mem := true } (fun c =>
    c.waitAt (c.x 0) 16 (fun k o s1 => ({ c with s := s1 } : Cx).block (.full k (o / 16)) (fun _ s => s)))

/-- WAIT.zero (R194). -/
def execWaitZero (h : Hdr) (a : SReg) : State → Host.Outcome State Fault Refusal :=
  runS { h := h, rd := [.s a], noHandler := true, blk := true, first := true, mem := true } (fun c =>
    c.waitAt (c.x 0) 8 (fun k o s1 => ({ c with s := s1 } : Cx).block (.zero (.sp k o)) (fun _ s => s)))

/-- WAIT.ne (R194): on wake, S[D] holds the value read. -/
def execWaitNe (h : Hdr) (d a b : SReg) : State → Host.Outcome State Fault Refusal :=
  runS { h := h, rd := [.s a, .s b], wr := [.s d], noHandler := true, blk := true, first := true, mem := true } (fun c =>
    c.waitAt (c.x 0) 8 (fun k o s1 =>
      ({ c with s := s1 } : Cx).block (.ne (.sp k o) (c.x 1) d) (fun v s => s.wrS c.aid d v)))

/-! ### Messages and tasks (R198, R202, R203) -/

/-- SEND (R202, R203). -/
def execSend (h : Hdr) (a b cc : SReg) : State → Host.Outcome State Fault Refusal :=
  runS { h := h, len := 16, rd := [.s a, .s b] ++ quad cc, mem := true } (fun c =>
    let t := c.t
    if (c.x 0).toNat % 4 ≠ 0 then .exc { cause := 12, addr := c.x 0 }
    else if c.s.inPanel t.ltag (c.x 1).toNat = false then .exc { cause := 31 }
    else
      .ok (c.send c.s (.send (c.x 1).toNat
        (.message ⟨c.x 0, [c.x 2, c.x 3, c.x 4, c.x 5], BitVec.ofNat 32 (c.s.tid t), t.ltag, []⟩) none)))

/-- TASKQ (R198, R203, R205): the task's handle, or all ones after the cancel bit. The task joins the queue once no earlier read can
raise; the index is the next one that no live task has, and one that an exception took back is not given again (log 5). -/
def execTaskq (h : Hdr) (d a : SReg) (b : VReg) (cc : SReg) (cnt : BitVec 16) : State → Host.Outcome State Fault Refusal :=
  runS { h := h, len := 16, rd := [.s a, .v b] ++ quad cc, wr := [.s d], mem := true } (fun c =>
    let t := c.t
    let k := c.s.core c.core
    if (c.x 0).toNat % 4 ≠ 0 then .exc { cause := 12, addr := c.x 0 }
    else if k.seen && t.kind != .super then .ok (c.setS d (BitVec.allOnes 64))
    else
      let m := c.v 1
      let ix := c.s.freeIndex c.core
      let task : Task :=
        { entry := c.x 0, args := [c.x 2, c.x 3, c.x 4, c.x 5], s4 := 0, waitM := m.setWidth 256
          setM := (m >>> 256).setWidth 256, seed := t.regs.seed, rm := t.regs.rm, count := cnt
          index := ix, num := 0, ready := none, ltag := t.ltag, sender := BitVec.ofNat 32 (c.s.tid t), rel := [] }
      match c.s.pushTask c.core task with
      | .error _ => .full 2
      | .ok _ =>
        .ok ((c.send (c.s.modCore c.core (fun k => { k with taskIx := (ix + 1) % 65536 })) (.task task)).wrS c.aid d
          (BitVec.ofNat 64 (c.core * 65536 + ix))))

/-- TASKQ.dec (R196, R198): precise on the issuing core, else posted. -/
def execTaskqDec (h : Hdr) (a : SReg) : State → Host.Outcome State Fault Refusal :=
  runS { h := h, len := 16, rd := [.s a], mem := true } (fun c =>
    let hd := (c.x 0).toNat
    let dst := hd / 65536
    if c.s.inPanel c.t.ltag dst = false then .exc { cause := 31 }
    else if dst = c.core then .ok (c.send c.s (.taskOwn (c.x 0)))
    else c.post c.s [.taskDec (c.x 0)])

/-! ### Events (R197) -/

/-- EVSET: bit ← 1, a release. -/
def execEvset (h : Hdr) (n : BitVec 8) : State → Host.Outcome State Fault Refusal :=
  runS { h := h, mem := true } (fun c => .ok (c.send c.s (.event c.clu n.toNat true)))

/-- EVCLR: bit ← 0; synchronising with no release or acquire. -/
def execEvclr (h : Hdr) (n : BitVec 8) : State → Host.Outcome State Fault Refusal :=
  runS { h := h, mem := true } (fun c => .ok (c.send c.s (.event c.clu n.toNat false)))

/-- EVWAIT: waits until the bit is 1, an acquire. -/
def execEvwait (h : Hdr) (n : BitVec 8) : State → Host.Outcome State Fault Refusal :=
  runS { h := h, noHandler := true, blk := true, first := true, mem := true } (fun c => c.block (.event c.clu n.toNat) (fun _ s => s))

/-! ### Cancellation (R205) -/

/-- CANCEL: its mailbox is checked as SPAWN checks its counter. -/
def execCancel (h : Hdr) (a : Option SReg) : State → Host.Outcome State Fault Refusal :=
  runS { h := h, rd := optS a, mem := true } (fun c =>
    match a with
    | none => .ok (c.send c.s (.cancel none))
    | some _ => (c.counter (c.x 0) .write).bind (fun _ s1 => .ok (c.send s1 (.cancel (some (c.x 0))))))

/-- The first message in flight of the cancel multicast to a core that may arrive (R122, R205). -/
def State.cancelFlow (s : State) (core : Nat) : Option Nat :=
  (List.range s.flows.length).find? (fun n => match s.nextFlow n with
    | some f => f.tr.isCancel && f.dst == core
    | none => false)

/-- A message in flight arrives; one that finds no room in a queue stays, with what follows it (R122, R358). -/
def State.arriveFlow (s : State) (n : Nat) : State :=
  match s.nextFlow n with
  | none => s
  | some f =>
    let gone : State := { s with flows := s.flows.eraseIdx n }
    if 1152 ≤ f.dst then gone.modLaunch f.tag (fun l => { l with engSeen := f.dst :: l.engSeen })
    else match gone.deliver f.src f.aid f.tag f.dst f.tr with
      | some s1 => s1
      | none => s.ringWait f.dst f.tr.queue

/-- CANCEL_SEEN (R205, R364): the multicast bit is ordered at a core of a cancelled launch. -/
def execCancelSeen (core : Nat) (s : State) : Host.Outcome State Fault Refusal :=
  match s.cancelFlow core with
  | some n => .next (s.arriveFlow n)
  | none => .next s

/-- The threads of a launch that have not ended. -/
def State.alive (s : State) (tag : BitVec 32) : List (Nat × Thread) :=
  s.threads.filter (fun e => e.2.ltag == tag && e.2.loc != .exited && e.2.loc != .image)

/-- Every core and engine context of a cancelled launch has seen the bit, and every thread but running handlers has
ended (R205). An absent core counts as having seen it from the move that appends the bit (R364). -/
def State.cancelDone (s : State) (l : Launch) : Bool :=
  l.cancel && l.cores.all (fun c => (s.core c).seen || decide ((s.core c).ltag ≠ l.tag)) &&
    (1440 :: (l.cores.map clusterOf).eraseDups.map (1152 + ·)).all l.engSeen.contains &&
    (s.alive l.tag).all (fun e => e.2.kind == .handler)

/-- The store-release of 1 to the mailbox of a CANCEL by its issuer (R205): whether it is over. One that meets a page fault waits
for the reply and is made again (R375); a refused one is logged (R376). -/
def State.cancelBox (s : State) (va : Dword) (aid : Nat) : Bool × State :=
  let t := s.th aid
  let log (e : Exc) (s : State) : Bool × State := (true, s.noteExc aid { e with note := if e.note = .none then .refused else e.note })
  if t.wait.isSome then (false, s)
  else match t.pend with
    | some e => log e (s.modTh aid (fun t => { t with pend := none }))
    | none =>
      match s.placeFor aid va 8 .write true with
      | .ok p s1 =>
        match s1.atomWrite aid true .pkg p (leBytes 8 1) with
        | .ok s2 => (true, s2.boxRelease p [s1.contrib (.thread aid) .pkg])
        | .error x => log (conflictExc t.core va p x) s1
      | .exc e s1 => log e s1
      | .fault _ r s1 => (false, s1.pageFault (s.port t) (s.asid t) va 0 r t.ltag (s.place t) (.thread aid))
      | .wait => (false, s)

/-- CANCEL_MAILBOX_WRITE (R205): the mailbox of each CANCEL of the launch is written. -/
def execCancelMailboxWrite (tag : Nat) (s : State) : Host.Outcome State Fault Refusal :=
  match s.launch? (BitVec.ofNat 32 tag) with
  | none => .next s
  | some l =>
    if s.cancelDone l = false then .next s
    else
      .next (l.cbox.foldl (fun s e =>
        let (done, s1) := s.cancelBox e.1 e.2
        if done then s1.modLaunch l.tag (fun l => { l with cbox := l.cbox.erase e }) else s1) s)

/-! ### Exceptions (R211, R212) -/

/-- TRAPU: user-trap with the code (R211). -/
def execTrapu (h : Hdr) (code : BitVec 16) : State → Host.Outcome State Fault Refusal :=
  runS { h := h } (fun _ => .exc { cause := 27, code := code.setWidth 32 })

/-- The frame checks of EXRET and TKWAIT.frame (R212, R215), up to the frame's place. -/
def Cx.frame (c : Cx) (f : Dword) (k : Place → State → R) : R :=
  if c.s.holdsFrame c.aid f = false then .exc { cause := 30 }
  else
    (c.s.placeFor c.aid f 64 .both false).bind (fun p s1 =>
      if (s1.val p 8).testBit 31 = false then .exc { cause := 30 } else k p s1)

/-- EXRET with its target: 0 the frame's PC, 1 its NPC, 2 a register (R212). -/
def exretBody (c : Cx) (what : Nat) (to_ : Dword) : R :=
  c.frame (c.x 0) (fun p s1 =>
    let t := match what with
      | 0 => BitVec.ofNat 64 (s1.val (p.plus 8) 8)
      | 1 => BitVec.ofNat 64 (s1.val (p.plus 16) 8)
      | _ => to_
    if t.toNat % 4 ≠ 0 then .exc { cause := 12, addr := t }
    else .jump ((s1.record c.aid c.t.seq (.frame p (BitVec.ofNat 64 (s1.val p 8)))).leaveHandler c.aid p t) t)

/-- EXRET.retry (R212). -/
def execExretRetry (h : Hdr) (a : SReg) : State → Host.Outcome State Fault Refusal :=
  runS { h := h, rd := [.s a], mem := true } (fun c => exretBody c 0 0)
/-- EXRET.next (R212). -/
def execExretNext (h : Hdr) (a : SReg) : State → Host.Outcome State Fault Refusal :=
  runS { h := h, rd := [.s a], mem := true } (fun c => exretBody c 1 0)
/-- EXRET.to (R212). -/
def execExretTo (h : Hdr) (a b : SReg) : State → Host.Outcome State Fault Refusal :=
  runS { h := h, rd := [.s a, .s b], mem := true } (fun c => exretBody c 2 (c.x 1))

/-! ### Tacks (R214 to R216) -/

/-- Plan entries due after `lo` and by `hi`, in increasing id (R214). -/
def Launch.due (l : Launch) (lo : Int) (hi : Nat) : List PlanEnt :=
  sortBy (fun e => e.id) (l.plan.filter (fun e => decide (lo < (e.due : Int)) && decide (e.due ≤ hi)))

/-- Revoked plan entries that a TACK after `lo` checks again: due by it and not to be released yet (R377). -/
def Launch.lost (l : Launch) (lo : Int) : List PlanEnt :=
  l.plan.filter (fun e => e.revoked && decide ((e.due : Int) ≤ lo) && decide (lo < (e.rel : Int)))

/-- The thread registers, and the first TACK of the launch takes up its plan, as a release (R214, R322). -/
def State.tackStart (s : State) (aid : Nat) : State :=
  let t := s.th aid
  let s1 := s.modTh aid (fun t => { t with treg := true })
  match s1.launch? t.ltag with
  | some l =>
    if l.taken.isNone then
      ((s1.release (.launch t.ltag.toNat) [s1.contrib (.thread aid) .pkg]).endRegion (.thread aid)).modLaunch t.ltag
        (fun l => { l with taken := some aid })
    else s1
  | none => s1

/-- TACK (R214). -/
def execTack (h : Hdr) (a : Option SReg) (m : BitVec 28) : State → Host.Outcome State Fault Refusal :=
  runS { h := h, rd := optS a, blk := true, first := true, mem := true } (fun c =>
    if c.s.journalClear c.aid = false then c.blockAcks
    else
      let tk : BitVec 32 := match a with
        | some _ => (c.x 0 + m.setWidth 64).setWidth 32
        | none => m.setWidth 32
      let s1 := c.s.tackStart c.aid
      let tag := c.t.ltag
      if (tk.toNat : Int) ≤ c.t.lastTack then .ok (s1.releasePlan tag)
      else
        let due := match s1.launch? tag with
          | some l => l.due c.t.lastTack tk.toNat
          | none => []
        let again := match s1.launch? tag with
          | some l => l.lost c.t.lastTack
          | none => []
        match (sortBy (fun e => e.id) (due ++ again)).find? (fun e => e.st != 2 && e.st != 3) with
        | some e =>
          .excKeep (c.s0.tackStart c.aid)
            { cause := 26, code := if again.contains e then 2 else if e.st = 4 then 1 else 0, addr := BitVec.ofNat 64 e.id }
        | none =>
          let s2 := due.foldl (fun s e => s.sync c.ag (.plan tag.toNat e.id) false true .pkg) s1
          .ok ((s2.modTh c.aid (fun t => { t with ltack := some tk })).releasePlan tag))

/-- TACK.done: the thread is no longer registered (R214). -/
def execTackDone (h : Hdr) : State → Host.Outcome State Fault Refusal :=
  runS { h := h, first := true, mem := true } (fun c =>
    .ok ((c.s.modTh c.aid (fun t => { t with treg := false })).releasePlan c.t.ltag))

/-- TKWAIT of an id (R215): the entry is asked for, and the thread waits until it is resident, released or failed. -/
def tkwaitBody (c : Cx) (s : State) (id : Nat) : R :=
  let tag := c.t.ltag
  match s.planEnt? tag.toNat id with
  | none => .exc { cause := 28, addr := BitVec.ofNat 64 id }
  | some _ =>
    let s1 := s.modLaunch tag (fun l =>
      { l with plan := l.plan.map (fun e => if e.id = id then { e with asked := true } else e) })
    ({ c with s := s1 } : Cx).block (.plan tag.toNat id) (fun _ s => s)

/-- TKWAIT (R215). -/
def execTkwait (h : Hdr) (a : SReg) : State → Host.Outcome State Fault Refusal :=
  runS { h := h, rd := [.s a], noHandler := true, blk := true, first := true, mem := true } (fun c =>
    tkwaitBody c c.s ((c.x 0).toNat % 2 ^ 32))

/-- TKWAIT.frame (R215): the id is ADDR of the handler's frame. -/
def execTkwaitFrame (h : Hdr) (a : SReg) : State → Host.Outcome State Fault Refusal :=
  runS { h := h, rd := [.s a], noHandler := true, blk := true, first := true, mem := true } (fun c =>
    c.frame (c.x 0) (fun p s1 => tkwaitBody c s1 (s1.val (p.plus 24) 8 % 2 ^ 32)))

/-- TKSTAT (R216): the entry's state, 7 when there is none. -/
def execTkstat (h : Hdr) (d a : SReg) : State → Host.Outcome State Fault Refusal :=
  runS { h := h, rd := [.s a], wr := [.s d] } (fun c =>
    let v := match c.s.planEnt? c.t.ltag.toNat ((c.x 0).toNat % 2 ^ 32) with
      | some e => e.st
      | none => 7
    .ok (c.setS d (BitVec.ofNat 64 v)))

/-- TKSTAT.prog (R216): the panel's progress, or all ones when it is unbounded. A progress of −1, of a registered thread
that has signalled no tack, is all ones in 64 bits. -/
def execTkstatProg (h : Hdr) (d : SReg) : State → Host.Outcome State Fault Refusal :=
  runS { h := h, wr := [.s d] } (fun c =>
    let v := match c.s.progress c.t.ltag with
      | some x => BitVec.ofInt 64 x
      | none => BitVec.allOnes 64
    .ok (c.setS d v))

end Sys2Proof.Machine
end

