-- ==== Sys2Proof/Machine/Perform.lean ====
section
/-!
DEFINITION. The moves by which an outstanding instruction returns its result (R52), and a journal entry is sent, performs and is
acknowledged (R121, R224, R361, R362).
-/

namespace Sys2Proof.Machine

/-- What the reads before one that raises leave: their stamps, cache words, translations and forward-tagged lines, and the elements that
were read ahead (R91, R102, R123, R237). -/
def State.keepReads (s s1 : State) : State :=
  { s with free := s1.free, stamps := s1.stamps, wcache := s1.wcache, fwd := s1.fwd, clus := s1.clus, mem := s1.mem
           cores := s1.cores }

/-- LONG_RESULT_RETURN: the outstanding instruction performs, and its result is written; it raises, waits at a page fault,
or waits on (R52, R119, R124, R375, R376). A light thread whose read waits at a page fault keeps its slot: it leaves one only with
an empty outstanding set (R54; R22 and R375 say that it blocks; DESIGN CHOICE, log 57). -/
def State.longReturn (s : State) (aid : Nat) (o : Outst) : State :=
  let t := s.th aid
  match o.fault with
  | some (_, 17) => s.raiseLong aid o (errExc t.core o.fva)
  | some _ => s
  | none =>
    if s.canGo aid o.seq o.sub o.op = false then s
    else
      match s.longStep aid o with
      | .ok _ s1 => s1
      | .exc e s1 => (s.keepReads s1).raiseLong aid o e
      | .fault va r s1 =>
        (s.keepReads s1).pageFault (s.port t) (s.asid t) va 0 r t.ltag (s.place t) (.outst aid o.seq o.sub)
      | .wait => s

/-- LONG_RESULT_RETURN of the `idx`-th outstanding instruction of a slot. -/
def execLongResultReturn (core slot idx : Nat) (s : State) : Host.Outcome State Fault Refusal :=
  match s.occ core slot with
  | none => .next s
  | some a =>
    match (s.th a).outst[idx]? with
    | none => .next s
    | some o => .next (s.longReturn a o)

/-! ### Posted entries -/

/-- An entry stands before another of the same thread in issue order. -/
def JEnt.earlier (a b : JEnt) : Bool := a.aid == b.aid && ordBefore a.seq a.sub b.seq b.sub

/-- An entry replaced or freed. -/
def State.putEnt (s : State) (core idx : Nat) (e : Option JEnt) : State :=
  s.modCore core (fun k => { k with jrn := vwr k.jrn idx e })

/-- A waiting entry may be sent (R119, R121). An earlier entry that touches a word of it may still be under way: it then waits at
the word (R119 first row). -/
def State.canSend (s : State) (e : JEnt) : Bool :=
  s.ordered e.aid e.seq e.sub (.post e.op) &&
    ((s.th e.aid).before e.seq e.sub).all (fun x => !s.clash e.aid x.op (.post e.op))

/-- JOURNAL_ENTRY_SEND (R121). -/
def execJournalEntrySend (core idx : Nat) (s : State) : Host.Outcome State Fault Refusal :=
  match vrd (s.core core).jrn idx with
  | some e =>
    if s.here core = true ∧ e.st = .waiting ∧ s.canSend e = true then .next (s.putEnt core idx (some { e with st := .sent })) else .next s
  | none => .next s

/-- A sent entry performs, or is refused with its record in the log (R121, R390), or waits at a page fault, or becomes a
record of a bounce ring (R361); `replay` marks a replay (R362). -/
def State.performEnt (s : State) (core idx : Nat) (e : JEnt) (replay : Bool) : State :=
  let t := s.th e.aid
  match e.fault with
  | some (_, 17) =>
    let x : Exc := errExc t.core (e.report core).1
    (s.noteExc e.aid x).putEnt core idx (some { e with st := .performed (some x.noted) 0 replay, fault := none })
  | some _ => s
  | none =>
    if s.wordsFree e.aid e.seq e.sub (.post e.op) = false then s
    else
      match s.perform e with
      | .done fl s1 => s1.putEnt core idx (some { e with st := .performed none fl replay })
      | .refuse x s1 => (s1.noteExc e.aid x).putEnt core idx (some { e with st := .performed (some x.noted) 0 replay })
      | .fault va r s1 => s1.pageFault (s.port t) (s.asid t) va 0 r t.ltag (s.place t) (.journal core idx)
      | .absent h => (s.putEnt core idx (some { e with st := .bounced })).bounce t.ltag h (.posted core idx)

/-- POSTED_WRITE_PERFORM (R121). -/
def execPostedWritePerform (core idx : Nat) (s : State) : Host.Outcome State Fault Refusal :=
  match vrd (s.core core).jrn idx with
  | some e => .next (if e.st = .sent then s.performEnt core idx e (!s.here core) else s)
  | none => .next s

/-- The trap of a refused entry (R208, R224). -/
def refusalTrap (core idx : Nat) (e : JEnt) (x : Exc) (replay : Bool) : ATrap :=
  let (a, d) := e.report core
  let under := x.cause = 25
  ⟨{ cause := if under then 25 else 16, code := BitVec.ofNat 32 (if under then idx else idx + x.cause * 65536)
     addr := a, data := d, iaddr := e.pc, agent := x.agent }, e.seq, replay⟩

/-- An acknowledgement that reaches a core which the context of its entry has left is forwarded by the basting entry there, which
counts it (R131, R359). -/
def State.ackPass (s : State) (core : Nat) (e : JEnt) : State := s.passFrom (s.th e.aid).ltag core 8 e.home

/-- The acknowledgement of an entry that has performed (R121, R190, R224, R229): the entry is freed; its flags are committed; a
refusal becomes a pending trap, or only a record once its thread has ended (R205, R213); an EXIT whose decrement performed ends
its thread, and one whose decrement was refused has not ended it. -/
def State.ackEnt (s : State) (core idx : Nat) (e : JEnt) (refusal : Option Exc) (fl : Flags) (replay : Bool) : State :=
  let s1 := (s.ackPass core e).putEnt core idx none
  let t := s1.th e.aid
  if t.loc = .exited then s1
  else
    let leaving := match t.wait with
      | some w => (match w.obj with
        | .exiting r => some r
        | _ => none)
      | none => none
    match refusal, leaving with
    | none, some r => s1.exitThread e.aid r
    | none, none => s1.modTh e.aid (fun t => { t.commitFlags fl with parked := false })
    | some x, _ =>
      s1.modTh e.aid (fun t =>
        { t with traps := insertTrap (refusalTrap core idx e x replay) t.traps, parked := false
                 wait := if leaving.isNone then t.wait else if t.loc = .slot then none
                   else t.wait.map (fun w => { w with fired := some 0, npc := t.pc }) })

/-- JOURNAL_ACK (R121). For a context that is absent the acknowledgement becomes a record of its bounce ring, which it takes in
its replay (R361, R365). -/
def execJournalAck (core idx : Nat) (s : State) : Host.Outcome State Fault Refusal :=
  match vrd (s.core core).jrn idx with
  | none => .next s
  | some e =>
    match e.st with
    | .performed refusal fl replay =>
      if s.here core then .next (s.ackEnt core idx e refusal fl replay)
      else .next ((s.putEnt core idx (some { e with st := .returning })).bounce (s.th e.aid).ltag core (.ack idx refusal fl))
    | _ => .next s

end Sys2Proof.Machine
end

