-- ==== Sys2Proof/Machine/Copies.lean ====
section
/-!
DEFINITION. Copy queues, copies and handles (R296 to R301, R350, R351), and lay plan entries (R214, R302 to R304).
-/

namespace Sys2Proof.Machine

/-! ### CQPUT (R298) -/

/-- log2 of the slots of a queue of a kind and the address of slot 0, from CTL and from dwords 4 to 7 of the header; none unless it is
of that kind, its reserved bits and dwords 0 and its slots aligned (R9, R296). Bits [7:5] of CTL, which R296 does not name, count as
reserved (DESIGN CHOICE, log 41). -/
def headerForm (kind ctl rest : Nat) : Option (Nat × Dword) :=
  if ctl / 256 = kind ∧ bits ctl 7 5 = 0 ∧ 1 ≤ ctl % 32 ∧ ctl % 32 ≤ 16 ∧ rest / 2 ^ 64 = 0 ∧ rest % 64 = 0 then
    some (ctl % 32, BitVec.ofNat 64 rest)
  else none

/-- The header of a copy queue. -/
def queueForm (ctl rest : Nat) : Option (Nat × Dword) := headerForm 1 ctl rest

/-- What CQPUT posts once slot `w` is free: the packet, its SEQ and the kick (R298). -/
def cqOps (q slots w : Dword) (lg : Nat) (pkt : List Byte) (nk : Bool) : List JOp :=
  let slot := slots + BitVec.ofNat 64 (64 * (w.toNat % 2 ^ lg))
  let next := (List.range 8).zip (leBytes 8 (w + 1).toNat)
  let rel : MKind := .atomic .rel .pkg
  [.write slot ((List.range 56).zip (pkt.take 56)) .plain none, .write (slot + 56) next rel none] ++
    (if nk then [] else [.write (q + 24) next rel none])

/-- The queue has a free slot for index `w` (R298): RIDX + N exceeds it. -/
def State.cqRoom (s : State) (p : Place) (w : Dword) (lg : Nat) : Bool := decide (w.toNat < s.val (p.plus 8) 8 + 2 ^ lg)

/-- The form of the header at a place, by plain reads of CTL and of SLOTS with what follows it. -/
def State.cqForm (s : State) (aid : Nat) (p : Place) : Except (WordKey × Stamp) (Option (Nat × Dword) × State) :=
  let core := (s.th aid).core
  match s.plainRead aid core false (p.plus 16) 8 with
  | .error x => .error x
  | .ok (ctl, s1) =>
    match s1.plainRead aid core false (p.plus 32) 32 with
    | .error x => .error x
    | .ok (rest, s2) => .ok (queueForm ctl rest, s2)

/-- CQPUT (R298): the claim, and at once or after a wait the packet, SEQ, the kick and S[D]. -/
def execCqput (h : Hdr) (d a : SReg) (cc : VReg) (seg : BitVec 3) (nk : Bool) :
    State → Host.Outcome State Fault Refusal :=
  runS { h := h, len := 16, rd := [.s a, .v cc], wr := [.s d], blk := true, first := true, mem := true } (fun c =>
    let q := (c.s.seg c.t seg).base + c.x 0
    let pkt := leBytes 56 (c.v 1).toNat
    match c.s.chkSeg c.t seg q 64 64 true true with
    | some e => .exc e
    | none =>
      match c.s.chkSp c.t q 64 with
      | some e => .exc e
      | none =>
        if c.s.wordBusy c.aid q 64 then c.hold q 64 false
        else if c.s.journalFree c.core < 3 then (if c.t.kind = .light then .raw (c.s0.waitAnew c.aid .entry) else .stall true)
        else
          (c.s.placeFor c.aid q 64 .both true).bindOr (c.hold q 64 true) (fun p s1 =>
            match s1.cqForm c.aid p with
            | .error x => c.conflict q p x
            | .ok (none, _) => .exc { cause := 42 }
            | .ok (some (lg, slots), s2) =>
              match s2.atomUpdate c.aid false false .pkg p 8 (fun v => some ((v + 1) % 2 ^ 64)) with
              | .error x => c.conflict q p x
              | .ok (v, s3) =>
                let w := BitVec.ofNat 64 v
                if s3.cqRoom p w lg then
                  match s3.atomRead c.aid true .pkg (p.plus 8) 8 with
                  | .error x => c.conflict (q + 8) (p.plus 8) x
                  | .ok (_, s4) =>
                    match c.post s4 (cqOps q slots w lg pkt nk) with
                    | .ok s5 => .ok (s5.wrS c.aid d w)
                    | r => r
                else
                  let wt : Wait := ⟨.queue p q w d pkt nk, s3.order, c.npc, none, if c.t.kind = .light then none else some c.saved⟩
                  let s4 := { s3 with order := s3.order + 1 }.modTh c.aid (fun t =>
                    { t with wait := some wt, marked := true, parked := false })
                  .raw (if c.t.kind = .light then s4.leaveSlot c.aid .blocked else s4)))

/-- A waiting CQPUT whose slot is free goes on (R195, R298): its stores are posted and its wait has its value. It reads CTL, SLOTS and
the reserved dwords again, as the listing of R298 reads SLOTS after the wait; a conflict, or a header that is no queue's then, is its
precise exception after the claim (DESIGN CHOICE, log 41). -/
def State.cqWake (s : State) (aid : Nat) : State :=
  let t := s.th aid
  match t.wait with
  | some ⟨.queue p q w d pkt nk, n, npc, none, sv⟩ =>
    let wt : Wait := ⟨.queue p q w d pkt nk, n, npc, some w, sv⟩
    let bad (s : State) (e : Exc) : State :=
      (s.waitRaise aid wt e).modTh aid (fun t => { t with wait := t.wait.map (fun x => { x with fired := some w }) })
    if s.journalFree t.core < 3 then s
    else
      match s.cqForm aid p with
      | .error x => bad s (conflictExc t.core (q + 16) (p.plus 16) x)
      | .ok (none, s1) => bad s1 { cause := 42 }
      | .ok (some (lg, slots), s1) =>
        if s1.cqRoom p w lg = false then s
        else
          match s1.atomRead aid true .pkg (p.plus 8) 8 with
          | .error x => bad s1 (conflictExc t.core (q + 8) (p.plus 8) x)
          | .ok (_, s2) =>
            let ops := cqOps q slots w lg pkt nk
            let u := s.nextSub aid
            let es := ((List.range ops.length).zip ops).map (fun e =>
              (⟨s.place t, aid, t.seq, u + e.1, t.pc, e.2, .waiting, none⟩ : JEnt))
            (s2.postEnts t.core es).modTh aid (fun t => { t with wait := some wt })
  | _ => s

/-! ### Handles (R300, R301) -/

/-- HWAIT.free (R301). -/
def execHwaitFree (h : Hdr) (n : BitVec 8) : State → Host.Outcome State Fault Refusal :=
  runS { h := h, blk := true, first := true, mem := true } (fun c => c.block (.handle c.clu n.toNat 0) (fun _ s => s))
/-- HWAIT.full (R301). -/
def execHwaitFull (h : Hdr) (n : BitVec 8) : State → Host.Outcome State Fault Refusal :=
  runS { h := h, blk := true, first := true, mem := true } (fun c => c.block (.handle c.clu n.toNat 1) (fun _ s => s))
/-- HWAIT.take (R301). -/
def execHwaitTake (h : Hdr) (n : BitVec 8) : State → Host.Outcome State Fault Refusal :=
  runS { h := h, blk := true, first := true, mem := true } (fun c => c.block (.handle c.clu n.toNat 2) (fun _ s => s))

/-- An HFREE of the handle that the thread issued has not performed. -/
def Thread.freeing (t : Thread) (cl n : Nat) : Bool := t.outst.any (fun o => o.op.unit == some (.handle cl n))

/-- HSTATE (R301): the handle's word, an acquire. -/
def execHstate (h : Hdr) (d : SReg) (n : BitVec 8) : State → Host.Outcome State Fault Refusal :=
  runS { h := h, wr := [.s d], mem := true, sync := true } (fun c =>
    if c.t.freeing c.clu n.toNat then .stall false
    else
      let s1 := c.s.sync c.ag (.handle c.clu n.toNat) false true .pkg
      .ok (s1.wrS c.aid d (handleWord (s1.handle c.clu n.toNat))))

/-- HFREE (R301): full or draining becomes free with E 0, a release; a filling handle raises. -/
def execHfree (h : Hdr) (n : BitVec 8) : State → Host.Outcome State Fault Refusal :=
  runS { h := h, mem := true } (fun c => .ok (c.send c.s (.free c.clu n.toNat)))

/-! ### The streamer (R128, R299, R351) -/

/-- The kicker of a copy. -/
def State.copyKicker (s : State) (cl id : Nat) : Agent := ((amGet? (s.clu cl).copies id).map (·.kicker)).getD .host

/-- How a copy makes its accesses. -/
def copyEng (s : State) (cl id : Nat) (tag : BitVec 32) : Eng :=
  ⟨.copy cl id, s.copyKicker cl id, cl, (s.launch? tag).elim 0 (·.asid), tag, 1, 4 * cl, .copy id, true⟩

/-- How the streamer reads the header and the slots of a bound queue, as an agent: `ag` is its visit of the queue, which bears the
binding's number, or the copy that it takes. -/
def queueEng (s : State) (cl id : Nat) (kicker : Agent) (b : QBind) : Eng :=
  ⟨.copy cl id, kicker, cl, (s.launch? b.tag).elim 0 (·.asid), b.tag, 1, 4 * cl, .queue b.q, true⟩

/-- Field of a packet: bits [hi:lo] of a dword (R297). -/
def pktBits (pkt : List Byte) (d hi lo : Nat) : Nat := bits (dwordAt pkt d).toNat hi lo

/-- Reserved bits of a packet are 0 and its OPC and LEN are valid (R297). -/
def pktOk (pkt : List Byte) : Bool :=
  pktBits pkt 0 7 0 == 1 && pktBits pkt 0 63 48 == 0 && pktBits pkt 0 47 47 == 0 && pktBits pkt 0 43 43 == 0 &&
    pktBits pkt 0 39 34 == 0 && pktBits pkt 3 63 40 == 0 && pktBits pkt 3 39 0 != 0 && dwordAt pkt 6 == 0

/-- Uses its handle (R297). -/
def pktH (pkt : List Byte) : Bool := pktBits pkt 0 32 32 == 1
/-- Writes its mailbox (R297). -/
def pktMb (pkt : List Byte) : Bool := pktBits pkt 0 33 33 == 1
/-- Step tag of a packet (R297). -/
def pktTag (pkt : List Byte) : BitVec 16 := BitVec.ofNat 16 (pktBits pkt 0 31 16)
/-- Handle of a packet (R297). -/
def pktHandle (pkt : List Byte) : Nat := pktBits pkt 0 15 8

/-- The package discards work with a step tag, from a fence move until software writes FSTEP (R389). -/
def State.fenced (s : State) (tag : BitVec 16) : Bool := s.fencing && decide (tag ≠ 0 ∧ s.fstep.toNat % 65536 = tag.toNat)

/-- A copy packet in a slot: its source, its destination, its length, and the check of R299 that fails first, by the cause and the
address that the log names: reserved bits, OPC and LEN by the slot with cause 0, then the segments of SRC, DST and MBA, which is an
address in DSEG, and then R93. -/
def State.copyEnds (s : State) (cl : Nat) (tag : BitVec 32) (pkt : List Byte) (slot : Dword) :
    Dword × Dword × Nat × Option (Nat × Dword) :=
  match s.launch? tag with
  | none => (0, 0, 0, some (9, slot))
  | some l =>
    let sg := l.segOf 0 (pktBits pkt 0 42 40)
    let dg := l.segOf 0 (pktBits pkt 0 46 44)
    let len := pktBits pkt 3 39 0
    let a := sg.base + dwordAt pkt 1
    let b := dg.base + dwordAt pkt 2
    let m := dwordAt pkt 4
    let no := !pktMb pkt
    let whole (g : Seg) (off : Dword) (rd wr : Bool) : Bool := g.grants (g.base.toNat + off.toNat) len rd wr
    let checks : List (Bool × Nat × Dword) :=
      [ (pktOk pkt, 0, slot), (whole sg (dwordAt pkt 1) true false, 9, a), (whole dg (dwordAt pkt 2) false true, 9, b),
        (no || decide (m.toNat % 8 = 0), 12, m), (no || dg.grants m.toNat 8 false true, 9, m), (s.rangeOk tag (4 * cl) a len, 13, a),
        (s.rangeOk tag (4 * cl) b len, 13, b), (no || s.rangeOk tag (4 * cl) m 8, 13, m) ]
    (a, b, len, (checks.find? (fun x => !x.1)).map (·.2))

/-- The slot at RIDX of a bound queue (R299): its place, its address and RIDX, with the header's place. -/
structure Ready where
  hdr  : Place
  slot : Place
  va   : Dword
  ridx : Dword

/-- The streamer's visit of a bound queue (R299): it acquires the kick, reads the header, and finds the slot at RIDX ready, or not. A
queue whose header is not a copy queue's has no packet (R9). -/
def State.packetReady (s : State) (cl i : Nat) (b : QBind) : Eo (Option Ready) :=
  let e := queueEng s cl i ((b.kick.map (·.2)).getD .host) b
  match s.engPlace e b.q 64 .both with
  | .ok (some p) s1 =>
    let s2 := (s1.kickSync e.ag (p.plus 24)).engAtom e (b.q + 24) (p.plus 24) 8 false false false
    let s3 := s2.engAtom e (b.q + 8) (p.plus 8) 8 false false false
    let (_, x, s4) := s3.engRead e (p.plus 16) 8
    let (_, y, s5) := s4.engRead e (p.plus 32) 32
    let s6 := (s5.engReport e (b.q + 16) (p.plus 16) x).engReport e (b.q + 32) (p.plus 32) y
    let r := BitVec.ofNat 64 (s6.val (p.plus 8) 8)
    match queueForm (s6.val (p.plus 16) 8) (s6.val (p.plus 32) 32) with
    | none => .ok none s6
    | some (lg, slots) =>
      let va := slots + BitVec.ofNat 64 (64 * (r.toNat % 2 ^ lg))
      match s6.engPlace e va 64 .read with
      | .ok (some z) s7 =>
        let s8 := s7.engAtom e (va + 56) (z.plus 56) 8 false false false
        .ok (if s8.val (z.plus 56) 8 = (r + 1).toNat then some ⟨p, z, va, r⟩ else none) s8
      | .ok none s7 => .ok none s7
      | .err s7 => .err s7
      | .fault s7 => .fault s7
      | .absent c s7 => .absent c s7
  | .ok none s1 => .ok none s1
  | .err s1 => .err s1
  | .fault s1 => .fault s1
  | .absent c s1 => .absent c s1

/-- The streamer leaves the queue at its place in the round, whose turn is then over, for the next one (R351). -/
def Cluster.nextTurn (k : Cluster) (i : Nat) (b : QBind) : Cluster :=
  { k with qbinds := k.qbinds.set i { b with turn := 0 }, qnext := (i + 1) % k.qbinds.length }

/-- The packet that the streamer takes next (R351): from the queue at its place in the round while that has turns left and a packet
ready, else from the next one. A queue found without a ready packet waits for a new kick. -/
def State.nextPacket (s : State) (cl : Nat) : Nat → Option Ready × State
  | 0 => (none, s)
  | f + 1 =>
    let k := s.clu cl
    let i := k.qnext
    match k.qbinds[i]? with
    | none => (none, s)
    | some b =>
      let leave (b : QBind) (s : State) : Option Ready × State := State.nextPacket (s.modClu cl (fun k => k.nextTurn i b)) cl f
      if b.kick.isNone ∨ b.turn = b.weight ∨ s.atFault cl (.queue b.q) = true then leave b s
      else
        match s.packetReady cl i b with
        | .ok (some r) s1 => (some r, s1)
        | .ok none s1 => leave { b with kick := none } s1
        | .err s1 => leave { b with kick := none } s1
        | .fault s1 => leave b s1
        | .absent _ _ => leave b s

/-- The copy of a number that has not ended. -/
def State.copy? (s : State) (cl id : Nat) : Option Copy :=
  match amGet? (s.clu cl).copies id with
  | some c => if c.fin then none else some c
  | none => none

/-- A copy replaced. -/
def State.putCopy (s : State) (cl id : Nat) (c : Copy) : State :=
  s.modClu cl (fun k => { k with copies := amSet k.copies id c })

/-- The conflict that a copy's access at an address found with the stamp of a word goes to the copy's kicker (R124). Where its write met
the last write of another copy (`ww`), one trap for both goes to the agent whose kick was performed later, naming both handles and the
granule (R129, R208); a later conflict of the two is only logged. -/
def State.copyConflict (s : State) (cl id : Nat) (ww : Bool) (va : Dword) (found : Option (WordKey × Stamp)) : State :=
  match found, amGet? (s.clu cl).copies id with
  | some (w, x), some c =>
    let self := s.rep (.copy cl id)
    let die := dieOfClu cl
    let other := if ww then (match x.ag with
      | .copy cl' id' => amGet? (s.clu cl').copies id' |>.map (fun c' => (cl', id', c'))
      | _ => none) else none
    let addr := reportAddr (4 * cl) (if other.isSome then va &&& ~~~(15#64) else engWordVa va w)
    match other with
    | some (cl', id', c') =>
      if c.told.contains x.ag then s.logErr die 1 15 addr true self (some x.rep)
      else
        let s1 := (s.putCopy cl id { c with told := x.ag :: c.told }).putCopy cl' id' { c' with told := .copy cl id :: c'.told }
        if id / 2 ^ 32 < id' / 2 ^ 32 then s1.engTrap die c'.kicker x.rep self addr (BitVec.ofNat 64 (pktHandle c'.pkt)) false
        else s1.engTrap die c.kicker self x.rep addr (BitVec.ofNat 64 (pktHandle c.pkt)) false
    | none => s.engTrap die c.kicker self x.rep addr 0 false
  | _, _ => s

/-- A conflict of a write is one with the last write of its word. -/
def State.withWrite (s : State) (found : Option (WordKey × Stamp)) : Bool :=
  match found with
  | some (w, x) => (s.stamp w).w == some x
  | none => false

/-- The kick by which the packet at an index became ready: the first that wrote a later index, else the last one noted (R298, R299). -/
def QBind.kickFor (b : QBind) (r : Nat) : Nat × Agent :=
  match b.kicks.find? (fun k => decide (r < k.2.1)) with
  | some k => (k.1, k.2.2)
  | none => b.kick.getD (0, .host)

/-- A ready packet is taken (R299): its copy starts as an agent that acquires the kick and the packet's SEQ, the packet is read, and
RIDX moves on with a release of the copy and of the streamer's visit. A refused packet is logged. -/
def State.takePacket (s : State) (cl i : Nat) (r : Ready) : State :=
  match (s.clu cl).qbinds[i]? with
  | none => s
  | some b =>
    let (kn, kicker) := b.kickFor r.ridx.toNat
    let (n, s1) := s.takeOrder
    let id := (kn + 1) * 2 ^ 32 + n
    let e := queueEng s1 cl id kicker b
    let new (pkt : List Byte) (src dst : Dword) (len : Nat) (bad : Bool) : Copy :=
      ⟨pkt, b.tag, kicker, src, dst, len, 0, [(0, len)], [], 0, false, bad, [], false, false⟩
    let s2 := (s1.putCopy cl id (new (s1.bytes r.slot 56) 0 0 0 false)).kickSync e.ag (r.hdr.plus 24)
    let s3 := s2.engAtom e (r.va + 56) (r.slot.plus 56) 8 false false true
    let (pkt, x, s4) := s3.engRead e r.slot 56
    let (src, dst, len, bad) := s4.copyEnds cl b.tag pkt r.va
    let s5 := s4.putCopy cl id (new pkt src dst len bad.isSome)
    let s6 := s5.copyConflict cl id false (r.va.toNat / 16 * 16 : Nat) x
    let s7 := ((r.hdr.plus 8).words 8).foldl (fun s w => s.release (.word w) [s.contrib (.copy cl i) .pkg]) s6
    let s8 := s7.engPut e (b.q + 8) (r.hdr.plus 8) (r.ridx + 1)
    let s9 := match bad with
      | some (cause, va) => s8.logEng e cause va
      | none => s8
    s9.modClu cl (fun k => { k with qbinds := k.qbinds.set i { b with
      turn := b.turn + 1, kicks := b.kicks.filter (fun x => decide (r.ridx.toNat + 1 < x.2.1)) } })

/-- COPY_PACKET_TAKE (R299, R351): the streamer of a cluster takes a packet of the `binding`-th of its queues, when that
is the next in the round. -/
def execCopyPacketTake (cluster binding : Nat) (s : State) : Host.Outcome State Fault Refusal :=
  match s.nextPacket cluster ((s.clu cluster).qbinds.length + 1) with
  | (some r, s1) => .next (if (s1.clu cluster).qnext = binding then s1.takePacket cluster binding r else s)
  | (none, s1) => .next s1

/-- A copy starts (R299 step 1): with H = 1 only when its handle is free, which it acquires and sets filling. A copy with
the fenced step tag makes no write (R389). -/
def State.startCopy (s : State) (cl id : Nat) (c : Copy) : State :=
  let err := c.err || s.fenced (pktTag c.pkt)
  if pktH c.pkt = false then s.putCopy cl id { c with going := true, err := err }
  else
    let n := pktHandle c.pkt
    if (s.handle cl n).st ≠ 0 then s
    else
      let s1 := s.sync (.copy cl id) (.handle cl n) false true .pkg
      (s1.putHandle cl n ⟨1, false, pktTag c.pkt⟩).putCopy cl id { c with going := true, err := err }

/-- The byte at a place among runs of bytes. -/
def byteOfRuns : List (Nat × Nat) → Nat → Nat
  | [], _ => 0
  | (o, n) :: r, x => if x < n then o + x else byteOfRuns r (x - n)

/-- The piece of a run that lies in one granule of a destination that begins at `d`, with a byte of it: its offset and its length. -/
def pieceOf (d b : Nat) : List (Nat × Nat) → Nat × Nat
  | [] => (0, 0)
  | (o, n) :: r =>
    if o ≤ b ∧ b < o + n then
      let lo := Nat.max o (b - (d + b) % 16)
      (lo, Nat.min (o + n) (b + 16 - (d + b) % 16) - lo)
    else pieceOf d b r

/-- Runs of bytes without a piece of one of them. -/
def takeOut (p : Nat × Nat) : List (Nat × Nat) → List (Nat × Nat)
  | [] => []
  | (o, n) :: r =>
    if o ≤ p.1 ∧ p.1 < o + n then
      (if o < p.1 then [(o, p.1 - o)] else []) ++
        (if p.1 + p.2 < o + n then [(p.1 + p.2, o + n - (p.1 + p.2))] else []) ++ r
    else (o, n) :: takeOut p r

/-- The granule that an engine moves next, whole or what is left of it at the ends (R128): no rule gives their order, so it is that
of a free value's byte, unless one granule is all that is left (DESIGN CHOICE, log 1). -/
def State.nextPiece (s : State) (d : Nat) (runs : List (Nat × Nat)) : (Nat × Nat) × State :=
  match runs with
  | [(o, n)] =>
    if n ≤ 16 - (d + o) % 16 then ((o, n), s)
    else (pieceOf d (o + (Config.freeDword s.free).toNat % n) runs, s.takeFree.2)
  | _ =>
    (pieceOf d (byteOfRuns runs ((Config.freeDword s.free).toNat % (runs.map (·.2)).sum)) runs, s.takeFree.2)

/-- A copy changed. -/
def State.modCopy (s : State) (cl id : Nat) (f : Copy → Copy) : State :=
  s.modClu cl (fun k => { k with copies := k.copies.map (fun x => if x.1 = id then (x.1, f x.2) else x) })

/-- A copy reads the bytes of its next granule, or what is left of it at its ends (R128). -/
def State.copyRead (s : State) (cl id : Nat) (c : Copy) : State :=
  let (p, s) := s.nextPiece c.dst.toNat c.left
  let src := c.src + BitVec.ofNat 64 p.1
  match s.engLoad (copyEng s cl id c.tag) src p.2 with
  | .err s1 => s1.modCopy cl id (fun c => { c with err := true })
  | .fault s1 => s1
  | .absent _ _ => s
  | .ok (bs, x) s1 =>
    (s1.copyConflict cl id false src x).modCopy cl id (fun c => { c with left := takeOut p c.left, got := c.got ++ [(p.1, bs)] })

/-- A copy writes the bytes that it read of one granule (R128). -/
def State.copyWrite (s : State) (cl id : Nat) (c : Copy) (p : Nat × List Byte) : State :=
  let e := copyEng s cl id c.tag
  let n := p.2.length
  let dst := c.dst + BitVec.ofNat 64 p.1
  let did (c : Copy) : Copy := { c with done := c.done + n, got := c.got.filter (fun x => decide (x.1 ≠ p.1)) }
  match s.engPlace e dst n .write with
  | .err s1 => s1.modCopy cl id (fun c => { c with err := true })
  | .fault s1 => s1
  | .absent h s1 =>
    (s1.modCopy cl id (fun c => { did c with out := c.out + n })).bounce c.tag h (.granule e.ag (windowOf (4 * cl) dst).2 p.2)
  | .ok none s1 => s1.modCopy cl id did
  | .ok (some q) s1 =>
    let (y, s2) := s1.engWrite e q p.2
    ((s2.copyConflict cl id (s1.withWrite y) dst y).fill e.ag q n).modCopy cl id did

/-- Of an engine that has granules to read and granules to write, which it moves next: nothing, or one to read, or one that it has
read. No rule gives their order, so a free value chooses where there is a choice (log 1). -/
def State.nextMove (s : State) (left : List (Nat × Nat)) (got : List (Nat × List Byte)) : Option (Option (Nat × List Byte)) × State :=
  let k := if left.isEmpty then got.length else got.length + 1
  let i := if k ≤ 1 then 0 else (Config.freeDword s.free).toNat % k
  (if k = 0 then none else some got[i]?, if k ≤ 1 then s else s.takeFree.2)

/-- A move of a copy that has started (R128): its loads and stores stand in its pending set like a thread's, a granule each. -/
def State.copyGranule (s : State) (cl id : Nat) (c : Copy) : State :=
  match s.nextMove c.left c.got with
  | (none, s1) => s1
  | (some none, s1) => s1.copyRead cl id c
  | (some (some p), s1) => s1.copyWrite cl id c p

/-- COPY_GRANULE_WRITE (R128, R299): a copy that has not started starts; one that has reads or writes its next granule. -/
def execCopyGranuleWrite (cluster copy : Nat) (s : State) : Host.Outcome State Fault Refusal :=
  match s.copy? cluster copy with
  | none => .next s
  | some c =>
    if c.going = false then .next (s.startCopy cluster copy c)
    else if c.err || decide (c.len ≤ c.done) || s.atFault cluster (.copy copy) then .next s
    else .next (s.copyGranule cluster copy c)

/-- The mailbox of a copy receives its value by a store-release, or all ones after an error (R299). All ones go to MBA, aligned down,
also where the error is that MBA itself failed its check (DESIGN CHOICE, log 40); a store that is refused there is only logged. -/
def State.copyMailbox (s : State) (cl id : Nat) (c : Copy) : State :=
  let e := copyEng s cl id c.tag
  let v := if c.err then BitVec.allOnes 64 else dwordAt c.pkt 5
  let va := dwordAt c.pkt 4 &&& ~~~(7#64)
  let fin (s : State) : State := s.modClu cl (fun k =>
    { k with copies := k.copies.map (fun x => if x.1 = id then (x.1, { x.2 with fin := true }) else x) })
  match s.engPlace e va 8 .write with
  | .ok (some p) s1 =>
    let (y, s2) := s1.mailStore e p v
    fin (s2.copyConflict cl id false va y)
  | .ok none s1 => fin s1
  | .err s1 => fin s1
  | .fault s1 => s1
  | .absent h s1 => (fin s1).bounce c.tag h (.granule e.ag (windowOf (4 * cl) va).2 (leBytes 8 v.toNat))

/-- COPY_COMPLETION (R299): with every granule written or an error found, the handle goes full, and then the mailbox receives its
value. -/
def execCopyCompletion (cluster copy : Nat) (s : State) : Host.Outcome State Fault Refusal :=
  match s.copy? cluster copy with
  | none => .next s
  | some c =>
    if c.going = false ∨ c.out ≠ 0 ∨ (c.err = false ∧ c.done < c.len) ∨ s.atFault cluster (.copy copy) = true then .next s
    else if pktH c.pkt && !c.filled then
      let n := pktHandle c.pkt
      .next (((s.sync (.copy cluster copy) (.handle cluster n) true false .pkg).putHandle cluster n ⟨2, c.err, pktTag c.pkt⟩).putCopy
        cluster copy { c with filled := true, fin := !pktMb c.pkt })
    else if pktMb c.pkt then .next (s.copyMailbox cluster copy c)
    else .next (s.putCopy cluster copy { c with fin := true })

/-! ### Lay plan entries (R214, R302 to R304) -/

/-- The die whose tier engine serves an entry: that of its core. -/
def PlanEnt.die (e : PlanEnt) : Nat := dieOf e.core

/-- The south-west cluster of a compute die (R10). -/
def dieCluster (n : Nat) : Nat := 6 * (n / 4) * 24 + 6 * (n % 4)

/-- How the tier engine of an entry makes its accesses. -/
def tierEng (l : Launch) (e : PlanEnt) : Eng :=
  ⟨.tier l.tag.toNat e.id, match l.taken with
    | some a => .thread a
    | none => .host, dieCluster e.die, l.asid, l.tag, 2, 4 * dieCluster e.die, .tier l.tag.toNat e.id, true⟩

/-- An entry is due for issue (R214, R215, R322): its plan is taken up, it is not issued, and the progress plus the
lookahead reaches it or a TKWAIT asked for it. One that a revocation took back is issued again only when a handler asks for it
(R377). -/
def State.issueDue (s : State) (l : Launch) (e : PlanEnt) : Bool :=
  l.taken.isSome && decide (e.st = 0) && (e.asked ||
    !e.revoked && (match s.progress l.tag with
     | some x => decide ((e.due : Int) ≤ x + l.look)
     | none => true))

/-- TIER_ENTRY_ISSUE (R128, R214): the engine starts, and acquires the take-up of the plan. -/
def execTierEntryIssue (tag id : Nat) (s : State) : Host.Outcome State Fault Refusal :=
  let g := BitVec.ofNat 32 tag
  match s.launch? g with
  | none => .next s
  | some l =>
    match l.plan.find? (fun e => e.id == id) with
    | none => .next s
    | some e =>
      if s.issueDue l e = false then .next s
      else
        .next ((s.sync (.tier tag id) (.launch tag) false true .pkg).modPlan g id (fun e =>
          { e with st := 1, done := 0, left := [(0, e.len)], got := [], out := 0, svc := 0, asked := false }))

/-- The range of an entry page by page: its first address, then the start of each further page. -/
def PlanEnt.pages (e : PlanEnt) : List Dword :=
  (List.range ((e.addr.toNat + e.len + 65535) / 65536 - e.addr.toNat / 65536)).map (fun i =>
    if i = 0 then e.addr else BitVec.ofNat 64 ((e.addr.toNat / 65536 + i) * 65536))

/-- A page of the range of an entry stands in T3, T4 or T5 (R302): it translates to a pod rank or to host memory, or it is not
resident. -/
def State.beyondT2 (s : State) (l : Launch) (e : PlanEnt) : Bool :=
  e.pages.any (fun va => match s.walk l.asid va with
    | .leaf x lg => (match s.target (leafPa x lg va) with
      | .peer _ _ => true
      | .host _ => true
      | _ => false)
    | .absent => true
    | _ => false)

/-- The engine needs the service core (R302, R304): the tier to which it asks for the pages to be moved. -/
def State.tierAsk (s : State) (l : Launch) (e : PlanEnt) : Option Nat :=
  if e.action = 0 ∨ e.action = 2 then (if s.beyondT2 l e then some 2 else none)
  else if e.src = 0 ∨ e.dst ≤ 2 then none
  else some e.dst

/-- What a movement that copies nothing meets on its pages: nothing, or an error response, with which it fails, or a page fault
(R304, R375, R376). -/
def State.tierProbe (s : State) (e : Eng) : List Dword → Option (Bool × State)
  | [] => none
  | va :: r =>
    match s.engPlace e va 1 .read with
    | .err s1 => some (true, s1)
    | .fault s1 => some (false, s1)
    | _ => State.tierProbe s e r

/-- Bytes that the engine copies itself: a fetch to T0 and a writeback from T0 (R304). -/
def PlanEnt.copies (e : PlanEnt) : Bool := (e.action == 0 && e.dst == 0) || (e.action == 3 && e.src == 0)

/-- The request to the service core of the die (R302): system message kind 0x0008. The engine clears its completion dword by a plain
write, a conflict going to the kicker; where that dword lies in the pinned pool, the write gets an error response and the movement
fails (R304, R371). -/
def State.tierRequest (s : State) (l : Launch) (e : PlanEnt) (dst : Nat) : State :=
  let (n, s1) := s.takeFree
  let box := Config.planDword n % (hbmBytes / 8) * 8
  let p := Place.phys box
  let g := tierEng l e
  if s1.inPool p 8 then (s1.logErr (dieOfClu g.cl) 1 9 (BitVec.ofNat 64 box) false (s1.rep g.ag) none).planEnds l.tag e.id 4
  else
    let (x, s2) := s1.engWrite g p (leBytes 8 0)
    let s3 := match x with
      | some (w, st) => s2.engTrap (dieOfClu g.cl) g.kick (s2.rep g.ag) st.rep (wordVa (BitVec.ofNat 64 box) p w) 0 false false
      | none => s2
    (s3.hwMessage (4 * dieCluster e.die) (8 * 2 ^ 48 + e.id) e.addr.toNat (l.tag.toNat * 2 ^ 32 + e.len % 2 ^ 32)
      (box + dst)).modPlan l.tag e.id (fun e => { e with svc := 1, box := box })

/-- A conflict of a tier engine's access to a granule goes to the thread whose TACK took up the plan (R124). -/
def State.tierConflict (s : State) (e : Eng) (va : Dword) (x : Option (WordKey × Stamp)) : State :=
  match x with
  | some (w, st) => s.engTrap (dieOfClu e.cl) e.kick (s.rep e.ag) st.rep (reportAddr (4 * e.cl) (engWordVa va w)) 0 false
  | none => s

/-- The ends of the movement of an entry that the engine copies. -/
def PlanEnt.ends (e : PlanEnt) : Dword × Dword :=
  let t0 := BitVec.ofNat 64 (apertureBase + e.core * apertureStep + e.t0off)
  if e.action = 0 then (e.addr, t0) else (t0, e.addr)

/-- The engine of an entry reads its next granule. -/
def State.tierRead (s : State) (l : Launch) (e : PlanEnt) : State :=
  let g := tierEng l e
  let (p, s) := s.nextPiece e.ends.2.toNat e.left
  let src := e.ends.1 + BitVec.ofNat 64 p.1
  match s.engLoad g src p.2 with
  | .err s1 => s1.planEnds l.tag e.id 4
  | .fault s1 => s1
  | .absent _ _ => s
  | .ok (bs, x) s1 =>
    (s1.tierConflict g src x).modPlan l.tag e.id (fun e => { e with left := takeOut p e.left, got := e.got ++ [(p.1, bs)] })

/-- The engine of an entry writes a granule that it has read. -/
def State.tierWrite (s : State) (l : Launch) (e : PlanEnt) (p : Nat × List Byte) : State :=
  let g := tierEng l e
  let n := p.2.length
  let dst := e.ends.2 + BitVec.ofNat 64 p.1
  let more (s : State) (out : Nat) : State := s.modPlan l.tag e.id (fun e =>
    { e with done := e.done + n, got := e.got.filter (fun x => decide (x.1 ≠ p.1)), out := e.out + out })
  match s.engPlace g dst n .write with
  | .err s1 => s1.planEnds l.tag e.id 4
  | .fault s1 => s1
  | .absent h s1 => (more s1 n).bounce l.tag h (.granule g.ag (windowOf (4 * g.cl) dst).2 p.2)
  | .ok none s1 => more s1 0
  | .ok (some q) s1 =>
    let (y, s2) := s1.engWrite g q p.2
    more ((s2.tierConflict g dst y).fill g.ag q n) 0

/-- A move of an entry that the engine copies (R128). -/
def State.tierGranule (s : State) (l : Launch) (e : PlanEnt) : State :=
  match s.nextMove e.left e.got with
  | (none, s1) => s1
  | (some none, s1) => s1.tierRead l e
  | (some (some p), s1) => s1.tierWrite l e p

/-- TIER_ENTRY_COMPLETE (R302, R304): the engine asks the service core where it needs it and waits for its answer, copies
a granule, or, with all done, the entry becomes resident; a failure makes it failed. -/
def execTierEntryComplete (tag id : Nat) (s : State) : Host.Outcome State Fault Refusal :=
  match s.launch? (BitVec.ofNat 32 tag) with
  | none => .next s
  | some l =>
    match l.plan.find? (fun e => e.id == id) with
    | none => .next s
    | some e =>
      if e.st ≠ 1 ∨ e.out ≠ 0 then .next s
      else if e.svc = 1 then
        let p := Place.phys e.box
        let v := s.val p 8
        let s1 := s.engAtom (tierEng l e) (BitVec.ofNat 64 e.box) p 8 false false true
        if v = 1 then .next (s1.modPlan l.tag id (fun e => { e with svc := 2 }))
        else if v = 2 then .next (s1.planEnds l.tag id 4)
        else .next s
      else
        match (if e.svc = 0 then s.tierAsk l e else none) with
        | some d => .next (s.tierRequest l e d)
        | none =>
          if e.copies && decide (e.done < e.len) then
            .next (if s.atFault (dieCluster e.die) (.tier tag id) then s else s.tierGranule l e)
          else if e.svc = 2 then .next (s.planEnds l.tag id 2)
          else if s.atFault (dieCluster e.die) (.tier tag id) then .next s
          else
            match s.tierProbe (tierEng l e) e.pages with
            | none => .next (s.planEnds l.tag id 2)
            | some (true, s1) => .next (s1.planEnds l.tag id 4)
            | some (false, s1) => .next s1

end Sys2Proof.Machine
end

