-- ==== Sys2Proof/Machine/Memory.lean ====
section
/-!
DEFINITION. Memory, atomic and fence instructions (R217 to R236) and the embedding instructions (R254 to R256) as they issue.
-/

namespace Sys2Proof.Machine

/-! ### Long-class issue (R14, R52) -/

/-- A long-class instruction with a place in the outstanding set. -/
def Cx.outst (c : Cx) (op : LongOp) (names : List Nm) : Outst := ⟨c.t.seq, 0, c.pc, c.npc, op, names, c.saved, none, 0⟩

/-- A long-class instruction joins the outstanding set (R52); an exception of it puts back what it popped (R40). -/
def Cx.long (c : Cx) (op : LongOp) (names : List Nm) : R :=
  .ok (c.s.modTh c.aid (fun t => { t with outst := t.outst ++ [c.outst op names] }))

/-- Width of a size code (R143). -/
def szBytes (sz : BitVec 2) : Nat := 2 ^ sz.toNat

/-- Width of a word or dword access. -/
def dwBytes (dw : Bool) : Nat := if dw then 8 else 4

/-! ### Loads (R220, R221, R225) -/

/-- LD (R220): alignment, segment and scratchpad are checked at issue. -/
def execLd (h : Hdr) (sx : Bool) (d : SReg) (m : MemOp) (k : MKind) (sz : BitVec 2) :
    State → Host.Outcome State Fault Refusal :=
  runS { h := h, len := memLen m, rd := memNames m, wr := [.s d], long := true, mem := true } (fun c =>
    let va := c.ea m 0
    let n := szBytes sz
    match c.s.chkSeg c.t m.seg va n n true false with
    | some e => .exc e
    | none =>
      match c.s.chkSp c.t va n with
      | some e => .exc e
      | none => c.long (.ld sx d ⟨va, n⟩ k) [.s d])

/-- LD.fe and LD.fec (R221). -/
def ldFull (fec : Bool) (h : Hdr) (sx : Bool) (d : SReg) (m : MemOp) (sz : BitVec 2) :
    State → Host.Outcome State Fault Refusal :=
  runS { h := h, len := memLen m, rd := memNames m, wr := [.s d], blk := true, first := true, mem := true } (fun c =>
    let va := c.ea m 0
    let n := szBytes sz
    match c.s.chkSeg c.t m.seg va n n true false with
    | some e => .exc e
    | none =>
      if inWindow va = false then .exc { cause := 14, addr := va }
      else
        match c.s.chkSp c.t va n with
        | some e => .exc e
        | none =>
          if c.s.wordBusy c.aid va n then c.hold va n false
          else
            (c.s.placeFor c.aid va n .read false).bindOr (c.hold va n true) (fun p s1 =>
              match p with
              | .sp k o =>
                if c.slot = 14 ∧ c.t.kind = .handler ∧ s1.isFull k (o / 16) = false then .exc { cause := 29 }
                else ({ c with s := s1 } : Cx).block (.load k o n sx fec d)
                  (fun v s => s.wrS c.aid d ((extLoad sx n v.toNat).setWidth 64))
              | .phys _ => .exc { cause := 14, addr := va }))

/-- LD.fe (R221). -/
def execLdFe (h : Hdr) (sx : Bool) (d : SReg) (m : MemOp) (sz : BitVec 2) : State → Host.Outcome State Fault Refusal :=
  ldFull false h sx d m sz
/-- LD.fec (R221). -/
def execLdFec (h : Hdr) (sx : Bool) (d : SReg) (m : MemOp) (sz : BitVec 2) : State → Host.Outcome State Fault Refusal :=
  ldFull true h sx d m sz

/-- Lanes of a mask that are active, with their addresses (R227). -/
def laneAddrs (mk : BitVec 32) (va : Dword) : List (Nat × Dword) :=
  ((List.range 32).filter (fun j => mk.getLsbD j)).map (fun j => (j, va + BitVec.ofNat 64 (4 * j)))

/-- The first check of R219 that an element of several fails: alignment, then segment, each over all elements. -/
def Cx.chkEach (c : Cx) (g : BitVec 3) (n al : Nat) (rd wr : Bool) (as : List (Nat × Dword)) : Option Exc :=
  match as.find? (fun a => decide (a.2.toNat % al ≠ 0)) with
  | some a => some { cause := 12, addr := reportAddr c.core a.2 }
  | none => as.findSome? (fun a => c.s.chkSeg c.t g a.2 n al rd wr)

/-- LDV (R227): the first address is checked for alignment, each active lane for the rest. -/
def execLdv (h : Hdr) (d : VReg) (m : MemOp) (rp : Bool) (mk : MReg) : State → Host.Outcome State Fault Refusal :=
  runS { h := h, len := memLen m, rd := memNames m, wr := [.v d], masks := [mk], long := true, mem := true } (fun c =>
    let va := c.ea m 0
    let as := laneAddrs (c.t.rM mk) va
    if va.toNat % 4 ≠ 0 then .exc { cause := 12, addr := reportAddr c.core va }
    else
      match c.chkEach m.seg 4 4 true false as with
      | some e => .exc e
      | none =>
        match as.findSome? (fun a => c.s.chkSp c.t a.2 4) with
        | some e => .exc e
        | none => if as.isEmpty then .ok c.s else c.long (.lanes d 4 as rp) [.v d])

/-- Source names of a gather operand's address, without its index vector. -/
def gatherNames (g : GatherOp) : List Nm := optS g.a ++ [.v g.vb]

/-- Length of an instruction with a gather operand. -/
def gatherLen (g : GatherOp) : Nat := if g.imm.isSome then 12 else 8

/-- Active elements with their addresses (R228). -/
def Cx.gather (c : Cx) (g : GatherOp) (dw : Bool) (mk : MReg) : List (Nat × Dword) :=
  let w := if dw then 64 else 32
  let a := if g.a.isSome then c.x 0 else 0
  let ix := c.v g.a.isSome.toNat
  let imm := match g.imm with
    | some x => x.signExtend 64
    | none => 0
  ((List.range (nElems w)).filter (fun i => active (c.t.rM mk) w i)).map (fun i =>
    (i, (c.s.seg c.t g.seg).base + a + (BitVec.ofNat 64 (elem ix w i) <<< g.k.toNat) + imm))

/-- VGATH (R228). -/
def execVgath (h : Hdr) (d : VReg) (g : GatherOp) (rp dw : Bool) (mk : MReg) : State → Host.Outcome State Fault Refusal :=
  runS { h := h, len := gatherLen g, rd := gatherNames g, wr := [.v d], masks := [mk], long := true, mem := true } (fun c =>
    let n := dwBytes dw
    let as := c.gather g dw mk
    match c.chkEach g.seg n n true false as with
    | some e => .exc e
    | none =>
      match as.findSome? (fun a => c.s.chkSp c.t a.2 n) with
      | some e => .exc e
      | none => if as.isEmpty then .ok c.s else c.long (.lanes d n as rp) [.v d])

/-! ### Stores (R222 to R228) -/

/-- Bytes with their offsets. -/
def offBytes (o : Nat) (bs : List Byte) : List (Nat × Byte) := (List.range bs.length).zip bs |>.map (fun e => (o + e.1, e.2))

/-- One part of a store: the address, its bytes by offset, and the order of its access. -/
structure StPart where
  a  : Dword
  bs : List (Nat × Byte)

/-- Address of a part's first byte. -/
def StPart.at (p : StPart) : Dword := p.a + BitVec.ofNat 64 (match p.bs with
  | b :: _ => b.1
  | [] => 0)

/-- Address of HINT (R378, R385). -/
def hintAddr : Dword := 0x010100003000

/-- The order of a part of a store: a supervisor's to HINT is a release (R385). -/
def Cx.hintKind (c : Cx) (k : MKind) (p : StPart) : MKind :=
  if c.super && p.bs.any (fun b => (p.a + BitVec.ofNat 64 b.1).toNat / 8 == hintAddr.toNat / 8) then .atomic .rel .pkg else k

/-- A store's parts after their checks (R119, R121, R222, R223): those in the own scratchpad perform there, in issue order, the
others are posted, one journal entry each. -/
def Cx.store (c : Cx) (k : MKind) (tag : Option Nat) (parts : List StPart) : R :=
  let own := parts.filter (fun p => c.s.isOwn c.t p.at)
  let far := parts.filter (fun p => !c.s.isOwn c.t p.at)
  match own.findSome? (fun p => p.bs.findSome? (fun b => c.s.chkSp c.t (p.a + BitVec.ofNat 64 b.1) 1)) with
  | some e => .exc e
  | none =>
    let s1 := if own.isEmpty then c.s else c.send c.s (.own k (own.map (fun p => (p.a, p.bs))))
    if far.isEmpty then .ok s1 else c.post s1 (far.map (fun p => .write p.a p.bs (c.hintKind k p) tag))

/-- The consumer core of a forward-tagged store, source `i` (R226). -/
def Cx.ftag (c : Cx) (f : Option SReg) (i : Nat) : Option Nat := f.map (fun _ => (c.x i).toNat)

/-- ST (R222, R226). -/
def execSt (h : Hdr) (m : MemOp) (cr : SReg) (k : MKind) (ftag : Option SReg) (sz : BitVec 2) :
    State → Host.Outcome State Fault Refusal :=
  runS { h := h, len := memLen m, rd := memNames m ++ [.s cr] ++ optS ftag, mem := true } (fun c =>
    let va := c.ea m 0
    let n := szBytes sz
    let i := (memNames m).length
    match c.s.chkSeg c.t m.seg va n n false true with
    | some e => .exc e
    | none => c.store k (c.ftag ftag (i + 1))
        [⟨va, offBytes 0 (leBytes n (c.x i).toNat)⟩])

/-- Active lanes of a vector store grouped by the 512-byte aligned block that they touch (R223). -/
def blockParts (va : Dword) (as : List (Nat × Dword)) (v : Vec) : List StPart :=
  let blk (a : Nat × Dword) : Nat := a.2.toNat / 512
  let bs := (as.map blk).eraseDups
  bs.map (fun b => ⟨va, (as.filter (fun a => blk a == b)).flatMap (fun a => offBytes (4 * a.1) (leBytes 4 (elem v 32 a.1)))⟩)

/-- STV (R227). -/
def execStv (h : Hdr) (m : MemOp) (cr : VReg) (rp : Bool) (ftag : Option SReg) (mk : MReg) :
    State → Host.Outcome State Fault Refusal :=
  runS { h := h, len := memLen m, rd := memNames m ++ [.v cr] ++ optS ftag, masks := [mk], mem := true } (fun c =>
    let va := c.ea m 0
    let i := (memNames m).length
    let as := laneAddrs (c.t.rM mk) va
    if va.toNat % 4 ≠ 0 then .exc { cause := 12, addr := reportAddr c.core va }
    else
      match c.chkEach m.seg 4 4 false true as with
      | some e => .exc e
      | none =>
        c.store (if rp then .rp else .plain) (c.ftag ftag (i + 1)) (blockParts va as (c.v i)))

/-- VSCAT (R228): elements in increasing order, one entry each. -/
def execVscat (h : Hdr) (g : GatherOp) (cr : VReg) (rp dw : Bool) (mk : MReg) : State → Host.Outcome State Fault Refusal :=
  runS { h := h, len := gatherLen g, rd := gatherNames g ++ [.v cr], masks := [mk], mem := true } (fun c =>
    let n := dwBytes dw
    let as := c.gather g dw mk
    let v := c.v (gatherNames g).length
    match c.chkEach g.seg n n false true as with
    | some e => .exc e
    | none =>
      c.store (if rp then .rp else .plain) none
        (as.map (fun a => ⟨a.2, offBytes 0 (leBytes n (elem v (8 * n) a.1))⟩)))

/-! ### Atomics (R229 to R231) -/

/-- AMO (R229, R231): with a result long-class; without one, in the own scratchpad, else posted. -/
def execAmo (h : Hdr) (op : AmoOp) (d : Option SReg) (m : MemOp) (cr : SReg) (o : Ord) (sc : Scope) (dw : Bool) :
    State → Host.Outcome State Fault Refusal :=
  runS { h := h, len := memLen m, rd := memNames m ++ [.s cr], wr := optS d, long := d.isSome, mem := true } (fun c =>
    let va := c.ea m 0
    let n := dwBytes dw
    let x := c.x (memNames m).length
    let own := c.s.isOwn c.t va
    match c.s.chkSeg c.t m.seg va n n true true with
    | some e => .exc e
    | none =>
      match (if d.isSome || own then c.s.chkSp c.t va n else none) with
      | some e => .exc e
      | none =>
        match d with
        | some r => c.long (.amo op r ⟨va, n⟩ x o sc) [.s r]
        | none =>
          if own then .ok (c.send c.s (.amo op va n x o sc)) else c.post c.s [.amo op va n x o sc])

/-- CAS (R230): D is read and written. -/
def execCas (h : Hdr) (d : SReg) (m : MemOp) (cr : SReg) (o : Ord) (sc : Scope) (dw : Bool) :
    State → Host.Outcome State Fault Refusal :=
  let rd := memNames m ++ [.s cr, .s d]
  runS { h := h, len := memLen m, rd := rd, wr := [.s d], long := true, mem := true } (fun c =>
    let va := c.ea m 0
    let n := dwBytes dw
    let i := (memNames m).length
    match c.s.chkSeg c.t m.seg va n n true true with
    | some e => .exc e
    | none =>
      match c.s.chkSp c.t va n with
      | some e => .exc e
      | none => c.long (.cas d ⟨va, n⟩ (c.x (i + 1)) (c.x i) o sc) [.s d])

/-! ### Fences and prefetch (R232, R233) -/

/-- FENCE (R117, R232). -/
def execFence (h : Hdr) (o : Ord) (sc : Scope) : State → Host.Outcome State Fault Refusal :=
  runS { h := h, mem := true } (fun c => .ok (c.send c.s (.fence o sc)))

/-- PREF (R233): no effect. -/
def execPref (h : Hdr) (m : MemOp) (_slice : Bool) : State → Host.Outcome State Fault Refusal :=
  runS { h := h, len := memLen m, rd := memNames m } (fun c => .ok c.s)

/-! ### Paired stores (R235) -/

/-- Two areas of STPAIR share a byte. -/
def areasMeet (pb tb pp pt w : Nat) : Bool :=
  (List.range 32).any (fun i => (List.range 32).any (fun j =>
    decide (pb + pp * i < tb + pt * j + w ∧ tb + pt * j < pb + pp * i + w)))

/-- STPAIR (R235). -/
def execStpair (h : Hdr) (a b cr : SReg) (seg segT : BitVec 3) (pp pt : BitVec 16) (w : Bool) :
    State → Host.Outcome State Fault Refusal :=
  runS { h := h, len := 16, rd := [.s a, .s b, .s cr], mem := true } (fun c =>
    let n := if w then 4 else 2
    let sb := (c.s.seg c.t segT).base + c.x 0
    let pb := (c.s.seg c.t seg).base + c.x 1
    let tb := (c.s.seg c.t seg).base + c.x 2
    let p := 64 * pp.toNat
    let q := 64 * pt.toNat
    let row (x : Dword) (pitch i : Nat) : Nat × Dword := (i, x + BitVec.ofNat 64 (pitch * i))
    let rows := (List.range 32).map (row pb p) ++ (List.range 32).map (row tb q)
    match [sb, pb, tb].find? (fun x => decide (x.toNat % 64 ≠ 0)) with
    | some x => .exc { cause := 12, addr := reportAddr c.core x }
    | none =>
      match c.s.chkSeg c.t segT sb (1024 * n) 64 true false with
      | some e => .exc e
      | none =>
        match c.chkEach seg (32 * n) 64 false true rows with
        | some e => .exc e
        | none =>
          if rows.any (fun r => inWindow r.2) || areasMeet pb.toNat tb.toNat p q (32 * n) ||
              decide (p < 32 * n ∨ q < 32 * n) then .exc { cause := 33 }
          else if c.s.isOwn c.t sb = false ∨ c.s.ownOk c.t sb (1024 * n) = false then
            .exc { cause := 13, addr := reportAddr c.core sb }
          else if c.s.wordBusy c.aid sb (1024 * n) || c.s.acqPending c.aid then .stall false
          else
            (c.s.placeFor c.aid sb (1024 * n) .read false).bind (fun pl s1 =>
              match s1.plainRead c.aid c.core false pl (1024 * n) with
              | .error x => c.conflict sb pl x
              | .ok (_, s2) => c.post s2 [.pair pb tb p q n (s1.bytes pl (1024 * n))]))

/-! ### Full/empty control (R234) -/

/-- FESET and FECLR. -/
def feCtl (full : Bool) (h : Hdr) (m : MemOp) : State → Host.Outcome State Fault Refusal :=
  runS { h := h, len := memLen m, rd := memNames m, mem := true } (fun c =>
    let va := c.ea m 0
    match c.s.chkSeg c.t m.seg va 16 16 false true with
    | some e => .exc e
    | none =>
      if inWindow va = false then .exc { cause := 14, addr := va }
      else
        let w := windowOf c.core va
        if c.s.isOwn c.t va then
          match c.s.chkSp c.t va 16 with
          | some e => .exc e
          | none =>
            .ok (c.send c.s (.fe c.core (w.2 / 16) full))
        else c.post c.s [.fe w.1 (w.2 / 16) full])

/-- FESET (R234). -/
def execFeset (h : Hdr) (m : MemOp) : State → Host.Outcome State Fault Refusal := feCtl true h m
/-- FECLR (R234). -/
def execFeclr (h : Hdr) (m : MemOp) : State → Host.Outcome State Fault Refusal := feCtl false h m

/-! ### Embeddings (R254, R255) -/

/-- The RND code that a resolved mode stands for. -/
def rndOf : Rm → Rnd
  | .rne => .rne
  | .rz => .rz
  | .rdn => .rdn
  | .rup => .rup
  | .st => .rst

/-- The name of a scalar register as a binding's name. -/
def pnameS (r : SReg) : PName := ⟨false, BitVec.ofNat 3 r.toNat⟩

/-- EMBPOOL (R254): long-class. A bound base register pops once, at issue (DESIGN CHOICE, log 30). Under stochastic rounding it draws
from the generator as it stands at issue, which moves on past the draws of the indices that are left then, so that they precede those of
later instructions (R74; DEDUCED, log 30). -/
def execEmbpool (h : Hdr) (ty : Ty) (r : Rnd) (d : VReg) (seg : BitVec 3) (a : Option SReg) (b cr : SReg) (lg : BitVec 6) :
    State → Host.Outcome State Fault Refusal :=
  runS { h := h, rd := optS a, own := [.s b, .s cr], aff := [.s b, .s cr], wr := [.v d], heavy := true, long := true, mem := true } (fun c =>
    let base := (c.s.seg c.t seg).base + (if a.isSome then c.x 0 else 0)
    let rm := c.t.mode r
    let x := c.t.regs.seed
    let s1 := if rm = .st then
        let n := 32 * c.s.left c.aid (pnameS b)
        c.s.modTh c.aid (fun t => { t with regs := { t.regs with seed := seedAfter x n } })
      else c.s
    ({ c with s := s1 } : Cx).long (.embpool ty (rndOf rm) d seg base (pnameS b) (pnameS cr) lg.toNat x) [.v d])

/-- A source that EMBUPD reads at issue and consumes when it completes: its value, and the state that has consumed it. -/
def Cx.peek (c : Cx) (s : State) (n : Nm) : Pop :=
  match s.boundTo c.aid n with
  | none => .got (c.t.src n) s
  | some b => s.pop b c.t.seq

/-- Sources that EMBUPD reads at issue, in order. -/
def Cx.peeks (c : Cx) (s : State) : List Nm → Srcs
  | [] => .got [] [] s
  | n :: ns =>
    match c.peek s n with
    | .empty => .empty
    | .exc e s1 => .exc e s1
    | .fault va k s1 => .fault va k s1
    | .got v s1 =>
      match Cx.peeks c s1 ns with
      | .got vs us s2 => .got (v :: vs) (us ++ (match s.boundTo c.aid n with
        | some b => s.popUndo b
        | none => [])) s2
      | r => r

/-- The state `s` after its sources were read and acquired, with each of them, its binding and what is outstanding as before in `s0`: they
are consumed when the instruction completes. -/
def Cx.unread (c : Cx) (s : State) (us : List Undo) : State :=
  let s1 := us.foldl (fun s u => u.apply c.core s) s
  let own (k : Core) : List Binding := k.binds.filter (fun b => b.aid == c.aid)
  let s2 := s1.modCore c.core (fun k => { k with binds := k.binds.filter (fun b => b.aid != c.aid) ++ own (c.s.core c.core) })
  let s3 := s2.modTh c.aid (fun t => { t with outst := c.t.outst })
  { s3 with stamps := restamp s3.stamps c.ag (s3.region c.ag) (s3.aheadWords c.ag) }

/-- One update of EMBUPD in the own scratchpad, from the state `s` before its index was taken and the state `s1` after: it performs
now, with its flags staged, or joins the pending set with what an exception of it goes back to (R222, R255). -/
def Cx.embOwn (c : Cx) (s s1 : State) (op : JOp) : Except Exc State :=
  let o : Outst := ⟨c.t.seq, s1.nextSub c.aid, c.pc, c.npc, .post op, [], s.save c.aid, none, 0⟩
  let later := s1.modTh c.aid (fun t => { t with outst := t.outst ++ [o] })
  if s1.canGo c.aid o.seq o.sub o.op then
    match s1.longVal c.aid o.seq o.op with
    | .ok x s2 => .ok (s2.modTh c.aid (fun t => { t with stage := t.stage ||| x.fl }))
    | .exc e _ => .error e
    | _ => .ok later
  else .ok later

/-- The updates of EMBUPD from the next index on (R255): each is done in the own scratchpad or posted. With no free
journal entry the thread parks at this update, where a cancellation ends it (R256), and what was issued stays. An exception at an index
leaves it to be taken again. -/
def Cx.embLoop (c : Cx) (ty : Ty) (rm : Rm) (seg : BitVec 3) (base : Dword) (ix : PName) (scale : Dword) (grad : Vec)
    (lg : Nat) (done : State → R) : Nat → State → R
  | 0, s => done s
  | k + 1, s =>
    match s.fillAhead c.aid ix 1 1 with
    | .exc e s1 => .excKeep s1 e
    | .fault va r s1 => .raw (s1.waitFault c.aid va r c.npc)
    | .wait => .raw (s.park c.aid false)
    | .ok _ s =>
    match s.bindOf c.aid ix with
    | none => done s
    | some b =>
      match s.pop b c.t.seq with
      | .exc e _ => .excKeep s e
      | .fault va r _ => .raw (s.waitFault c.aid va r c.npc)
      | .empty => done s
      | .got i s1 =>
        let rb := rowBytes ty
        let va := base + (i.setWidth 64 <<< lg)
        let op : JOp := .emb ty (rndOf rm) va scale grad
        match s.chkSeg c.t seg va rb rb true true with
        | some e => .excKeep s e
        | none =>
          if s.isOwn c.t va then
            match s.chkSp c.t va rb with
            | some e => .excKeep s e
            | none =>
              match c.embOwn s s1 op with
              | .ok s2 => Cx.embLoop c ty rm seg base ix scale grad lg done k s2
              | .error e => .excKeep s e
          else
            match c.post s1 [op] with
            | .ok s2 => Cx.embLoop c ty rm seg base ix scale grad lg done k s2
            | _ => .raw (s.waitAnew c.aid .entry)

/-- The flags that an EMBUPD had staged when an exception or a trap suspended it are staged again as it goes on (R82, R255). -/
def Thread.takeKept (t : Thread) : Thread :=
  { t with
    stage := (t.kept.filter (fun e => e.1 == t.pc)).foldl (fun f e => f ||| e.2) t.stage
    kept := t.kept.filter (fun e => e.1 != t.pc) }

/-- EMBUPD (R255): its sources are read at issue, with the acquire of their pops (R107), and consumed when it completes. -/
def execEmbupd (h : Hdr) (ty : Ty) (r : Rnd) (d : SReg) (seg : BitVec 3) (a : Option SReg) (b : SReg) (cr : VReg)
    (lg : BitVec 6) : State → Host.Outcome State Fault Refusal :=
  let srcs := optS a ++ [.v cr, .s d]
  runS { h := h, own := [.s b], aff := [.s b], peek := srcs, heavy := true, mem := true } (fun c =>
      match c.peeks c.s srcs with
      | .empty => .stall true
      | .exc e _ => .exc e
      | .fault va k s1 => .fault va k s1
      | .got vs us s1 =>
        let x (i : Nat) : Dword := (vs.getD i 0).setWidth 64
        let i := a.isSome.toNat
        let s2 := if srcs.any (fun n => (c.s.boundTo c.aid n).isSome) then c.unread s1 us else c.s
        let s3 := if c.t.kept.any (fun e => e.1 == c.pc) then s2.modTh c.aid Thread.takeKept else s2
        let fin (s : State) : R :=
          let s1 := match c.peeks s srcs with
            | .got _ _ s1 => s1
            | _ => s
          .ok (s1.modTh c.aid (fun t => { t.orFlags t.stage with stage := 0 }))
        c.embLoop ty (c.t.modeNoSt r) seg ((c.s.seg c.t seg).base + (if a.isSome then x 0 else 0)) (pnameS b) (x (i + 1))
          (vs.getD i 0) lg.toNat fin (c.s.left c.aid (pnameS b) + 1) s3)

end Sys2Proof.Machine
end

