-- ==== Sys2Proof/Machine/KeyOps.lean ====
section
/-!
DEFINITION. Tree types and key tables as they issue, and the apply move: opcodes 0xC0 to 0xC7, and HPOS (R279 to R289).
-/

namespace Sys2Proof.Machine

/-! ### TRSET (R280) -/

/-- The launch holds a cell map of a space with V = 1 (R280 check 3). -/
def State.hasSpace (s : State) (tag : BitVec 32) (n : Nat) : Bool :=
  match s.launch? tag with
  | some l => (l.space? n).isSome
  | none => false

/-- A tree type installed on every core of a panel. -/
def State.installTree (s : State) (l : Launch) (tr : Nat) (t : TreeTy) : State :=
  l.cores.foldl (fun s c => s.modCore c (fun k => { k with trees := vwr k.trees tr (some t) })) s

/-- TRSET (R280): the checks, plain reads, and the installation on every core of the panel in one move; a release. -/
def execTrset (h : Hdr) (tr : BitVec 2) (m : MemOp) : State → Host.Outcome State Fault Refusal :=
  runS { h := h, len := memLen m, rd := memNames m, first := true, mem := true } (fun c =>
    let va := c.ea m 0
    match c.s.chkSeg c.t m.seg va 272 16 true false with
    | some e => .exc e
    | none =>
      match c.s.chkSp c.t va 272 with
      | some e => .exc e
      | none =>
        if c.relReady = false then .stall false
        else
          (c.s.piecesFor c.aid va .read 2 272).bind (fun ps s1 =>
            match s1.readPieces c.aid va ps with
            | .error x => .exc x
            | .ok (bs, s2) =>
              match s2.launch? c.t.ltag with
              | none => .exc { cause := 24 }
              | some l =>
                match readTree l.ktu (fun i => (dwordAt bs i).toNat) with
                | none => .exc { cause := 24 }
                | some t =>
                  if (vrd (s2.core c.core).trees tr.toNat).isSome ∨ s2.hasSpace l.tag t.ksp = false then .exc { cause := 24 }
                  else .ok ((s2.endRegion c.ag).installTree l tr.toNat t)))

/-! ### Posted operations (R283, R286) -/

/-- The node that an instruction names, when it passes the checks of R283; `chk` admits a CHECK node, `ty` is the type of an
operand that goes to or comes from its lanes. -/
def Cx.node (c : Cx) (tree node : Nat) (chk : Bool) (ty : Option Ty) : Option TreeNode :=
  match (c.s.core c.core).node? tree node with
  | none => none
  | some n => if (n.kind = 3 ∧ chk = false) ∨ (ty = some .fx64 ∧ n.fx = false) then none else some n

/-- Registers of a vector operand of a type: one, or a pair of 64-bit elements (R283). -/
def keyRegs (ty : Ty) (v : VReg) : List Nm := if tyBits ty = 64 then [.v v, .v (v + 1)] else [.v v]

/-- A posted key-table operation with the flags of its conversions, which commit when it issues. -/
def Cx.postKey (c : Cx) (op : JOp) (fl : Flags) : R := c.post (c.s.modTh c.aid (fun t => t.orFlags fl)) [op]

/-- KACC (R283): mask bit j governs lane j. -/
def execKacc (h : Hdr) (ty : Ty) (r : Rnd) (a : SReg) (cv : VReg) (tree : BitVec 2) (node : BitVec 4) (e0 e1 : BitVec 16)
    (mk : MReg) : State → Host.Outcome State Fault Refusal :=
  runS { h := h, len := 16, rd := .s a :: keyRegs ty cv, masks := [mk], mem := true } (fun c =>
    match c.node tree.toNat node.toNat false (some ty) with
    | none => .exc { cause := 24 }
    | some n =>
      let rm := c.t.modeNoSt r
      let (ls, fl) := keyLanes n ty rm (c.t.rM mk) (c.v 1) (c.v 2)
      c.postKey (.key 0 tree.toNat node.toNat (c.x 0) ls (e0.signExtend 64) (rndOf rm) e1) fl)

/-- KPUT (R286). -/
def execKput (h : Hdr) (ty : Ty) (r : Rnd) (a : SReg) (b : Option SReg) (cv : VReg) (tree : BitVec 2) (node : BitVec 4) :
    State → Host.Outcome State Fault Refusal :=
  runS { h := h, rd := [.s a] ++ optS b ++ keyRegs ty cv, mem := true } (fun c =>
    match c.node tree.toNat node.toNat true (some ty) with
    | none => .exc { cause := 24 }
    | some n =>
      let i := 1 + b.isSome.toNat
      let rm := c.t.modeNoSt r
      let (ls, fl) := keyLanes n ty rm (BitVec.allOnes 32) (c.v i) (c.v (i + 1))
      c.postKey (.key 1 tree.toNat node.toNat (c.x 0) ls (if b.isSome then c.x 1 else 1) (rndOf rm) 0) fl)

/-- KDEL (R286). -/
def execKdel (h : Hdr) (a : SReg) (tree : BitVec 2) (node : BitVec 4) : State → Host.Outcome State Fault Refusal :=
  runS { h := h, rd := [.s a], mem := true } (fun c =>
    match c.node tree.toNat node.toNat true none with
    | none => .exc { cause := 24 }
    | some _ => c.postKey (.key 2 tree.toNat node.toNat (c.x 0) [] 0 .rne 0) 0)

/-- KMERGE (R286). -/
def execKmerge (h : Hdr) (a : SReg) (tree : BitVec 2) (node : BitVec 4) : State → Host.Outcome State Fault Refusal :=
  runS { h := h, rd := [.s a], mem := true } (fun c =>
    match c.node tree.toNat node.toNat true none with
    | none => .exc { cause := 24 }
    | some _ => c.postKey (.key 3 tree.toNat node.toNat (c.x 0) [] 0 .rne 0) 0)

/-- KEY_TABLE_APPLY (R283, R286): a sent key-table operation performs at its owner, or is refused. -/
def execKeyTableApply (core idx : Nat) (s : State) : Host.Outcome State Fault Refusal :=
  match vrd (s.core core).jrn idx with
  | some e =>
    match e.op with
    | .key _ _ _ _ _ _ _ _ => .next (if e.st = .sent then s.performEnt core idx e (!s.here core) else s)
    | _ => .next s
  | none => .next s

/-! ### Reads (R285, R287) -/

/-- The name of a predicate that is written; p0 takes no value (R39). -/
def predNames (p : PReg) : List Nm := if p = 0 then [] else [.p p]

/-- KGET (R285). -/
def execKget (h : Hdr) (ty : Ty) (r : Rnd) (d : VReg) (a : SReg) (p : PReg) (cr : Option SReg) (tree : BitVec 2)
    (node : BitVec 4) : State → Host.Outcome State Fault Refusal :=
  let wr := keyRegs ty d ++ predNames p ++ optS cr
  runS { h := h, rd := [.s a], wr := wr, long := true, mem := true } (fun c =>
    match c.node tree.toNat node.toNat true (some ty) with
    | none => .exc { cause := 24 }
    | some _ => c.long (.kget ty (rndOf (c.t.modeNoSt r)) d p cr tree.toNat node.toNat (c.x 0)) wr)

/-- KPROBE (R285). -/
def execKprobe (h : Hdr) (p : PReg) (a : SReg) (tree : BitVec 2) (node : BitVec 4) :
    State → Host.Outcome State Fault Refusal :=
  runS { h := h, rd := [.s a], wr := predNames p, long := true, mem := true } (fun c =>
    match c.node tree.toNat node.toNat true none with
    | none => .exc { cause := 24 }
    | some _ => c.long (.kprobe p tree.toNat node.toNat (c.x 0)) (predNames p))

/-- The first entry of a node at a way from `cursor` on, below a limit (R287). -/
def Core.scan (k : Core) (tree node cursor limit : Nat) : Option (Nat × KeyEnt) :=
  k.keys.foldl (fun best e =>
    if e.2.tree = tree ∧ e.2.node = node ∧ cursor ≤ e.1 ∧ e.1 < limit then
      match best with
      | some b => if e.1 < b.1 then some e else best
      | none => some e
    else best) none

/-- An earlier key-table operation of a thread is under way: KSCAN, which may read its entry, follows it (R119). -/
def State.keyBusy (s : State) (aid : Nat) : Bool :=
  (s.core (s.th aid).core).entries.any (fun e => e.aid == aid && e.live && (match e.op with
    | .key _ _ _ _ _ _ _ _ => true
    | _ => false))

/-- KSCAN (R284, R287): it ends the region whether or not it finds an entry. -/
def execKscan (h : Hdr) (d a cr : SReg) (tree : BitVec 2) (node : BitVec 4) : State → Host.Outcome State Fault Refusal :=
  runS { h := h, rd := [.s a], wr := [.s d, .s cr], mem := true, sync := true } (fun c =>
    match c.node tree.toNat node.toNat true none with
    | none => .exc { cause := 24 }
    | some _ =>
      if c.s.keyBusy c.aid then .stall false
      else
        let tag := c.t.ltag
        let limit := match c.s.launch? tag with
          | some l => 8 * l.buckets
          | none => 0
        let s1 := c.s.endRegion c.ag
        match (c.s.core c.core).scan tree.toNat node.toNat (c.x 0).toNat limit with
        | none => .ok ((s1.wrS c.aid cr 0).wrS c.aid d (BitVec.allOnes 64))
        | some (w, e) =>
          let o := Obj.entry tag.toNat tree.toNat node.toNat e.key
          let s2 := s1.modTh c.aid (fun t => { t with reads := (o :: t.reads).eraseDups })
          .ok ((s2.wrS c.aid cr e.key).wrS c.aid d (BitVec.ofNat 64 (w + 1))))

/-- HPOS (R289). -/
def execHpos (h : Hdr) (d a : SReg) (sp : BitVec 4) : State → Host.Outcome State Fault Refusal :=
  runS { h := h, rd := [.s a], wr := [.s d] } (fun c =>
    match (c.s.launch? c.t.ltag).bind (fun l => l.space? sp.toNat) with
    | none => .exc { cause := 40 }
    | some x => .ok (c.setS d (x.hposPoint sp.toNat (c.x 0))))

end Sys2Proof.Machine
end

