-- ==== Sys2Proof/Machine/Fetch.lean ====
section
/-!
DEFINITION. Fetching an instruction (R42, R136, R151 steps 1 to 3), what stands before an issue (R14, R205, R213, R292, R332),
and the placing of an instruction where the next fetch reads it.
-/

namespace Sys2Proof.Machine

/-- What a fetch meets. -/
inductive Fetched where
  | instr (i : Instr) (s : State)
  | exc (e : Exc) (npc : Dword) (s : State)
  | fault (va : Dword) (reason : Nat) (s : State)
  /-- The word lies in the scratchpad of an absent context, which holds the access (R361). -/
  | held

/-- The cause of a word that decodes to nothing (R151 steps 1 to 3). -/
def rejectCause : Reject → Nat
  | .illegalLength => 1
  | .fetchBoundary => 2
  | _ => 3

/-- Bytes from an instruction to the next, for NPC: 8, the shortest length, where LEN gives none (DEDUCED, log 17). -/
def stepBytes (n : Nat) : Dword := if n = 0 then 8 else BitVec.ofNat 64 n

/-- A word of the fetch block that holds the thread's program counter, by the block's bytes from it on: the segment check of R42 on
every byte that LEN gives it, those past the end of the block among them, comes before the checks of R151 (DESIGN CHOICE, log 26). -/
def State.fetchWord (s : State) (aid : Nat) (bs : List Byte) : Fetched :=
  let t := s.th aid
  let n := lenBytes ((bs.headD 0).setWidth 2)
  if s.fetchOk t n = false then .exc (segExc t.core t.pc) (t.pc + stepBytes n) s
  else
    match decode bs with
    | .ok i => .instr i s
    | .error r => .exc { cause := rejectCause r } (t.pc + stepBytes n) s

/-- The fetch at the thread's program counter: segments, translation with X, the bytes up to the end of the 32-byte fetch
block, and their decoding. A supervisor slot that BUP does not yet let start fetches nothing (R395). NPC of an exception whose word
is not read is pc + 8 (log 17). -/
def State.fetch (s : State) (aid : Nat) : Fetched :=
  let t := s.th aid
  let npc := t.pc + stepBytes 0
  if s.fetchOk t 1 = false then .exc (segExc t.core t.pc) npc s
  else
    match s.reachTh aid t.pc 1 .fetch with
    | (.fault r, s1) => .fault t.pc r s1
    | (.mem p, s1) => s1.fetchWord aid (s1.bytes p (32 - t.pc.toNat % 32))
    | (.host p, s1) => s1.fetchWord aid (s1.bytes p (32 - t.pc.toNat % 32))
    | (.absent _, _) => .held
    | (.check, s1) => .exc (checkExc t.core t.pc) npc s1
    | (.soft, s1) => .exc (softExc t.core t.pc) npc s1
    | (_, s1) => .exc (errExc t.core t.pc) npc s1

/-- Instructions that act as a switch marker before they execute (R54, R184, R188, R189, R221, R262, R270, R280, R291,
R294, R298). -/
def markerFirst : Instr → Bool
  | .spawn _ _ _ _ | .join _ _ | .exit _ _ | .exitRep _ _ _ _ | .yield _ | .waitFull _ _ | .waitZero _ _
  | .waitNe _ _ _ _ | .evwait _ _ | .tack _ _ _ | .tackDone _ | .tkwait _ _ | .tkwaitFrame _ _
  | .ldFe _ _ _ _ _ | .ldFec _ _ _ _ _ | .wlatch _ _ _ | .mma _ _ _ _ _ _ _ | .mstat _ _ | .mstatPeek _ _
  | .pbind _ _ _ _ _ | .trset _ _ _ | .bindpos _ _ _ | .posset _ _ | .migrCore _ _ | .migrAddr _ _ | .unbind _
  | .nbrS _ _ _ _ _ _ _ | .nbrBuf _ _ _ _ _ _ _ _ | .cqput _ _ _ _ _ _ | .hwaitFree _ _ | .hwaitFull _ _
  | .hwaitTake _ _ | .accsave _ _ _ _ | .accload _ _ _ _ | .ctxoutCore _ _ _ _ | .ctxoutMem _ _ _ _ | .ctxin _ _ _ _
  | .xlinvVa _ _ _ _ | .xlinvTag _ _ _ _ | .xlinvAll _ _ _ _ | .rtswap _ _ _ _ | .haltWait _ | .haltStop _ => true
  | .mfu _ _ num | .mtu _ num _ => num == 0x010 || num == 0x011 || num == 0x012
  | _ => false

/-! ### Taking a request (R331, R332) -/

/-- Slot 15 may take the head of its queue (R332): SIT is 0, its latch is not armed, and for a message the message latch
is not armed. -/
def State.canTake (s : State) (core : Nat) : Bool :=
  let k := s.core core
  !k.sit && !(s.latch core 15).armed && (vrd k.sst 15 == .running) &&
    (match k.reqs with
     | [] => false
     | .slot _ :: _ => true
     | .msg _ _ _ _ _ _ :: _ => !(s.latch core 16).armed)

/-- A system message taken into the message latch (R332): cause 45, the sender, the payload. -/
def State.takeMessage (s : State) (core : Nat) (sender p0 p1 p2 p3 : Dword) (rel : List Contrib) : State :=
  let l : Latch := ⟨causeWord { cause := 45 } true false false, 0, 0, sender, p0, 0, 0⟩
  let s1 := s.modCore core (fun k =>
    { k with reqs := k.reqs.tail, lat := vwr k.lat 16 l, smsg := ⟨#[p0, p1, p2, p3], rfl⟩ })
  (s1.takeRequest core 16).syncFrom (.thread (superAid core 15)) rel

/-- Slot 15 takes the head of its queue; taking a slot's request acquires that slot's release (R331). -/
def State.takeHead (s : State) (core : Nat) : State :=
  match (s.core core).reqs with
  | [] => s
  | .slot n :: r =>
    let s1 := (s.modCore core (fun k => { k with reqs := r })).takeRequest core n
    s1.syncFrom (.thread (superAid core 15)) (s1.contribs (.latch (s.slotHome core n) n))
  | .msg a p0 p1 p2 p3 rel :: _ => s.takeMessage core a p0 p1 p2 p3 rel

/-- Bytes of the instruction at the thread's program counter, 8 where it cannot be read (log 17). -/
def State.lenAt (s : State) (aid : Nat) : Dword :=
  match s.reachTh aid (s.th aid).pc 1 .fetch with
  | (.mem p, _) => stepBytes (lenBytes ((s.byte p).setWidth 2))
  | (.host p, _) => stepBytes (lenBytes ((s.byte p).setWidth 2))
  | _ => stepBytes 0

/-! ### Before an issue -/

/-- A core's slots may issue (R397): the package is not in P2 or P3, and the cluster is not gated. -/
def State.powered (s : State) (core slot : Nat) : Bool :=
  s.pwr.toNat < 2 && !(s.clu (clusterOf (if slot = 15 then core else s.phys core))).gated

/-- Past a marker a thread issues nothing until no name of it is outstanding (R14); a cancelled one ends there once all that is
left waits for ever (R205, R259). -/
def State.heldBack (s : State) (aid : Nat) : Bool :=
  let t := s.th aid
  t.marked && !t.outNames.isEmpty && !(t.ending && s.stuck aid)

/-- The slot holds a running thread that waits for nothing and is in the rotation. -/
def State.ready (s : State) (core slot : Nat) : Bool :=
  match s.occ core slot with
  | some aid =>
    let t := s.th aid
    s.powered core slot && (slot == 15 || s.here core) && vrd (s.core core).sst slot == .running && t.wait.isNone && t.inRot && !s.heldBack aid
  | none => false

/-- A trap of the thread to take before its next instruction: its raised exception, else its oldest pending trap (R209,
R213). -/
def State.trapDue (s : State) (aid : Nat) : Bool :=
  let t := s.th aid
  t.pend.isSome || !t.traps.isEmpty

/-- The pending trap of an earlier instruction comes first, in issue order (R213). -/
def firstTrap : List ATrap → Option ATrap
  | [] => none
  | x :: l =>
    match firstTrap l with
    | some y => if y.order < x.order then some y else some x
    | none => some x

/-- A trap leaves the pending list. -/
def dropTrap (x : ATrap) : List ATrap → List ATrap
  | [] => []
  | y :: l => if y = x then l else y :: dropTrap x l

/-- Trap entry of a thread once nothing that it issued is outstanding (R209, R213): a raised exception, else the first pending trap,
whose PC and NPC are the next instruction to issue and the one after it (log 17). An exception raised by the frame access or by the
first fetch of a handler is the second fault of a double fault (R209, R333). A cancelled thread does not wait for what waits for ever
(R101, R205). -/
def State.trapTake (s : State) (aid : Nat) : State :=
  let t := s.th aid
  if !t.outst.isEmpty then (if t.ending && s.stuck aid then s.endThread aid true else s)
  else
    match t.pend with
    | some e =>
      let s1 := s.putTh aid { t with pend := none }
      if t.entering then (s1.noteExc aid e).handlerLost aid e.noted t.pc t.pnpc
      else s1.enterTrap aid e false false t.pc t.pnpc
    | none =>
      match firstTrap t.traps with
      | none => s
      | some x =>
        let s1 := s.enterTrap aid x.exc true x.replay t.pc (t.pc + s.lenAt aid)
        if (s1.th aid).wait.isSome then s1
        else s1.modTh aid (fun t => { t with traps := dropTrap x t.traps })

/-- A light thread departs for another core (R54, R130): its journal is clear and no trap is pending; a release. -/
def State.departFor (s : State) (aid dst : Nat) : State :=
  let t := s.th aid
  let (ks, s1) := s.syncSend (.thread aid)
  let s2 := if t.loc = .slot then s1.leaveSlot aid (.transit dst) else s1.unqueue t.core aid
  s2.modTh aid (fun t => { t with loc := .transit dst, acq := t.acq ++ ks, depart := none, parked := false })

/-- A thread that is to end at its next marker (R205): cancelled, or the issuer of a CANCEL that has yet to perform, unless it is a
handler (DESIGN CHOICE, log 61). -/
def Thread.ends (t : Thread) : Bool :=
  t.ending || (t.kind != .handler && t.kind != .super && t.outst.any (fun o => match o.op with
    | .post (.cancel _) => true
    | _ => false))

/-- What a thread does at a switch marker, or at an instruction that acts as one, in place of issuing (R130, R205, R292,
R332): slot 15 takes a request; a cancelled thread ends; a thread whose residence changed departs. Each waits until what the thread
issued has performed. -/
def State.atMarker (s : State) (core slot aid : Nat) : Option State :=
  let t := s.th aid
  if slot = 15 && s.canTake core then some (if t.outst.isEmpty then s.takeHead core else s.park aid false)
  else if t.ends then some (s.park aid true)
  else
    match t.depart with
    | some d =>
      if s.journalClear aid && t.outst.isEmpty then some (s.departFor aid d) else some (s.park aid false)
    | none => none

/-- An exception of a fetch; that of the first fetch of a handler is the second fault of a double fault (R209, R333). -/
def State.fetchExc (s : State) (aid : Nat) (e : Exc) (npc : Dword) : State :=
  let t := s.th aid
  if t.entering then (s.noteExc aid e).handlerLost aid e.noted t.pc npc else s.raise aid e npc

/-! ### Placing an instruction -/

/-- The page tables by which the page of an address is mapped to physical page 0x1_0000 with every right, in a pool at
0x20_0000: ASID table at offset 0, root at 0x8_0000, one node for each level below (R369, R370). -/
def placeTables (asid va : Nat) : List (Nat × Nat) :=
  [ (0x200000 + 8 * asid, 0x80000 + 1),
    (0x280000 + 8 * bits va 47 39, 0x81000 + 1),
    (0x281000 + 8 * bits va 38 30, 0x82000 + 1),
    (0x282000 + 8 * bits va 29 21, 0x83000 + 1),
    (0x283000 + 8 * bits va 20 16, 0x10000 + 0x1F) ]

/-- The state in which the thread of the current slot is ready and its next fetch reads the bytes of `w`, followed by
zeros up to the longest instruction. -/
def State.placeWord (s : State) (nbits w : Nat) : State :=
  let (core, slot) := s.cur
  let aid := (s.occ core slot).getD (superAid core slot)
  let t := { s.th aid with
    outst := [], traps := [], pend := none, wait := none, inRot := true, marked := false, parked := false
    depart := none, entering := false, ending := false, stage := 0 }
  let s1 := ((s.putTh aid t).setSlot core slot (some aid) .running)
  let s2 := { s1 with
    turns := [.issue core slot], bup := 4, pwr := 0, ptpb := 0x200000, ptps := 0x200000, atb := 0, atn := 0x10000
    clus := amSet s1.clus (s1.port t) { s1.clu (s1.port t) with tlb := [], gated := false } }
  let m := (placeTables (s2.asid t) t.pc.toNat).foldl (fun m e => m.put e.1 (leBytes 8 e.2)) s2.mem
  { s2 with
    bad := s2.bad.filter (fun b => match b with
      | .phys a => decide (0x300000 ≤ a)
      | .sp _ _ => true)
    mem := m.put (0x10000 + t.pc.toNat % 65536) (leBytes 16 (w % 2 ^ nbits)) }

end Sys2Proof.Machine
end

