-- ==== Sys2Proof/Machine/Streams.lean ====
section
/-!
DEFINITION. Bindings and network stream ports: opcodes 0xB9 to 0xBD (R97 to R107, R270 to R275), and the moves of the stream
unit and of the network (R102, R273, R274).
-/

namespace Sys2Proof.Machine

/-! ### Stream descriptors (R98, R100) -/

/-- A signed 32-bit field. -/
def sfield (x hi lo : Nat) : Int := intOf true (hi + 1 - lo) (bits x hi lo)

/-- The four dwords of a descriptor as numbers. -/
def descDwords (bs : List Byte) : List Nat := (List.range 4).map (fun i => leVal ((bs.drop (8 * i)).take 8))

/-- The stream of a descriptor, none where a reserved field is set or the direction differs; `seg` gives segment
bases (R98). -/
def readDesc (out : Bool) (dw : List Nat) (base : BitVec 3 → Dword) : Option Stream :=
  let d0 := dw.getD 0 0
  let n := bits d0 55 54
  let seg : BitVec 3 := BitVec.ofNat 3 (bits d0 50 48)
  let counts := (List.range 4).map (fun i => bits (dw.getD 1 0) (16 * i + 15) (16 * i))
  let strides := (List.range 4).map (fun i => sfield (dw.getD (2 + i / 2) 0) (32 * (i % 2) + 31) (32 * (i % 2)))
  if bits d0 63 56 ≠ 0 ∨ bitAt d0 51 ≠ out ∨ (counts.drop (n + 1)).any (fun x => x != 0) = true ∨
      (strides.drop (n + 1)).any (fun x => x != 0) = true then none
  else
    some { size := bits d0 53 52, counts := counts.take (n + 1), stride := strides.take (n + 1)
           base := base seg + BitVec.ofNat 64 (bits d0 47 0), seg := seg, taken := 0, ahead := [], unwr := [], since := 0, fault := none }

/-- The address of the first element that is not aligned to the element size (R100 check 2): element 0, or the second
element along the innermost dimension whose stride is not a multiple. -/
def Stream.misaligned (st : Stream) : Option Dword :=
  let n : Int := 2 ^ st.size
  if st.total = 0 then none
  else if (st.base.toNat : Int) % n ≠ 0 then some st.base
  else
    ((st.counts.zip st.stride).find? (fun e => decide (2 ≤ e.1) && decide (e.2 % n ≠ 0))).map
      (fun e => st.base + BitVec.ofInt 64 e.2)

/-- Lowest address of an element and the address past the highest byte (R100 check 3). -/
def Stream.extent (st : Stream) : Int × Int :=
  let span (f : Int → Int) : Int := (st.counts.zip st.stride).foldl (fun a e => a + f (((e.1 : Int) - 1) * e.2)) 0
  ((st.base.toNat : Int) + span (fun x => min x 0), (st.base.toNat : Int) + span (fun x => max x 0) + 2 ^ st.size)

/-- The bytes that a stream addresses pass the segment check for its direction (R100 check 3). -/
def State.streamOk (s : State) (t : Thread) (out : Bool) (st : Stream) : Bool :=
  let (lo, hi) := st.extent
  st.total == 0 || (decide (0 ≤ lo ∧ hi ≤ 2 ^ 64) && (s.seg t st.seg).grants lo.toNat (hi - lo).toNat (!out) out)

/-! ### Which port ends are held (R97, R105, R106) -/

/-- The ends that a binding of a port holds: kind, number, out. -/
def portEnds (out fwd : Bool) : PortSel → List (Nat × Nat × Bool)
  | .affine _ _ _ => []
  | .link east _ => (1, east.toNat, out) :: (if fwd then [(1, (!east).toNat, true)] else [])
  | .queue n _ => [(2, n.toNat, out)]
  | .net n _ => [(3, n.toNat, false)]

/-- The ends that an existing binding holds. -/
def Binding.ends (b : Binding) : List (Nat × Nat × Bool) :=
  match b.port with
  | .affine _ => []
  | .link east => portEnds b.out b.fwd (.link east false)
  | .queue n => [(2, n, b.out)]
  | .net n => [(3, n, false)]

/-- Affine streams bound on a core (R100 check 4). -/
def Core.affines (k : Core) : Nat :=
  (k.binds.filter (fun b => match b.port with
    | .affine _ => true
    | _ => false)).length

/-- A binding added. -/
def Cx.bindAs (c : Cx) (s : State) (name : PName) (out fwd : Bool) (p : PortKind) : R :=
  .ok (s.modCore c.core (fun k => { k with binds := k.binds ++ [⟨c.aid, name, out, fwd, p⟩] }))

/-- PBIND of an affine stream (R100): the checks of a 32-byte load, the descriptor read, then its own checks in order. -/
def Cx.bindAffine (c : Cx) (name : PName) (out : Bool) (seg : BitVec 3) (a : Option SReg) (imm : Option (BitVec 32)) : R :=
  let va := c.ea ⟨seg, a, none, 0, imm⟩ 0
  match c.s.chkSeg c.t seg va 32 32 true false with
  | some e => .exc e
  | none =>
    match c.s.chkSp c.t va 32 with
    | some e => .exc e
    | none =>
      if c.s.wordBusy c.aid va 32 then .stall false
      else
        (c.s.placeFor c.aid va 32 .read false).bind (fun p s1 =>
          match s1.plainRead c.aid c.core false p 32 with
          | .error x => c.conflict va p x
          | .ok (_, s2) =>
            match readDesc out (descDwords (s1.bytes p 32)) (fun g => (s2.seg c.t g).base) with
            | none => .exc { cause := 18 }
            | some st =>
              match st.misaligned with
              | some x => .exc { cause := 12, addr := reportAddr c.core x }
              | none =>
                if s2.streamOk c.t out st = false then
                  .exc { cause := 9, addr := reportAddr c.core (BitVec.ofInt 64 st.extent.1) }
                else if 8 ≤ (s2.core c.core).affines then .exc { cause := 19 }
                else c.bindAs s2 name out false (.affine { st with since := c.t.seq }))

/-- The port of spK is open in a direction (R270 check 4). -/
def NetPort.opens (p : NetPort) (out : Bool) : Bool :=
  match p.st with
  | .closed => false
  | .sending _ _ => out
  | _ => !out

/-- The port lands its elements in a ring. -/
def NetPort.lands (p : NetPort) : Bool :=
  match p.st with
  | .landing _ => true
  | _ => false

/-- PBIND (R97, R270). -/
def execPbind (h : Hdr) (name : PName) (out fwd : Bool) (p : PortSel) : State → Host.Outcome State Fault Refusal :=
  let rd := match p with
    | .affine _ a _ => optS a
    | _ => []
  runS { h := h, len := if p.f96 then 12 else 8, rd := rd, heavy := true, noHandler := true, first := true, mem := true } (fun c =>
    let k := c.s.core c.core
    let held := k.binds.flatMap Binding.ends
    if (c.s.bindOf c.aid name).isSome || (portEnds out fwd p).any held.contains then .exc { cause := 17 }
    else
      match p with
      | .affine seg a imm => c.bindAffine name out seg a imm
      | .link east _ =>
        if (c.s.linkPeer c.core east).isNone || (fwd && (c.s.linkPeer c.core (!east)).isNone) then .exc { cause := 20 }
        else c.bindAs c.s name out fwd (.link east)
      | .queue n _ => c.bindAs c.s name out false (.queue n.toNat)
      | .net n _ =>
        let q := vrd k.net n.toNat
        if q.opens out = false then .exc { cause := 37 }
        else if q.lands || q.opener != some c.aid then .exc { cause := 17 }
        else c.bindAs c.s name out false (.net n.toNat))

/-- The register of a name reads as zero (R40). -/
def Thread.clearName (t : Thread) (n : PName) : Thread :=
  let r : BitVec 5 := BitVec.ofNat 5 (24 + n.n.toNat)
  if n.vec then t.wV r 0 else t.wS r 0

/-- PUNBIND (R103, R107, R271): it waits until the elements pushed to an output stream are written. It does not wait for an OFILL.s or an
EMBPOOL of the thread that has yet to take elements of the name, which then waits for ever (DESIGN CHOICE, log 30). -/
def execPunbind (h : Hdr) (name : PName) : State → Host.Outcome State Fault Refusal :=
  runS { h := h, heavy := true, noHandler := true, mem := true } (fun c =>
    match c.s.bindOf c.aid name with
    | none => .ok c.s
    | some b =>
      if (match b.port with
          | .affine st => !st.unwr.isEmpty
          | _ => false) then .stall false
      else
        let s1 := c.s.modCore c.core (fun k =>
          { k with binds := k.binds.filter (fun b => !(b.aid == c.aid && b.name == name)) })
        .ok (s1.modTh c.aid (fun t => t.clearName name)))

/-- What PDRAIN takes from a queue, noted for an exception of an earlier instruction (R34). -/
def Cx.drained {α : Type} (c : Cx) (u : α → Undo) (es : List α) : State :=
  es.foldl (fun s e => s.record c.aid c.t.seq (u e)) c.s

/-- PDRAIN (R272): what the port holds is discarded, or its output waited for; no synchronising operation. An OFILL.s or an EMBPOOL that
has yet to take elements of the name finds the stream exhausted (DESIGN CHOICE, log 30). -/
def execPdrain (h : Hdr) (d : SReg) (name : PName) : State → Host.Outcome State Fault Refusal :=
  runS { h := h, wr := [.s d], heavy := true, noHandler := true, long := true, mem := true } (fun c =>
    let known (s : State) (n : Nat) : R := ({ c with s := s } : Cx).long (.known d (BitVec.ofNat 64 n)) [.s d]
    let k := c.s.core c.core
    match c.s.bindOf c.aid name with
    | none => known c.s 0
    | some b =>
      if b.out then c.long (.drain d b.port) [.s d]
      else
        match b.port with
        | .affine st =>
          known (c.s.putBind { b with port := .affine { st with taken := st.total, ahead := [] } }) (st.total - st.taken)
        | .link east =>
          known ((c.drained (.link east) (k.linkIn east)).modCore c.core (fun k => k.setLinkIn east [])) (k.linkIn east).length
        | .queue n =>
          known ((c.drained (.queue n) (vrd k.sq n)).modCore c.core (fun k => { k with sq := vwr k.sq n [] })) (vrd k.sq n).length
        | .net n =>
          let p := vrd k.net n
          let es := p.q.filter (fun e => !e.close)
          known ((c.drained (.net n) es).putNet c.core n { p with q := p.q.filter (·.close) }) es.length)

/-! ### The stream unit's moves (R102) -/

/-- STREAM_ELEMENT_READ (R102): the stream unit reads the next element of a core's binding ahead of its pop. A read that
finds a conflict, a refusal or a page fault is not performed; the pop that needs the element makes it again. -/
def execStreamElementRead (core name : Nat) (s : State) : Host.Outcome State Fault Refusal :=
  match (s.core core).binds[name]? with
  | none => .next s
  | some b =>
    match b.port with
    | .affine st =>
      let i := st.taken + st.ahead.length
      if b.out ∨ st.total ≤ i ∨ s.here core = false ∨ s.elemBusy b.aid st.since (st.addr i) (2 ^ st.size) = true ∨
          s.elemHeld b.aid st.since (st.addr i) (2 ^ st.size) = true then .next s
      else
        match s.elemRead b.aid st i with
        | .ok x s1 => .next (s1.putBind { b with port := .affine { st with ahead := st.ahead ++ [x] } }).consume
        | _ => .next s
    | _ => .next s

/-- An element pushed at place `q` in issue order may be written: it is a plain write of the thread, behind its earlier reads that may yet
raise, its acquires, and what touches a word of it (R102, R119). -/
def State.elemGoes (s : State) (aid q : Nat) (va : Dword) (n : Nat) : Bool :=
  s.canGo aid q 0 (.post (.write va ((List.range n).map (fun i => (i, 0))) .plain none))

/-- STREAM_ELEMENT_WRITE (R102): the stream unit writes the oldest pushed element of a core's binding; one that meets a page
fault waits there for its reply (R375). -/
def execStreamElementWrite (core name : Nat) (s : State) : Host.Outcome State Fault Refusal :=
  match (if s.here core then (s.core core).binds[name]? else none) with
  | none => .next s
  | some b =>
    if (match b.port with
        | .affine st => (st.unwr.take 1).any (fun e => !s.elemGoes b.aid e.1 e.2.1 (2 ^ st.size))
        | _ => false) then .next s
    else
      match s.elemWrite b with
      | .ok () s1 => .next s1
      | .fault va r s1 =>
        let t := s.th b.aid
        .next (s1.pageFault (s.port t) (s.asid t) va 0 r t.ltag (s.place t) (.element b.aid b.name))
      | _ => .next s

/-! ### Network stream ports (R273 to R275) -/

/-- An SPOPEN or SPCLOSE of the thread on a port has not performed. -/
def Thread.porting (t : Thread) (n : Nat) : Bool := t.outst.any (fun o => o.op.unit == some (.port n))

/-- What an SPOPEN or SPCLOSE finds at its port when it issues; one that follows another of the thread finds it when it performs. -/
def Cx.portExc (c : Cx) (port : BitVec 2) (e : Option Exc) : Option Exc := if c.t.porting port.toNat then none else e

/-- SPOPEN.in (R273). -/
def execSpopenIn (h : Hdr) (port : BitVec 2) : State → Host.Outcome State Fault Refusal :=
  runS { h := h, heavy := true, noHandler := true } (fun c =>
    match c.portExc port (c.s.listenExc c.aid port.toNat) with
    | some e => .exc e
    | none => .ok (c.send c.s (.listen port.toNat none)))

/-- SPOPEN.out (R273). -/
def execSpopenOut (h : Hdr) (d a b : SReg) (port : BitVec 2) : State → Host.Outcome State Fault Refusal :=
  runS { h := h, rd := [.s a, .s b], wr := [.s d], heavy := true, noHandler := true, long := true } (fun c =>
    match c.portExc port (c.s.listenExc c.aid port.toNat) with
    | some e => .exc e
    | none =>
    if 4 ≤ (c.x 1).toNat ∨ c.s.inPanel c.t.ltag (c.x 0).toNat = false then .exc { cause := 31 }
    else c.long (.route d port.toNat (c.x 0).toNat (c.x 1).toNat) [.s d])

/-- SPOPEN.land (R273, R274): the ring lies in the issuing core's own scratchpad and passes the check of segment 0. -/
def execSpopenLand (h : Hdr) (a b : SReg) (port : BitVec 2) : State → Host.Outcome State Fault Refusal :=
  runS { h := h, rd := [.s a, .s b], heavy := true, noHandler := true } (fun c =>
    let va := c.x 0
    let n := (c.x 1).toNat
    match c.portExc port (c.s.listenExc c.aid port.toNat) with
    | some e => .exc e
    | none =>
    if va.toNat % 128 ≠ 0 ∨ n = 0 ∨ n % 128 ≠ 0 then .exc { cause := 12, addr := reportAddr c.core va }
    else
      match c.s.chkSeg c.t 0 va n 128 false true with
      | some e => .exc e
      | none =>
        if c.s.isOwn c.t va = false ∨ c.s.ownOk c.t va n = false then .exc { cause := 13, addr := reportAddr c.core va }
        else .ok (c.send c.s (.listen port.toNat (some ((windowOf c.core va).2, n)))))

/-- SPCLOSE (R275). -/
def execSpclose (h : Hdr) (port : BitVec 2) : State → Host.Outcome State Fault Refusal :=
  runS { h := h, heavy := true, noHandler := true } (fun c =>
    match c.portExc port (c.s.closeExc c.aid port.toNat) with
    | some e => .exc e
    | none => .ok (c.send c.s (.close port.toNat)))

/-- Bytes of an element in a ring: the value, padded to a granule when it is 64 bits wide (R274). -/
def NetEl.ringBytes (e : NetEl) : List Byte := if e.wide then leBytes 128 e.val.toNat else leBytes 8 e.val.toNat ++ leBytes 8 0

/-- Offsets of the granules that an element takes in a ring from its next position, each with 16 bytes (R274). -/
def NetPort.slotsFor (p : NetPort) (e : NetEl) : List (Nat × List Byte) :=
  let bs := e.ringBytes
  (List.range (bs.length / 16)).map (fun i => (p.ring + (p.cur + 16 * i) % p.size, (bs.drop (16 * i)).take 16))

/-- The write of an element into a ring conflicts with an earlier access of another agent that its push does not follow (R123); a reader
that set the granule empty is ordered before it where it released to the pushing thread (log 39). -/
def State.landConflict (s : State) (k : Contrib) (ws : List WordKey) : Option (WordKey × Stamp) :=
  ws.findSome? (fun w =>
    let st := s.stamp w
    ((st.w.toList ++ st.r).find? (fun x => x.ag != k.ag && decide (k.clk.atWord w x.ag < x.n))).map (fun x => (w, x)))

/-- An element lands (R274): its granules are written, as an access of the pushing thread in the region of the push, and set full, a
release of its push. A conflict is reported to that thread, and the element lands (log 39). -/
def State.landElement (s : State) (core i : Nat) (p : NetPort) (e : NetEl) (r : List NetEl) : State :=
  let one (s : State) (g : Nat × List Byte) : State :=
    let q := Place.sp core g.1
    let s1 := match e.rel.head? with
      | some k =>
        let n := k.clk.at k.ag
        let s1 := match s.landConflict k (q.words 16) with
          | some (w, x) =>
            s.engTrap (dieOf (s.phys core)) k.ag (s.rep k.ag) x.rep (wordVa (apertureVa q) q w) 0 false
          | none => s
        (q.words 16).foldl (fun (s : State) w => s.markIn k.ag n w true false) s1
      | none => s
    ((s1.putBytes q g.2).setFull core (g.1 / 16) true).release (.granule core (g.1 / 16)) e.rel
  ((p.slotsFor e).foldl one s).putNet core i { p with q := r, cur := (p.cur + e.ringBytes.length) % p.size }

/-- NETWORK_ELEMENT_LAND (R274). -/
def execNetworkElementLand (core port : Nat) (s : State) : Host.Outcome State Fault Refusal :=
  let p := vrd (s.core core).net port
  match p.st, (if s.here core then p.q else []) with
  | .landing _, e :: r =>
    if e.close ∨ (p.slotsFor e).any (fun g => s.isFull core (g.1 / 16)) = true then .next s
    else .next (s.landElement core port p e r)
  | _, _ => .next s

/-- CLOSING_FLIT (R273): every element before it is taken, and the port listens again. -/
def execClosingFlit (core port : Nat) (s : State) : Host.Outcome State Fault Refusal :=
  let p := vrd (s.core core).net port
  match p.q with
  | e :: r =>
    if e.close then
      match p.st with
      | .receiving _ _ => .next (s.putNet core port { p with st := .listening, q := r })
      | .landing _ => .next (s.putNet core port { p with st := .landing none, q := r })
      | _ => .next s
    else .next s
  | [] => .next s

end Sys2Proof.Machine
end

