-- ==== Sys2Proof/Machine/Positions.lean ====
section
/-!
DEFINITION. Position registries: binding and moving (R130 to R134, R291), pleats and shards (R292, R293), and neighbour
enumeration (R294, R295): opcodes 0xC8 and 0xCA to 0xCD, the hand-over, and the departure and arrival of light threads.
-/

namespace Sys2Proof.Machine

/-! ### Registries and boxes -/

/-- Records of a space of a launch. -/
def Launch.recsOf (l : Launch) (n : Nat) : List PosRec := amGet l.recs n []

/-- Records of a space that lie in a box, as the registry stands (R132, R292). -/
def Launch.inBox (l : Launch) (n : Nat) (b : Box) : Nat := ((l.recsOf n).filter (fun r => b.holds (ptXyz r.pos))).length

/-- Records of a space that a core, by its number in the cell map, holds (R292). -/
def Launch.heldBy (l : Launch) (n : Nat) (sp : Space) (core : Nat) : Nat :=
  ((l.recsOf n).filter (fun r => sp.residence (ptXyz r.pos) r.num == core)).length

/-- Length of a box along an axis. -/
def Box.len (b : Box) (a : Nat) : Nat := ax3 b.hi a - ax3 b.lo a

/-- A box of one point. -/
def Box.isPoint (b : Box) : Bool := (List.range 3).all (fun a => b.len a == 1)

/-- The axis on which a box is longest, ties in the order x, y, z (R292). -/
def Box.axis (b : Box) : Nat := if b.len 0 ≥ b.len 1 ∧ b.len 0 ≥ b.len 2 then 0 else if b.len 1 ≥ b.len 2 then 1 else 2

/-- Where a box is split: its low coordinate plus half its extent. -/
def Box.split (b : Box) : Nat := ax3 b.lo b.axis + b.len b.axis / 2

/-- The low half, which stays with the owner. -/
def Box.low (b : Box) : Box := { b with hi := setAx3 b.hi b.axis b.split }

/-- The high half, which goes to a core. -/
def Box.high (b : Box) (core : Nat) : Box := { b with lo := setAx3 b.lo b.axis b.split, core := core }

/-- Two boxes share a face: they touch on one axis and overlap on the other two. -/
def Box.faces (a b : Box) : Bool :=
  (List.range 3).any (fun x =>
    (decide (ax3 a.hi x = ax3 b.lo x) || decide (ax3 b.hi x = ax3 a.lo x)) &&
      (List.range 3).all (fun y => y == x || decide (ax3 a.lo y < ax3 b.hi y ∧ ax3 b.lo y < ax3 a.hi y)))

/-- The cells of a space, as boxes. -/
def Space.cells (sp : Space) : List Box :=
  (List.range (2 ^ sp.kAx 2)).flatMap (fun z => (List.range (2 ^ sp.kAx 1)).flatMap (fun y =>
    (List.range (2 ^ sp.kAx 0)).map (fun x => sp.cellBox (x * 2 ^ sp.lAx 0, y * 2 ^ sp.lAx 1, z * 2 ^ sp.lAx 2))))

/-- The boxes of a space: those that pleats and shards made, and the cells that none of these lies in (R290). -/
def Space.leaves (sp : Space) : List Box :=
  sp.boxes ++ sp.cells.filter (fun c => !(sp.boxes.any (fun b => c.holds b.lo)))

/-- The receiving core of a pleat (R292): of the owners of boxes that share a face, the one that holds the fewest records,
then the lowest; with none, the lowest other core of the panel. -/
def Launch.receiver (l : Launch) (n : Nat) (sp : Space) (b : Box) : Option Nat :=
  let os := ((sp.leaves.filter (fun x => x.faces b)).map (·.core)).filter (fun c => c != b.core)
  let best := os.foldl (fun (m : Option Nat) c =>
    match m with
    | none => some c
    | some d =>
      let hc := l.heldBy n sp c
      let hd := l.heldBy n sp d
      if hc < hd ∨ (hc = hd ∧ c < d) then some c else some d) none
  match best with
  | some c => some c
  | none => l.cores.find? (fun c => c != b.core)

/-- Entries of a core whose keys are placed in a space and lie in a box, with their ways. -/
def Core.keysIn (k : Core) (n : Nat) (sp : Space) (b : Box) : List (Nat × KeyEnt) :=
  k.keys.filter (fun e => match vrd k.trees e.2.tree with
    | some t => t.ksp == n && b.holds (ptXyz (sp.hposPoint n e.2.key))
    | none => false)

/-- Entries moved to another core, none when one finds its bucket full (R292). No rule gives their order in a bucket: each takes the lowest
free way, in the order of the owner's table (DESIGN CHOICE, log 40). -/
def Core.receive (k : Core) (l : Launch) : List (Nat × KeyEnt) → Option Core
  | [] => some k
  | (_, e) :: es =>
    if l.buckets = 0 then none
    else
      match k.freeWay (l.bucket e.tree e.node e.key) with
      | none => none
      | some w => Core.receive { k with keys := amSet k.keys w e } l es

/-- A box of a space replaced by others. -/
def Space.replaceBox (sp : Space) (b : Box) (bs : List Box) (pleat : Nat) : Space :=
  { sp with boxes := sp.boxes.filter (fun x => x != b) ++ bs, pleats := sp.pleats + pleat }

/-- A space of a launch replaced. -/
def State.putSpace (s : State) (tag : BitVec 32) (n : Nat) (sp : Space) : State :=
  s.modLaunch tag (fun l => { l with spaces := amSet l.spaces n sp })

/-- The core at which a bound thread of a launch resides (R290). -/
def Launch.residenceOf (l : Launch) (t : Thread) : Nat :=
  match l.space? (ptSpace t.pos), t.bnd with
  | some sp, some num => sp.residence (ptXyz t.pos) num
  | _, _ => t.core

/-- Bound threads of a space whose residence is not their core are to depart (R292); one in transit goes on when it
arrives. -/
def State.redirect (s : State) (tag : BitVec 32) (n : Nat) : State :=
  match s.launch? tag with
  | none => s
  | some l =>
    (l.recsOf n).foldl (fun s r =>
      let t := s.th r.aid
      let d := l.residenceOf t
      match t.loc with
      | .slot | .runq | .deque | .blocked =>
        s.modTh r.aid (fun t => { t with depart := if d = t.core then none else some d })
      | _ => s) s

/-- The multicast of a change of the cell map, in the ordered class, to every core of the panel (R292), in the name of slot 15 of the
owner (log 40). -/
def State.mapChange (s : State) (l : Launch) (n src : Nat) : State :=
  s.withFlows (l.cores.map (fun d => ⟨src, superAid (s.phys src) 15, l.tag, d, .cellMap n src⟩))

/-- A box pleated in one move (R292), or left when that is not possible. -/
def State.pleat (s : State) (l : Launch) (n : Nat) (sp : Space) (b : Box) : State :=
  match (if sp.pleats < 63 then l.receiver n sp b else none) with
  | none => s
  | some c =>
    let hi := b.high c
    let src := b.core
    let dst := c
    let moved := (s.core src).keysIn n sp hi
    match (s.core dst).receive l moved with
    | none => s
    | some k =>
      let s1 := (s.putCore dst k).modCore src (fun k =>
        { k with keys := k.keys.filter (fun e => !(moved.contains e)) })
      ((s1.putSpace l.tag n (sp.replaceBox b [b.low, hi] 1)).redirect l.tag n).mapChange l n src

/-- The shards of a box: its owner, then the cores of the panel that follow it, wrapping (R293). -/
def Launch.shardsFrom (l : Launch) (owner count : Nat) : List Nat :=
  let cs := l.cores
  let i := (findIx (fun c => c == owner) cs 0).getD 0
  (List.range count).map (fun j => cs.getD ((i + j) % cs.length) owner)

/-- A box of one point sharded in one move (R293). -/
def State.shard (s : State) (l : Launch) (n : Nat) (sp : Space) (b : Box) : State :=
  (s.putSpace l.tag n (sp.replaceBox b [{ b with shards := l.shardsFrom b.core (2 ^ sp.shl) }] 0)).redirect l.tag n

/-- The test of a box after a bind or a hand-over (R292, R293). -/
def State.testBox (s : State) (tag : BitVec 32) (p : Dword) : State :=
  let n := ptSpace p
  match s.launch? tag with
  | none => s
  | some l =>
    match l.space? n with
    | none => s
    | some sp =>
      let b := sp.boxOf (ptXyz p)
      if sp.crowd = 0 ∨ l.inBox n b ≤ sp.crowd ∨ b.shards ≠ [] then s
      else if b.isPoint then (if sp.shl = 0 then s else s.shard l n sp b)
      else s.pleat l n sp b

/-! ### Binding and moving (R291) -/

/-- The instruction completes, and the thread goes on at the next one on core `dst`: a departure when that is another
core (R130). -/
def Cx.moveTo (c : Cx) (s : State) (sw : Bool) (dst : Nat) : R :=
  if dst = c.core then .ok s else .raw ((s.finish c.aid c.npc sw).departFor c.aid dst)

/-- A release of a thread's position (R117). -/
def State.releasePos (s : State) (aid : Nat) (tag : BitVec 32) (n num : Nat) : State :=
  (s.release (.position tag.toNat n num) [s.contrib (.thread aid) .pkg]).endRegion (.thread aid)

/-- BINDPOS (R291, R132). -/
def execBindpos (h : Hdr) (a b : SReg) : State → Host.Outcome State Fault Refusal :=
  runS { h := h, rd := [.s a, .s b], light := true, first := true, mem := true } (fun c =>
    let t := c.t
    let p := c.x 0
    match c.s.launch? t.ltag with
    | none => .exc { cause := 40 }
    | some l =>
      let k := c.s.core c.core
      if t.bnd.isSome ∨ l.validPoint p = false ∨ 65536 ≤ k.bindCtr then .exc { cause := 40 }
      else if c.relReady = false then .stall false
      else
        let num := c.num * 65536 + k.bindCtr
        let n := ptSpace p
        let s1 := c.s.putCore c.core { k with bindCtr := k.bindCtr + 1 }
        let s2 := (s1.modTh c.aid (fun t => { t with bnd := some num, pos := p })).releasePos c.aid l.tag n num
        let s3 := s2.modLaunch l.tag (fun l => { l with recs := amSet l.recs n (l.recsOf n ++ [⟨num, c.aid, p, c.x 1, none⟩]) })
        let s4 := s3.testBox l.tag p
        match s4.launch? l.tag with
        | some l1 => c.moveTo s4 h.sw (l1.residenceOf (s4.th c.aid))
        | none => .ok s4)

/-- A record of a space changed. -/
def State.modRec (s : State) (tag : BitVec 32) (n num : Nat) (f : PosRec → PosRec) : State :=
  s.modLaunch tag (fun l => { l with recs := amSet l.recs n ((l.recsOf n).map (fun r => if r.num = num then f r else r)) })

/-- The hand-over of a record takes effect (R132); the box that it enters is tested (R292). -/
def State.handOver (s : State) (tag : BitVec 32) (n num : Nat) (p : Dword) : State :=
  (s.modRec tag n num (fun r => { r with pos := p, hand := none })).testBox tag p

/-- POSSET (R291, R132): within the thread's own cell, and where the new residence is its core, the hand-over takes effect at
once. -/
def execPosset (h : Hdr) (a : SReg) : State → Host.Outcome State Fault Refusal :=
  runS { h := h, rd := [.s a], light := true, first := true, mem := true } (fun c =>
    let t := c.t
    let p := c.x 0
    let n := ptSpace p
    match t.bnd, (c.s.launch? t.ltag).bind (fun l => (l.space? n).map (fun sp => (l, sp))) with
    | some num, some (l, sp) =>
      if l.validPoint p = false ∨ n ≠ ptSpace t.pos then .exc { cause := 40 }
      else if c.relReady = false then .stall false
      else
        let s1 := (c.s.modTh c.aid (fun t => { t with pos := p })).releasePos c.aid l.tag n num
        let here := l.residenceOf (s1.th c.aid) = c.core
        let s2 :=
          if here ∨ sp.cellBox (ptXyz p) = sp.cellBox (ptXyz t.pos) then s1.handOver l.tag n num p
          else s1.modRec l.tag n num (fun r => { r with hand := some p })
        match s2.launch? l.tag with
        | some l1 => c.moveTo s2 h.sw (l1.residenceOf (s2.th c.aid))
        | none => .ok s2
    | _, _ => .exc { cause := 40 })

/-- HAND_OVER (R132) of the record with launch tag and record number `record` = tag × 2^32 + number: both cores hold the
new position. -/
def execHandOver (record : Nat) (s : State) : Host.Outcome State Fault Refusal :=
  let tag := BitVec.ofNat 32 (record / 2 ^ 32)
  let num := record % 2 ^ 32
  match s.launch? tag with
  | none => .next s
  | some l =>
    match l.recs.findSome? (fun e => e.2.findSome? (fun r => if r.num = num then r.hand.map (fun p => (e.1, p)) else none)) with
    | some (n, p) => .next (s.handOver tag n num p)
    | none => .next s

/-- MIGR to a core of the panel, once it is known that the thread is not bound (R291). -/
def Cx.migrate (c : Cx) (sw : Bool) (k : Nat) : R :=
  if c.s.inPanel c.t.ltag k = false then .exc { cause := 31 }
  else
    let d := k
    if d ≠ c.core ∧ c.s.journalClear c.aid = false then .stall false else c.moveTo c.s sw d

/-- MIGR.core (R291). -/
def execMigrCore (h : Hdr) (a : SReg) : State → Host.Outcome State Fault Refusal :=
  runS { h := h, rd := [.s a], light := true, first := true, mem := true } (fun c =>
    if c.t.bnd.isSome then .exc { cause := 40 } else c.migrate h.sw (c.x 0).toNat)

/-- MIGR.addr (R291): the core whose scratchpad the address names through the global aperture. -/
def execMigrAddr (h : Hdr) (a : SReg) : State → Host.Outcome State Fault Refusal :=
  runS { h := h, rd := [.s a], light := true, first := true, mem := true } (fun c =>
    let va := c.x 0
    if c.t.bnd.isSome ∨ va.toNat < apertureBase ∨ aliasBase ≤ va.toNat then .exc { cause := 40 }
    else c.migrate h.sw ((va.toNat - apertureBase) / apertureStep))

/-- UNBIND (R291). -/
def execUnbind (h : Hdr) : State → Host.Outcome State Fault Refusal :=
  runS { h := h, light := true, first := true, mem := true } (fun c =>
    if c.t.bnd.isNone then .exc { cause := 40 }
    else if c.relReady = false then .stall false
    else .ok (c.s.unbindRec c.aid))

/-! ### Departure and arrival (R130, R292) -/

/-- A thread out of its slot departs when its entries are settled and no trap is pending for it (R292). -/
def State.departs (s : State) (core aid : Nat) : Option Nat :=
  let t := s.th aid
  match t.loc with
  | .runq | .deque | .blocked =>
    if t.core = core ∧ t.kind = .light ∧ s.journalClear aid = true ∧ t.traps = [] ∧ t.pend.isNone = true then t.depart else none
  | _ => none

/-- LIGHT_DEPARTURE (R130). -/
def execLightDeparture (core aid : Nat) (s : State) : Host.Outcome State Fault Refusal :=
  match s.departs core aid with
  | some d => .next ((s.departFor aid d).refill core)
  | none => .next s

/-- The hand-over that the arrival of a thread makes certain (R132): the destination holds its new position. -/
def State.arrivalHand (s : State) (aid : Nat) : State :=
  let t := s.th aid
  match t.bnd, s.launch? t.ltag with
  | some num, some l =>
    match (l.recsOf (ptSpace t.pos)).find? (fun r => r.num == num) with
    | some r =>
      match r.hand with
      | some p => s.handOver l.tag (ptSpace t.pos) num p
      | none => s
    | none => s
  | _, _ => s

/-- A context that waits arrives Blocked, with its wait (R188, R292). -/
def State.arriveBlocked (s : State) (core aid : Nat) : State :=
  if (s.core core).seen then (s.modTh aid (fun t => { t with core := core })).endThread aid false
  else
    let s1 := s.modTh aid (fun t => { t with core := core, loc := .blocked })
    (s1.syncFrom (.thread aid) (s1.th aid).acq).modTh aid (fun t => { t with acq := [] })

/-- A context at the core to which it was sent (R130, R290, R359 to R361): for an absent context a record of its ring; one that the fabric
refuses, or for which no basting entry forwards, is logged and lost (R379 to R383); a bound one whose residence is elsewhere goes on at
once; else Queued, or Blocked with its wait. `none` when it must wait for room. -/
def State.lightArrive (s : State) (aid dst : Nat) : Option State :=
  let t := s.th aid
  let h := dst
  if s.absent t.ltag h then some ((s.modTh aid (fun t => { t with loc := .image })).bounce t.ltag h (.context aid))
  else if (s.core h).ltag ≠ t.ltag ∨ s.finds t.ltag t.core h = false ∨
      (t.core ≠ h ∧ s.reaches false (s.port t) (clusterOf (s.phys h)) = false) then
    some ((s.logErr (dieOf (s.phys h)) 5 0 (BitVec.ofNat 64 h) false (s.rep (.thread aid)) none).endThread aid false)
  else
    let s1 := (s.passed t.ltag t.core h).arrivalHand aid
    let d := match s1.launch? t.ltag with
      | some l => l.residenceOf (s1.th aid)
      | none => h
    if t.bnd.isSome ∧ d ≠ h then some (s1.modTh aid (fun t => { t with loc := .transit d }))
    else if t.wait.isSome then some (s1.arriveBlocked h aid)
    else
      match s1.arrive h aid with
      | .ok s2 => some s2
      | .error _ => none

/-- LIGHT_ARRIVAL (R130). -/
def execLightArrival (aid : Nat) (s : State) : Host.Outcome State Fault Refusal :=
  match (s.th aid).loc with
  | .transit d =>
    match s.lightArrive aid d with
    | some s1 => .next s1
    | none => .next (s.ringWait d 0)
  | _ => .next s

/-! ### Neighbour enumeration (R294) -/

/-- |a − b|. -/
def absDiff (a b : Nat) : Nat := if a < b then b - a else a - b

/-- A position lies within a radius of a point under a metric (R294). -/
def within (l2 : Bool) (r : Nat) (p q : Dword) : Bool :=
  let d (a : Nat) : Nat := absDiff (ptAx p a) (ptAx q a)
  if l2 then decide (d 0 * d 0 + d 1 * d 1 + d 2 * d 2 ≤ r) else decide (d 0 ≤ r ∧ d 1 ≤ r ∧ d 2 ≤ r)

/-- The records that an enumeration selects, in increasing record number (R132, R133, R294). -/
def Launch.nearby (l : Launch) (p : Dword) (l2 : Bool) (r : Nat) (own : Option Nat) : List PosRec :=
  sortBy (fun x => x.num)
    ((l.recsOf (ptSpace p)).filter (fun x => within l2 r p x.pos && !(own.isSome && own == some x.num)))

/-- The point and radius checks of NBR (R294): the cause, or 0. -/
def Launch.nbrCheck (l : Launch) (p : Dword) (l2 : Bool) (r : Nat) : Nat :=
  match l.space? (ptSpace p) with
  | none => 40
  | some sp =>
    if l.validPoint p = false then 40
    else if (if l2 then sp.sel * sp.sel else sp.sel) < r then 39
    else 0

/-- The deliveries of an enumeration acquired (R117): each thread's last position release. -/
def State.acquirePos (s : State) (aid : Nat) (tag : BitVec 32) (n : Nat) (rs : List PosRec) : State :=
  s.syncFrom (.thread aid) (rs.flatMap (fun r => s.contribs (.position tag.toNat n r.num)))

/-- The core that an enumeration's snapshot is taken at is absent: the instruction waits for it (R361). -/
def State.nbrAway (s : State) (l : Launch) (p : Dword) : Bool :=
  match l.space? (ptSpace p) with
  | some sp => s.absent l.tag (sp.ownerOf (ptXyz p))
  | none => false

/-- The core at which an enumeration of a thread takes its snapshot does not answer: no partition, router or boundary lets its message
pass, or it finds no context there (R359, R379 to R383). -/
def State.nbrLost (s : State) (aid : Nat) (l : Launch) (p : Dword) : Bool :=
  match l.space? (ptSpace p) with
  | some sp => !s.meetsCore aid (sp.ownerOf (ptXyz p))
  | none => false

/-- The enumeration's message is counted where basting entries forward it (R359). -/
def State.nbrPassed (s : State) (aid : Nat) (l : Launch) (p : Dword) : State :=
  match l.space? (ptSpace p) with
  | some sp => s.passedAll aid [sp.ownerOf (ptXyz p)]
  | none => s

/-- NBR.s (R294): the entries become an input stream of dwords. -/
def execNbrS (h : Hdr) (d : PName) (a b cr : SReg) (l2 xself : Bool) : State → Host.Outcome State Fault Refusal :=
  runS { h := h, len := 16, rd := [.s a, .s b], wr := [.s cr], heavy := true, first := true, mem := true } (fun c =>
    let p := c.x 0
    match c.s.launch? c.t.ltag with
    | none => .exc { cause := 40 }
    | some l =>
      let e := l.nbrCheck p l2 (c.x 1).toNat
      if e ≠ 0 then .exc { cause := e }
      else if (c.s.bindOf c.aid d).isSome then .exc { cause := 8 }
      else if 8 ≤ (c.s.core c.core).affines then .exc { cause := 19 }
      else if c.s.nbrAway l p then .stall true
      else if c.s.nbrLost c.aid l p then .exc (errExc c.core p)
      else
        let rs := l.nearby p l2 (c.x 1).toNat (if xself then c.t.bnd else none)
        let dws : List Dword := rs.flatMap (fun r => [BitVec.ofNat 64 r.num, r.pos, r.tag])
        let st : Stream :=
          { size := 3, counts := [dws.length], stride := [8], base := 0, seg := 0, taken := 0
            ahead := dws.map (fun x => (x, [])), unwr := [], since := c.t.seq, fault := none }
        let s1 := ((c.s.nbrPassed c.aid l p).acquirePos c.aid l.tag (ptSpace p) rs).wrS c.aid cr (BitVec.ofNat 64 rs.length)
        c.bindAs s1 d false false (.affine st))

/-- The 32-byte records of NBR.buf (R294). -/
def nbrBytes (rs : List PosRec) : List Byte :=
  rs.flatMap (fun r => leBytes 8 r.num ++ leBytes 8 r.pos.toNat ++ leBytes 8 r.tag.toNat ++ leBytes 8 0)

/-- NBR.buf (R294): the entries are written to a buffer in the own scratchpad, whose granules are set full. The snapshot delivers every
record that is bound at its move (R132); row 2 of the table of R311 is read of an enumeration that comes after the JOIN (DEDUCED, log
40). -/
def execNbrBuf (h : Hdr) (d a b cr : SReg) (l2 xself : Bool) (cap : BitVec 16) : State → Host.Outcome State Fault Refusal :=
  runS { h := h, len := 16, rd := [.s a, .s b, .s d], wr := [.s cr], first := true, mem := true } (fun c =>
    let p := c.x 0
    let va := c.x 2
    let n := 32 * cap.toNat
    match c.s.launch? c.t.ltag with
    | none => .exc { cause := 40 }
    | some l =>
      let e := l.nbrCheck p l2 (c.x 1).toNat
      if e ≠ 0 then .exc { cause := e }
      else if va.toNat % 32 ≠ 0 then .exc { cause := 12, addr := reportAddr c.core va }
      else if n ≠ 0 ∧ (c.s.seg c.t 0).grants va.toNat n false true = false then .exc (segExc c.core va)
      else if n ≠ 0 ∧ (c.s.isOwn c.t va = false ∨ c.s.ownOk c.t va n = false) then
        .exc { cause := 13, addr := reportAddr c.core va }
      else if c.s.nbrAway l p then .stall true
      else if c.s.nbrLost c.aid l p then .exc (errExc c.core p)
      else if decide (n ≠ 0) && c.s.wordBusy c.aid va n then .stall false
      else
        let rs := l.nearby p l2 (c.x 1).toNat (if xself then c.t.bnd else none)
        let out := rs.take cap.toNat
        let s1 := (c.s.nbrPassed c.aid l p).acquirePos c.aid l.tag (ptSpace p) out
        let bs := nbrBytes out
        let fin (s : State) : R := .ok (s.wrS c.aid cr (BitVec.ofNat 64 rs.length))
        if bs.isEmpty then fin s1
        else
          (s1.placeFor c.aid va bs.length .write false).bind (fun pl s2 =>
            match s2.plainWrite c.ag (some c.core) false pl bs with
            | .error x => c.conflict va pl x
            | .ok s3 => fin (s3.fill c.ag pl bs.length)))

end Sys2Proof.Machine
end

