-- ==== Sys2Proof/Machine/Scalar.lean ====
section
/-!
DEFINITION. Scalar, compare and predicate instructions: the values they compute (R168 to R183) and the meanings of opcodes
0x20 to 0x49.
-/

namespace Sys2Proof.Machine

/-! ### Shapes -/

/-- S[D] ← f(S[A], S[B]). -/
def bin (f : Dword → Dword → Dword) (h : Hdr) (d a b : SReg) : State → Host.Outcome State Fault Refusal :=
  runS { h := h, rd := [.s a, .s b], wr := [.s d] } (fun c => .ok (c.setS d (f (c.x 0) (c.x 1))))

/-- S[D] ← f(S[A]). -/
def una (f : Dword → Dword) (h : Hdr) (d a : SReg) : State → Host.Outcome State Fault Refusal :=
  runS { h := h, rd := [.s a], wr := [.s d] } (fun c => .ok (c.setS d (f (c.x 0))))

/-- A shift amount's sources (R174). -/
def amtNames : Amt → List Nm
  | .reg b => [.s b]
  | .imm _ => []

/-- A shift amount's value: the low six bits of a register, or the B field (R174). -/
def Cx.amt (c : Cx) : Amt → Nat
  | .reg _ => (c.x 1).toNat % 64
  | .imm n => n.toNat

/-- S[D] ← f(S[A], n). -/
def shift (f : Dword → Nat → Dword) (h : Hdr) (d a : SReg) (n : Amt) : State → Host.Outcome State Fault Refusal :=
  runS { h := h, rd := .s a :: amtNames n, wr := [.s d] } (fun c => .ok (c.setS d (f (c.x 0) (c.amt n))))

/-! ### Integer arithmetic (R170 to R172) -/

/-- High half of a product (R170). -/
def mulhVal (u : Bool) (a b : Dword) : Dword :=
  if u then BitVec.ofNat 64 (a.toNat * b.toNat / 2 ^ 64) else BitVec.ofInt 64 (a.toInt * b.toInt / 2 ^ 64)

/-- Quotient of R171. -/
def divVal (u : Bool) (a b : Dword) : Dword :=
  if b = 0 then BitVec.allOnes 64
  else if u then BitVec.ofNat 64 (a.toNat / b.toNat)
  else BitVec.ofInt 64 (a.toInt.tdiv b.toInt)

/-- Remainder of R171. -/
def remVal (u : Bool) (a b : Dword) : Dword :=
  if b = 0 then a
  else if u then BitVec.ofNat 64 (a.toNat % b.toNat)
  else BitVec.ofInt 64 (a.toInt.tmod b.toInt)

/-- Smaller value (R172). -/
def minVal (u : Bool) (a b : Dword) : Dword :=
  if u then (if a.toNat ≤ b.toNat then a else b) else (if a.toInt ≤ b.toInt then a else b)

/-- Larger value (R172). -/
def maxVal (u : Bool) (a b : Dword) : Dword :=
  if u then (if a.toNat ≤ b.toNat then b else a) else (if a.toInt ≤ b.toInt then b else a)

/-- Absolute value (R172). -/
def absVal (a : Dword) : Dword := if a.toInt < 0 then 0 - a else a

/-- ADD (R170). -/
def execAdd (h : Hdr) (d a b : SReg) : State → Host.Outcome State Fault Refusal := bin (fun x y => x + y) h d a b
/-- SUB (R170). -/
def execSub (h : Hdr) (d a b : SReg) : State → Host.Outcome State Fault Refusal := bin (fun x y => x - y) h d a b
/-- ADDI (R170). -/
def execAddi (h : Hdr) (d a : SReg) (m : BitVec 28) : State → Host.Outcome State Fault Refusal :=
  una (fun x => x + m.signExtend 64) h d a
/-- MUL (R170). -/
def execMul (h : Hdr) (d a b : SReg) : State → Host.Outcome State Fault Refusal := bin (fun x y => x * y) h d a b
/-- MULH (R170). -/
def execMulh (h : Hdr) (u : Bool) (d a b : SReg) : State → Host.Outcome State Fault Refusal := bin (mulhVal u) h d a b
/-- DIV (R171). -/
def execDiv (h : Hdr) (u : Bool) (d a b : SReg) : State → Host.Outcome State Fault Refusal := bin (divVal u) h d a b
/-- REM (R171). -/
def execRem (h : Hdr) (u : Bool) (d a b : SReg) : State → Host.Outcome State Fault Refusal := bin (remVal u) h d a b
/-- MIN (R172). -/
def execMin (h : Hdr) (u : Bool) (d a b : SReg) : State → Host.Outcome State Fault Refusal := bin (minVal u) h d a b
/-- MAX (R172). -/
def execMax (h : Hdr) (u : Bool) (d a b : SReg) : State → Host.Outcome State Fault Refusal := bin (maxVal u) h d a b
/-- ABS (R172). -/
def execAbs (h : Hdr) (d a : SReg) : State → Host.Outcome State Fault Refusal := una absVal h d a

/-! ### Logic, shifts and bit operations (R173 to R176) -/

/-- Rotation (R174). -/
def rotVal (right : Bool) (a : Dword) (n : Nat) : Dword := if right then a.rotateRight n else a.rotateLeft n

/-- Number of zero bits above the highest 1 bit (R175). -/
def clzVal (a : Dword) : Dword := BitVec.ofNat 64 ((List.range 64).takeWhile (fun i => !a.getLsbD (63 - i))).length
/-- Number of zero bits below the lowest 1 bit (R175). -/
def ctzVal (a : Dword) : Dword := BitVec.ofNat 64 ((List.range 64).takeWhile (fun i => !a.getLsbD i)).length
/-- Number of 1 bits (R175). -/
def popcVal (a : Dword) : Dword := BitVec.ofNat 64 ((List.range 64).filter (fun i => a.getLsbD i)).length
/-- Bits in reverse order (R175). -/
def brevVal (a : Dword) : Dword :=
  BitVec.ofNat 64 ((List.range 64).foldl (fun acc i => 2 * acc + (a.getLsbD i).toNat) 0)
/-- Bytes in reverse order (R175). -/
def bswapVal (a : Dword) : Dword := BitVec.ofNat 64 (leVal (leBytes 8 a.toNat).reverse)

/-- Highest bit of a field, cut at bit 63 (R176). -/
def fieldTop (lo w1 : BitVec 6) : Nat := Nat.min (lo.toNat + w1.toNat + 1) 64 - 1
/-- Width of a field after the cut. -/
def fieldLen (lo w1 : BitVec 6) : Nat := fieldTop lo w1 - lo.toNat + 1

/-- EXT (R176). -/
def extVal (sgn : Bool) (lo w1 : BitVec 6) (a : Dword) : Dword :=
  let n := fieldLen lo w1
  let f := BitVec.ofNat n (a.toNat / 2 ^ lo.toNat)
  if sgn then f.signExtend 64 else f.setWidth 64

/-- INS (R176). -/
def insVal (lo w1 : BitVec 6) (d a : Dword) : Dword :=
  let n := fieldLen lo w1
  let m : Dword := BitVec.ofNat 64 ((2 ^ n - 1) * 2 ^ lo.toNat)
  (d &&& ~~~m) ||| ((a <<< lo.toNat) &&& m)

/-- AND (R173). -/
def execAnd (h : Hdr) (d a b : SReg) : State → Host.Outcome State Fault Refusal := bin (fun x y => x &&& y) h d a b
/-- OR (R173). -/
def execOr (h : Hdr) (d a b : SReg) : State → Host.Outcome State Fault Refusal := bin (fun x y => x ||| y) h d a b
/-- XOR (R173). -/
def execXor (h : Hdr) (d a b : SReg) : State → Host.Outcome State Fault Refusal := bin (fun x y => x ^^^ y) h d a b
/-- ANDN (R173). -/
def execAndn (h : Hdr) (d a b : SReg) : State → Host.Outcome State Fault Refusal := bin (fun x y => x &&& ~~~y) h d a b
/-- ORN (R173). -/
def execOrn (h : Hdr) (d a b : SReg) : State → Host.Outcome State Fault Refusal := bin (fun x y => x ||| ~~~y) h d a b
/-- SHL (R174). -/
def execShl (h : Hdr) (d a : SReg) (n : Amt) : State → Host.Outcome State Fault Refusal := shift (fun x k => x <<< k) h d a n
/-- SHR (R174). -/
def execShr (h : Hdr) (d a : SReg) (n : Amt) : State → Host.Outcome State Fault Refusal := shift (fun x k => x >>> k) h d a n
/-- SAR (R174). -/
def execSar (h : Hdr) (d a : SReg) (n : Amt) : State → Host.Outcome State Fault Refusal :=
  shift (fun x k => x.sshiftRight k) h d a n
/-- ROT (R174). -/
def execRot (h : Hdr) (right : Bool) (d a : SReg) (n : Amt) : State → Host.Outcome State Fault Refusal :=
  shift (rotVal right) h d a n
/-- CLZ (R175). -/
def execClz (h : Hdr) (d a : SReg) : State → Host.Outcome State Fault Refusal := una clzVal h d a
/-- CTZ (R175). -/
def execCtz (h : Hdr) (d a : SReg) : State → Host.Outcome State Fault Refusal := una ctzVal h d a
/-- POPC (R175). -/
def execPopc (h : Hdr) (d a : SReg) : State → Host.Outcome State Fault Refusal := una popcVal h d a
/-- BREV (R175). -/
def execBrev (h : Hdr) (d a : SReg) : State → Host.Outcome State Fault Refusal := una brevVal h d a
/-- BSWAP (R175). -/
def execBswap (h : Hdr) (d a : SReg) : State → Host.Outcome State Fault Refusal := una bswapVal h d a
/-- EXT (R176). -/
def execExt (h : Hdr) (sgn : Bool) (d a : SReg) (lo w1 : BitVec 6) : State → Host.Outcome State Fault Refusal :=
  una (extVal sgn lo w1) h d a
/-- INS (R176): D is also read. -/
def execIns (h : Hdr) (d a : SReg) (lo w1 : BitVec 6) : State → Host.Outcome State Fault Refusal :=
  runS { h := h, rd := [.s a, .s d], wr := [.s d] } (fun c => .ok (c.setS d (insVal lo w1 (c.x 1) (c.x 0))))

/-! ### Moves, selection, addresses and HASH (R177 to R179) -/

/-- SEL (R177): both sources are read, and a predicate selects. -/
def execSel (h : Hdr) (d a b : SReg) (p : PReg) : State → Host.Outcome State Fault Refusal :=
  runS { h := h, rd := [.s a, .s b], own := [.p p], wr := [.s d] } (fun c =>
    .ok (c.setS d (if c.t.rP p then c.x 0 else c.x 1)))
/-- MOV (R177). -/
def execMov (h : Hdr) (d a : SReg) : State → Host.Outcome State Fault Refusal := una id h d a
/-- MOVI (R177). -/
def execMovi (h : Hdr) (d : SReg) (m : BitVec 28) : State → Host.Outcome State Fault Refusal :=
  runS { h := h, wr := [.s d] } (fun c => .ok (c.setS d (m.signExtend 64)))
/-- MOVW of 96 bits (R177). -/
def execMovwF96 (h : Hdr) (sx : Bool) (d : SReg) (m : BitVec 32) : State → Host.Outcome State Fault Refusal :=
  runS { h := h, len := 12, wr := [.s d] } (fun c => .ok (c.setS d (if sx then m.signExtend 64 else m.setWidth 64)))
/-- MOVW of 128 bits (R177). -/
def execMovwF128 (h : Hdr) (d : SReg) (m : BitVec 64) : State → Host.Outcome State Fault Refusal :=
  runS { h := h, len := 16, wr := [.s d] } (fun c => .ok (c.setS d m))
/-- LEA (R178): the effective address, without a check. -/
def execLea (h : Hdr) (d : SReg) (m : MemOp) : State → Host.Outcome State Fault Refusal :=
  runS { h := h, len := memLen m, rd := memNames m, wr := [.s d] } (fun c => .ok (c.setS d (c.ea m 0)))
/-- HASH (R179). -/
def execHash (h : Hdr) (d a b : SReg) : State → Host.Outcome State Fault Refusal := bin hash64 h d a b

/-! ### Compare and predicates (R180 to R182) -/

/-- A condition of CMP (R180). -/
def condHolds (c : Cond) (a b : Dword) : Bool :=
  match c with
  | .eq => a == b
  | .ne => a != b
  | .lt => decide (a.toInt < b.toInt)
  | .ltu => decide (a.toNat < b.toNat)
  | .le => decide (a.toInt ≤ b.toInt)
  | .leu => decide (a.toNat ≤ b.toNat)
  | .gt => decide (b.toInt < a.toInt)
  | .gtu => decide (b.toNat < a.toNat)
  | .ge => decide (b.toInt ≤ a.toInt)
  | .geu => decide (b.toNat ≤ a.toNat)

/-- P[D] ← x. -/
def Cx.setP (c : Cx) (d : PReg) (x : Bool) : State := c.s.modTh c.aid (fun t => t.wP d x)

/-- CMP (R180). -/
def execCmp (h : Hdr) (c : Cond) (p : PReg) (a b : SReg) : State → Host.Outcome State Fault Refusal :=
  runS { h := h, rd := [.s a, .s b], wr := [.p p] } (fun x => .ok (x.setP p (condHolds c (x.x 0) (x.x 1))))
/-- CMPI (R180). -/
def execCmpi (h : Hdr) (c : Cond) (p : PReg) (a : SReg) (m : BitVec 28) : State → Host.Outcome State Fault Refusal :=
  runS { h := h, rd := [.s a], wr := [.p p] } (fun x => .ok (x.setP p (condHolds c (x.x 0) (m.signExtend 64))))

/-- P[D] ← f(P[A] xor FN[0], P[B] xor FN[1]) (R181). -/
def pbin (f : Bool → Bool → Bool) (h : Hdr) (ia ib : Bool) (d a b : PReg) : State → Host.Outcome State Fault Refusal :=
  runS { h := h, own := [.p a, .p b], wr := [.p d] } (fun c => .ok (c.setP d (f (c.t.rP a != ia) (c.t.rP b != ib))))

/-- PAND (R181). -/
def execPand (h : Hdr) (ia ib : Bool) (d a b : PReg) : State → Host.Outcome State Fault Refusal :=
  pbin (fun x y => x && y) h ia ib d a b
/-- POR (R181). -/
def execPor (h : Hdr) (ia ib : Bool) (d a b : PReg) : State → Host.Outcome State Fault Refusal :=
  pbin (fun x y => x || y) h ia ib d a b
/-- PXOR (R181). -/
def execPxor (h : Hdr) (ia ib : Bool) (d a b : PReg) : State → Host.Outcome State Fault Refusal :=
  pbin (fun x y => x != y) h ia ib d a b
/-- PNOT (R181). -/
def execPnot (h : Hdr) (d a : PReg) : State → Host.Outcome State Fault Refusal :=
  runS { h := h, own := [.p a], wr := [.p d] } (fun c => .ok (c.setP d (!c.t.rP a)))

/-- Every predicate name: what PWR names (R182). -/
def allPreds : List Nm := (List.range 32).map (fun i => Nm.p (BitVec.ofNat 5 i))

/-- PRD (R182). It names the whole word, as PWR does. -/
def execPrd (h : Hdr) (d : SReg) : State → Host.Outcome State Fault Refusal :=
  runS { h := h, own := allPreds, wr := [.s d] } (fun c => .ok (c.setS d (c.t.pword.setWidth 64)))
/-- PWR (R182): bit 0 of the source is ignored. -/
def execPwr (h : Hdr) (a : SReg) : State → Host.Outcome State Fault Refusal :=
  runS { h := h, rd := [.s a], own := allPreds } (fun c =>
    let w := (c.x 0).setWidth 32 ||| 1
    .ok (c.s.modTh c.aid (fun t => { t with regs := { t.regs with p := w } })))

/-! ### User special registers (R49, R183, R184) -/

/-- The launch that a thread, or the core of a supervisor slot, belongs to. -/
def State.launchOf (s : State) (t : Thread) : Option Launch :=
  if t.kind = .super then s.launch? (s.core t.core).ltag else s.launch? t.ltag

/-- Stage of a panel column: the first stage whose columns, with those before it, reach past the column (R17). -/
def stageOf : List Nat → Nat → Nat → Nat
  | [], _, n => n - 1
  | w :: ws, x, n => if x < w then n else stageOf ws (x - w) (n + 1)

/-- The quantities of R18 and the launch's sizes, at numbers 0x003 to 0x00A; `k` is the core whose place in the panel
counts (R338). -/
def Launch.placeReg (l : Launch) (k : Nat) (num : Nat) : Nat :=
  let cx := cxOf (clusterOf k) - l.ox
  match num with
  | 3 => cx
  | 4 => cyOf (clusterOf k) - l.oy
  | 5 => k % 4
  | 6 => stageOf l.stages cx 0
  | 7 => l.w
  | 8 => l.ph
  | 9 => l.stages.length
  | _ => heavyOf l.pw

/-- Field of a segment register as MFU reads it: base, limit or rights; g7 reads as zero at user level, because it
grants nothing there (R41, R183). -/
def segField (g : Seg) (what : Nat) : Dword :=
  match what with
  | 0 => g.base
  | 1 => g.limit
  | _ => g.rts.setWidth 64

/-- The value of a user special register, with the state after reading it (`cyc` advances, log 11; a quantity of R18
has no stated value on a core without a launch, log 16). -/
def Cx.userReg (c : Cx) (num : Nat) : Dword × State :=
  let t := c.t
  if num = 0 then (BitVec.ofNat 64 c.num, c.s)
  else if num = 1 then (BitVec.ofNat 64 c.slot, c.s)
  else if num = 2 then (BitVec.ofNat 64 (c.num * 16 + c.slot), c.s)
  else if num ≤ 0x00A then
    match c.s.launchOf t with
    | some l => (BitVec.ofNat 64 (l.placeReg c.core num), c.s)
    | none =>
      if num = 5 then (BitVec.ofNat 64 (c.num % 4), c.s)
      else
        let (n, s1) := c.s.takeFree
        (Config.freeDword n, s1)
  else if num = 0x010 then (t.regs.fstat.setWidth 64, c.s)
  else if num = 0x011 then (t.fctl, c.s)
  else if num = 0x012 then (t.mstat, c.s)
  else if num = 0x013 then
    let (n, s1) := c.s.takeFree
    let v := (s1.core c.num).cyc + Config.elapsed n
    (v, s1.modCore c.num (fun k => { k with cyc := v }))
  else if num = 0x014 then (if t.kind = .light then t.pos else 0, c.s)
  else if num = 0x015 then (if t.kind = .light then t.regs.segsel.setWidth 64 else 0, c.s)
  else (segField (c.s.seg t (BitVec.ofNat 3 num)) ((num - 0x020) / 8), c.s)

/-- `fstat`, `fctl` and `mstat` make MFU and MTU act as a switch marker first (R184). -/
def isFlagReg (num : BitVec 12) : Bool := num == 0x010 || num == 0x011 || num == 0x012

/-- A posted operation whose flags commit at its acknowledgement is outstanding (R184, R229, R255, R283). -/
def State.flagsPending (s : State) (aid : Nat) : Bool :=
  (s.core (s.th aid).core).jrn.toList.any (fun j => match j with
    | some e => e.aid == aid && (match e.op with
        | .amo _ _ _ _ _ _ => true
        | .emb _ _ _ _ _ => true
        | .key _ _ _ _ _ _ _ _ => true
        | _ => false)
    | none => false)

/-- MFU (R183, R184). -/
def execMfu (h : Hdr) (d : SReg) (num : BitVec 12) : State → Host.Outcome State Fault Refusal :=
  runS { h := h, wr := [.s d], first := isFlagReg num } (fun c =>
    if num = 0x012 ∧ c.t.kind = .light then .exc { cause := 6 }
    else if isFlagReg num ∧ c.s.flagsPending c.aid = true then .stall false
    else
      let (v, s1) := c.userReg num.toNat
      .ok (s1.wrS c.aid d v))

/-- MTU (R183, R184): `fstat` clears the flags written as 1, `fctl` and `segsel` are replaced. -/
def execMtu (h : Hdr) (num : BitVec 12) (a : SReg) : State → Host.Outcome State Fault Refusal :=
  runS { h := h, rd := [.s a], first := isFlagReg num } (fun c =>
    let v := c.x 0
    let t := c.t
    if isFlagReg num ∧ c.s.flagsPending c.aid = true then .stall false
    else if num = 0x010 then
      if v.toNat / 64 ≠ 0 then .exc { cause := 3 }
      else .ok (c.s.modTh c.aid (fun t => { t with regs := { t.regs with fstat := t.regs.fstat &&& ~~~(v.setWidth 6) } }))
    else if num = 0x011 then
      if 5 ≤ v.toNat % 8 then .exc { cause := 11 }
      else .ok (c.s.modTh c.aid (fun t => { t with regs := { t.regs with rm := rmOf v, seed := seedOf v } }))
    else if t.kind ≠ .light then .exc { cause := 7 }
    else if (match c.s.launch? t.ltag with
        | some l => l.sets.length
        | none => 0) ≤ v.toNat then .exc { cause := 10 }
    else .ok (c.s.modTh c.aid (fun t => { t with regs := { t.regs with segsel := v.setWidth 2 } })))

end Sys2Proof.Machine
end

