-- ==== Sys2Proof/Machine/Vector.lean ====
section
/-!
DEFINITION. Vector floating-point instructions: arithmetic, comparison, conversion, block quantisation, scaling, reduction
and the block-scaled dot product (R238 to R248, R250).
-/

namespace Sys2Proof.Machine

/-! ### Shapes -/

/-- A vector instruction that computes each active element of width `w` (R238). -/
def vmap (h : Hdr) (w : Nat) (rd : List Nm) (d : VReg) (mk : MReg) (f : Cx → Nat → Staged → Nat × Staged) :
    State → Host.Outcome State Fault Refusal :=
  runS { h := h, rd := rd, wr := [.v d], masks := [mk] } (fun c =>
    let (x, g) := mapVec (c.t.rM mk) w (c.oldV d) c.t.staged (f c)
    .ok ((c.setV d x).commit c.aid g))

/-- Element `i` of vector source `k`, decoded. -/
def Cx.dec (c : Cx) (ty : Ty) (k i : Nat) : Val := tyDecode ty (elem (c.v k) (tyBits ty) i)

/-- A rounded operation on two operands (R241). -/
def varith2 (f : Rm → Val → Val → Val × Flags) (h : Hdr) (ty : Ty) (r : Rnd) (d a b : VReg) (mk : MReg) :
    State → Host.Outcome State Fault Refusal :=
  vmap h (tyBits ty) [.v a, .v b] d mk (fun c i g =>
    let rm := c.t.mode r
    g.enc (tyFmt ty) rm (f rm (c.dec ty 0 i) (c.dec ty 1 i)))

/-- A fused operation on three operands (R241). -/
def varith3 (f : Rm → Val → Val → Val → Val × Flags) (h : Hdr) (ty : Ty) (r : Rnd) (d a b c : VReg) (mk : MReg) :
    State → Host.Outcome State Fault Refusal :=
  vmap h (tyBits ty) [.v a, .v b, .v c] d mk (fun x i g =>
    let rm := x.t.mode r
    g.enc (tyFmt ty) rm (f rm (x.dec ty 0 i) (x.dec ty 1 i) (x.dec ty 2 i)))

/-! ### Arithmetic (R241 to R243) -/

/-- VADD (R241). -/
def execVadd (h : Hdr) (ty : Ty) (r : Rnd) (d a b : VReg) (mk : MReg) : State → Host.Outcome State Fault Refusal :=
  varith2 addVal h ty r d a b mk
/-- VSUB (R241). -/
def execVsub (h : Hdr) (ty : Ty) (r : Rnd) (d a b : VReg) (mk : MReg) : State → Host.Outcome State Fault Refusal :=
  varith2 (fun rm x y => addVal rm x y.negate) h ty r d a b mk
/-- VMUL (R241). -/
def execVmul (h : Hdr) (ty : Ty) (r : Rnd) (d a b : VReg) (mk : MReg) : State → Host.Outcome State Fault Refusal :=
  varith2 (fun _ x y => mulVal x y) h ty r d a b mk
/-- VDIV (R241). -/
def execVdiv (h : Hdr) (ty : Ty) (r : Rnd) (d a b : VReg) (mk : MReg) : State → Host.Outcome State Fault Refusal :=
  varith2 (fun _ x y => divVal' x y) h ty r d a b mk
/-- VFMA (R241). -/
def execVfma (h : Hdr) (ty : Ty) (r : Rnd) (d a b c : VReg) (mk : MReg) : State → Host.Outcome State Fault Refusal :=
  varith3 fmaVal h ty r d a b c mk
/-- VFMS (R241). -/
def execVfms (h : Hdr) (ty : Ty) (r : Rnd) (d a b c : VReg) (mk : MReg) : State → Host.Outcome State Fault Refusal :=
  varith3 (fun rm x y z => fmaVal rm x y z.negate) h ty r d a b c mk
/-- VFNMA (R241). -/
def execVfnma (h : Hdr) (ty : Ty) (r : Rnd) (d a b c : VReg) (mk : MReg) : State → Host.Outcome State Fault Refusal :=
  varith3 (fun rm x y z => fmaVal rm x.negate y z) h ty r d a b c mk
/-- VSQRT (R241). -/
def execVsqrt (h : Hdr) (ty : Ty) (r : Rnd) (d a : VReg) (mk : MReg) : State → Host.Outcome State Fault Refusal :=
  vmap h (tyBits ty) [.v a] d mk (fun c i g => g.enc (tyFmt ty) (c.t.mode r) (sqrtVal (c.dec ty 0 i)))

/-- VMIN or VMAX of two codes of a format: its code and flags, no rounding (R242). -/
def minmaxCode (f : Fmt) (mx : Bool) (x y : Nat) : Nat × Flags :=
  let (v, fl) := minmaxVal mx (f.decode x) (f.decode y)
  ((f.encode .rne 0 v).1, fl)

/-- VMIN and VMAX (R242). -/
def vminmax (mx : Bool) (h : Hdr) (ty : Ty) (d a b : VReg) (mk : MReg) : State → Host.Outcome State Fault Refusal :=
  let w := tyBits ty
  vmap h w [.v a, .v b] d mk (fun c i g =>
    let (x, fl) := minmaxCode (tyFmt ty) mx (elem (c.v 0) w i) (elem (c.v 1) w i)
    (x, g.flag fl))

/-- VMIN (R242). -/
def execVmin (h : Hdr) (ty : Ty) (d a b : VReg) (mk : MReg) : State → Host.Outcome State Fault Refusal :=
  vminmax false h ty d a b mk
/-- VMAX (R242). -/
def execVmax (h : Hdr) (ty : Ty) (d a b : VReg) (mk : MReg) : State → Host.Outcome State Fault Refusal :=
  vminmax true h ty d a b mk

/-- VABS (R243): the sign bit is cleared. -/
def execVabs (h : Hdr) (ty : Ty) (d a : VReg) (mk : MReg) : State → Host.Outcome State Fault Refusal :=
  vmap h (tyBits ty) [.v a] d mk (fun c i g => (elem (c.v 0) (tyBits ty) i % 2 ^ (tyBits ty - 1), g))
/-- VNEG (R243): the sign bit is inverted. -/
def execVneg (h : Hdr) (ty : Ty) (d a : VReg) (mk : MReg) : State → Host.Outcome State Fault Refusal :=
  vmap h (tyBits ty) [.v a] d mk (fun c i g => (elem (c.v 0) (tyBits ty) i ^^^ 2 ^ (tyBits ty - 1), g))

/-! ### Comparison (R244) -/

/-- A condition on two elements, with its flags (R244). -/
def vcondHolds (cd : VCond) (ty : Ty) (x y : Nat) : Bool × Flags :=
  match tyInt ty with
  | some sgn =>
    let a := intOf sgn (tyBits ty) x
    let b := intOf sgn (tyBits ty) y
    (match cd with
      | .eq => decide (a = b)
      | .ne => decide (a ≠ b)
      | .lt => decide (a < b)
      | .le => decide (a ≤ b)
      | .gt => decide (b < a)
      | .ge => decide (b ≤ a)
      | .un => false
      | .ord => true, 0)
  | none =>
    let a := tyDecode ty x
    let b := tyDecode ty y
    let un := a.isNan || b.isNan
    let quiet := flagIf (a.isSig || b.isSig) fNV
    match cd with
    | .eq => (eqVal a b, quiet)
    | .ne => (!eqVal a b, quiet)
    | .lt => (ltVal a b, flagIf un fNV)
    | .le => (ltVal a b || eqVal a b, flagIf un fNV)
    | .gt => (ltVal b a, flagIf un fNV)
    | .ge => (ltVal b a || eqVal a b, flagIf un fNV)
    | .un => (un, quiet)
    | .ord => (!un, quiet)

/-- Elements that bit `j` of a compared mask stands for: element j of width 64, else the elements of lane j (R38). -/
def laneElems (w j : Nat) : List Nat := if w = 64 then [j] else (List.range (32 / w)).map (fun i => j * (32 / w) + i)

/-- Bits of a compared mask from bit `j` on, and the flags (R244). -/
def vcmpBits (mk old : BitVec 32) (w : Nat) (f : Nat → Bool × Flags) : Nat → Nat → Nat × Flags
  | 0, _ => (0, 0)
  | k + 1, j =>
    let (rest, fl) := vcmpBits mk old w f k (j + 1)
    if w = 64 ∧ 16 ≤ j then (2 * rest, fl)
    else if mk.getLsbD j then
      let rs := (laneElems w j).map f
      (2 * rest + (rs.all (·.1)).toNat, (rs.map (·.2)).foldl (· ||| ·) fl)
    else (2 * rest + (old.getLsbD j).toNat, fl)

/-- VCMP (R244). -/
def execVcmp (h : Hdr) (cd : VCond) (ty : Ty) (d : MReg) (a b : VReg) (mk : MReg) :
    State → Host.Outcome State Fault Refusal :=
  runS { h := h, rd := [.v a, .v b], masks := [d, mk] } (fun c =>
    let w := tyBits ty
    let (x, fl) := vcmpBits (c.t.rM mk) (c.t.rM d) w
      (fun i => vcondHolds cd ty (elem (c.v 0) w i) (elem (c.v 1) w i)) 32 0
    .ok (c.s.modTh c.aid (fun t => (t.wM d (BitVec.ofNat 32 x)).orFlags fl)))

/-! ### Conversions (R245) -/

/-- A converted element, or a zeroed one where no source element falls to it; each active one draws (R74, log 20). -/
def convElem (dty sty : Ty) (rm : Rm) (src : Option Nat) (g : Staged) : Nat × Staged :=
  let (u, g1) := g.draw rm
  match src with
  | some x =>
    let (y, fl) := convert sty dty rm u x
    (y, g1.flag fl)
  | none => (0, g1)

/-- VCVT (R245). -/
def execVcvt (h : Hdr) (dty sty : Ty) (r : Rnd) (d a : VReg) (mk : MReg) : State → Host.Outcome State Fault Refusal :=
  vmap h (tyBits dty) [.v a] d mk (fun c i g =>
    let ws := tyBits sty
    convElem dty sty (c.t.mode r) (if i < nElems ws then some (elem (c.v 0) ws i) else none) g)

/-- VPACK (R245). -/
def execVpack (h : Hdr) (dty sty : Ty) (r : Rnd) (d a b : VReg) (mk : MReg) : State → Host.Outcome State Fault Refusal :=
  vmap h (tyBits dty) [.v a, .v b] d mk (fun c i g =>
    let ws := tyBits sty
    let ns := nElems ws
    convElem dty sty (c.t.mode r)
      (if i < ns then some (elem (c.v 0) ws i) else if i < 2 * ns then some (elem (c.v 1) ws (i - ns)) else none) g)

/-- VUNPK (R245). -/
def execVunpk (h : Hdr) (dty sty : Ty) (r : Rnd) (d a : VReg) (part : BitVec 6) (mk : MReg) :
    State → Host.Outcome State Fault Refusal :=
  vmap h (tyBits dty) [.v a] d mk (fun c i g =>
    convElem dty sty (c.t.mode r) (some (elem (c.v 0) (tyBits sty) (part.toNat * nElems (tyBits dty) + i))) g)

/-! ### Block formats (R246) -/

/-- A register with `n` bits from bit `lo` on replaced. -/
def putBits (v : Vec) (lo n : Nat) (x : Nat) : Vec :=
  let m : Vec := BitVec.ofNat 1024 ((2 ^ n - 1) <<< lo)
  (v &&& ~~~m) ||| (BitVec.ofNat 1024 (x <<< lo) &&& m)

/-- VBXQ (R246): the codes go to block `blk` of V[D], the pair to half `blk` of V[C]; the other bytes of both stay, so
both are sources as well. -/
def execVbxq (h : Hdr) (bx4 : Bool) (d a : VReg) (blk : BitVec 6) (cr : VReg) : State → Host.Outcome State Fault Refusal :=
  runS { h := h, rd := [.v a, .v cr, .v d], wr := [.v d, .v cr] } (fun c =>
    let (e0, e1, codes, fl) := bxQuant bx4 ((List.range 32).map (fun i => f32.decode (elem (c.v 0) 32 i)))
    let n := bxBits bx4
    let dv := putBits (c.v 2) (32 * n * blk.toNat) (32 * n) (packNat n codes)
    let cv := putBits (if cr = d then dv else c.v 1) (16 * blk.toNat) 16 (e0 + 256 * e1)
    .ok (((c.setV d dv).wrV c.aid cr cv).modTh c.aid (fun t => t.orFlags fl)))

/-- VBXD (R246). -/
def execVbxd (h : Hdr) (dty : Ty) (bx4 : Bool) (r : Rnd) (d a : VReg) (blk : BitVec 6) (cr : VReg) (mk : MReg) :
    State → Host.Outcome State Fault Refusal :=
  vmap h (tyBits dty) [.v a, .v cr] d mk (fun c i g =>
    let rm := c.t.mode r
    if i < 32 then
      let x := elem (c.v 0) (bxBits bx4) (32 * blk.toNat + i)
      let e0 := elem (c.v 1) 8 (2 * blk.toNat)
      let e1 := elem (c.v 1) 8 (2 * blk.toNat + 1)
      g.enc (tyFmt dty) rm (bxDecode bx4 e0 e1 x, 0)
    else (0, (g.draw rm).2))

/-! ### Scaling and reduction (R247, R248) -/

/-- VSCALE (R247). -/
def execVscale (h : Hdr) (ty : Ty) (r : Rnd) (d a b : VReg) (mk : MReg) : State → Host.Outcome State Fault Refusal :=
  vmap h (tyBits ty) [.v a, .v b] d mk (fun c i g =>
    let w := tyBits ty
    g.enc (tyFmt ty) (c.t.mode r) (scaleVal (c.dec ty 0 i) (intOf true w (elem (c.v 1) w i))))

/-- One combination of a reduction, on codes (R248). -/
def redStep (f : Fmt) (op : RedOp) (rm : Rm) (g : Staged) (x y : Nat) : Nat × Staged :=
  match op with
  | .add => g.enc f rm (addVal rm (f.decode x) (f.decode y))
  | .min =>
    let (z, fl) := minmaxCode f false x y
    (z, g.flag fl)
  | .max =>
    let (z, fl) := minmaxCode f true x y
    (z, g.flag fl)

/-- Code of the identity of a reduction (R248). -/
def redUnit (f : Fmt) (op : RedOp) : Nat :=
  match op with
  | .add => 2 ^ (f.w + f.t)
  | .min => f.infCode
  | .max => 2 ^ (f.w + f.t) + f.infCode

/-- VRED (R248): element 0 only; the others stay, so D is a source as well. -/
def execVred (h : Hdr) (op : RedOp) (ty : Ty) (r : Rnd) (d a : VReg) (mk : MReg) :
    State → Host.Outcome State Fault Refusal :=
  runS { h := h, rd := [.v a, .v d], wr := [.v d], masks := [mk] } (fun c =>
    let w := tyBits ty
    let f := tyFmt ty
    let xs := (List.range (nElems w)).map (fun i => if active (c.t.rM mk) w i then elem (c.v 0) w i else redUnit f op)
    let (x, g) := treeReduce (redStep f op (c.t.mode r)) (Nat.log2 (nElems w)) c.t.staged xs
    .ok ((c.setV d (putBits (c.v 1) 0 w x)).commit c.aid g))

/-! ### Block-scaled dot product (R250) -/

/-- Elements in a block. -/
def blockSize : BlockSize → Nat
  | .b8 => 8
  | .b16 => 16
  | .b32 => 32

/-- A scale byte, decoded. -/
def scaleDecode : ScaleTy → Nat → Val
  | .e8m0, x => decodeE8m0 x
  | .e4m3, x => Machine.e4m3.decode x
  | .e5m2, x => Machine.e5m2.decode x

/-- The exact sum of a list of products, none first, with its flags: NV of each product, and NV for opposite infinities
(R250). -/
def dotSum (rm : Rm) (ps : List (Val × Flags)) : Val × Flags :=
  let fl := (ps.map (·.2)).foldl (· ||| ·) 0
  let opp := ps.any (fun p => p.1 == .inf true) && ps.any (fun p => p.1 == .inf false)
  match ps with
  | [] => (Val.zero true, fl)
  | p :: l => (l.foldl (fun acc q => (addVal rm acc q.1).1) p.1, fl ||| flagIf opp fNV)

/-- The blocks' terms t_b from block `b` on, with the staging threaded (R250). -/
def dotBlocks (c : Cx) (ty : Ty) (rm : Rm) (bs : Nat) (st : ScaleTy) (mk : BitVec 32) : Nat → Nat → Staged →
    List Nat × Staged
  | 0, _, g => ([], g)
  | k + 1, b, g =>
    let ix := ((List.range bs).map (fun i => b * bs + i)).filter (fun i => active mk (tyBits ty) i)
    let (t, g1) :=
      if ix.isEmpty then (redUnit f32 .add, g)
      else
        let (s, f0) := dotSum rm (ix.map (fun i => mulVal (c.dec ty 0 i) (c.dec ty 1 i)))
        let (m, f1) := mulVal s (scaleDecode st (elem (c.v 2) 8 b))
        let (u, g1) := g.enc f32 rm (m, f0 ||| f1)
        g1.enc f32 rm (mulVal (f32.decode u) (scaleDecode st (elem (c.v 2) 8 (64 + b))))
    let (ts, g2) := dotBlocks c ty rm bs st mk k (b + 1) g1
    (t :: ts, g2)

/-- VBDOT (R250): into lane 0 of V[D], which is a source as well. -/
def execVbdot (h : Hdr) (ty : Ty) (r : Rnd) (bs : BlockSize) (st : ScaleTy) (d a b cr : VReg) (mk : MReg) :
    State → Host.Outcome State Fault Refusal :=
  runS { h := h, rd := [.v a, .v b, .v cr, .v d], wr := [.v d], masks := [mk] } (fun c =>
    let rm := c.t.mode r
    let n := nElems (tyBits ty) / (blockSize bs)
    let (ts, g) := dotBlocks c ty rm (blockSize bs) st (c.t.rM mk) n 0 c.t.staged
    let (x, g1) := treeReduce (redStep f32 .add rm) (Nat.log2 n) g ts
    let (y, g2) := redStep f32 .add rm g1 (elem (c.v 3) 32 0) x
    .ok ((c.setV d (putBits (c.v 3) 0 32 y)).commit c.aid g2))

end Sys2Proof.Machine
end

