-- ==== Sys2Proof/Machine/Matrix.lean ====
section
/-!
DEFINITION. Operand memory, the matrix array and accumulator rows: opcodes 0xB0 to 0xB8 (R257 to R269), and VSACC (R249).
-/

namespace Sys2Proof.Machine

/-! ### Operand slots (R108, R259 to R261) -/

/-- Slots named in a mask. -/
def slotsOf (m : BitVec 32) : List Nat := (List.range 32).filter (fun i => m.getLsbD i)

/-- A mask of slots. -/
def slotMask (l : List Nat) : BitVec 32 := l.foldl (fun m i => m ||| (1#32 <<< i)) 0

/-- Owner of a slot. -/
def Core.slotOwner (k : Core) (i : Nat) : Option Nat := (vrd k.opm i).owner

/-- A claim joins the order of the core's operand memory, its result outstanding (R259). -/
def Cx.claim (c : Cx) (d : SReg) (n : Nat) (m : Option (BitVec 32)) : R :=
  ({ c with s := c.s.modCore c.core (fun k => { k with claims := k.claims ++ [⟨c.aid, c.t.seq, n, m⟩] }) } : Cx).long (.oclaim d n m none) [.s d]

/-- OCLAIM of n slots (R259). -/
def execOclaim (h : Hdr) (d : SReg) (n1 : BitVec 5) : State → Host.Outcome State Fault Refusal :=
  runS { h := h, wr := [.s d], heavy := true, noHandler := true, long := true } (fun c => c.claim d (n1.toNat + 1) none)

/-- OCLAIM.m of the slots of a mask (R259). -/
def execOclaimM (h : Hdr) (d a : SReg) : State → Host.Outcome State Fault Refusal :=
  runS { h := h, rd := [.s a], wr := [.s d], heavy := true, noHandler := true, long := true } (fun c =>
    let x := c.x 0
    let m : BitVec 32 := x.setWidth 32
    if x.toNat / 2 ^ 32 ≠ 0 ∨ m = 0 then .exc { cause := 22 }
    else if (slotsOf m).any (fun i => (c.s.core c.core).slotOwner i == some c.aid) then .exc { cause := 22 }
    else c.claim d 0 (some m))

/-- A slot that an exception of an issued instruction may still give back to a thread (R34, R260). -/
def State.slotKept (s : State) (core i : Nat) : Bool :=
  ((s.core core).occ.toList.filterMap id).any (fun a => (s.th a).outst.any (fun o => o.saved.undo.any (fun u => match u with
    | .slot n _ => n == i
    | _ => false)))

/-- The slots that a claim takes now, none while it must wait (R259). -/
def State.claimSlots (s : State) (core : Nat) (c : Claim) : Option (List Nat) :=
  let free (i : Nat) : Bool := ((s.core core).slotOwner i).isNone && !s.slotKept core i
  match c.mask with
  | some m => if (slotsOf m).all free then some (slotsOf m) else none
  | none =>
    let l := ((List.range 32).filter free).take c.n
    if l.length = c.n then some l else none

/-- Slots claimed by a thread, reading as zero (R108). -/
def Core.takeSlots (k : Core) (aid : Nat) (l : List Nat) : Core :=
  { k with opm := l.foldl (fun v i => vwr v i ⟨some aid, []⟩) k.opm }

/-- OCLAIM_SERVE (R259): the claim that stands first is served once every slot it needs is free, and no earlier operation of its thread
can raise (log 5). -/
def execOclaimServe (core : Nat) (s : State) : Host.Outcome State Fault Refusal :=
  let k := s.core core
  match (if s.here core then k.claims else []) with
  | [] => .next s
  | c :: r =>
    match (if ((s.th c.aid).before c.seq 0).all (fun o => o.op.quiet) then s.claimSlots core c else none) with
    | none => .next s
    | some l =>
      let s1 := s.putCore core { k.takeSlots c.aid l with claims := r }
      .next (s1.modTh c.aid (fun t =>
        { t with outst := t.outst.map (fun o =>
            if o.seq = c.seq then
              { o with op := match o.op with
                  | .oclaim d n m _ => .oclaim d n m (some (slotMask l))
                  | x => x }
            else o) }))

/-- A slot has an OFILL of the thread outstanding (R260, R261, R264). -/
def Thread.filling (t : Thread) (slot : Nat) : Bool :=
  t.outst.any (fun o => match o.op with
    | .ofill _ n _ _ _ => n == slot
    | .ofillS _ n _ _ _ _ => n == slot
    | _ => false)

/-- ORELEASE (R260). -/
def execOrelease (h : Hdr) (a : SReg) : State → Host.Outcome State Fault Refusal :=
  runS { h := h, rd := [.s a], heavy := true, noHandler := true } (fun c =>
    let x := c.x 0
    let l := slotsOf (x.setWidth 32)
    if x.toNat / 2 ^ 32 ≠ 0 then .exc { cause := 22 }
    else if l.any (fun i => (c.s.core c.core).slotOwner i != some c.aid) then .exc { cause := 22 }
    else if l.any c.t.filling then .exc { cause := 5 }
    else
      let s1 := l.foldl (fun s i => s.record c.aid c.t.seq (.slot i (vrd (s.core c.core).opm i))) c.s
      .ok (s1.modCore c.core (fun k => { k with opm := l.foldl (fun v i => vwr v i ⟨none, []⟩) k.opm })))

/-- SLOT, OFF and LEN of a slot descriptor (R261). -/
def slotDesc (x : Dword) : Nat × Nat × Nat := (bits x.toNat 4 0, bits x.toNat 21 8, bits x.toNat 37 23)

/-- A slot descriptor that OFILL accepts for a slot of the thread; `unit` is 16, or 128 for the stream form (R261). -/
def Cx.descOk (c : Cx) (x : Dword) (unit : Nat) : Bool :=
  let (sl, off, len) := slotDesc x
  decide (bits x.toNat 63 38 = 0 ∧ bits x.toNat 22 22 = 0 ∧ bits x.toNat 7 5 = 0 ∧ 1 ≤ len ∧ len % unit = 0 ∧
    off % 16 = 0 ∧ off + len ≤ 16384) && (c.s.core c.core).slotOwner sl == some c.aid

/-- OFILL from the own scratchpad (R261). -/
def execOfill (h : Hdr) (d cr : SReg) (m : MemOp) : State → Host.Outcome State Fault Refusal :=
  let rd := memNames m ++ [.s cr]
  runS { h := h, len := memLen m, rd := rd, wr := [.s d], heavy := true, noHandler := true, long := true, mem := true }
    (fun c =>
      let x := c.x (memNames m).length
      let (sl, off, len) := slotDesc x
      let va := c.ea m 0
      if c.descOk x 16 = false then .exc { cause := 22 }
      else
        match c.s.chkSeg c.t m.seg va len 16 true false with
        | some e => .exc e
        | none =>
          if c.s.isOwn c.t va = false ∨ c.s.ownOk c.t va len = false then
            .exc { cause := 13, addr := reportAddr c.core va }
          else c.long (.ofill d sl off ⟨va, len⟩ []) [.s d])

/-- The bindable vector register of a three-bit field (R257). -/
def vport (b : BitVec 3) : VReg := BitVec.ofNat 5 (24 + b.toNat)

/-- OFILL.s from a bound stream (R261). -/
def execOfillS (h : Hdr) (d cr : SReg) (b : BitVec 3) : State → Host.Outcome State Fault Refusal :=
  runS { h := h, rd := [.s cr], own := [.v (vport b)], wr := [.s d], heavy := true, noHandler := true, long := true
         mem := true } (fun c =>
    let x := c.x 0
    let (sl, off, len) := slotDesc x
    if c.descOk x 128 = false then .exc { cause := 22 }
    else if c.s.affineIn c.aid (.v (vport b)) = false then .exc { cause := 8 }
    else c.long (.ofillS d sl off len len ⟨true, b⟩) [.s d])

/-! ### Array instructions as they issue (R262) -/

/-- An array instruction leaves the rotation and waits for the array. -/
def Cx.toArray (c : Cx) (i : Instr) (a b : Dword) : R :=
  let s1 := c.s.modCore c.core (fun k => { k with arrq := k.arrq ++ [⟨c.saved, c.aid, c.pc, c.npc, i, a, b, false⟩] })
  .raw (s1.modTh c.aid (fun t => { t with inRot := false, parked := false }))

/-- WLATCH (R263). -/
def execWlatch (h : Hdr) (ty : Ty) (slot : BitVec 5) : State → Host.Outcome State Fault Refusal :=
  runS { h := h, len := 16, heavy := true, noHandler := true, first := true } (fun c => c.toArray (.wlatch h ty slot) 0 0)

/-- MMA (R264). -/
def execMma (h : Hdr) (ty : Ty) (mode : MmaMode) (a b : SReg) (slot : BitVec 5) (cnt1 : BitVec 9) :
    State → Host.Outcome State Fault Refusal :=
  runS { h := h, len := 16, rd := [.s a, .s b], heavy := true, noHandler := true, first := true } (fun c =>
    c.toArray (.mma h ty mode a b slot cnt1) (c.x 0) (c.x 1))

/-! ### Tiles (R109) -/

/-- Format of a BX type with 4-bit elements. -/
def isBx4 : Ty → Bool
  | .bx4 => true
  | _ => false

/-- A BX type. -/
def isBx : Ty → Bool
  | .bx8 | .bx4 => true
  | _ => false

/-- Rows that an activation tile of a format has (R109). -/
def actRows : Ty → Nat
  | .f64 => 32
  | .f16 | .bf16 => 128
  | .e4m3 | .e5m2 => 256
  | .e2m1 => 512
  | .bx8 => 240
  | .bx4 => 455
  | _ => 0

/-- Element `e` of a row that begins at byte `base`, its BX exponent pair at byte `pair` (R63, R109). -/
def tileElem (ty : Ty) (m : Memory) (base pair e : Nat) : Val :=
  let w := tyBits ty
  let raw := leVal (m.bytes (base + w * e / 8) ((w + 7) / 8))
  let x := if w = 4 then raw / 2 ^ (4 * (e % 2)) % 16 else raw
  if isBx ty then bxDecode (isBx4 ty) (m.get pair).toNat (m.get (pair + 1)).toNat x else (tyFmt ty).decode x

/-- Element k of activation row r (R109). -/
def actElem (ty : Ty) (m : Memory) (r k : Nat) : Val :=
  tileElem ty m (8 * tyBits ty * r) ((if isBx4 ty then 14560 else 15360) + 4 * r + 2 * (k / 32)) k

/-- Weight W[k][n] (R109). -/
def weightElem (ty : Ty) (m : Memory) (k n : Nat) : Val :=
  tileElem ty m (4 * tyBits ty * k) (64 * (4 * tyBits ty) + 2 * k) n

/-! ### Accumulator rows (R110) -/

/-- A delivered row of zeros, as rows stand at launch start. -/
def zeroRow : AccRow := ⟨false, none, 0, Vector.replicate 32 0⟩

/-- A row of accumulator storage. -/
def Core.row (k : Core) (r : Nat) : AccRow := amGet k.acc r zeroRow

/-- A row replaced. -/
def Core.setRow (k : Core) (r : Nat) (x : AccRow) : Core := { k with acc := amSet k.acc r x }

/-- Rows of accumulator storage of a core. -/
def Core.accRows (k : Core) : Nat := accgOf k.part * 256

/-- Numbers of the rows that an MMA of a format names, in order (R264). -/
def mmaRows (dbl : Bool) (a count : Nat) : List Nat := (List.range (if dbl then 2 * count else count)).map (fun i => a + i)

/-- The cell of column n of the row or pair that begins at row `r` (R110): in FP64 mode an entry of 128 bits of the pair,
whose 512 bytes lie in order. -/
def Core.cell (k : Core) (dbl : Bool) (r n : Nat) : Nat :=
  let e (i : Nat) : Nat := (vrd (k.row (r + i / 32)).cells (i % 32)).toNat
  if dbl then e (2 * n) + 2 ^ 64 * e (2 * n + 1) else e n

/-- A row or pair written with the cells or results of its 32 columns, and its new state. -/
def Core.putCells (k : Core) (dbl : Bool) (r : Nat) (opn : Bool) (owner : Option Nat) (steps : Nat) (xs : List Nat) : Core :=
  let row (f : Nat → Nat) : AccRow := ⟨opn, owner, steps, Vector.ofFn (fun i => BitVec.ofNat 64 (f i.val))⟩
  if dbl then
    let half (i : Nat) : Nat := xs.getD (i / 2) 0 / 2 ^ (64 * (i % 2))
    (k.setRow r (row half)).setRow (r + 1) (row (fun i => half (32 + i)))
  else k.setRow r (row (fun i => xs.getD i 0))

/-! ### The array (R262 to R266) -/

/-- The cell format of an MMA (R77, R80). -/
def cellOf (dbl : Bool) : CellFmt := if dbl then cell64 else cell32

/-- One window: 64 k-steps added to a cell, in k order (R265). -/
def window (f : CellFmt) (cell : WCell) (xs : List (Val × Val)) : WCell := xs.foldl (fun c p => f.align c p.1 p.2) cell

/-- The checks of an MMA when it reaches the array, in order (R264): the cause, or 0. -/
def Core.mmaCheck (k : Core) (t : Thread) (aid : Nat) (ty : Ty) (mode : MmaMode) (slot a b count : Nat) : Nat :=
  let dbl := ty == .f64
  let rows := mmaRows dbl a count
  let bad (r : Nat) : Bool :=
    let x := k.row r
    match mode with
    | .cont => !(x.opn && x.owner == some aid && x.steps == 64)
    | _ => x.opn
  if k.slotOwner slot ≠ some aid then 22
  else if t.filling slot then 5
  else if actRows ty < b + count then 22
  else if (dbl ∧ a % 2 = 1) ∨ k.accRows < a + rows.length then 23
  else
    match k.latch with
    | none => 35
    | some l =>
      if l.aid ≠ aid ∨ (dbl != (l.ty == .f64)) = true then 35
      else if rows.any bad then 36
      else 0

/-- The open step of an MMA (R266): every row it names is open and owned by its thread. -/
def Core.openRows (k : Core) (aid : Nat) (rows : List Nat) : Core :=
  rows.foldl (fun k r => k.setRow r { k.row r with opn := true, owner := some aid }) k

/-- One row of an MMA (R265): the new cells or results, with the NaN partials and overflowed windows delivered (R83). -/
def Core.mmaRow (k : Core) (ty : Ty) (mode : MmaMode) (l : ArrLatch) (slot r act : Nat) : List Nat × Nat × Nat :=
  let dbl := ty == .f64
  let f := cellOf dbl
  let m := (vrd k.opm slot).bytes
  let xs := (List.range 64).map (fun i => actElem ty m act i)
  let done := (List.range 32).map (fun n =>
    let c0 : WCell := if mode = .cont then f.unpack (k.cell dbl r n) else .sum 0 0 false
    window f c0 (xs.zip ((List.range 64).map (fun i => weightElem l.ty l.mem i n))))
  if mode = .opn then (done.map f.pack, 0, 0)
  else
    let isNan (c : WCell) : Bool := match c with
      | .special _ nan _ => nan
      | _ => false
    let ds := done.map f.deliver
    (ds.map (·.1), (done.filter isNan).length, (ds.filter (·.2)).length)

/-- The close step of an MMA (R266): its rows from `r` on and its activation rows from `act` on. -/
def Core.mmaClose (k : Core) (aid : Nat) (ty : Ty) (mode : MmaMode) (l : ArrLatch) (slot : Nat) :
    Nat → Nat → Nat → Core × Nat × Nat
  | 0, _, _ => (k, 0, 0)
  | n + 1, r, act =>
    let dbl := ty == .f64
    let (xs, nan, ov) := k.mmaRow ty mode l slot r act
    let k1 := if mode = .opn then k.putCells dbl r true (some aid) 64 xs else k.putCells dbl r false none 0 xs
    let (k2, a, b) := Core.mmaClose k1 aid ty mode l slot n (r + if dbl then 2 else 1) (act + 1)
    (k2, nan + a, ov + b)

/-- A count of `mstat` with an increment, saturating (R83). -/
def satCount (c : BitVec 32) (n : Nat) : BitVec 32 := BitVec.ofNat 32 (Nat.min (c.toNat + n) 0xFFFFFFFF)

/-- A thread returns to the rotation, its array instruction completed. -/
def State.arrayDone (s : State) (o : ArrOp) (sw : Bool) : State :=
  (s.finish o.aid o.npc sw).modTh o.aid (fun t => { t with inRot := true })

/-- A thread returns to the rotation with the exception that its instruction meets at the array, and what it popped is put back (R34,
R40, R276). -/
def State.arrayRaise (s : State) (o : ArrOp) (e : Exc) : State :=
  let r := (s.th o.aid).regs
  ((s.takeBack o.aid o.saved).modTh o.aid (fun t => { t with regs := r, inRot := true })).raise o.aid e o.npc

/-- That exception with a cause alone. -/
def State.arrayExc (s : State) (o : ArrOp) (cause : Nat) : State := s.arrayRaise o { cause := cause }

/-- The slot of operand memory holds an uncorrectable soft error (R390). -/
def State.slotBad (s : State) (core n : Nat) : Bool := s.badOp.contains (core, n)

/-- A thread returns to the rotation with the segment exception of a slot that holds an uncorrectable soft error; its ADDR, for which
there is no address, is 0 (R390, log 56). -/
def State.arraySoft (s : State) (o : ArrOp) : State := s.arrayRaise o { cause := 9, note := .soft }

/-- The array takes the instruction that stands first: WLATCH whole, an MMA with its open step and then its close step. -/
def State.arrayStep (s : State) (core : Nat) (o : ArrOp) (r : List ArrOp) : State :=
  let k := s.core core
  let t := s.th o.aid
  let popped (k : Core) : State := s.putCore core { k with arrq := r }
  match o.instr with
  | .wlatch h ty slot =>
    let n := slot.toNat
    if k.slotOwner n ≠ some o.aid then (popped k).arrayExc o 22
    else if t.filling n then (popped k).arrayExc o 5
    else if s.slotBad core n then (popped k).arraySoft o
    else (popped { k with latch := some ⟨o.aid, ty, (vrd k.opm n).bytes⟩ }).arrayDone o h.sw
  | .mma h ty mode _ _ slot cnt1 =>
    let n := slot.toNat
    let count := cnt1.toNat + 1
    let a := o.a.toNat
    if o.opened = false then
      let c := k.mmaCheck t o.aid ty mode n a o.b.toNat count
      if c ≠ 0 then (popped k).arrayExc o c
      else if s.slotBad core n then (popped k).arraySoft o
      else s.putCore core { k.openRows o.aid (mmaRows (ty == .f64) a count) with arrq := { o with opened := true } :: r }
    else
      match k.latch with
      | none => popped k
      | some l =>
        let (k1, nan, ov) := k.mmaClose o.aid ty mode l n count a o.b.toNat
        ((popped k1).modTh o.aid (fun t =>
          { t with regs := { t.regs with nanc := satCount t.regs.nanc nan, ovwc := satCount t.regs.ovwc ov } })).arrayDone
          o h.sw
  | _ => popped k

/-- ARRAY_PERFORM (R262). -/
def execArrayPerform (core : Nat) (s : State) : Host.Outcome State Fault Refusal :=
  match (s.core core).arrq with
  | [] => .next s
  | o :: r => .next (if s.here core then s.arrayStep core o r else s)

/-! ### Accumulator instructions (R267 to R269) -/

/-- The rows that an instruction writes, noted for an exception of an earlier one (R34). -/
def Cx.noteRows (c : Cx) (rows : List Nat) : State :=
  rows.foldl (fun s r => s.record c.aid c.t.seq (.row r ((s.core c.core).row r))) c.s

/-- ACCZ (R267). -/
def execAccz (h : Hdr) (a b : SReg) : State → Host.Outcome State Fault Refusal :=
  runS { h := h, rd := [.s a, .s b], heavy := true, noHandler := true } (fun c =>
    let k := c.s.core c.core
    let n := (c.x 1).toNat
    let r0 := (c.x 0).toNat
    if n = 0 then .ok c.s
    else if k.accRows < r0 + n then .exc { cause := 23 }
    else
      let rows := (List.range n).map (fun i => r0 + i)
      if rows.any (fun r => (k.row r).opn && (k.row r).owner != some c.aid) then .exc { cause := 36 }
      else .ok ((c.noteRows rows).putCore c.core (rows.foldl (fun k r => k.setRow r zeroRow) k)))

/-- A row is delivered, or open and owned by a thread (R268). -/
def AccRow.mine (x : AccRow) (aid : Nat) : Bool := !x.opn || x.owner == some aid

/-- ACCRD.f32 without a half, ACCRD.d with one (R268). -/
def execAccrd (h : Hdr) (half : Option Bool) (d : VReg) (a : SReg) (mk : MReg) : State → Host.Outcome State Fault Refusal :=
  runS { h := h, rd := [.s a], wr := [.v d], masks := [mk], heavy := true, noHandler := true } (fun c =>
    let k := c.s.core c.core
    let n := (c.x 0).toNat
    let row := k.row n
    let w := if half.isSome then 64 else 32
    if k.accRows ≤ n then .exc { cause := 23 }
    else if (if half.isSome then row.mine c.aid else !row.opn) = false then .exc { cause := 34 }
    else
      let e (i : Nat) : Nat := (vrd row.cells i).toNat
      let f (i : Nat) (g : Staged) : Nat × Staged := match half with
        | some hf => (e (16 * hf.toNat + i), g)
        | none => (e i % 2 ^ 32, g)
      .ok (c.setV d (mapVec (c.t.rM mk) w (c.oldV d) c.t.staged f).1))

/-- ACCWR.f32 without a half, ACCWR.d with one (R268). -/
def execAccwr (h : Hdr) (half : Option Bool) (a : SReg) (cr : VReg) (mk : MReg) : State → Host.Outcome State Fault Refusal :=
  runS { h := h, rd := [.s a, .v cr], masks := [mk], heavy := true, noHandler := true } (fun c =>
    let k := c.s.core c.core
    let n := (c.x 0).toNat
    let row := k.row n
    let m := c.t.rM mk
    let v := c.v 1
    if k.accRows ≤ n then .exc { cause := 23 }
    else if row.mine c.aid = false then .exc { cause := 36 }
    else
      let cells := Vector.ofFn (fun (j : Fin 32) => match half with
        | some hf =>
          if j.val / 16 = hf.toNat ∧ active m 64 (j.val % 16) = true then BitVec.ofNat 64 (elem v 64 (j.val % 16))
          else vrd row.cells j.val
        | none => if active m 32 j.val then BitVec.ofNat 64 (elem v 32 j.val) else vrd row.cells j.val)
      let row1 : AccRow := if half.isSome then { row with cells := cells } else ⟨false, none, 0, cells⟩
      .ok ((c.noteRows [n]).putCore c.core (k.setRow n row1)))

/-- MSTAT and MSTAT.peek (R269): a switch marker first, and no posted operation whose flags are still to come (R184). -/
def mstatBody (clear : Bool) (d : SReg) (c : Cx) : R :=
  if c.s.flagsPending c.aid then .stall false
  else
    let s1 := c.setS d c.t.mstat
    .ok (if clear then s1.modTh c.aid (fun t => { t with regs := { t.regs with nanc := 0, ovwc := 0 } }) else s1)

/-- MSTAT (R269). -/
def execMstat (h : Hdr) (d : SReg) : State → Host.Outcome State Fault Refusal :=
  runS { h := h, wr := [.s d], heavy := true, noHandler := true, first := true } (mstatBody true d)
/-- MSTAT.peek (R269). -/
def execMstatPeek (h : Hdr) (d : SReg) : State → Host.Outcome State Fault Refusal :=
  runS { h := h, wr := [.s d], heavy := true, noHandler := true, first := true } (mstatBody false d)

/-! ### VSACC (R249) -/

/-- a × b × c + d with one rounding to come: the product of three exact factors (R249). Of factors that hold an infinity, a quiet NaN and
a zero no rule says whether NV is raised: the model multiplies from left to right (DESIGN CHOICE, log 18). -/
def fma3Val (rm : Rm) (a b c d : Val) : Val × Flags :=
  let (p, f0) := mulVal a b
  let (q, f1) := mulVal p c
  let (x, f2) := addVal rm q d
  (x, f0 ||| f1 ||| f2)

/-- Registers that VSACC accumulates into. -/
def vsaccDests (dbl : Bool) (d : VReg) (n1 : BitVec 2) : List VReg :=
  (List.range ((if dbl then 2 else 1) * (n1.toNat + 1))).map (fun i => d + BitVec.ofNat 5 i)

/-- One register of VSACC. -/
def Cx.vsaccReg (c : Cx) (dbl : Bool) (rm : Rm) (b : VReg) (mk : MReg) (row0 i : Nat) (old : Vec) (g : Staged) :
    Vec × Staged :=
  let k := c.s.core c.core
  let f := if dbl then f64 else f32
  let w := if dbl then 64 else 32
  let sc := f.decode (elem (c.v 1) w (if dbl then i / 2 else i))
  let bv := if dbl ∧ i % 2 = 1 then c.t.rV (b + 1) else c.t.rV b
  mapVec (c.t.rM mk) w old g (fun j g =>
    let p := if dbl then k.cell true (row0 + i / 2 * 2) (16 * (i % 2) + j) % 2 ^ 64 else k.cell false (row0 + i) j % 2 ^ 32
    g.enc f rm (fma3Val rm (f.decode p) (f.decode (elem bv w j)) sc (f.decode (elem old w j))))

/-- The registers of VSACC one after the other, so that draws run in row order and then in element order. -/
def Cx.vsaccRegs (c : Cx) (dbl : Bool) (rm : Rm) (b : VReg) (mk : MReg) (row0 : Nat) :
    Nat → List VReg → Staged → List (VReg × Vec) × Staged
  | _, [], g => ([], g)
  | i, d :: ds, g =>
    let (x, g1) := c.vsaccReg dbl rm b mk row0 i (c.t.rV d) g
    let (l, g2) := Cx.vsaccRegs c dbl rm b mk row0 (i + 1) ds g1
    ((d, x) :: l, g2)

/-- VSACC (R249): no name of its accumulators or of B may be bound; rows are read in one step. -/
def execVsacc (h : Hdr) (dbl : Bool) (r : Rnd) (d : VReg) (a : SReg) (b cr : VReg) (n1 : BitVec 2) (mk : MReg) :
    State → Host.Outcome State Fault Refusal :=
  let ds := vsaccDests dbl d n1
  runS { h := h, rd := [.s a, .v cr], nob := ds.map Nm.v ++ (if dbl then [.v b, .v (b + 1)] else [.v b]), masks := [mk]
         heavy := true } (fun c =>
    let k := c.s.core c.core
    let row0 := (c.x 0).toNat
    if k.accRows < row0 + ds.length ∨ (dbl = true ∧ row0 % 2 = 1) then .exc { cause := 23 }
    else if (List.range ds.length).any (fun i => (k.row (row0 + i)).opn) then .exc { cause := 34 }
    else
      let (l, g) := c.vsaccRegs dbl (c.t.mode r) b mk row0 0 ds c.t.staged
      .ok ((l.foldl (fun s e => s.modTh c.aid (fun t => t.wV e.1 e.2)) c.s).commit c.aid g))

end Sys2Proof.Machine
end

