-- ==== Sys2Proof/Machine/System.lean ====
section
/-!
DEFINITION. The privileged instructions that act on one core: opcodes 0xE0 to 0xE5, 0xE8 to 0xEC (R325 to R337, R339 to R343).
-/

namespace Sys2Proof.Machine

/-! ### SRET (R334) -/

/-- SRET: `how` is 0 .retry, 1 .next, 2 .to and 3 .kill; `en` is .end (R334). For a slot of 0 to 14 it is a release that
the slot acquires when it resumes (R331), and what it does to the slot performs as R119 lets a release. Bits [1:0] of a pc are 0 (R136),
and so are those of the pc taken from `sipc`. What an exception of an earlier instruction would put back is noted (R34). -/
def sretBody (c : Cx) (how : Nat) (en : Bool) (tgt : Dword) : R :=
  let l := (c.x 0).toNat
  let k := c.s.core c.core
  let rec_ := c.s.slotHome c.core l
  let lat := c.s.latch rec_ l
  if 16 < l ∨ lat.armed = false then .exc { cause := 44 }
  else if en = true ∧ k.sit = false then .exc { cause := 44 }
  else if l = 16 ∧ how ≠ 0 then .exc { cause := 44 }
  else if l = 15 ∧ how = 3 then .exc { cause := 44 }
  else
    let t := if how = 0 then lat.pc else if how = 1 then lat.npc else tgt
    if how = 2 ∧ t.toNat % 4 ≠ 0 then .exc { cause := 12, addr := t }
    else
      let us := [Undo.latch rec_ l lat, Undo.sys k.sysRegs]
      let s1 := (us.foldl (fun s u => s.record c.aid c.t.seq u) c.s).disarm rec_ l
      let s2 := if en then s1.modCore c.core (fun k => { k with sit := false, ew := false }) else s1
      let s3 := if l < 15 then s2.postOp c.aid c.npc { c.saved with undo := us ++ c.saved.undo }
          (.sret rec_ l (if how = 3 then none else some t)) else s2
      if en then .jump s3 (k.sipc &&& ~~~(3#64)) else if l = 15 then .jump s3 t else .ok s3

/-- SRET.retry (R334). -/
def execSretRetry (h : Hdr) (a : SReg) (en : Bool) : State → Host.Outcome State Fault Refusal :=
  runS { h := h, rd := [.s a], priv := true, mem := true } (fun c => sretBody c 0 en 0)
/-- SRET.next (R334). -/
def execSretNext (h : Hdr) (a : SReg) (en : Bool) : State → Host.Outcome State Fault Refusal :=
  runS { h := h, rd := [.s a], priv := true, mem := true } (fun c => sretBody c 1 en 0)
/-- SRET.to (R334). -/
def execSretTo (h : Hdr) (a b : SReg) (en : Bool) : State → Host.Outcome State Fault Refusal :=
  runS { h := h, rd := [.s a, .s b], priv := true, mem := true } (fun c => sretBody c 2 en (c.x 1))
/-- SRET.kill (R334). -/
def execSretKill (h : Hdr) (a : SReg) (en : Bool) : State → Host.Outcome State Fault Refusal :=
  runS { h := h, rd := [.s a], priv := true, mem := true } (fun c => sretBody c 3 en 0)

/-! ### MFS and MTS (R326, R327, R335) -/

/-- Number of a slot state (R326). -/
def SlotSt.code : SlotSt → Nat
  | .empty => 0
  | .running => 1
  | .held => 2
  | .frozen => 3

/-- The thread in the slot that `ssel` of a core selects, when the slot is not empty. -/
def State.selected (s : State) (core : Nat) : Option Thread :=
  let k := s.core core
  let r := s.slotHome core k.ssel
  if k.ssel < 16 ∧ vrd (s.core r).sst k.ssel ≠ .empty then (s.occ r k.ssel).map s.th else none

/-- Segment `g` of a slot as the supervisor reads it: a light thread's is the entry of its current set, but g7 the slot's
own (R41, R43, R326). -/
def State.slotSeg (s : State) (t : Thread) (g : BitVec 3) : Seg :=
  if t.kind = .light ∧ g ≠ 7 then s.seg t g else vrd t.segs g.toNat

/-- `sstat` (R327). -/
def Core.sstat (k : Core) : Dword :=
  BitVec.ofNat 64 (Nat.min k.reqs.length 0xFFFF * 256 + k.ew.toNat * 2 + k.sit.toNat)

/-- The value of a system special register (R326); registers of an empty slot read as zero. -/
def State.sysReg (s : State) (core num : Nat) : Dword :=
  let k := s.core core
  let sel := s.selected core
  let st := if k.ssel = 16 then SlotSt.empty else vrd (s.core (s.slotHome core k.ssel)).sst k.ssel
  if num = 0x000 then 1
  else if num = 0x001 then BitVec.ofNat 64 k.ssel
  else if num = 0x002 then k.stvec
  else if num = 0x003 then k.sipc
  else if num = 0x004 then k.sstat
  else if num = 0x005 then k.ssvc
  else if num = 0x006 then BitVec.ofNat 64 k.ssvcf.toNat
  else if num = 0x007 then Config.imageBytes
  else if num = 0x017 then BitVec.ofNat 64 st.code
  else if num < 0x017 then
    (if k.ssel = 16 ∨ st ≠ .empty then (s.latch (s.slotHome core k.ssel) k.ssel).dword (num - 0x010) else 0)
  else if num < 0x020 then vrd k.smsg (num - 0x018)
  else
    match sel with
    | none => 0
    | some t =>
      if num = 0x040 then t.ltag.setWidth 64
      else segField (s.slotSeg t (BitVec.ofNat 3 num)) ((num - 0x020) / 8)

/-- The entry window closes when MFS of `scause` and of `saddr` were both made at the latch of the entry (R331). -/
def Core.look (k : Core) (num : Nat) : Core :=
  if k.ew = true ∧ k.ssel = k.ewL then
    let c := k.ewC || num == 0x010
    let a := k.ewA || num == 0x013
    if c && a then { k with ew := false, ewC := false, ewA := false } else { k with ewC := c, ewA := a }
  else k

/-- MFS (R335). Slot 15's reads close the entry window (R331). -/
def execMfs (h : Hdr) (d : SReg) (num : BitVec 12) : State → Host.Outcome State Fault Refusal :=
  runS { h := h, wr := [.s d], priv := true } (fun c =>
    let v := c.s.sysReg c.core num.toNat
    let s1 := if c.slot = 15 then (c.s.record c.aid c.t.seq (.sys (c.s.core c.core).sysRegs)).modCore c.core (fun k => k.look num.toNat)
      else c.s
    .ok (s1.wrS c.aid d v))

/-- MTS (R326, R335). `sipc` holds what was written; bits [1:0] of the pc taken from it are 0 (R136). -/
def execMts (h : Hdr) (num : BitVec 12) (a : SReg) : State → Host.Outcome State Fault Refusal :=
  runS { h := h, rd := [.s a], priv := true } (fun c =>
    let v := c.x 0
    let set (f : Core → Core) : R := .ok ((c.s.record c.aid c.t.seq (.sys (c.s.core c.core).sysRegs)).modCore c.core f)
    if num = 0x001 then (if 16 < v.toNat then .exc { cause := 11 } else set (fun k => { k with ssel := v.toNat }))
    else if num = 0x002 then (if v.toNat % 4 ≠ 0 then .exc { cause := 11 } else set (fun k => { k with stvec := v }))
    else if num = 0x003 then set (fun k => { k with sipc := v })
    else set (fun k => { k with ssvc := v }))

/-! ### SEGLD (R336) -/

/-- A segment from its descriptor of 24 bytes (R336). -/
def segOfDesc (v : Nat) : Seg :=
  ⟨BitVec.ofNat 64 (v % 2 ^ 64), BitVec.ofNat 64 (v / 2 ^ 64 % 2 ^ 64), BitVec.ofNat 4 (v / 2 ^ 128)⟩

/-- SEGLD (R336): the targets are the issuing slot, a held slot and an empty slot. A segment loaded into an empty slot is
replaced before any access uses it. It completes before the next issue (R329), so it waits for an earlier access of its words and for an
earlier acquire. -/
def execSegld (h : Hdr) (g : BitVec 3) (m : MemOp) : State → Host.Outcome State Fault Refusal :=
  runS { h := h, len := memLen m, rd := memNames m, priv := true, mem := true } (fun c =>
    let va := c.ea m 0
    let k := c.s.core c.core
    match c.s.chkSeg c.t m.seg va 24 8 true false with
    | some e => .exc e
    | none =>
      let r := c.s.slotHome c.core k.ssel
      let st := if k.ssel = 16 then SlotSt.frozen else vrd (c.s.core r).sst k.ssel
      if k.ssel = 16 ∨ ((st = .running ∨ st = .frozen) ∧ k.ssel ≠ c.slot) then .exc { cause := 44 }
      else if c.s.wordBusy c.aid va 24 || c.s.acqPending c.aid then .stall false
      else
        (c.s.readEach c.aid 8 .plain [(0, va), (1, va + 8), (2, va + 16)]).bind (fun vs s1 =>
          let v := vs.foldr (fun e r => e.2 + 2 ^ 64 * r) 0
          if v / 2 ^ 132 ≠ 0 then .exc { cause := 43 }
          else
            match (if st = .empty then none else s1.occ r k.ssel) with
            | some a =>
              .ok ((s1.record c.aid c.t.seq (.seg a g.toNat (vrd (s1.th a).segs g.toNat))).modTh a (fun t =>
                { t with segs := vwr t.segs g.toNat (segOfDesc v) }))
            | none => .ok s1))

/-! ### ACCSAVE and ACCLOAD (R337) -/

/-- The 256 raw bytes of a row (R110, R337). -/
def AccRow.raw (r : AccRow) : List Byte := (List.range 32).flatMap (fun i => leBytes 8 (vrd r.cells i).toNat)

/-- The state byte of a row (R337). -/
def State.rowByte (s : State) (r : AccRow) : Byte :=
  let slot := match r.owner with
    | some a => (s.th a).slot
    | none => 0
  if r.opn then BitVec.ofNat 8 (1 + 2 * slot) else 0

/-- Pieces of 64 bytes of a byte list from an address aligned to 64. -/
def pieces (va : Dword) (bs : List Byte) : List (Dword × List Byte) :=
  (List.range ((bs.length + 63) / 64)).map (fun i => (va + BitVec.ofNat 64 (64 * i), (bs.drop (64 * i)).take 64))

/-- Plain stores of pieces by an instruction that performs them at issue, in one step. -/
def Cx.storeAll (c : Cx) : List (Dword × List Byte) → State → R
  | [], s => .ok s
  | (va, bs) :: l, s =>
    match s.writeRuns c.aid va ((List.range bs.length).zip bs) .plain none (s.isOwn c.t va) with
    | .done _ s1 => Cx.storeAll c l s1
    | .refuse e _ => .exc e
    | .fault a r s1 => .fault a r s1
    | .absent _ => .stall true

/-- Plain reads of `n` bytes from an address aligned to 64, in pieces of 64, in one step. -/
def State.loadAll (s : State) (aid : Nat) (va : Dword) (n : Nat) : Nat → Met (List Byte)
  | 0 => .ok [] s
  | k + 1 =>
    let m := Nat.min 64 n
    if m = 0 then .ok [] s
    else
      match s.readAt aid va m .plain with
      | .ok v s1 =>
        match State.loadAll s1 aid (va + 64) (n - m) k with
        | .ok bs s2 => .ok (leBytes m v ++ bs) s2
        | r => r
      | .exc e s1 => .exc e s1
      | .fault a r s1 => .fault a r s1
      | .wait => .wait

/-- The checks of ACCSAVE and ACCLOAD up to the rows, and what they wait for: no array instruction stands between its open
and close steps (R337). -/
def Cx.accArea (c : Cx) (m : MemOp) (i : Nat) (rd : Bool) (f : Nat → Dword → Nat → Nat → R) : R :=
  let row := (c.x i).toNat
  let n := (c.x (i + 1)).toNat
  let va := c.ea m 0
  let r := if c.super then c.s.guest c.core else c.core
  if n = 0 then .ok c.s
  else
    match c.s.chkSeg c.t m.seg va (257 * n) 64 rd (!rd) with
    | some e => .exc e
    | none =>
      if (c.s.core r).accRows < row + n then .exc { cause := 23 }
      else if c.s.wordBusy c.aid va (257 * n) || (c.s.core r).arrq.any (fun o => o.opened) then .stall false
      else f r va row n

/-- ACCSAVE (R337). -/
def execAccsave (h : Hdr) (d cr : SReg) (m : MemOp) : State → Host.Outcome State Fault Refusal :=
  let rd := memNames m ++ [.s d, .s cr]
  runS { h := h, len := memLen m, rd := rd, priv := true, first := true, mem := true } (fun c =>
    c.accArea m (memNames m).length false (fun r va row n =>
      let rows := (List.range n).map (fun i => (c.s.core r).row (row + i))
      c.storeAll (pieces va (rows.flatMap AccRow.raw ++ rows.map c.s.rowByte)) c.s))

/-- The rows that an area restores (R337); an open row has 64 steps taken (R264). -/
def State.rowsOf (s : State) (core n : Nat) (bs : List Byte) : List AccRow :=
  (List.range n).map (fun i =>
    let b := (bs.getD (256 * n + i) 0).toNat
    let opn := b % 2 == 1
    ⟨opn, if opn then s.occ core (b / 2 % 16) else none, if opn then 64 else 0,
      Vector.ofFn (fun j => BitVec.ofNat 64 (leVal ((bs.drop (256 * i + 8 * j.val)).take 8)))⟩)

/-- ACCLOAD (R337). -/
def execAccload (h : Hdr) (d cr : SReg) (m : MemOp) : State → Host.Outcome State Fault Refusal :=
  let rd := memNames m ++ [.s d, .s cr]
  runS { h := h, len := memLen m, rd := rd, priv := true, first := true, mem := true } (fun c =>
    c.accArea m (memNames m).length true (fun r va row n =>
      (c.s.loadAll c.aid va (257 * n) (257 * n / 64 + 1)).bind (fun bs s1 =>
        if (bs.drop (256 * n)).any (fun b => decide (32 ≤ b.toNat)) then .exc { cause := 43 }
        else
          let rows := s1.rowsOf r n bs
          .ok (s1.modCore r (fun k => ((List.range n).zip rows).foldl (fun k e => k.setRow (row + e.1) e.2) k)))))

/-! ### XLINV (R339) -/

/-- Translations that answer a test dropped at one cluster port, or at every port. -/
def State.dropTlb (s : State) (all : Bool) (cl : Nat) (p : Tlb → Bool) : State :=
  if all then { s with clus := s.clus.map (fun e => (e.1, { e.2 with tlb := e.2.tlb.filter (fun t => !p t) })) }
  else s.modClu cl (fun k => { k with tlb := k.tlb.filter (fun t => !p t) })

/-- XLINV.va (R339). -/
def execXlinvVa (h : Hdr) (a b : SReg) (pkg : Bool) : State → Host.Outcome State Fault Refusal :=
  runS { h := h, rd := [.s a, .s b], priv := true, first := true, mem := true } (fun c =>
    let lg := (c.x 1).toNat
    if lg ≠ 16 ∧ lg ≠ 21 ∧ lg ≠ 30 then .exc { cause := 11 }
    else .ok (c.s.dropTlb pkg (clusterOf c.num) (fun t => t.lg == lg && t.va == (c.x 0).toNat / 2 ^ lg * 2 ^ lg)))

/-- XLINV.tag (R339): the translations of the address space of the launch that has, or had, the tag. -/
def execXlinvTag (h : Hdr) (a b : SReg) (pkg : Bool) : State → Host.Outcome State Fault Refusal :=
  runS { h := h, rd := [.s a, .s b], priv := true, first := true, mem := true } (fun c =>
    match amGet? c.s.asids (c.x 0).toNat with
    | some n => .ok (c.s.dropTlb pkg (clusterOf c.num) (fun t => t.asid == n))
    | none => .ok c.s)

/-- XLINV.all (R339). -/
def execXlinvAll (h : Hdr) (a b : SReg) (pkg : Bool) : State → Host.Outcome State Fault Refusal :=
  runS { h := h, rd := [.s a, .s b], priv := true, first := true, mem := true } (fun c =>
    .ok (c.s.dropTlb pkg (clusterOf c.num) (fun _ => true)))

/-! ### RTSWAP (R340, R380, R381) -/

/-- A port of a cluster leads off the package, but for the I/O dies' own destinations (R380). -/
def offPackage (i d q : Nat) : Bool :=
  if q = 1 ∧ cxOf i = 0 then decide (d ≠ 288)
  else if q = 2 ∧ cxOf i = 23 then decide (d ≠ 289)
  else decide ((q = 3 ∧ cyOf i = 0) ∨ (q = 4 ∧ cyOf i = 11))

/-- A routing entry of a cluster's table for a destination is valid as R380 demands. -/
def routeOk (i d : Nat) (e : BitVec 16) : Bool :=
  let ord := bits e.toNat 2 0
  let adp := bits e.toNat 9 5
  decide (bits e.toNat 14 10 = 0 ∧ bits e.toNat 4 3 = 0 ∧ ord < 5) && bitAt adp ord &&
    (!e.getLsbD 15 || !((List.range 5).any (fun q => (bitAt adp q || q == ord) && offPackage i d q))) &&
    !(ord == 0 && d != i)

/-- The entries of a table of 4,640 bytes. -/
def routeTable (bs : List Byte) : List (BitVec 16) :=
  (List.range 2320).map (fun j => BitVec.ofNat 16 (leVal ((bs.drop (2 * j)).take 2)))

/-- RTSWAP (R340, R381): nothing is in flight in a router between two moves. -/
def execRtswap (h : Hdr) (d a b : SReg) : State → Host.Outcome State Fault Refusal :=
  runS { h := h, rd := [.s a, .s b], wr := [.s d], priv := true, first := true, mem := true } (fun c =>
    let va := c.x 0
    let i := (c.x 1).toNat
    match c.s.chkSeg c.t 0 va 4640 64 true false with
    | some e => .exc e
    | none =>
      if 288 ≤ i ∨ c.s.partOf i ≠ c.s.partOf (clusterOf c.num) then .ok (c.setS d 2)
      else if c.s.wordBusy c.aid va 4640 then .stall false
      else
        (c.s.loadAll c.aid va 4640 73).bind (fun bs s1 =>
          let es := routeTable bs
          if ((List.range 2320).zip es).all (fun e => routeOk i (e.1 % 290) e.2) then
            .ok ((s1.modClu i (fun k => { k with route := ((List.range 2320).zip es).foldl (fun m e =>
              if e.2 = 0 then amDel m e.1 else amSet m e.1 e.2) k.route })).wrS c.aid d 0)
          else .ok (s1.wrS c.aid d 1)))

/-! ### HALT, RDSTATE and SYSMSG (R341 to R343) -/

/-- HALT.wait (R341): slot 15 waits for a request; any other slot raises. -/
def execHaltWait (h : Hdr) : State → Host.Outcome State Fault Refusal :=
  runS { h := h, priv := true, first := true, mem := true } (fun c =>
    if c.slot ≠ 15 then .exc { cause := 44 }
    else .raw (c.s.modTh c.aid (fun t =>
      { t with wait := some ⟨.halt, 0, c.npc, none, none⟩, parked := false, entering := false })))

/-- HALT.stop (R341): the issuing slot becomes empty, its state readable through RDSTATE. -/
def execHaltStop (h : Hdr) : State → Host.Outcome State Fault Refusal :=
  runS { h := h, priv := true, first := true, mem := true } (fun c =>
    .raw ((c.s.finish c.aid c.npc h.sw).modCore c.core (fun k => { k with sst := vwr k.sst c.slot .empty })))

/-- RDSTATE (R342). -/
def execRdstate (h : Hdr) (d a b : SReg) : State → Host.Outcome State Fault Refusal :=
  runS { h := h, rd := [.s a, .s b], wr := [.s d], priv := true, long := true } (fun c =>
    c.long (.rdstate d (c.x 0) (c.x 1)) [.s d])

/-- SYSMSG (R343). -/
def execSysmsg (h : Hdr) (a cr : SReg) : State → Host.Outcome State Fault Refusal :=
  runS { h := h, rd := [.s a] ++ quad cr, priv := true, mem := true } (fun c =>
    let dst := (c.x 0).toNat
    if bits (c.x 1).toNat 63 48 ≠ 0 then .exc { cause := 11 }
    else if 1151 < dst then .exc { cause := 31 }
    else .ok (c.send c.s (.sysmsg dst (c.x 1) (c.x 2) (c.x 3) (c.x 4))))

end Sys2Proof.Machine
end

