-- ==== Sys2Proof/Machine/Migrate.lean ====
section
/-!
DEFINITION. Moving whole contexts: CTXOUT and CTXIN (R131, R338), basting entries and core maps (R359, R360), and receive
translation with the bounce ring and its replay (R361 to R364).
-/

namespace Sys2Proof.Machine

/-! ### Free and occupied cores -/

/-- A core is free (R338): outside every panel, no service core, slots 0 to 14 empty. -/
def State.coreFree (s : State) (c : Nat) : Bool :=
  let g := s.guest c
  decide (c < 1152) && s.launches.all (fun l => !l.hasCore c) && !(s.core c).ssvcf &&
    (List.range 15).all (fun i => vrd (s.core g).sst i == .empty && (s.occ g i).isNone) && decide ((s.core g).ltag = 0)

/-- Every outstanding set of a context is empty (R54, R338), and no CTXOUT would part a queued claim from its result. -/
def State.settled (s : State) (p : Nat) : Bool :=
  s.threads.all (fun e => e.2.core != p || e.2.kind == .super || e.2.outst.isEmpty) &&
    ((s.core p).arrq.all (fun o => !o.opened))

/-- The context of position `p` leaves core `c`: its slots' requests that slot 15 has not taken go with it, and a record
that had given way to it stands for the core again. -/
def State.vacate (s : State) (p c : Nat) (to_ : Site) : State :=
  let mine := (s.core c).reqs.filterMap (fun r => match r with
    | .slot n => if n < 15 then some n else none
    | _ => none)
  let rest := (s.core c).reqs.filter (fun r => match r with
    | .slot n => decide (15 ≤ n)
    | _ => true)
  let s1 := s.modCore c (fun k =>
    { k with reqs := rest, site := if p ≠ c ∧ k.ltag = 0 ∧ k.site = .away c then .on c else k.site })
  s1.modCore p (fun k => { k with site := to_, sreqs := k.sreqs ++ mine })

/-- The context of position `p` occupies core `c`, whose own empty record gives way. -/
def State.occupy (s : State) (p c : Nat) : State :=
  let s1 := if c = p then s else s.modCore c (fun k => { k with site := .away c })
  let rs := (s1.core p).sreqs
  (s1.modCore p (fun k => { k with site := .on c, sreqs := [] })).modCore c (fun k =>
    { k with reqs := k.reqs ++ rs.map (fun n => .slot n) })

/-! ### CTXOUT.core (R338, R359) -/

/-- CTXOUT.core (R338): a live migration, which makes no move of the abstract machine (R131). -/
def execCtxoutCore (h : Hdr) (d a b : SReg) : State → Host.Outcome State Fault Refusal :=
  runS { h := h, rd := [.s a, .s b], wr := [.s d], priv := true, first := true, mem := true } (fun c =>
    let src := (c.x 0).toNat
    let dst := (c.x 1).toNat
    let p := c.s.guest src
    let tag := (c.s.core p).ltag
    if 1152 ≤ src ∨ tag = 0 then .ok (c.setS d 2)
    else if c.s.coreFree dst = false then .ok (c.setS d 1)
    else
      match findIx (fun e => !e.v) (c.s.clu (clusterOf src)).bast.toList 0 with
      | none => .stall false
      | some i =>
        if c.s.settled p = false then .stall false
        else
          let s1 := (c.s.vacate p src (.on dst)).occupy p dst
          let e : Basting := ⟨true, tag, dst, 0, src, p⟩
          .ok ((s1.modClu (clusterOf src) (fun k => { k with bast := vwr k.bast i e })).wrS c.aid d 0))

/-- BASTING_FORWARD (R359) of the `idx`-th item that waits for panel position `core` at a core which its context left: it
goes on to the core of the basting entry, which counts it, no item of one sender before an earlier one. -/
def execBastingForward (core idx : Nat) (s : State) : Host.Outcome State Fault Refusal :=
  let k := s.core core
  match k.fwdq[idx]? with
  | none => .next s
  | some e =>
    if (k.fwdq.take idx).any (fun x => x.src == e.src) then .next s
    else
      let s1 := s.modCore core (fun k => { k with fwdq := k.fwdq.eraseIdx idx })
      match s.basting? k.ltag core e.at_ with
      | none => .next (s1.dropAt e.at_ (s.rep (.thread e.aid)))
      | some b =>
        let cl := clusterOf e.at_
        let count (s : State) : State :=
          s.modClu cl (fun q => { q with bast := q.bast.map (fun x => if x = b then { x with fwd := x.fwd + 1 } else x) })
        let n := s.arrives k.ltag core 3 b.new
        if n = s.phys core then
          .next (match (count s1).land e.aid k.ltag core e.tr with
            | some s2 => s2
            | none => s.ringWait core e.tr.queue)
        else .next ((count s1).modCore core (fun q => { q with fwdq := k.fwdq.set idx { e with at_ := n } }))

/-- MIGRATION_MARKER (R360): the context of position `sender` installs the core-map update of the context that left core
`old`: its marker has passed through the basting entries, which count it, so nothing of it waits there any longer. A marker that the
fabric refuses is dropped and logged, in the name of slot 15 of its core (log 46). -/
def execMigrationMarker (sender old : Nat) (s : State) : Host.Outcome State Fault Refusal :=
  let tag := (s.core sender).ltag
  match (s.clu (clusterOf old)).bast.toList.find? (fun b => b.v && b.ltag == tag && b.old == old) with
  | none => .next s
  | some b =>
    if tag = 0 ∨ s.here sender = false ∨ s.firstStop tag sender b.pos ≠ old ∨
        (s.core b.pos).fwdq.any (fun e => e.src == sender) = true ∨ s.flows.any (fun f => f.src == sender && f.dst == b.pos) = true then
      .next s
    else if s.way true false (clusterOf (s.phys sender)) (clusterOf old) ≠ .through then
      .next (s.dropAt old (s.rep (.thread (superAid (s.phys sender) 15))))
    else .next ((s.passFrom tag b.pos 8 old).modCore sender (fun k => { k with known := amSet k.known b.pos b.new }))

/-- BASTING_ENTRY_RETIRE (R359). -/
def execBastingEntryRetire (cluster idx : Nat) (s : State) : Host.Outcome State Fault Refusal :=
  .next (if idx < 8 then s.setBasting cluster idx false else s)

/-! ### Images (R338, R361) -/

/-- The header of an image (R338). -/
def imageHeader (core : Nat) (tag : BitVec 32) : List Byte :=
  leBytes 8 1 ++ leBytes 8 core ++ leBytes 8 tag.toNat ++ List.replicate 40 0

/-- The content of an image of `n` bytes: no rule gives it; it is free from a number on (log 9). -/
def imageBody (free n : Nat) : List Byte := (List.range (n - 64)).map (fun i => Config.freeByte (free + i))

/-- CTXOUT.mem (R338): the context becomes absent once its core has a receive translation entry (R361). -/
def execCtxoutMem (h : Hdr) (d a b : SReg) : State → Host.Outcome State Fault Refusal :=
  runS { h := h, rd := [.s a, .s b], wr := [.s d], priv := true, first := true, mem := true } (fun c =>
    let src := (c.x 0).toNat
    let va := c.x 1
    let n := Config.imageBytes.toNat
    let p := c.s.guest src
    let tag := (c.s.core p).ltag
    if va.toNat % 4096 ≠ 0 then .exc { cause := 12, addr := reportAddr c.core va }
    else
      match c.s.chkSeg c.t 0 va n 1 false true with
      | some e => .exc e
      | none =>
        if 1152 ≤ src ∨ tag = 0 then .ok (c.setS d 2)
        else if (c.s.clu (clusterOf src)).recv.toList.all (fun r => !(r.v && !r.fwdn && r.ltag == tag && r.core == src)) then
          .stall false
        else if c.s.settled p = false then .stall false
        else
          let s1 := { c.s with free := c.s.free + n }
          match c.storeAll (pieces va (imageHeader src tag ++ imageBody c.s.free n)) s1 with
          | .ok s2 =>
            .ok (((s2.vacate p src (.away src)).modCore p (fun k => { k with img := c.s.free })).wrS c.aid d 0)
          | r => r)

/-- The absent context whose image these bytes are. -/
def State.imageOf (s : State) (bs : List Byte) : Option Nat :=
  (s.cores.find? (fun e =>
    match e.2.site with
    | .away c => decide (e.2.ltag ≠ 0) && decide (bs = imageHeader c e.2.ltag ++ imageBody e.2.img bs.length)
    | .on _ => false)).map (·.1)

/-! ### Replay (R362 to R364) -/

/-- A granule of an engine no longer waits as a record of an absent context. -/
def State.granuleIn (s : State) (ag : Agent) (n : Nat) : State :=
  match ag with
  | .copy cl id => match amGet? (s.clu cl).copies id with
    | some x => s.putCopy cl id { x with out := x.out - n }
    | none => s
  | .tier tag id => s.modPlan (BitVec.ofNat 32 tag) id (fun e => { e with out := e.out - n })
  | _ => s

/-- A granule that an engine wrote to an absent context, written at replay (R128, R361); its write no longer waits. -/
def State.replayGranule (s : State) (p : Nat) (ag : Agent) (off : Nat) (bs : List Byte) : State :=
  let pl := Place.sp p off
  let ws := pl.words bs.length
  let found := s.conflicts? ag true false ws
  let s1 := (((s.markAll ag true false ws).putBytes pl bs).fill ag pl bs.length).granuleIn ag bs.length
  let addr (w : WordKey) (st : Stamp) : Dword := match ag, st.ag with
    | .copy _ _, .copy _ _ => apertureVa (.sp p (off / 16 * 16))
    | _, _ => engWordVa (apertureVa (.sp p off)) w
  let who : Option (Nat × Agent × Dword) := match ag with
    | .copy cl id => (amGet? (s1.clu cl).copies id).map (fun x => (dieOfClu cl, x.kicker, BitVec.ofNat 64 (pktHandle x.pkt)))
    | .tier tag _ => ((s1.launch? (BitVec.ofNat 32 tag)).bind (·.taken)).map (fun a => (dieOf p, Agent.thread a, 0))
    | _ => none
  match found, who with
  | some (w, st), some (die, kicker, data) => s1.engTrap die kicker (s1.rep ag) st.rep (addr w st) data true
  | _, _ => s1

/-- A record whose context a cancel of its launch discarded (R364): it is dropped, a posted write with its record in the log. -/
def State.dropRec (s : State) (p : Nat) (tr : Traffic) : State :=
  match tr with
  | .posted src idx =>
    match vrd (s.core src).jrn idx with
    | none => s
    | some e =>
      (s.logErr (dieOf (s.phys p)) 5 0 (e.report src).1 true (s.rep (.thread e.aid)) none).putEnt src idx
        (some { e with st := .performed none 0 true })
  | .granule ag _ bs => s.granuleIn ag bs.length
  | .ack idx _ _ => s.putEnt p idx none
  | .context a => s.endThread a false
  | _ => s

/-- One record of a bounce ring performs as if it had arrived at the restored context (R362, R365). What finds no room in a queue waits
at the core (R358). -/
def State.replayRec (s : State) (p : Nat) (tr : Traffic) : State :=
  match tr with
  | .posted src idx =>
    match vrd (s.core src).jrn idx with
    | none => s
    | some e => s.performEnt src idx { e with st := .sent } true
  | .granule ag off bs => s.replayGranule p ag off bs
  | .ack idx refusal fl =>
    match vrd (s.core p).jrn idx with
    | some e => s.ackEnt p idx e refusal fl true
    | none => s
  | .trap a x _ =>
    if (s.th a).loc = .exited then s
    else s.modTh a (fun t => { t with traps := insertTrap { x with replay := true } t.traps, parked := false })
  | .context a =>
    let s1 := s.modTh a (fun t => { t with loc := .transit p })
    match s1.lightArrive a p with
    | some s2 => s2
    | none => s1
  | tr =>
    match s.land 0 (s.core p).ltag p tr with
    | some s1 => s1
    | none => (s.ringWait p tr.queue).hold p tr

/-- The records of the ring of position `p`, which left core `c0`, replayed in order, each as a move after which waits wake (R195); then
the port sends what waited for room, and later traffic, to core `dst` (R362, R363). A ring that holds a cancel of the launch has its
records dropped (R364). -/
def State.replayAll (s : State) (p c0 dst : Nat) : State :=
  let tag := (s.core p).ltag
  let cl := clusterOf c0
  match findIx (fun r => r.v && !r.fwdn && r.ltag == tag && r.core == c0) (s.clu cl).recv.toList 0 with
  | none => s
  | some i =>
    let r := vrd (s.clu cl).recv i
    let gone := r.recs.any (fun x => x.2.isCancel)
    let s1 := s.putRecv cl i { r with recs := [], wait := [], told := false, rcur := r.wcur, fwdn := c0 != dst, newc := dst }
    (r.recs.map (·.2) ++ r.wait).foldl (fun s tr => (if gone then s.dropRec p tr else s.replayRec p tr).fireWaits) s1

/-- CTXIN (R338, R362): the image is restored, the ring is replayed, and the context's slots go on. -/
def execCtxin (h : Hdr) (d a b : SReg) : State → Host.Outcome State Fault Refusal :=
  runS { h := h, rd := [.s a, .s b], wr := [.s d], priv := true, first := true, mem := true } (fun c =>
    let va := c.x 0
    let dst := (c.x 1).toNat
    let n := Config.imageBytes.toNat
    if va.toNat % 4096 ≠ 0 then .exc { cause := 12, addr := reportAddr c.core va }
    else
      match c.s.chkSeg c.t 0 va n 1 true false with
      | some e => .exc e
      | none =>
        if c.s.coreFree dst = false then .ok (c.setS d 1)
        else
          (c.s.loadAll c.aid va n (n / 64 + 1)).bind (fun bs s1 =>
            match s1.imageOf bs with
            | none => .ok (s1.wrS c.aid d 3)
            | some p =>
              let c0 := s1.phys p
              .ok (((s1.occupy p dst).replayAll p c0 dst).wrS c.aid d 0)))

/-- BOUNCE_APPEND (R361, R363): the first of the traffic that the `idx`-th receive translation entry of the cluster of core `core`
holds is appended, when the ring has room. -/
def execBounceAppend (core idx : Nat) (s : State) : Host.Outcome State Fault Refusal :=
  let cl := clusterOf core
  let r := vrd (s.clu cl).recv idx
  if 8 ≤ idx then .next s
  else match r.wait with
    | [] => .next s
    | tr :: l =>
      match (s.putRecv cl idx { r with wait := l }).appendRec cl idx tr with
      | none => .next s
      | some s1 =>
        match s1.cores.find? (fun e => e.2.ltag == r.ltag && e.2.site == .away r.core) with
        | some e => .next (if tr.isCancel then s1.endAway e.1 else s1)
        | none => .next s1

end Sys2Proof.Machine
end

