-- ==== Sys2Proof/Machine/Moves.lean ====
section
/-!
DEFINITION. Moves of slots and of queued and waiting threads: trap entry (R209, R213), the requests of slot 15 (R331, R332),
wake moves (R188, R195), what a freed light slot takes and steals (R192, R355, R356), and message handlers (R202).
-/

namespace Sys2Proof.Machine

/-! ### Trap entry and the requests of slot 15 -/

/-- TRAP_ENTRY (R209, R213): the slot's thread takes its raised exception or its first pending trap once its outstanding set
is empty. -/
def execTrapEntry (core slot : Nat) (s : State) : Host.Outcome State Fault Refusal :=
  match s.occ core slot with
  | some a => .next (if s.ready core slot && s.trapDue a then s.trapTake a else s)
  | none => .next s

/-- A blocking instruction, or HALT.wait, that slot 15 leaves to take a request (R332). -/
def WaitObj.yields : WaitObj → Bool
  | .queue _ _ _ _ _ _ | .exiting _ | .fault _ _ _ => false
  | _ => true

/-- Slot 15 takes the head of its queue (R332): at a marker, at the blocking instruction at which it waits, which is then
carried out anew, or in HALT.wait, which is then over. -/
def State.slotTake (s : State) (core : Nat) : State :=
  let a := superAid core 15
  let t := s.th a
  if s.canTake core = false ∨ t.pend.isSome = true then s
  else
    match t.wait with
    | some w =>
      if w.fired.isSome ∨ w.obj.yields = false then s
      else if w.obj = .halt then (s.modTh a (fun t => { t with pc := w.npc, seq := t.seq + 1 })).takeHead core
      else s.takeHead core
    | none => if t.marked && t.outst.isEmpty then s.takeHead core else s

/-- SUPERVISOR_REQUEST_TAKE (R331, R332). -/
def execSupervisorRequestTake (core : Nat) (s : State) : Host.Outcome State Fault Refusal :=
  match (s.core core).reqs with
  | .slot _ :: _ => .next (s.slotTake core)
  | _ => .next s

/-- SYSTEM_MESSAGE_TAKE (R332). -/
def execSystemMessageTake (core : Nat) (s : State) : Host.Outcome State Fault Refusal :=
  match (s.core core).reqs with
  | .msg _ _ _ _ _ _ :: _ => .next (s.slotTake core)
  | _ => .next s

/-! ### Wake moves (R188, R195) -/

/-- The destination that a woken instruction writes. -/
def WaitObj.dest : WaitObj → Option SReg
  | .ne _ _ d => some d
  | .load _ _ _ _ _ d => some d
  | .queue _ _ _ d _ _ => some d
  | _ => none

/-- The instruction at which a thread waited is complete: its result is written and the thread stands at the next one. A
thread that goes on after a conflict or a fault stands at the instruction itself. -/
def State.wakeDone (s : State) (aid : Nat) (w : Wait) (x : Dword) : State :=
  let t := s.th aid
  let again := t.pend.isSome || (match w.obj with
    | .fault _ _ _ | .acks | .exiting _ | .clear _ _ | .entry => true
    | _ => false)
  let s1 := s.modTh aid (fun t => { t with wait := none, marked := false, parked := false })
  if again then s1
  else
    let s2 := match w.obj.dest with
      | some d => s1.wrS aid d x
      | none => s1
    s2.modTh aid (fun t => { t with pc := w.npc, seq := t.seq + 1, entering := false })

/-- The wake move of a thread whose wait has its value: a heavy thread goes on in its slot; a Blocked light thread is Queued at
the tail of the run queue (R354), when that has room. -/
def State.wakeNow (s : State) (aid : Nat) (w : Wait) (x : Dword) : State :=
  let t := s.th aid
  if t.loc = .blocked then
    match (s.wakeDone aid w x).pushRun t.core aid with
    | .ok s1 => s1
    | .error _ => s.ringWait t.core 0
  else if s.roomFor aid ((w.obj.dest.map (fun d => Nm.s d)).toList) then s.wakeDone aid w x
  else s

/-- WAKE_MOVE (R188, R195): a waiting CQPUT first goes on when its slot is free (R298). -/
def execWakeMove (core aid : Nat) (s : State) : Host.Outcome State Fault Refusal :=
  let t := s.th aid
  if t.core ≠ core ∨ (t.kind ≠ .super ∧ s.here core = false) then .next s
  else
    let s1 := if t.loc = .blocked ∨ t.loc = .slot then s.cqWake aid else s
    match (s1.th aid).wait with
    | some w =>
      match w.fired with
      | some x => .next (s1.wakeNow aid w x)
      | none => .next s1
    | none => .next s1

/-! ### Light slots (R192, R355, R356) -/

/-- A number names a light slot of a core that a launch holds. -/
def State.lightSlot (s : State) (core slot : Nat) : Bool :=
  let k := s.core core
  s.here core && decide (k.ltag ≠ 0 ∧ heavyOf k.part ≤ slot ∧ slot < 14)

/-- The light slot is free. -/
def State.slotFree (s : State) (core slot : Nat) : Bool :=
  s.lightSlot core slot && (s.occ core slot).isNone && (vrd (s.core core).sst slot == .empty)

/-- The steal pass of a slot at a point. -/
def State.setSteal (s : State) (core slot : Nat) (x : StealSt) : State :=
  s.modCore core (fun k => { k with steal := vwr k.steal slot x })

/-- A context takes a slot: what its start is to acquire is acquired. -/
def State.takeSlot (s : State) (core slot aid : Nat) : State :=
  let ks := (s.th aid).acq
  let s1 := (s.setSlot core slot (some aid) .running).modTh aid (fun t => { t with loc := .slot, slot := slot, acq := [] })
  if ks.isEmpty then s1 else s1.syncFrom (.thread aid) ks

/-- LIGHT_SLOT_TAKE (R192): the near end of the deque, else the head of the run queue, else a pass of steal requests begins. A
context that departs is left to its departure (R292), and what stands next in the ring only is read back first (R357). -/
def execLightSlotTake (core slot : Nat) (s : State) : Host.Outcome State Fault Refusal :=
  if s.slotFree core slot = false then .next s
  else if (s.core core).waitsRing then .next (s.refill core)
  else
    match (s.core core).nextContext with
    | some (a, k) =>
      let t := s.th a
      if t.depart.isSome && t.traps.isEmpty && t.pend.isNone then .next s
      else .next ((((s.putCore core k).takeSlot core slot a).setSteal core slot .calm).refill core)
    | none => .next (if vrd (s.core core).steal slot = .calm then s.setSteal core slot (.asking 0) else s)

/-- Chebyshev distance of two clusters. -/
def cluDist (i j : Nat) : Nat := Nat.max (absDiff (cxOf i) (cxOf j)) (absDiff (cyOf i) (cyOf j))

/-- The victims of a core's steal requests in their order (R355). -/
def Launch.victims (l : Launch) (core : Nat) : List Nat :=
  let i := clusterOf core
  let own := (List.range 3).map (fun j => 4 * i + (core + j + 1) % 4)
  let rest := l.cores.filter (fun c => decide (clusterOf c ≠ i))
  own ++ sortBy (fun c => cluDist i (clusterOf c)) rest

/-- The context that a steal from a core takes (R192): the oldest of its deque that may leave, in the ring first (R357). -/
def State.stealPick (s : State) (victim : Nat) : Option Nat :=
  let k := s.core victim
  (k.dqRing.map (·.2) ++ k.deque).find? (fun a => s.stealable a && (s.th a).depart.isNone)

/-- A request to the victim is served or refused, by none (R355, R356), or waits for the record of its context. -/
def State.stealFrom (s : State) (core victim : Nat) : Option (Except State State) :=
  let tag := (s.core core).ltag
  if (s.core victim).ltag ≠ tag ∨ s.absent tag victim = true ∨ s.firstStop tag core victim ≠ s.phys victim ∨
      s.reaches false (clusterOf (s.phys core)) (clusterOf (s.phys victim)) = false then none
  else (s.stealPick victim).map (fun a => (s.ringContext victim a).map (fun s1 => (s1.departFor a core).refill victim))

/-- STEAL_SERVE (R192, R355, R356): the request that a slot has out. -/
def execStealServe (core slot : Nat) (s : State) : Host.Outcome State Fault Refusal :=
  if s.slotFree core slot = false then .next s
  else
    match vrd (s.core core).steal slot, s.launch? (s.core core).ltag with
    | .asking n, some l =>
      match (l.victims core)[n]? with
      | none => .next (s.setSteal core slot .resting)
      | some v =>
        match s.stealFrom core v with
        | some (.ok s1) => .next (s1.setSteal core slot .calm)
        | some (.error s1) => .next s1
        | none => .next (s.setSteal core slot (if n + 1 < (l.victims core).length then .asking (n + 1) else .resting))
    | _, _ => .next s

/-- STEAL_RETRY (R355): after 64 rotations of the slot a new pass begins. -/
def execStealRetry (core slot : Nat) (s : State) : Host.Outcome State Fault Refusal :=
  .next (if s.slotFree core slot = true ∧ vrd (s.core core).steal slot = .resting then s.setSteal core slot (.asking 0) else s)

/-! ### Message handlers (R202) -/

/-- The handler of a message. -/
def Msg.thread (m : Msg) (l : Launch) (core : Nat) : Thread :=
  { Thread.fresh .handler core 14 m.handler with
    regs := startRegs (m.payload ++ [m.sender.setWidth 64]) (rmOf l.fctl) (seedOf l.fctl)
    segs := Vector.ofFn (fun i => l.segOf 0 i.val)
    ltag := m.ltag }

/-- MESSAGE_HANDLER_START (R202): the next message's handler starts in slot 14 once the one before it has exited; one that stands in the
ring only is read back first (R357). -/
def execMessageHandlerStart (core : Nat) (s : State) : Host.Outcome State Fault Refusal :=
  let k := s.core core
  if k.msgq.isEmpty && !k.mgRing.isEmpty then .next (s.refill core)
  else match k.msgq, s.launch? k.ltag with
  | m :: r, some l =>
    if s.here core = false ∨ k.seen = true ∨ (s.occ core 14).isSome = true ∨ vrd k.sst 14 ≠ .empty then .next s
    else
      let (a, s1) := (s.modCore core (fun k => { k with msgq := r })).newThread (m.thread l core)
      .next (((s1.setSlot core 14 (some a) .running).syncFrom (.thread a) m.rel).refill core)
  | _, _ => .next s

end Sys2Proof.Machine
end

