-- ==== Sys2Proof/Machine/Launches.lean ====
section
/-!
DEFINITION. Launches: requests and the checks of a launch record (R344, R345, R347, R349, R350), the start (R24, R25, R88,
R346) and the completion (R26).
-/

namespace Sys2Proof.Machine

/-! ### Accesses of a launch unit (R345, R349) -/

/-- What a step of the launch unit meets: a refusal with its code, or a page fault at which it waits. -/
inductive Lr (α : Type) where
  | ok (x : α) (s : State)
  | refuse (code : Nat) (s : State)
  | fault (s : State)

/-- The next step. -/
def Lr.bind {α β : Type} (r : Lr α) (f : α → State → Lr β) : Lr β :=
  match r with
  | .ok x s => f x s
  | .refuse c s => .refuse c s
  | .fault s => .fault s

/-- A check with its code. -/
def Lr.check (code : Nat) (b : Bool) (s : State) : Lr Unit := if b then .ok () s else .refuse code s

/-- One step for each item. -/
def Lr.each {α β : Type} (f : α → State → Lr β) : List α → State → Lr (List β)
  | [], s => .ok [] s
  | x :: xs, s => (f x s).bind (fun y s1 => (Lr.each f xs s1).bind (fun ys s2 => .ok (y :: ys) s2))

/-- A request at work: the partition, its number in the queue, the address space of the launch, and the agent that rang the
doorbell. -/
structure Req1 where
  part   : Nat
  n      : Nat
  asid   : Nat
  kicker : Agent

/-- How the engine context of a launch request makes its accesses (R345): its faults take the port of cluster 0 (R375, R393). -/
def launchEng (part n asid : Nat) (tag : BitVec 32) (kick : Agent) : Eng :=
  ⟨.launchUnit part n, kick, 0, asid, tag, 4, 0, .launchUnit part n, true⟩

/-- The engine of a request. -/
def Req1.eng (u : Req1) : Eng := launchEng u.part u.n u.asid 0 u.kicker

/-- The engine context of a launch that runs. -/
def Launch.eng (l : Launch) : Eng := launchEng l.part l.request l.asid l.tag l.kicker

/-- The access at an address has received an error reply (R376). -/
def State.luFails (s : State) (part : Nat) (va : Dword) : Bool := s.luErr.contains (part, va.toNat / 65536)

/-- Plain reads of `n` bytes by the launch unit; `code` refuses the record when they receive an error response. -/
def State.luBytes (s : State) (u : Req1) (code : Nat) (va : Dword) : Nat → Nat → Lr (List Byte)
  | 0, _ => .ok [] s
  | f + 1, n =>
    let m := Nat.min n (16 - va.toNat % 16)
    if m = 0 then .ok [] s
    else if s.luFails u.part va then .refuse code (s.logEng u.eng 9 va)
    else
      match s.engLoad u.eng va m with
      | .ok (bs, x) s1 =>
        let s2 := match x with
          | some (w, st) => s1.engTrap 0 u.kicker (s1.rep u.eng.ag) st.rep (engWordVa va w) 0 false
          | none => s1
        (State.luBytes s2 u code (va + BitVec.ofNat 64 m) f (n - m)).bind (fun rest s3 => .ok (bs ++ rest) s3)
      | .err s1 => .refuse code s1
      | .fault s1 => .fault s1
      | .absent _ s1 => .refuse code (s1.logEng u.eng 9 va)

/-- Plain reads of `n` bytes at an address. -/
def State.luRead (s : State) (u : Req1) (code : Nat) (va : Dword) (n : Nat) : Lr (List Byte) := s.luBytes u code va (n / 16 + 2) n

/-- Field of `n` bytes at an offset. -/
def field (bs : List Byte) (o n : Nat) : Nat := leVal ((bs.drop o).take n)

/-- A dword field as an address. -/
def fieldA (bs : List Byte) (o : Nat) : Dword := BitVec.ofNat 64 (field bs o 8)

/-! ### The checks of R349 -/

/-- Code 1: REV, the reserved fields, the entry addresses, MBOX and FCTL (R46, R349). -/
def recordForm (r : List Byte) : Bool :=
  let fctl := field r 48 8
  decide (field r 0 2 = 1 ∧ field r 7 1 = 0 ∧ field r 5 1 / 64 = 0 ∧ field r 42 2 = 0 ∧ field r 130 6 = 0 ∧ field r 152 8 = 0) &&
    decide (field r 24 8 % 4 = 0 ∧ (field r 40 2 ≠ 0 → field r 32 8 % 4 = 0)) && decide (field r 136 8 % 8 = 0) &&
    decide (fctl % 8 < 5 ∧ bits fctl 31 3 = 0)

/-- A cluster holds a service core: it is never part of a panel (R13). -/
def State.withheld (s : State) (i : Nat) : Bool := (List.range 4).any (fun k => (s.core (4 * i + k)).ssvcf)

/-- Code 2: the panel (R16, R349). -/
def State.panelOk (s : State) (part : Nat) (l : Launch) : Bool :=
  decide (1 ≤ l.w ∧ l.w ≤ 24 ∧ 1 ≤ l.ph ∧ l.ph ≤ 12 ∧ l.ox + l.w ≤ 24 ∧ l.oy + l.ph ≤ 12) &&
    (List.range 288).all (fun i => !l.hasClu i || (decide (s.partOf i = part) && !s.withheld i))

/-- Code 3: the stage map (R17, R347); `n` is S and `ws` the eight bytes of STW. -/
def stagesOk (w n : Nat) (ws : List Nat) : Bool :=
  decide (1 ≤ n ∧ n ≤ 8 ∧ n ≤ w) && (ws.take n).all (fun x => decide (0 < x)) && (ws.drop n).all (fun x => x == 0) &&
    decide (ws.foldl (· + ·) 0 = w)

/-- Code 4: the partition word (R87). -/
def partOk (w : Dword) : Bool :=
  decide (l1gOf w + spgOf w + accgOf w + rfgOf w = 64 ∧ l1gOf w ≤ 16 ∧ 2 ≤ rfgOf w ∧ ktgOf w ≤ spgOf w ∧ heavyOf w ≤ 13 ∧
    w.toNat / 2 ^ 44 = 0)

/-- Code 5: the segment sets (R43, R336). -/
def State.luSegs (s : State) (u : Req1) (r : List Byte) : Lr (List (List Seg)) :=
  let n := field r 6 1
  let at_ := fieldA r 56
  if at_ = 0 then .ok (List.replicate n (List.replicate 8 Seg.none)) s
  else
    (s.luRead u 5 at_ (192 * n)).bind (fun bs s1 =>
      let desc (i : Nat) : Nat := field bs (24 * i) 24
      if (List.range (8 * n)).any (fun i => decide (desc i / 2 ^ 132 ≠ 0)) then .refuse 5 s1
      else .ok ((List.range n).map (fun t => (List.range 8).map (fun g => segOfDesc (desc (8 * t + g))))) s1)

/-- Code 6: the user exception table (R207). -/
def State.luUxt (s : State) (u : Req1) (r : List Byte) : Lr (Dword × Vector Dword 64) :=
  let at_ := fieldA r 64
  if at_ = 0 then .ok (0, Vector.replicate 64 0) s
  else if at_.toNat % 64 ≠ 0 then .refuse 6 s
  else
    (s.luRead u 6 at_ 576).bind (fun bs s1 =>
      if field bs 8 56 ≠ 0 ∨ field bs 0 8 % 64 ≠ 0 ∨ (List.range 64).any (fun i => bitAt (field bs (64 + 8 * i) 8) 1) = true then
        .refuse 6 s1
      else .ok (fieldA bs 0, Vector.ofFn (fun i => fieldA bs (64 + 8 * i.val))) s1)

/-- A combination of R304. -/
def planCombo (act src dst : Nat) : Bool :=
  match act, dst with
  | 0, 0 => decide (1 ≤ src ∧ src ≤ 5)
  | 0, 1 => decide (2 ≤ src ∧ src ≤ 5)
  | 0, 2 => decide (3 ≤ src ∧ src ≤ 5)
  | 2, 1 => decide (2 ≤ src ∧ src ≤ 5)
  | 1, 2 => src == 1
  | 1, _ => decide (src = 2 ∧ 3 ≤ dst ∧ dst ≤ 5)
  | 3, _ => decide ((src = 0 ∧ 2 ≤ dst ∧ dst ≤ 4) ∨ ((src = 1 ∨ src = 2) ∧ src < dst ∧ 2 ≤ dst ∧ dst ≤ 5))
  | _, _ => false

/-- A plan entry from its 32 bytes, when it is one of R303 and R304. -/
def readPlan (b : List Byte) : Option PlanEnt :=
  let ctl := field b 12 1
  let e : PlanEnt := ⟨field b 0 4, field b 4 4, field b 8 4, ctl % 4, bits ctl 4 2, bits ctl 7 5, fieldA b 16, field b 24 4,
    field b 14 2, field b 28 4, 0, false, false, 0, [], [], 0, 0, 0⟩
  let t0 := e.src == 0 || e.dst == 0
  if planCombo e.action e.src e.dst && decide (field b 13 1 = 0 ∧ e.due ≤ e.rel ∧ 1 ≤ e.len ∧ e.t0off % 16 = 0) &&
      (t0 || e.t0off == 0) then some e else none

/-- Code 7: the lay plan (R303). -/
def State.luPlan (s : State) (u : Req1) (r : List Byte) : Lr (List PlanEnt) :=
  let at_ := fieldA r 72
  let n := field r 80 4
  if at_ = 0 then .ok [] s
  else if at_.toNat % 32 ≠ 0 then .refuse 7 s
  else
    (s.luRead u 7 at_ (32 * n)).bind (fun bs s1 =>
      let es := (List.range n).map (fun i => readPlan ((bs.drop (32 * i)).take 32))
      let ok := es.filterMap id
      if ok.length = n ∧ (ok.map (·.id)).eraseDups.length = n then .ok ok s1 else .refuse 7 s1)

/-- Code 8: a tree descriptor (R279), whose space the record must hold with V = 1. -/
def State.luTree (s : State) (u : Req1) (r : List Byte) (ktu i : Nat) : Lr (Option TreeTy) :=
  let at_ := fieldA r (88 + 8 * i)
  if at_ = 0 then .ok none s
  else if at_.toNat % 16 ≠ 0 then .refuse 8 s
  else
    (s.luRead u 8 at_ 272).bind (fun bs s1 =>
      match readTree ktu (fun j => field bs (8 * j) 8) with
      | none => .refuse 8 s1
      | some t =>
        let m := fieldA r (160 + 8 * t.ksp)
        if m = 0 then .refuse 8 s1
        else (s1.luRead u 9 m 8).bind (fun h s2 => if bitAt (field h 0 8) 31 then .ok (some t) s2 else .refuse 8 s2))

/-- The header of a cell map of space `n` is one of R288. -/
def mapOk (n : Nat) (h : List Byte) : Bool :=
  let sp : Space := ⟨(List.range 8).map (fun i => fieldA h (8 * i)), [], [], 0⟩
  decide (sp.hd 0 % 16 = n ∧ bits (sp.hd 0) 63 55 = 0 ∧ sp.hd 1 / 2 ^ 32 = 0 ∧ field h 24 40 = 0) &&
    decide (sp.kAx 0 + sp.kAx 1 + sp.kAx 2 ≤ 12) && (List.range 3).all (fun a => decide (sp.lAx a + sp.kAx a ≤ 20)) &&
    decide (sp.shl ≤ 3 ∧ sp.sel ≤ 2 ^ Nat.min (sp.lAx 0) (Nat.min (sp.lAx 1) (sp.lAx 2)))

/-- Code 9: a cell map (R288). -/
def State.luMap (s : State) (u : Req1) (r : List Byte) (l : Launch) (n : Nat) : Lr (Option (Nat × Space)) :=
  let at_ := fieldA r (160 + 8 * n)
  if at_ = 0 then .ok none s
  else
    (s.luRead u 9 at_ 64).bind (fun h s1 =>
      if mapOk n h = false then .refuse 9 s1
      else
        let d := field h 0 8
        let cells := 2 ^ (bits d 7 4 + bits d 11 8 + bits d 15 12)
        (s1.luRead u 9 (at_ + 64) (2 * cells)).bind (fun bs s2 =>
          let os := (List.range cells).map (fun i => field bs (2 * i) 2)
          if os.all l.hasCore then .ok (some (n, ⟨(List.range 8).map (fun i => fieldA h (8 * i)), os, [], 0⟩)) s2
          else .refuse 9 s2))

/-- Code 10: one queue binding (R296, R350), with the cluster whose streamer serves it. -/
def State.luQueue (s : State) (u : Req1) (l : Launch) (b : List Byte) : Lr (Nat × QBind) :=
  let q := fieldA b 0
  let d := field b 8 8
  let x := bits d 7 0
  let y := bits d 15 8
  let wt := bits d 23 16
  if d / 2 ^ 24 ≠ 0 ∨ l.w ≤ x ∨ l.ph ≤ y ∨ wt = 0 ∨ q.toNat % 64 ≠ 0 then .refuse 10 s
  else
    (s.luRead u 10 q 64).bind (fun h s1 =>
      if (queueForm (field h 16 8) (field h 32 32)).isNone then .refuse 10 s1
      else
        match s1.engPlace u.eng q 64 .read with
        | .ok (some p) s2 =>
          .ok ((l.oy + y) * 24 + l.ox + x, ⟨q, wt, 0, (p.plus 24).word, none, none, [], 0⟩) s2
        | .ok none s2 => .refuse 10 s2
        | .err s2 => .refuse 10 s2
        | .fault s2 => .fault s2
        | .absent _ s2 => .refuse 10 s2)

/-- Code 10: the queue bindings (R350). -/
def State.luQueues (s : State) (u : Req1) (r : List Byte) (l : Launch) : Lr (List (Nat × QBind)) :=
  let at_ := fieldA r 120
  let n := field r 128 2
  if at_ = 0 then .ok [] s
  else if 64 < n then .refuse 10 s
  else
    (s.luRead u 10 at_ (16 * n)).bind (fun bs s1 =>
      (Lr.each (fun i s => s.luQueue u l ((bs.drop (16 * i)).take 16)) (List.range n) s1).bind (fun qs s2 =>
        Lr.bind (Lr.check 10 (decide ((qs.map (fun e => e.2.q)).eraseDups.length = n)) s2) (fun _ s3 => .ok qs s3)))

/-- Code 12: the overflow ring (R349). A segment of no bytes overlaps nothing. -/
def ringOk (l : Launch) : Bool :=
  let a := l.ovring.toNat
  let n := l.ovq * 65536
  decide (a % 4096 = 0 ∧ (a = 0 ↔ l.ovq = 0)) &&
    l.sets.all (fun set => set.all (fun g => !g.rts.getLsbD 3 || decide (l.ovq = 0 ∨ g.limit = 0) ||
      decide (g.base.toNat + g.limit.toNat ≤ a ∨ a + n ≤ g.base.toNat)))

/-- The launch of a record before its checked parts are read. -/
def launchOf (part asid ox oy : Nat) (r : List Byte) : Launch where
  tag := 0
  part := part
  asid := asid
  ox := ox
  oy := oy
  w := field r 2 1
  ph := field r 3 1
  stages := (List.range (field r 4 1)).map (fun i => field r (8 + i) 1)
  pw := fieldA r 16
  ktu := if bits (field r 5 1) 5 2 = 0 then 2 else bits (field r 5 1) 5 2
  sets := []
  fctl := fieldA r 48
  hentry := fieldA r 24
  lentry := fieldA r 32
  lcnt := field r 40 2
  ovq := field r 44 4
  ovring := fieldA r 144
  look := field r 84 4
  plan := []
  taken := none
  spaces := []
  recs := []
  fb := 0
  uxt := Vector.replicate 64 0
  trees := Vector.replicate 4 none
  vmode := field r 5 1 % 4
  qbinds := []
  mbox := fieldA r 136
  cancel := false
  cbox := []
  gone := []
  engSeen := []
  request := 0
  kicker := .host
  rel := []

/-- The launch that a record names, through the checks of R349 in the order of their codes. -/
def State.readLaunch (s : State) (u : Req1) (l0 : Launch) (r : List Byte) (resv : Bool) : Lr Launch :=
  let chk (c : Nat) (b : Bool) (s : State) (f : State → Lr Launch) : Lr Launch := (Lr.check c b s).bind (fun _ s1 => f s1)
  chk 1 (recordForm r && !resv) s fun s =>
  chk 2 (s.panelOk u.part l0) s fun s =>
  chk 3 (stagesOk l0.w (field r 4 1) ((List.range 8).map (fun i => field r (8 + i) 1))) s fun s =>
  chk 4 (partOk l0.pw) s fun s =>
  chk 5 (decide (l0.vmode ≠ 3 ∧ l0.ktu ≤ 8 ∧ 1 ≤ field r 6 1 ∧ field r 6 1 ≤ 4)) s fun s =>
  (s.luSegs u r).bind fun sets s =>
  (s.luUxt u r).bind fun uxt s =>
  (s.luPlan u r).bind fun plan s =>
  (Lr.each (fun i s => s.luTree u r l0.ktu i) (List.range 4) s).bind fun trees s =>
  (Lr.each (fun n s => s.luMap u r l0 n) (List.range 16) s).bind fun maps s =>
  (s.luQueues u r l0).bind fun qs s =>
  chk 11 (decide (l0.lcnt ≤ 3 * (rfgOf l0.pw * 65536 - 32768) / 1024)) s fun s =>
  let l : Launch := { l0 with
    sets := sets, fb := uxt.1, uxt := uxt.2, plan := plan, trees := Vector.ofFn (fun i => trees.getD i.val none)
    spaces := maps.filterMap id, qbinds := qs }
  chk 12 (ringOk l) s fun s => .ok l s

/-! ### LAUNCH_REQUEST (R344, R345, R349) -/

/-- A doorbell store has made the slot at an index of a unit's queue visible, and it is not taken yet: the agent of the first that did
(R345, R374). -/
def State.bellKick (s : State) (n r : Nat) : Option Agent := ((amGet s.bells n ⟨none, []⟩).kicks.find? (fun k => k.1.contains r)).map (·.2)

/-- A slot of a unit's queue is taken, or given up: it waits for a doorbell store anew. -/
def State.bellTaken (s : State) (n r : Nat) : State :=
  let b := amGet s.bells n ⟨none, []⟩
  let ks := b.kicks.map (fun k => (k.1.filter (fun i => decide (i ≠ r)), k.2))
  { s with bells := amSet s.bells n { b with kicks := ks.filter (fun k => !k.1.isEmpty) } }

/-- The header of a queue at a physical address, and its RIDX. -/
def State.unitHead (s : State) (a : Dword) : Option (Place × Dword) :=
  (s.physPlace a.toNat).map (fun h => (h, BitVec.ofNat 64 (s.val (h.plus 8) 8)))

/-- The slot that a unit of the package is to take next, made visible by a doorbell store and not taken yet: the header of its queue,
RIDX, and the agent of the store. -/
def State.bellNext (s : State) (n : Nat) (a : Dword) : Option (Place × Dword × Agent) :=
  (s.unitHead a).bind (fun x => (s.bellKick n x.2.toNat).map (fun k => (x.1, x.2, k)))

/-- An access of a unit at a physical address, which it names as such in the log (R392): none, with its record, where bring-up has not
ended (R395), memory holds an uncorrectable error (R390), or it writes the pinned pool (R371). -/
def State.unitReach (s : State) (e : Eng) (p : Place) (n : Nat) (writes : Bool) : Option State :=
  let va := apertureVa p
  if s.gateOpen false = false ∨ (writes = true ∧ s.inPool p n = true) then some (s.logEng e 9 va)
  else if s.meetsBad p n then some (s.logSoft e va)
  else none

/-- A unit's visit of a queue of a kind (R296, R344, R374): it acquires the doorbell store, reads the header, and finds the slot at RIDX
filled by its SEQ, which it acquires, or not. On an error response it leaves the slot until another doorbell store (DESIGN CHOICE, log
49). -/
def State.unitSlot (s : State) (e : Eng) (h : Place) (r : Dword) (kind : Nat) : Option Place × State :=
  let at_ (k : Nat) : Dword := apertureVa (h.plus k)
  match s.unitReach e h 64 false with
  | some s1 => (none, s1)
  | none =>
    let s2 := ((s.kickSync e.ag (h.plus 24)).engAtom e (at_ 24) (h.plus 24) 8 false false false).engAtom e (at_ 8) (h.plus 8) 8 false
      false false
    let (_, x, s3) := s2.engRead e (h.plus 16) 8
    let (_, y, s4) := s3.engRead e (h.plus 32) 32
    let s5 := (s4.engReport e (at_ 16) (h.plus 16) x).engReport e (at_ 32) (h.plus 32) y
    match headerForm kind (s5.val (h.plus 16) 8) (s5.val (h.plus 32) 32) with
    | none => (none, s5)
    | some (lg, slots) =>
      let a := slots.toNat + 64 * (r.toNat % 2 ^ lg)
      match s5.physPlace a with
      | none => (none, s5.logEng e 9 (BitVec.ofNat 64 a))
      | some z =>
        match s5.unitReach e z 64 false with
        | some s6 => (none, s6)
        | none =>
          let full := decide (s5.val (z.plus 56) 8 = (r + 1).toNat)
          (if full then some z else none, s5.engAtom e (apertureVa (z.plus 56)) (z.plus 56) 8 false false full)

/-- The bytes of a slot that a unit takes up (R345, R374). -/
def State.unitTake (s : State) (e : Eng) (z : Place) : List Byte × State :=
  let (bs, x, s1) := s.engRead e z 56
  (bs, s1.engReport e (apertureVa z) z x)

/-- A unit has taken the slot at RIDX of its queue: RIDX advances with a release of its engine context, unless its store gets an error
response. -/
def State.unitDone (s : State) (e : Eng) (n : Nat) (h : Place) (r : Dword) : State :=
  let s1 := s.bellTaken n r.toNat
  let p := h.plus 8
  match s1.unitReach e p 8 true with
  | some s2 => s2
  | none => s1.engPut e (apertureVa p) p (r + 1)

/-- The engine of a request as it reaches the queue of its partition, by physical addresses. -/
def Eng.physical (e : Eng) : Eng := { e with virt := false }

/-- A mailbox store of a launch unit (R349): none when it waits at a page fault; dropped and logged on an error response. -/
def State.luStore (s : State) (e : Eng) (part : Nat) (va v : Dword) : Except State State :=
  if s.luFails part va then .ok (s.logEng e 9 va)
  else
    match s.engPlace e va 8 .write with
    | .ok (some p) s1 => .ok (s1.engMail e va p v)
    | .ok none s1 => .ok s1
    | .err s1 => .ok s1
    | .fault s1 => .error s1
    | .absent h s1 => .ok (s1.bounce e.tag h (.granule e.ag (windowOf 0 va).2 (leBytes 8 v.toNat)))

/-- The launch unit waits at a page fault: what it did before is made again. -/
def State.luWait (s s1 : State) : State :=
  { s with free := s1.free, clus := s1.clus, cores := s1.cores }

/-- The request is over: RIDX advances with a release of its engine context, and later accesses meet their pages anew. -/
def State.luDone (s : State) (e : Eng) (part : Nat) (h : Place) (r : Dword) : State :=
  let s1 := s.unitDone e.physical part h r
  { s1 with luErr := s1.luErr.filter (fun x => decide (x.1 ≠ part)) }

/-- A request refused with a code (R349): its mailbox receives the code, when there is one and it is aligned. -/
def State.luRefuse (s s1 : State) (u : Req1) (h : Place) (r : Dword) (mbox : Dword) (code : Nat) : State :=
  if mbox = 0 ∨ mbox.toNat % 8 ≠ 0 then s1.luDone u.eng u.part h r
  else
    match s1.luStore u.eng u.part mbox (BitVec.ofNat 64 (2 ^ 63 + code)) with
    | .ok s2 => s2.luDone u.eng u.part h r
    | .error s2 => s.luWait s2

/-- The launch unit of a partition reads and checks the request in a slot at index `r` of its queue (R345, R349): `s` is the state
before its visit. -/
def State.luTake (s s1 : State) (part : Nat) (kick : Agent) (h z : Place) (r : Dword) : State :=
  let (q, s2) := s1.unitTake (launchEng part r.toNat 0 0 kick).physical z
  let rec_ := fieldA q 0
  let u : Req1 := ⟨part, r.toNat, field q 16 4, kick⟩
  if rec_.toNat % 64 ≠ 0 then (s2.logErr 0 5 0 rec_ true (s2.rep u.eng.ag) none).luDone u.eng part h r
  else
    match s2.luRead u 1 rec_ 288 with
    | .fault s3 => s.luWait s3
    | .refuse _ s3 => s3.luDone u.eng part h r
    | .ok bs s3 =>
      let l0 := { Sys2Proof.Machine.launchOf part u.asid (field q 8 1) (field q 9 1) bs with request := r.toNat, kicker := kick }
      let resv := decide (field q 10 6 ≠ 0 ∨ field q 20 4 ≠ 0 ∨ field q 24 32 ≠ 0)
      match s3.readLaunch u l0 bs resv with
      | .fault s4 => s.luWait s4
      | .refuse c s4 => s.luRefuse s4 u h r l0.mbox c
      | .ok l s4 => { s4 with pendingL := amSet s4.pendingL part l, luErr := s4.luErr.filter (fun e => decide (e.1 ≠ part)) }

/-- LAUNCH_REQUEST (R345, R349): the launch unit of a partition takes the next request once a doorbell store has made it visible,
reads its record and checks it. -/
def execLaunchRequest (part : Nat) (s : State) : Host.Outcome State Fault Refusal :=
  if 8 ≤ part ∨ (amGet? s.pendingL part).isSome then .next s
  else
    match s.bellNext part (amGet s.pqueue part 0) with
    | none => .next s
    | some (h, r, kick) =>
      if s.atFault 0 (.launchUnit part r.toNat) then .next s
      else
        match s.unitSlot (launchEng part r.toNat 0 0 kick).physical h r 2 with
        | (none, s1) => .next (s1.bellTaken part r.toNat)
        | (some z, s1) => .next (s.luTake s1 part kick h z r)

/-! ### LAUNCH_START (R24, R25, R88, R346) -/

/-- Every cluster of the panel belongs to no launch, holds no context that moved there, and is not under reset. -/
def State.panelFree (s : State) (l : Launch) : Bool :=
  (List.range 288).all (fun i => !l.hasClu i ||
    (s.launches.all (fun m => !m.hasClu i) && !(s.clu i).crst &&
      (List.range 4).all (fun k => decide ((s.core (s.guest (4 * i + k))).ltag = 0))))

/-- A core of a launch at its start: its stores read as R88 says, and what belongs to its supervisor stays. -/
def Core.install (k : Core) (c : Nat) (l : Launch) : Core :=
  let z := Core.reset c
  { z with
    part := l.pw, ltag := l.tag, fb := l.fb, uxt := l.uxt, trees := l.trees
    occ := vwr z.occ 15 (vrd k.occ 15), sst := vwr z.sst 15 (vrd k.sst 15)
    lat := k.lat, ssel := k.ssel, stvec := k.stvec, sipc := k.sipc, sit := k.sit, ew := k.ew, ewC := k.ewC, ewA := k.ewA
    ewL := k.ewL, ssvc := k.ssvc, ssvcf := k.ssvcf, reqs := k.reqs, smsg := k.smsg, cyc := k.cyc }

/-- A cluster of a launch at its start: events clear, handles free, its streamer bound to the launch's queues (R300, R350). -/
def Cluster.install (k : Cluster) (i : Nat) (l : Launch) : Cluster :=
  { k with
    event := 0, handles := [], copies := [], gated := false, qnext := 0
    qbinds := (l.qbinds.filter (fun e => e.1 == i)).map (fun e => { e.2 with tag := l.tag }) }

/-- A word of the scratchpads of a panel. -/
def Launch.ownsWord (l : Launch) : WordKey → Bool
  | .sp c _ => l.hasCore c
  | .phys _ => false

/-- A synchronisation object of the stores of a panel. -/
def Launch.ownsObj (l : Launch) : Obj → Bool
  | .word w | .box w => l.ownsWord w
  | .event c _ => l.hasClu c
  | .granule c _ => l.hasCore c
  | .handle c _ => l.hasClu c
  | _ => false

/-- A heavy thread of a launch (R24, R347). -/
def Launch.heavy (l : Launch) (core slot : Nat) : Thread :=
  { Thread.fresh .heavy core slot l.hentry with
    regs := startRegs [] (rmOf l.fctl) (seedOf l.fctl), segs := Vector.ofFn (fun i => l.segOf 0 i.val), ltag := l.tag }

/-- A light context of a launch (R24); its start acquires the launch's release. -/
def Launch.light (l : Launch) (core : Nat) : Thread :=
  { Thread.fresh .light core 0 l.lentry with
    regs := startRegs [] (rmOf l.fctl) (seedOf l.fctl), ltag := l.tag, loc := .runq, acq := l.rel }

/-- The heavy threads of a core start (R24). -/
def State.startHeavy (s : State) (l : Launch) (core slot : Nat) : State :=
  let (a, s1) := s.newThread (l.heavy core slot)
  (s1.setSlot core slot (some a) .running).syncFrom (.thread a) l.rel

/-- A light context of a core is queued (R24, R354). -/
def State.startLight (s : State) (l : Launch) (core : Nat) : State :=
  let (a, s1) := s.newThread (l.light core)
  s1.modCore core (fun k => { k with runq := k.runq ++ [a] })

/-- A core of the panel installs the launch, and its threads start (R24). -/
def State.startCore (s : State) (l : Launch) (core : Nat) : State :=
  let s1 := s.putCore core ((s.core core).install core l)
  let s2 := (List.range (heavyOf l.pw)).foldl (fun s i => s.startHeavy l core i) s1
  (List.range l.lcnt).foldl (fun s _ => s.startLight l core) s2

/-- The next launch count of a partition (R346). -/
def nextCount (n : Nat) : Nat := if n + 1 < 2 ^ 29 then n + 1 else 1

/-- A launch starts (R24, R88, R345, R346). -/
def State.startLaunch (s : State) (l0 : Launch) : State :=
  let n := amGet s.counts l0.part 1
  let l := { l0 with
    tag := BitVec.ofNat 32 (l0.part % 8 * 2 ^ 29 + n), rel := [s.contrib l0.eng.ag .pkg] }
  let s1 := s.endRegion l0.eng.ag
  let s2 := { s1 with
    counts := amSet s1.counts l.part (nextCount n), asids := amSet s1.asids l.tag.toNat l.asid, pendingL := amDel s1.pendingL l.part, launches := s1.launches ++ [l]
    stamps := s1.stamps.filter (fun e => !l.ownsWord e.1), objs := s1.objs.filter (fun e => !l.ownsObj e.1) }
  let s3 := ((List.range 288).filter l.hasClu).foldl (fun s i => s.modClu i (fun k => k.install i l)) s2
  l.cores.foldl (fun s c => s.startCore l c) s3

/-- LAUNCH_START (R345): the checked request starts once every cluster of its panel belongs to no launch; RIDX advances. -/
def execLaunchStart (part : Nat) (s : State) : Host.Outcome State Fault Refusal :=
  match amGet? s.pendingL part, s.unitHead (amGet s.pqueue part 0) with
  | some l, some (h, r) => .next (if s.panelFree l then (s.startLaunch l).luDone l.eng part h r else s)
  | _, _ => .next s

/-! ### LAUNCH_COMPLETION (R26, R349) -/

/-- The header of a bound queue is the place 24 bytes below its doorbell. -/
def QBind.header (b : QBind) : Place :=
  match b.bell with
  | .sp c w => .sp c (4 * w - 24)
  | .phys w => .phys (4 * w - 24)

/-- A launch is over (R26): its threads have exited and none is about to start or to act, nothing of it is in flight, its bound queues are
empty, its engine operations have ended and its cancel mailboxes are written. -/
def State.launchOver (s : State) (l : Launch) : Bool :=
  s.threads.all (fun e => e.2.ltag != l.tag || e.2.kind == .super || e.2.loc == .exited) &&
    l.cores.all (fun c =>
      let k := s.core c
      k.msgq.isEmpty && k.mgRing.isEmpty && k.held.isEmpty && k.fwdq.isEmpty && k.jrn.toList.all (fun j => j.isNone)) &&
    (l.qbinds.all (fun e => s.val e.2.header 8 == s.val (e.2.header.plus 8) 8)) &&
    (s.clus.all (fun e => e.2.copies.all (fun c => c.2.tag != l.tag || c.2.fin))) &&
    l.plan.all (fun e => e.st != 1) && l.cbox.isEmpty && s.flows.all (fun f => f.tag != l.tag)

/-- What a position of a launch that is over keeps: its context is gone, and entries left in its queues are discarded (R107). -/
def State.clearCore (s : State) (c : Nat) : State :=
  let q := s.phys c
  let s1 := if q ≠ c then s.vacate c q (.on c) else s.modCore c (fun k => { k with site := .on c })
  s1.modCore c (fun k =>
    { k with
      ltag := 0, seen := false, binds := [], lkw := [], lke := [], sq := Vector.replicate 8 [], taskq := [], tkRing := []
      known := [], net := Vector.replicate 4 ⟨.closed, none, [], 0, 0, 0, 0, []⟩ })

/-- A gated cluster loses its SRAM contents (R397). -/
def State.gate (s : State) (i : Nat) : State :=
  let s1 := (List.range 4).foldl (fun s k => s.modCore (4 * i + k) (fun c =>
    { c with sp := [], full := [], acc := [], opm := Vector.replicate 32 ⟨none, []⟩, latch := none, keys := [] })) s
  s1.modClu i (fun k => { k with gated := true })

/-- LAUNCH_COMPLETION (R26): a release to the launch's mailbox after every store of its threads and engines. -/
def execLaunchCompletion (tag : Nat) (s : State) : Host.Outcome State Fault Refusal :=
  match s.launch? (BitVec.ofNat 32 tag) with
  | none => .next s
  | some l =>
    if s.launchOver l = false ∨ s.atFault 0 l.eng.w = true then .next s
    else
      let ths := (s.threads.filter (fun e => e.2.ltag == l.tag)).map (fun e => s.contrib (.thread e.1) .pkg)
      let cps := s.clus.flatMap (fun e => (e.2.copies.filter (fun c => c.2.tag == l.tag)).map (fun c =>
        s.contrib (.copy e.1 c.1) .pkg))
      let trs := l.plan.map (fun e => s.contrib (.tier l.tag.toNat e.id) .pkg)
      let ovs := ((List.range 288).filter l.hasClu).map (fun i => s.contrib (.overflow i) .pkg)
      let s1 := s.syncFrom l.eng.ag (ths ++ cps ++ trs ++ ovs)
      let ended (s : State) : State :=
        let s2 := l.cores.foldl (fun s c => s.clearCore c) s
        let s3 := ((List.range 288).filter l.hasClu).foldl (fun s i =>
          let s1 := s.modClu i (fun k => { k with qbinds := [] })
          if s1.pwr = 1 then s1.gate i else s1) s2
        { s3 with
          launches := s3.launches.filter (fun m => m.tag != l.tag)
          luErr := s3.luErr.filter (fun e => decide (e.1 ≠ l.part)) }
      if l.mbox = 0 then .next (ended s1)
      else
        match s1.luStore l.eng l.part l.mbox (if l.cancel then 2 else 1) with
        | .ok s2 => .next (ended s2)
        | .error s2 => .next (s.luWait s2)

end Sys2Proof.Machine
end

