-- ==== Sys2Proof/Machine/Sha.lean ====
section
/-!
DEFINITION. SHA-256, whose digests extend the measurement registers (R399). Its constants are computed from the primes as the
standard defines them: the leading fraction bits of cube roots and square roots.
-/

namespace Sys2Proof.Machine

/-- The largest `x` below `2 ^ n` above `lo` whose power `k` is at most `m`, found bit by bit. -/
def rootBits (k m : Nat) : Nat → Nat → Nat
  | 0, lo => lo
  | n + 1, lo => rootBits k m n (if (lo + 2 ^ n) ^ k ≤ m then lo + 2 ^ n else lo)

/-- The first 32 fraction bits of the root of order `k` of a number below 512. -/
def rootFraction (k p : Nat) : BitVec 32 := BitVec.ofNat 32 (rootBits k (p * 2 ^ (32 * k)) 40 0)

/-- The primes below 312, of which there are 64. -/
def smallPrimes : List Nat :=
  (List.range 312).filter (fun p => decide (2 ≤ p) && ((List.range 18).filter (fun d => decide (2 ≤ d ∧ d < p))).all (fun d => p % d != 0))

/-- A sum modulo 2 of a word turned right by three distances. -/
def turned (x : BitVec 32) (i j k : Nat) : BitVec 32 := x.rotateRight i ^^^ x.rotateRight j ^^^ x.rotateRight k

/-- A sum modulo 2 of a word turned right by two distances and shifted right by a third. -/
def mixed (x : BitVec 32) (i j k : Nat) : BitVec 32 := x.rotateRight i ^^^ x.rotateRight j ^^^ x >>> k

/-- The words of a byte string, most significant byte first. -/
def bigWords (bs : List Byte) : List (BitVec 32) :=
  (List.range (bs.length / 4)).map (fun i => BitVec.ofNat 32 (leVal ((bs.drop (4 * i)).take 4).reverse))

/-- A byte string filled up to whole blocks of 64 bytes, with its length in bits at the end. -/
def blocked (m : List Byte) : List Byte :=
  let tail := (leBytes 8 (8 * m.length)).reverse
  m ++ 0x80 :: List.replicate (63 - (m.length + 8) % 64) 0 ++ tail

/-- The words of a round's schedule so far, the latest first: the next one is put before them. -/
def nextWord (ws : List (BitVec 32)) : List (BitVec 32) :=
  let w (i : Nat) := ws.getD (i - 1) 0
  (w 16 + mixed (w 15) 7 18 3 + (w 7 + mixed (w 2) 17 19 10)) :: ws

/-- The words that a block is worked through with: its own 16 and 48 more. -/
def blockWords (b : List (BitVec 32)) : List (BitVec 32) := ((List.range 48).foldl (fun ws _ => nextWord ws) b.reverse).reverse

/-- The two columns of a block's work, the latest word of each first. -/
structure Columns where
  left  : List (BitVec 32)
  right : List (BitVec 32)

/-- A round puts one word on each column: `x` is the schedule's word with its constant added. -/
def Columns.round (c : Columns) (x : BitVec 32) : Columns :=
  let l (i : Nat) := c.left.getD i 0
  let r (i : Nat) := c.right.getD i 0
  let choice := r 2 ^^^ (r 0 &&& (r 1 ^^^ r 2))
  let most := (l 0 &&& l 1) ||| (l 2 &&& (l 0 ||| l 1))
  let t := x + r 3 + choice + turned (r 0) 6 11 25
  ⟨(most + turned (l 0) 2 13 22 + t) :: c.left, (l 3 + t) :: c.right⟩

/-- The eight chaining words after a block. -/
def chain (h : List (BitVec 32)) (b : List (BitVec 32)) : List (BitVec 32) :=
  let xs := List.zipWith (fun p w => rootFraction 3 p + w) smallPrimes (blockWords b)
  let c := xs.foldl Columns.round ⟨h.take 4, h.drop 4⟩
  List.zipWith (· + ·) h (c.left.take 4 ++ c.right.take 4)

/-- The chaining words after the blocks of a word string, `n` at most. -/
def chainAll : Nat → List (BitVec 32) → List (BitVec 32) → List (BitVec 32)
  | 0, h, _ => h
  | n + 1, h, ws => chainAll n (chain h (ws.take 16)) (ws.drop 16)

/-- The SHA-256 digest of a byte string: 32 bytes. -/
def sha256 (m : List Byte) : List Byte :=
  let ws := bigWords (blocked m)
  (chainAll (ws.length / 16) ((smallPrimes.take 8).map (rootFraction 2)) ws).flatMap (fun w => (leBytes 4 w.toNat).reverse)

end Sys2Proof.Machine
end

