-- ==== Sys2Proof/Machine/Hss.lean ====
section
/-!
DEFINITION. Hash-based signatures with SHA-256 as RFC 8554 defines them, in the parameter sets of R400: their sizes, their encoding and
their verification (log 7).
-/

namespace Sys2Proof.Machine

/-- A 16-bit number in the byte order of RFC 8554. -/
def be16 (n : Nat) : List Byte := (leBytes 2 n).reverse

/-- A 32-bit number in the byte order of RFC 8554. -/
def be32 (n : Nat) : List Byte := (leBytes 4 n).reverse

/-- Bytes of a string from an offset on. -/
def slice (b : List Byte) (i n : Nat) : List Byte := (b.drop i).take n

/-- The 32-bit number at an offset. -/
def beAt (b : List Byte) (i : Nat) : Nat := leVal (slice b i 4).reverse

/-- Height of a tree of a type; 6 is LMS_SHA256_M32_H10 and 7 is LMS_SHA256_M32_H15. -/
def lmsHeight (ty : Nat) : Option Nat := if 5 ≤ ty ∧ ty ≤ 9 then some (5 * (ty - 4)) else none

/-- Bytes of a tree signature: leaf, one-time signature, tree type and path. -/
def lmsBytes (height : Nat) : Nat := 4 + (4 + 32 + 67 * 32) + 4 + 32 * height

/-- Bytes of an HSS signature of R400: two levels, top tree of height 15, second tree of height 10. -/
def hssBytes : Nat := 4 + lmsBytes 15 + 56 + lmsBytes 10

/-- The digits of 4 bits of a byte string. -/
def hexDigits (b : List Byte) : List Nat := b.flatMap (fun x => [x.toNat / 16, x.toNat % 16])

/-- The 67 digits that a one-time signature of a digest answers: its own and those of their checksum. -/
def otsDigits (d : List Byte) : List Nat :=
  let ds := hexDigits d
  ds ++ (hexDigits (be16 (16 * (ds.map (fun x => 15 - x)).sum))).take 3

/-- The end of chain `i` from the value that stands at its digit `a`; `id` names the leaf. -/
def chainEnd (id : List Byte) (i a : Nat) (y : List Byte) : List Byte :=
  (List.range (15 - a)).foldl (fun t j => sha256 (id ++ be16 i ++ leBytes 1 (a + j) ++ t)) y

/-- The one-time public key that a signature of a message gives: `c` is its random value and `y` its chain values. -/
def otsKey (id m c y : List Byte) : List Byte :=
  let ds := otsDigits (sha256 (id ++ be16 0x8181 ++ c ++ m))
  sha256 (id ++ be16 0x8080 ++ (List.range 67).flatMap (fun i => chainEnd id i (ds.getD i 0) (slice y (32 * i) 32)))

/-- The root of a tree of height `h` from the one-time key of leaf `q` and the leaf's path. -/
def lmsRoot (tree : List Byte) (q h : Nat) (key path : List Byte) : List Byte :=
  let leaf := sha256 (tree ++ be32 (2 ^ h + q) ++ be16 0x8282 ++ key)
  ((List.range h).foldl (fun (e : Nat × List Byte) k =>
    let n := slice path (32 * k) 32
    (e.1 / 2, sha256 (tree ++ be32 (e.1 / 2) ++ be16 0x8383 ++ if e.1 % 2 = 1 then n ++ e.2 else e.2 ++ n))) (2 ^ h + q, leaf)).2

/-- A tree signature of a message verifies under a tree's public key: types, identifier and root. -/
def lmsVerify (m sig key : List Byte) : Bool :=
  match lmsHeight (beAt key 0) with
  | none => false
  | some h =>
    let q := beAt sig 0
    let tree := slice key 8 16
    key.length == 56 && sig.length == lmsBytes h && beAt key 4 == 3 && beAt sig 4 == 3 && beAt sig 2184 == beAt key 0 &&
      decide (q < 2 ^ h) &&
      lmsRoot tree q h (otsKey (tree ++ be32 q) m (slice sig 8 32) (slice sig 40 2144)) (sig.drop 2188) == slice key 24 32

/-- An HSS signature of two levels verifies under a public key (R400): the top tree signs the key of the second, which signs the
message. -/
def hssVerify (m sig key : List Byte) : Bool :=
  match lmsHeight (beAt key 4) with
  | none => false
  | some h =>
    let n := lmsBytes h
    let second := slice sig (4 + n) 56
    key.length == 60 && beAt key 0 == 2 && beAt sig 0 == 1 && lmsVerify second (slice sig 4 n) (key.drop 4) &&
      lmsVerify m (sig.drop (60 + n)) second

end Sys2Proof.Machine
end

