-- ==== Sys2Proof/Machine/Replica.lean ====
section
/-!
DEFINITION. Page faults that wait and their replies (R375, R376), and the updates of the package's page tables: sequencing,
application with revocation, and the mailbox (R374, R377).
-/

namespace Sys2Proof.Machine

/-! ### Faults (R375, R376) -/

/-- FAULT_REPLY (R376): the service core of a cluster port answers fault entry `n`. -/
def execFaultReply (cluster n : Nat) (value : Dword) (s : State) : Host.Outcome State Fault Refusal :=
  if 288 ≤ cluster ∨ 16 ≤ n then .next s
  else
    let ag := Agent.thread (superAid (s.service (4 * cluster)) 15)
    let (ks, s1) := s.syncSend ag
    .next (s1.faultReply cluster n value ks (s1.rep ag))

/-- FAULT_ENTRY_WAIT (R375): a fault that waits takes a free entry of its port. -/
def execFaultEntryWait (cluster : Nat) (s : State) : Host.Outcome State Fault Refusal := .next (s.faultTake cluster)

/-! ### Updates (R374) -/

/-- How the table update unit makes its accesses for a record whose doorbell store `kick` made (R124). -/
def tableEng (kick : Agent) : Eng := ⟨.tableUnit, kick, 0, 0, 0, 0, 0, .launchUnit 8 0, false⟩

/-- A record from the first 56 bytes of its slot. -/
def readUpd (b : List Byte) : UpdRec :=
  let d := field b 16 8
  ⟨fieldA b 0, fieldA b 8, BitVec.ofNat 16 (bits d 31 16), BitVec.ofNat 8 (bits d 15 8), bitAt d 2, BitVec.ofNat 2 (d % 4),
    fieldA b 24, fieldA b 32, decide (d / 2 ^ 32 ≠ 0 ∨ bits d 7 3 ≠ 0 ∨ field b 40 16 ≠ 0), true⟩

/-- A record that the sequencer sends, as it reaches this package. -/
def State.addUpd (s : State) (r : UpdRec) (kick : Agent) : State :=
  { s with seqn := s.seqn + 1, upds := s.upds ++ [⟨s.seqn + 1, r, r.own, kick⟩] }

/-- A package of the pod is fenced (R388, R389). -/
def State.rankFenced (s : State) (rank : Nat) : Bool := (amGet s.ranks rank ⟨false, false, 0, 0⟩).f

/-- The record of a filled slot taken up: RIDX advances with a release, and the record leaves for the package that sequences the
pod's updates, here when it is this one. -/
def State.updTake (s : State) (kick : Agent) (h z : Place) (r : Dword) : State :=
  let e := tableEng kick
  let (b, s1) := s.unitTake e z
  let s2 := s1.unitDone e 8 h r
  if s2.seqr then s2.addUpd (readUpd b) kick else s2

/-- UPDATE_SEQUENCE (R374): the table update unit takes the next record of the package's queue, once a doorbell store has made it
visible; or a record arrives from the package of a rank, for this one to number or numbered by it, and is dropped when that package
is fenced (R389). -/
def execUpdateSequence (remote : Option RemoteUpd) (s : State) : Host.Outcome State Fault Refusal :=
  match remote with
  | some r => .next (if s.rankFenced r.rank then s else s.addUpd r.upd (.peer r.rank))
  | none =>
    match s.bellNext 8 s.uq with
    | none => .next s
    | some (h, r, kick) =>
      match s.unitSlot (tableEng kick) h r 3 with
      | (none, s1) => .next (s1.bellTaken 8 r.toNat)
      | (some z, s1) => .next (s1.updTake kick h z r)

/-- Pool offset of the leaf that a walk of a virtual address from a node of level `lv` finds (R369). -/
def State.leafOffAt (s : State) (va : Nat) : Nat → Nat → Option Nat
  | 0, _ => none
  | lv + 1, node =>
    let lo := if lv = 0 then 16 else 12 + 9 * lv
    let hi := if lv = 0 then 20 else 20 + 9 * lv
    let e := s.poolEntry node (bits va hi lo)
    if bitAt e 0 = false then none
    else if bitAt e 4 then some (node + 8 * bits va hi lo)
    else State.leafOffAt s va lv (e / 256 % 2 ^ 44 * 256)

/-- Pool offset of the leaf of a virtual address in an address space. -/
def State.leafOff (s : State) (asid : Nat) (va : Dword) : Option Nat :=
  match s.walk asid va with
  | .leaf _ _ => s.leafOffAt va.toNat 4 (bits (leVal (s.mem.bytes (s.ptpb.toNat + s.atb.toNat + 8 * asid) 8)) 51 12 * 4096)
  | _ => none

/-- A record changes a valid leaf to invalid, or its PA (R377). -/
def State.unmaps (s : State) (r : UpdRec) : Bool :=
  let old := leVal (s.mem.bytes (s.ptpb.toNat + r.off.toNat) 8)
  let new := r.val.toNat
  bitAt old 0 && bitAt old 4 && (!(bitAt new 0 && bitAt new 4) || bits new 51 16 != bits old 51 16)

/-- A record covers a plan entry (R377): a pin, or a fetch to T0, not yet released, of whose range a page has the leaf that the
record changes. -/
def State.covers (s : State) (r : UpdRec) (l : Launch) (e : PlanEnt) : Bool :=
  e.st != 3 && (e.action == 2 || (e.action == 0 && e.dst == 0)) &&
    (let p := e.addr.toNat / 65536
     (List.range ((e.addr.toNat + e.len - 1) / 65536 + 1 - p)).any (fun i =>
       s.leafOff l.asid (BitVec.ofNat 64 (65536 * (p + i))) == some r.off.toNat))

/-- The plan entries that a record covers, with their launches. -/
def State.covered (s : State) (r : UpdRec) : List (Launch × PlanEnt) :=
  if s.unmaps r then s.launches.flatMap (fun l => (l.plan.filter (s.covers r l)).map (fun e => (l, e))) else []

/-- A covered entry revoked (R377): the granules of its T0 copy are empty, and it is not issued. One not issued yet has no copy, and
stays as it is. -/
def State.revoke (s : State) (l : Launch) (e : PlanEnt) : State :=
  if e.st = 0 then s
  else
    let s1 := if e.dst = 0 then (granules e.t0off e.len).foldl (fun s g => s.setFull e.core g false) s else s
    s1.modPlan l.tag e.id (fun e => { e with st := 0, asked := false, revoked := true, done := 0, left := [], out := 0, svc := 0 })

/-- Translations that a record names dropped on every cluster port (R339, R374). -/
def State.dropUpd (s : State) (r : UpdRec) : State :=
  if r.inv = 0 then s
  else if r.inv = 1 then
    s.dropTlb true 0 (fun t => t.asid == r.asid.toNat && t.lg == r.lg.toNat &&
      t.va == r.va.toNat / 2 ^ r.lg.toNat * 2 ^ r.lg.toNat)
  else if r.inv = 2 then s.dropTlb true 0 (fun t => t.asid == r.asid.toNat)
  else s.dropTlb true 0 (fun _ => true)

/-- A record that no package applies (R374). One whose OFF is not aligned to 8 is applied: its eight bytes are written where OFF says
(DESIGN CHOICE, log 49). -/
def State.badUpd (s : State) (r : UpdRec) : Bool :=
  r.resv || !(r.lg == 16 || r.lg == 21 || r.lg == 30) || decide (s.ptps.toNat ≤ r.off.toNat)

/-- The mailbox write of a record of this package becomes due. -/
def State.due (s : State) (x : SeqRec) (v : Dword) : State :=
  if x.own then { s with mbdue := s.mbdue ++ [⟨x.n, x.r.mba, v, x.kick⟩] } else s

/-- A record's entry written, a conflict going to the record's kicker; where it reaches no populated HBM the write gets an error
response (R378). -/
def State.updWrite (s : State) (x : SeqRec) : State :=
  let e := tableEng x.kick
  let p := Place.phys (s.ptpb.toNat + x.r.off.toNat)
  if hbmBytes < s.ptpb.toNat + x.r.off.toNat + 8 then s.logEng e 9 (apertureVa p) else
  let (c, s1) := s.engWrite e p (leBytes 8 x.r.val.toNat)
  s1.engReport e (apertureVa p) p c

/-- UPDATE_APPLY (R374, R377): the next record in sequence; one that covers plan entries waits for their release, or with FORCE
revokes them first. No access that used a dropped translation is in progress between two moves. -/
def execUpdateApply (s : State) : Host.Outcome State Fault Refusal :=
  match s.upds with
  | [] => .next s
  | x :: rest =>
    if s.badUpd x.r then .next ({ s with upds := rest }.due x (BitVec.allOnes 64))
    else
      let cs := s.covered x.r
      if x.r.force = false ∧ cs ≠ [] then .next s
      else
        let s1 := (cs.foldl (fun s e => s.revoke e.1 e.2) s).updWrite x
        .next ({ s1.dropUpd x.r with upds := rest, apseq := BitVec.ofNat 64 x.n }.due x (BitVec.ofNat 64 x.n))

/-- UPDATE_MAILBOX_WRITE (R374): once every package that is not fenced has applied record `n`, its number goes to MBA with a
store-release; a record that was not applied gives all ones. To an MBA that is not aligned to 8, or reaches no memory, no store is
made, and a class 1 record is logged (DESIGN CHOICE, log 49). -/
def execUpdateMailboxWrite (n : Nat) (s : State) : Host.Outcome State Fault Refusal :=
  match s.mbdue.find? (fun e => e.n == n) with
  | none => .next s
  | some e =>
    let s1 := { s with mbdue := s.mbdue.filter (fun x => x.n != n) }
    match (if e.mba.toNat % 8 = 0 then s1.physPlace e.mba.toNat else none) with
    | some p => .next (s1.engMail (tableEng e.kick) e.mba p e.v)
    | none => .next (s1.logErr 0 1 0 e.mba false (s1.rep .tableUnit) none)

end Sys2Proof.Machine
end

