-- ==== Sys2Proof/Machine/Platform.lean ====
section
/-!
DEFINITION. What acts on the package from outside its threads: register writes (R8, R379, R383, R388, R391), the host, NVMe
controllers and peer packages (R384 to R386, R389), failures (R382, R389), reset, bring-up and power (R325, R394, R395, R397).
-/

namespace Sys2Proof.Machine

/-! ### Accesses by agents outside (R378, R385, R386, R390) -/

/-- An access by an agent outside checked and stamped: it performs whatever it finds, a conflict logged with both agents (R385,
R392). -/
def State.outTouch (s : State) (ag : Agent) (die : Nat) (p : Place) (n : Nat) (writes atom : Bool) : State :=
  let ws := p.words n
  let s1 := match s.conflicts? ag writes atom ws with
    | some (w, st) => s.logErr die 1 15 (wordVa (apertureVa p) p w) false (s.rep ag) (some st.rep)
    | none => s
  s1.markAll ag writes atom ws

/-- What an access by an agent outside, made already, leaves in the cache words, and its synchronisation: a plain one has none
(R120, R388). -/
def State.outSync (s : State) (ag : Agent) (p : Place) (n : Nat) (writes : Bool) (o : Option Ord) : State :=
  let ws := p.words n
  match o with
  | none => s.cachePlain none writes false ws
  | some o => (s.cacheAtom writes ws).syncAll ag (ws.map Obj.word) (ordRel o && writes) (ordAcq o) .pod

/-- A read by an agent outside. One of a mailbox is an acquire (R117, R385). -/
def State.outRead (s : State) (ag : Agent) (die : Nat) (p : Place) (n : Nat) (o : Option Ord) : List Byte × State :=
  let ks := s.boxContribs p n
  let s1 := if ks.isEmpty then s else s.syncFrom ag ks
  (s.bytes p n, (s1.outTouch ag die p n false o.isSome).outSync ag p n false o)

/-- A write by an agent outside. One to a kick register is a release (R117, R385). -/
def State.outWrite (s : State) (ag : Agent) (die : Nat) (p : Place) (bs : List Byte) (o : Option Ord) : State :=
  (((s.outTouch ag die p bs.length true o.isSome).putBytes p bs).outSync ag p bs.length true o).kickRelease ag (p.words bs.length)
    (s.contrib ag .pod) o.isSome

/-- An atomic read and write by an agent outside: `f` gives the new value, or none where nothing is written (R127). -/
def State.outUpdate (s : State) (ag : Agent) (die : Nat) (p : Place) (n : Nat) (f : Nat → Option Nat) (o : Ord) : Nat × State :=
  let old := s.val p n
  let new := f old
  let s1 := s.outTouch ag die p n new.isSome true
  let s2 := match new with
    | some x => s1.putVal p n x
    | none => s1
  let s3 := s2.outSync ag p n new.isSome (some o)
  (old, if new.isSome then s3.kickRelease ag (p.words n) (s.contrib ag .pod) true else s3)

/-- An access of an agent outside that receives an error response (R390), logged with a class. -/
def State.outFail (s : State) (ag : Agent) (die cls pa : Nat) : State :=
  { s.logErr die cls 0 (BitVec.ofNat 64 pa) false (s.rep ag) none with answer := none }

/-- An access of an agent outside that is refused. -/
def State.outError (s : State) (ag : Agent) (die pa : Nat) : State := s.outFail ag die 1 pa

/-- `n` bytes of local HBM that an agent outside may access: populated, and for a write outside the pool (R371, R378). -/
def State.hbmFor (s : State) (pa n : Nat) (wr : Bool) : Option Place :=
  if hbmBytes < pa + n ∨ (wr = true ∧ s.inPool (.phys pa) n = true) then none else some (.phys pa)

/-- The course of an access to local HBM: an address that it may not access and an uncorrectable soft error are error responses
(R390). -/
def State.outAt (s : State) (ag : Agent) (die pa n : Nat) (wr : Bool) (f : Place → State) : State :=
  match s.hbmFor pa n wr with
  | none => s.outError ag die pa
  | some p => if s.meetsBad p n then s.outFail ag die 3 pa else f p

/-- A plain access of 1 to 8 bytes to local HBM; a read answers. -/
def State.outMem (s : State) (ag : Agent) (die pa n : Nat) (wr : Bool) (v : Dword) : State :=
  s.outAt ag die pa n wr (fun p =>
    if wr then s.outWrite ag die p (leBytes n v.toNat) none
    else
      let (bs, s1) := s.outRead ag die p n none
      { s1 with answer := some (BitVec.ofNat 64 (leVal bs)) })

/-- An access of an agent outside, which comes through IOD0, reaches a block: a cluster's by the entries of the routers and over the
boundaries (R380, R382, R383, R397). -/
def State.outReach (s : State) (t : Target) : Bool :=
  match t with
  | .cluster i o => (s.resetSeen i o).wayFrom false true 288 i == .through
  | _ => true

/-- The package answers an agent outside at a target (R395, R397). -/
def State.answers (s : State) (t : Target) : Bool := (s.gateOpen false || isStatus t) && s.outReach t

/-- A read of a register by an agent outside. -/
def State.outReg (s : State) (ag : Agent) (t : Target) (n : Nat) : State :=
  match (if s.answers t then s.ctlRead t n else none) with
  | some (v, s1) => { s1.rotAcquire ag t with answer := some (BitVec.ofNat 64 v) }
  | none => s.outError ag (ctlDie t) (ctlAddr t)

/-- A write of a register by an agent outside. -/
def State.outSet (s : State) (ag : Agent) (t : Target) (n : Nat) (v : Dword) : State :=
  let (ks, s1) := s.syncSend ag
  match (if s.answers t then s1.ctlWrite t n v.toNat false (s.rep ag) ks else none) with
  | some s2 => s2
  | none => s.outError ag (ctlDie t) (ctlAddr t)

/-! ### Register writes (R8, R372, R379, R383, R388, R391) -/

/-- CRST (R383). -/
def execCrst (cluster : Nat) (value : Dword) (s : State) : Host.Outcome State Fault Refusal :=
  .next (if cluster < 288 then s.outSet .host (.cluster cluster 0x400) 8 value else s)

/-- CLUSTER_RESET_DONE (R383): the reset ends once the entries that the cluster sent have performed. -/
def execClusterResetDone (cluster : Nat) (s : State) : Host.Outcome State Fault Refusal :=
  .next (if s.resetDue cluster then s.endReset cluster else s)

/-- PARTITION_TABLE_WRITE (R379): a dword of the table, or the header address of a partition's launch queue. -/
def execPartitionTableWrite (off : Nat) (value : Dword) (s : State) : Host.Outcome State Fault Refusal :=
  .next (if off < 0x1000 then s.outSet .host (.package (0x1000 + off / 8 * 8)) 8 value else s)

/-- TRANSLATION_BLOCK_WRITE (R372). -/
def execTranslationBlockWrite (off : Nat) (value : Dword) (s : State) : Host.Outcome State Fault Refusal :=
  .next (if off < 0x1000 then s.outSet .host (.package (off / 8 * 8)) 8 value else s)

/-- ERROR_LOG_CONFIG_WRITE (R391). -/
def execErrorLogConfigWrite (die off : Nat) (value : Dword) (s : State) : Host.Outcome State Fault Refusal :=
  .next (if die < 10 ∧ off < 0x100 then s.outSet .host (.package (0x4000 + 0x100 * die + off / 8 * 8)) 8 value else s)

/-- LAMVAN_BLOCK_WRITE (R388). -/
def execLamvanBlockWrite (off : Nat) (value : Dword) (s : State) : Host.Outcome State Fault Refusal :=
  .next (if off < 0x1000 then s.outSet .host (.package (0x2000 + off / 8 * 8)) 8 value else s)

/-- HINT (R385): a store of a vector number sends that MSI-X message. -/
def execHint (value : Dword) (s : State) : Host.Outcome State Fault Refusal :=
  let ag := Agent.thread (superAid (s.service 0) 15)
  let (ks, s1) := s.syncSend ag
  .next (if s.gateOpen true then s1.ctlPut (.package 0x3000) value true (s.rep ag) ks else s)

/-- REGISTER_WRITE (R8): a write of a register of the cluster or package blocks by its physical address. -/
def execRegisterWrite (addr : Nat) (value : Dword) (s : State) : Host.Outcome State Fault Refusal :=
  match s.target addr with
  | .cluster i o => .next (s.outSet .host (.cluster i (o / 8 * 8)) 8 value)
  | .package o => .next (s.outSet .host (.package (o / 8 * 8)) 8 value)
  | _ => .next (s.outError .host 8 addr)

/-! ### The host (R384, R385) -/

/-- HOST_ACCESS (R384, R385, R390): 1 to 8 bytes of local HBM through CXL.mem, or of a block through BAR0. -/
def execHostAccess (wr : Bool) (addr size : Nat) (value : Dword) (s : State) : Host.Outcome State Fault Refusal :=
  if size = 0 ∨ 8 < size then .next s
  else
    match s.target addr with
    | .hbm pa => .next (if s.gateOpen false then s.outMem .host 8 pa size wr value else s.outError .host 8 addr)
    | .cluster i o => .next (if wr then s.outSet .host (.cluster i o) size value else s.outReg .host (.cluster i o) size)
    | .package o => .next (if wr then s.outSet .host (.package o) size value else s.outReg .host (.package o) size)
    | _ => .next (s.outError .host 8 addr)

/-! ### NVMe controllers and peer packages (R386, R388, R389) -/

/-- NVME_MSIX (R386). -/
def execNvmeMsix (port addr : Nat) (data : Dword) (s : State) : Host.Outcome State Fault Refusal :=
  let c := addr % 2 ^ 11
  if s.gateOpen false = false ∨ 1152 ≤ c then .next (s.outError (.nvme port) 9 addr)
  else
    .next (s.sysMessage 289 c (BitVec.ofNat 64 (16 * c + 15)) (BitVec.ofNat 64 (7 * 2 ^ 48 + port % 4)) data 0 0 [])

/-- NVME_CONTROLLER_DMA (R386): the address is a package physical address, and only local HBM answers (R378). -/
def execNvmeControllerDma (port : Nat) (wr : Bool) (addr size : Nat) (data : Dword) (s : State) :
    Host.Outcome State Fault Refusal :=
  if size = 0 ∨ 8 < size then .next s
  else
    match (if s.gateOpen false then s.target addr else .none) with
    | .hbm pa => .next (s.outMem (.nvme port) 9 pa size wr data)
    | _ => .next (s.outError (.nvme port) 9 addr)

/-- An access writes. -/
def peerWrites : PeerOp → Bool
  | .load _ => false
  | _ => true

/-- The order of an access, none for a plain one. -/
def peerOrder : PeerOp → Option Ord
  | .load o | .store o => o
  | .amo _ o | .cas _ o => some o

/-- An access of a peer at a place of local HBM; one that reads answers. An atomic performs here, at its word's home (R231).
`v` is the data of a store, the operand of an AMO, or what a CAS writes. -/
def State.peerAt (s : State) (ag : Agent) (p : Place) (n : Nat) (op : PeerOp) (v : Dword) : State :=
  let done (x : Nat × State) : State := { x.2 with answer := some (BitVec.ofNat 64 x.1) }
  match op with
  | .load o =>
    let (bs, s1) := s.outRead ag 8 p n o
    done (leVal bs, s1)
  | .store o => s.outWrite ag 8 p (leBytes n v.toNat) o
  | .amo f o => done (s.outUpdate ag 8 p n (fun old => some (amoVal f n old v.toNat).1) o)
  | .cas exp o =>
    done (s.outUpdate ag 8 p n (fun old => if old = exp.toNat % 2 ^ (8 * n) then some (v.toNat % 2 ^ (8 * n)) else none) o)

/-- PEER_PACKAGE_ACCESS (R231, R378, R388, R389): an access of a peer package to an offset of local HBM; one from a fenced package
is dropped. An atomic, whose scope is the pod's, is of an aligned word or dword. -/
def execPeerPackageAccess (rank : Nat) (op : PeerOp) (addr size : Nat) (data : Dword) (s : State) :
    Host.Outcome State Fault Refusal :=
  if size = 0 ∨ 8 < size ∨ s.rankFenced rank = true ∨ ((peerOrder op).isSome ∧ ((size ≠ 4 ∧ size ≠ 8) ∨ addr % size ≠ 0)) then .next s
  else if s.gateOpen false then .next (s.outAt (.peer rank) 8 addr size (peerWrites op) (fun p => s.peerAt (.peer rank) p size op data))
  else .next (s.outError (.peer rank) 8 addr)

/-- PACKAGE_LOST_FENCE (R389). -/
def execPackageLostFence (rank : Nat) (s : State) : Host.Outcome State Fault Refusal :=
  let r := amGet s.ranks rank ⟨false, false, 0, 0⟩
  let c := s.plc.toNat % 2048
  let s1 := { s with ranks := amSet s.ranks rank { r with f := true }, fstep := s.stepTag, fencing := true }
  .next (s1.sysMessage 288 c (BitVec.ofNat 64 (16 * c + 15))
    (BitVec.ofNat 64 (3 * 2 ^ 48 + rank % 64 * 2 ^ 16 + s.stepTag.toNat % 65536)) (BitVec.ofNat 64 r.fid.toNat) 0 0 [])

/-- LINK_FAILURE (R382): messages that need the boundary receive error responses. -/
def execLinkFailure (dieA dieB : Nat) (s : State) : Host.Outcome State Fault Refusal :=
  .next (if s.links.contains (dieA, dieB) then s else { s with links := (dieA, dieB) :: s.links })

/-! ### Reset (R325) -/

/-- What a core holds of a supervisor thread at its reset: nothing but journal entries that are on their way (R325, log 51). -/
def Core.resetThread (k : Core) (aid : Nat) : Core :=
  let k1 := k.dropThread aid
  { k1 with jrn := k1.jrn.map (fun o => match o with
      | some e => if e.aid = aid ∧ (e.st = .waiting ∨ e.st = .bounced) then none else o
      | none => none) }

/-- CORE_RESET (R325, R326, R328, R333): the supervisor slots of a core, which are all of a service core's, take their reset state
with the system registers and every latch, and lose their claims, bindings, array instructions and unsent journal entries; a frozen slot
leaves that state. What a user's slot holds stays (log 51). -/
def execCoreReset (core : Nat) (s : State) : Host.Outcome State Fault Refusal :=
  if 1152 ≤ core then .next s
  else
    let k := s.core core
    let z := Core.reset core
    let sup (i : Nat) : Bool := k.ssvcf || i == 15
    let g := s.guest core
    let clear (k : Core) (its : Nat → Bool) : Core :=
      { k with
        lat := Vector.ofFn (fun i => if its i.val then Latch.zero else vrd k.lat i.val)
        sst := Vector.ofFn (fun i => if its i.val = true ∧ vrd k.sst i.val = .frozen then .running else vrd k.sst i.val) }
    let k0 := (List.range 16).foldl (fun k i => if sup i then k.resetThread (superAid core i) else k) k
    let k1 := clear k0 (fun i => decide (g = core ∨ 15 ≤ i))
    let s1 := s.putCore core { k1 with
      occ := Vector.ofFn (fun i => if sup i.val then some (superAid core i.val) else vrd k.occ i.val)
      sst := Vector.ofFn (fun i => if sup i.val then .running else vrd k1.sst i.val)
      ssel := z.ssel, stvec := z.stvec, sipc := z.sipc, sit := z.sit, ew := z.ew, ewC := z.ewC, ewA := z.ewA, ewL := z.ewL
      ssvc := z.ssvc, ssvcf := z.ssvcf, reqs := z.reqs, smsg := z.smsg, cyc := z.cyc }
    let s2 := if g ≠ core ∧ g < 1152 then s1.modCore g (fun k => clear k (fun i => decide (i < 15))) else s1
    .next ((List.range 16).foldl (fun s i => if sup i then s.putTh (superAid core i) (Thread.superReset core i) else s) s2)

/-! ### Bring-up (R394, R395, R399, R400) -/

/-- A measurement register extended by a digest (R399). -/
def State.extend (s : State) (n : Nat) (d : List Byte) : State :=
  { s with meas := vwr s.meas n (BitVec.ofNat 256 (leVal (sha256 (leBytes 32 (vrd s.meas n).toNat ++ d)))) }

/-- A failure before bring-up has ended (R395). -/
def State.bupFail (s : State) : State := { s with bup := 0xFF }.logErr 8 4 0 0 false (s.rep .rot) none

/-- A signature verifies under a public key whose digest the fuses hold (R400). -/
def byKey (key : Nat → Byte) (digest : BitVec 256) (m sig : List Byte) : Bool :=
  let k := (List.range 60).map key
  leVal (sha256 k) == digest.toNat && hssVerify m sig k

/-- A signature verifies under the owner's key, whose slot Vendor-return has erased (R396, R400). -/
def State.byOwner (s : State) (m sig : List Byte) : Bool := s.sec != 2 && byKey Config.ownerKey Config.fuseOwnerKey m sig

/-- A signature verifies under the vendor's key. -/
def byVendor (m sig : List Byte) : Bool := byKey Config.vendorKey Config.fuseVendorKey m sig

/-- Phase 1 (R395, R399): the image is read and verified, and measured. -/
def State.verifyImage (s : State) : State :=
  let s1 := { s with bup := 1 }
  match s.image with
  | some f => if s.byOwner f.code f.sig || byVendor f.code f.sig then s1.extend 0 (sha256 f.code) else s1.bupFail
  | none => s1.bupFail

/-- The state after a reset of the package that leaves a memory: what fuses and flash hold stays (R394, R395, R397). -/
def State.restart (s : State) (m : Memory) : State :=
  { State.reset with
    turns := s.turns, cur := s.cur, free := s.free, nextAid := s.nextAid, order := s.order, mem := m, sec := s.sec
    bootc := s.bootc, image := s.image }

/-- PACKAGE_RESET_RELEASE (R394, R395). -/
def execPackageResetRelease (s : State) : Host.Outcome State Fault Refusal := .next (s.restart []).verifyImage

/-- MEMORY_TRAINING (R395): phase 2. -/
def execMemoryTraining (ok : Bool) (s : State) : Host.Outcome State Fault Refusal :=
  if s.bup ≠ 1 then .next s else .next (if ok then { s with bup := 2 } else { s with bup := 2 }.bupFail)

/-- The default service map (R395): cores 0 and 1 of the south-west cluster of each compute die. -/
def defaultService : List Nat := (List.range 8).flatMap (fun n => [4 * dieCluster n, 4 * dieCluster n + 1])

/-- A core as phase 3 starts it (R325, R395): slot 15, and on a service core every slot, at the reset vector. -/
def startedCore (svc : List Nat) (c : Nat) : Core :=
  let z := Core.reset c
  let f := svc.contains c
  { z with
    ssvcf := f, ssvc := BitVec.ofNat 64 ((svc.find? (fun x => dieOf x == dieOf c)).getD 0)
    occ := if f then Vector.ofFn (fun i => some (superAid c i.val)) else z.occ
    sst := if f then Vector.replicate 16 .running else z.sst }

/-- Free values that a boot tree, its key and its signature by a top leaf, takes (R400, log 7). -/
def treeFree : Nat := 4000

/-- FIRMWARE_START (R395, R399, R400): phase 3. The boot counter counts this boot, and the boot's tree is built. -/
def execFirmwareStart (s : State) : Host.Outcome State Fault Refusal :=
  if s.bup ≠ 2 then .next s
  else
    match s.image with
    | none => .next { s with bup := 3 }.bupFail
    | some f =>
      let svc := f.svc.getD defaultService
      let m : Memory := f.pool.foldl (fun m e => m.put (f.ptpb.toNat + e.1) [e.2]) s.mem
      let s1 : State := { s with
        bup := 3, ptpb := f.ptpb, ptps := f.ptps, atb := f.atb, atn := f.atn, svcMap := svc
        mem := m
        bootc := Nat.min (s.bootc + 1) 32767, quotes := 0, bootTree := s.free, free := s.free + treeFree }
      .next (((List.range 1152).foldl (fun s c => s.putCore c (startedCore svc c)) s1).extend 1 (sha256 f.kernel))

/-- BUP_READY (R395): the firmware's store of 4 to BUP, by the first service core. -/
def execBupReady (s : State) : Host.Outcome State Fault Refusal :=
  .next (s.writeBup 4 true (s.rep (.thread (superAid s.service0 15))))

/-! ### Power (R397) -/

/-- PREQ_WRITE (R397). -/
def execPreqWrite (value : Dword) (s : State) : Host.Outcome State Fault Refusal :=
  .next (s.outSet .host (.package 0x7020) 8 value)

/-- DBG_WRITE (R397). -/
def execDbgWrite (value : Dword) (s : State) : Host.Outcome State Fault Refusal :=
  .next (s.outSet .host (.package 0x7018) 8 value)

/-- A launch queue is empty (R344): none is set, or its indices agree. -/
def State.lqEmpty (s : State) (p : Nat) : Bool :=
  match (if amGet s.pqueue p 0 = 0 then none else s.physPlace (amGet s.pqueue p 0).toNat) with
  | none => true
  | some h => s.val h 8 == s.val (h.plus 8) 8

/-- No launch runs and every launch queue is empty: what P2 waits for (R397). -/
def State.quiet (s : State) : Bool :=
  s.launches.isEmpty && s.pendingL.isEmpty && (List.range 8).all s.lqEmpty

/-- P1 (R397): every cluster that holds no launch is gated, those of service cores among them (log 51). -/
def State.gateAll (s : State) : State :=
  ((List.range 288).filter (fun i => (s.launchAt i).isNone)).foldl (fun s i => s.gate i) s

/-- P0 after P1: no cluster is gated. -/
def State.ungateAll (s : State) : State :=
  { s with clus := s.clus.map (fun e => (e.1, { e.2 with gated := false })) }

/-- POWER_TRANSITION (R397): one transition towards the requested state, when its conditions hold. Leaving P3 runs bring-up
again with HBM kept. -/
def execPowerTransition (s : State) : Host.Outcome State Fault Refusal :=
  match s.pwr.toNat, s.preq.toNat with
  | 0, 1 => .next { s.gateAll with pwr := 1 }
  | 1, 0 => .next { s.ungateAll with pwr := 0 }
  | 0, 2 => .next (if s.quiet then { s with pwr := 2 } else s)
  | 2, 0 => .next { s with pwr := 0 }
  | 2, 3 => .next { s with pwr := 3 }
  | 3, 2 => .next { (s.restart s.mem) with pwr := 2 }.verifyImage
  | _, _ => .next s

end Sys2Proof.Machine
end

