-- ==== Sys2Proof/Machine/Security.lean ====
section
/-!
DEFINITION. The root of trust's mailbox commands (R396, R399 to R402) and the management interfaces (R398, R403).
-/

namespace Sys2Proof.Machine

/-! ### A request of the root of trust (R402) -/

/-- What a command reads of its block, from the block's first byte on. -/
def rotReads : Nat → Nat
  | 1 => 64
  | 2 => 64 + hssBytes
  | 3 => 32
  | _ => 0

/-- What a command writes into its block: offsets and lengths. -/
def rotWrites : Nat → List (Nat × Nat)
  | 3 => [(512, 296 + hssBytes)]
  | 4 => [(512, 60), (1024, 2)]
  | 5 => [(512, 256)]
  | _ => []

/-- Why the root of trust gets an error response for a part of the block: the class of its record, and the address (R371, R378, R390). -/
def State.rotBad (s : State) (a n : Nat) (wr : Bool) : Option (Nat × Nat) :=
  match s.hbmFor a n wr with
  | none => some (1, a)
  | some p => if s.meetsBad p n then some (3, a) else none

/-- The first part of the block that a command at `a` may not access. -/
def State.rotBlock (s : State) (cmd a : Nat) : Option (Nat × Nat) :=
  match s.rotBad a (rotReads cmd) false with
  | some x => some x
  | none => (rotWrites cmd).findSome? (fun e => s.rotBad (a + e.1) e.2 true)

/-- The request in progress is done with a result; RSEQ advances with a release (R402). -/
def State.rotDone (s : State) (res : Byte) : State :=
  let s1 := (s.release .mailbox [s.contrib .rot .pkg]).endRegion .rot
  { s1 with rotst := { s1.rotst with busy := false, rres := res, rseq := s1.rotst.rseq + 1 } }

/-- The course of a command (R402): the submission acquired, `f` given the block's address; an unknown command is RRES 1, and so is
one whose block it may not access, which is logged (R371, R378, R390). -/
def State.rotRun (s : State) (cmd : Nat) (f : Nat → State → State) : State :=
  if s.rotst.busy = false then s
  else if s.rotst.cmd.toNat = cmd then
    let a := leVal s.rotst.blk
    let s1 := s.syncFrom .rot s.rotst.rel
    match s.rotBlock cmd a with
    | none => f a s1
    | some (cls, pa) => (s1.logErr 8 cls 0 (BitVec.ofNat 64 pa) false (s.rep .rot) none).rotDone 1
  else if 1 ≤ s.rotst.cmd.toNat ∧ s.rotst.cmd.toNat ≤ 5 then s
  else s.rotDone 1

/-- Bytes of the block, read by plain reads. -/
def State.rotRead (s : State) (a n : Nat) : List Byte × State := s.outRead .rot 8 (.phys a) n none

/-- A response written into the block, and the request done. -/
def State.rotAnswer (s : State) (a : Nat) (bs : List Byte) : State := (s.outWrite .rot 8 (.phys a) bs none).rotDone 0

/-- EXTEND (R399, R402). -/
def execExtend (s : State) : Host.Outcome State Fault Refusal :=
  .next (s.rotRun 1 (fun a s =>
    let (b, s1) := s.rotRead a 64
    let n := field b 0 1
    if n < 2 ∨ 7 < n then s1.rotDone 4 else (s1.extend n (b.drop 32)).rotDone 0))

/-! ### Tokens (R396, R397, R402) -/

/-- The debug levels that a security state allows (R397). -/
def dbgAllowed (sec dbg : Nat) : Bool :=
  match sec with
  | 0 => decide (dbg ≤ 1)
  | 1 => decide (dbg ≤ 2)
  | _ => dbg == 2

/-- Entering Vendor-return (R396): the owner key slot (by SEC = 2), every measurement register and all HBM are erased. -/
def State.vendorReturn (s : State) : State :=
  { s with meas := Vector.replicate 8 0, mem := s.mem.filter (fun e => decide (0x010000000000 ≤ e.1)), sec := 2 }

/-- A refused token is logged with class 6 (R396, R402). -/
def State.tokenBad (s : State) : State := (s.ignored (.package 0x6000) (s.rep .rot)).rotDone 2

/-- The state change that a verified token asks for (R396, R397): none when it is not one of the table's. Owner-debug is left for
Production-locked by the owner's token, or by any that lowers DBG to 0, as which the model reads a write of 0 to DBG together with a token
(log 52). -/
def State.tokenApply (s : State) (owner : Bool) (sec dbg : Nat) : State :=
  if dbgAllowed sec dbg = false ∨ 3 ≤ sec then s.rotDone 4
  else if sec = 2 then
    if owner then s.rotDone 4
    else { (if s.sec = 2 then s else s.vendorReturn) with dbg := BitVec.ofNat 2 dbg }.rotDone 0
  else if s.sec = 2 ∨ (owner = false ∧ s.sec.toNat ≠ sec ∧ ¬(sec = 0 ∧ dbg = 0)) then s.rotDone 4
  else { s with sec := BitVec.ofNat 2 sec, dbg := BitVec.ofNat 2 dbg }.rotDone 0

/-- A header of a token that is well formed (R402). -/
def tokenForm (b : List Byte) : Bool := field b 0 2 == 2 && field b 6 2 == 0 && field b 16 48 == 0

/-- TOKEN (R396, R397, R402). A malformed one is refused as a bad signature is (log 52). -/
def execToken (s : State) : Host.Outcome State Fault Refusal :=
  .next (s.rotRun 2 (fun a s =>
    let (b, s1) := s.rotRead a (64 + hssBytes)
    let hd := b.take 64
    let sig := b.drop 64
    let own := s1.byOwner hd sig
    if !(own || byVendor hd sig) || !tokenForm hd then s1.tokenBad
    else if field b 8 8 ≠ Config.fuseSerial.toNat ∨ field b 4 2 ≠ s1.bootc then s1.tokenBad
    else s1.tokenApply own (field b 2 1) (field b 3 1)))

/-! ### Attestation (R400 to R402) -/

/-- The measurement registers, 256 bytes. -/
def State.measBytes (s : State) : List Byte := s.meas.toList.flatMap (fun m => leBytes 32 m.toNat)

/-- The signed message of a quote (R401). -/
def State.quoteMessage (s : State) (nonce : List Byte) : List Byte :=
  leBytes 2 1 ++ leBytes 2 s.bootc ++ leBytes 1 s.sec.toNat ++ leBytes 1 s.dbg.toNat ++ [0, 0] ++ s.measBytes ++ nonce

/-- `n` free bytes from a number on. -/
def freeRun (i n : Nat) : List Byte := (List.range n).map (fun k => Config.freeByte (i + k))

/-- An LMS signature in the encoding of RFC 8554: leaf, LMOTS type, hashes, tree type, path; its hashes are free (log 7). -/
def lmsSig (leaf ty height i : Nat) : List Byte :=
  be32 leaf ++ be32 3 ++ freeRun i 2176 ++ be32 ty ++ freeRun (i + 2176) (32 * height)

/-- The signature of a quote (R400, R401): top leaf c signs the key of the boot's tree, both made at phase 3, and the next leaf of that
tree signs the message. -/
def State.quoteSig (s : State) : List Byte :=
  let i := s.bootTree
  be32 1 ++ lmsSig s.bootc 7 15 i ++ be32 6 ++ be32 3 ++ freeRun (i + 3000) 48 ++ lmsSig s.quotes 6 10 s.free

/-- QUOTE (R400, R401, R402): RRES 3 once the leaves of this boot, or the top leaves, are used up, and 4 at debug level 0, at which the
table of R397 gives no attestation (log 52). -/
def execQuote (s : State) : Host.Outcome State Fault Refusal :=
  .next (s.rotRun 3 (fun a s =>
    if s.dbg = 0 then s.rotDone 4
    else if 1024 ≤ s.quotes ∨ 32767 ≤ s.bootc then s.rotDone 3
    else
      let (nonce, s1) := s.rotRead a 32
      { s1 with free := s1.free + 4000, quotes := s1.quotes + 1 }.rotAnswer (a + 512) (s1.quoteMessage nonce ++ s1.quoteSig)))

/-- The HSS public key of the device identity in the encoding of RFC 8554 (R402). -/
def publicKey : List Byte := be32 2 ++ be32 7 ++ be32 3 ++ (List.range 48).map Config.fusePublicKey

/-- READ_KEYS (R402). -/
def execReadKeys (s : State) : Host.Outcome State Fault Refusal :=
  .next (s.rotRun 4 (fun a s => (s.outWrite .rot 8 (.phys (a + 512)) publicKey none).rotAnswer (a + 1024) (leBytes 2 s.bootc)))

/-- READ_MEASUREMENTS (R402). -/
def execReadMeasurements (s : State) : Host.Outcome State Fault Refusal :=
  .next (s.rotRun 5 (fun a s => s.rotAnswer (a + 512) s.measBytes))

/-! ### Management interfaces (R394, R398, R403) -/

/-- A command answered with a NACK, and logged with class 6 (R403). -/
def State.nack (s : State) (off : Nat) : State :=
  { s.ignored (.package off) (s.rep .mgmt) with answer := none }

/-- An offset of the mailbox (R402). -/
def isMailbox (o : Nat) : Bool := o == 0x6000 || o == 0x6008 || o == 0x6010

/-- An offset of a register of R394. -/
def isIdent (o : Nat) : Bool := [0x7000, 0x7008, 0x7010, 0x7018, 0x7020].contains o

/-- An offset of an error log register (R391). -/
def isErrLog (o : Nat) : Bool := decide (0x4000 ≤ o ∧ o < 0x4A00) && [0, 8, 0x10, 0x18, 0x20].contains (o % 0x100)

/-- MGMT_READ (R403): the dword answers the read that follows. -/
def execMgmtRead (off : Nat) (s : State) : Host.Outcome State Fault Refusal :=
  if isIdent off || ((isErrLog off || isMailbox off) && s.gateOpen false) then .next (s.outReg .mgmt (.package off) 8)
  else .next (s.nack off)

/-- MGMT_WRITE (R403): to the mailbox, DBG and PREQ, and from debug level 2 on to any register of the package block (R397, log 52). -/
def execMgmtWrite (off : Nat) (value : Dword) (s : State) : Host.Outcome State Fault Refusal :=
  if off == 0x7018 || off == 0x7020 || ((isMailbox off || decide (2 ≤ s.dbg.toNat)) && s.gateOpen false) then
    .next (s.outSet .mgmt (.package off) 8 value)
  else .next (s.nack off)

/-- Any other command of the management interfaces is answered with a NACK, and logged (R403). -/
def State.mgmtOther (s : State) (cmd : Byte) : State := if 1 ≤ cmd.toNat ∧ cmd.toNat ≤ 3 then s else s.nack 0

/-- A readback of a state item is allowed at a debug level (R397, R398). -/
def readbackOk (dbg : Nat) (sel : Dword) : Bool :=
  let kind := bits sel.toNat 63 48
  let unit := bits sel.toNat 15 0
  match dbg with
  | 0 => false
  | 1 => (kind == 1 && unit != 15) || [3, 4, 5, 6, 7, 9].contains kind
  | _ => true

/-- The item lies in a gated cluster, where it reads as 0 (R397). -/
def State.itemGated (s : State) (sel : Dword) : Bool :=
  let who := bits sel.toNat 31 16
  (s.clu (if bits sel.toNat 63 48 = 8 ∨ bits sel.toNat 63 48 = 9 then who else clusterOf who)).gated

/-- MGMT_READBACK (R398, R403): the dword answers the read that follows; it makes no move of the abstract machine. -/
def execMgmtReadback (sel idx : Dword) (s : State) : Host.Outcome State Fault Refusal :=
  if s.gateOpen false = false then .next (s.nack 0)
  else if readbackOk s.dbg.toNat sel = false then .next (s.outError .mgmt 8 0)
  else if s.itemGated sel then .next { s with answer := some 0 }
  else
    let (x, s1) := s.readItem sel idx
    .next { s1 with answer := some x }

/-- ENTDAA (R403): the I3C target's dynamic address. -/
def execEntdaa (addr : BitVec 7) (s : State) : Host.Outcome State Fault Refusal := .next { s with i3c := some addr }

end Sys2Proof.Machine
end

