-- ==== Sys2Proof/Machine/VecInt.lean ====
section
/-!
DEFINITION. Vector integer, permutation, move and mask instructions (R251 to R253).
-/

namespace Sys2Proof.Machine

/-- A type is signed; a type that is no integer counts as unsigned. -/
def isSigned (ty : Ty) : Bool := (tyInt ty).getD false

/-- An operation on integer elements, on their values and wrapped to their width (R251). -/
def vint2 (f : Int → Int → Int) (h : Hdr) (ty : Ty) (d a b : VReg) (mk : MReg) :
    State → Host.Outcome State Fault Refusal :=
  let w := tyBits ty
  vmap h w [.v a, .v b] d mk (fun c i g =>
    (ofInt w (f (intOf (isSigned ty) w (elem (c.v 0) w i)) (intOf (isSigned ty) w (elem (c.v 1) w i))), g))

/-- A bitwise operation (R251). -/
def vbit2 (f : Nat → Nat → Nat) (h : Hdr) (ty : Ty) (d a b : VReg) (mk : MReg) :
    State → Host.Outcome State Fault Refusal :=
  let w := tyBits ty
  vmap h w [.v a, .v b] d mk (fun c i g => (f (elem (c.v 0) w i) (elem (c.v 1) w i), g))

/-- Clamped to the type's range with .sat (R251). -/
def satIf (sat : Bool) (ty : Ty) (z : Int) : Int := if sat then clampInt (isSigned ty) (tyBits ty) z else z

/-- VIADD (R251). -/
def execViadd (h : Hdr) (sat : Bool) (ty : Ty) (d a b : VReg) (mk : MReg) : State → Host.Outcome State Fault Refusal :=
  vint2 (fun x y => satIf sat ty (x + y)) h ty d a b mk
/-- VISUB (R251). -/
def execVisub (h : Hdr) (sat : Bool) (ty : Ty) (d a b : VReg) (mk : MReg) : State → Host.Outcome State Fault Refusal :=
  vint2 (fun x y => satIf sat ty (x - y)) h ty d a b mk
/-- VIMUL (R251). -/
def execVimul (h : Hdr) (hi : Bool) (ty : Ty) (d a b : VReg) (mk : MReg) : State → Host.Outcome State Fault Refusal :=
  vint2 (fun x y => if hi then x * y / (2 ^ tyBits ty : Nat) else x * y) h ty d a b mk
/-- VAND (R251). -/
def execVand (h : Hdr) (ty : Ty) (d a b : VReg) (mk : MReg) : State → Host.Outcome State Fault Refusal :=
  vbit2 (fun x y => x &&& y) h ty d a b mk
/-- VOR (R251). -/
def execVor (h : Hdr) (ty : Ty) (d a b : VReg) (mk : MReg) : State → Host.Outcome State Fault Refusal :=
  vbit2 (fun x y => x ||| y) h ty d a b mk
/-- VXOR (R251). -/
def execVxor (h : Hdr) (ty : Ty) (d a b : VReg) (mk : MReg) : State → Host.Outcome State Fault Refusal :=
  vbit2 (fun x y => x ^^^ y) h ty d a b mk
/-- VIMIN (R251). -/
def execVimin (h : Hdr) (ty : Ty) (d a b : VReg) (mk : MReg) : State → Host.Outcome State Fault Refusal :=
  vint2 (fun x y => min x y) h ty d a b mk
/-- VIMAX (R251). -/
def execVimax (h : Hdr) (ty : Ty) (d a b : VReg) (mk : MReg) : State → Host.Outcome State Fault Refusal :=
  vint2 (fun x y => max x y) h ty d a b mk

/-- Source names of a vector shift amount. -/
def vamtNames : VAmt → List Nm
  | .reg b => [.v b]
  | .imm _ => []

/-- A vector shift (R251): the amount is b[log2(w) − 1 : 0], or the B field. -/
def vshift (f : Nat → Nat → Nat → Nat) (h : Hdr) (ty : Ty) (d a : VReg) (n : VAmt) (mk : MReg) :
    State → Host.Outcome State Fault Refusal :=
  let w := tyBits ty
  vmap h w (.v a :: vamtNames n) d mk (fun c i g =>
    let k := match n with
      | .reg _ => elem (c.v 1) w i % w
      | .imm x => x.toNat
    (f w (elem (c.v 0) w i) k, g))

/-- VSHL (R251). -/
def execVshl (h : Hdr) (ty : Ty) (d a : VReg) (n : VAmt) (mk : MReg) : State → Host.Outcome State Fault Refusal :=
  vshift (fun w x k => (x <<< k) % 2 ^ w) h ty d a n mk
/-- VSHR (R251). -/
def execVshr (h : Hdr) (ty : Ty) (d a : VReg) (n : VAmt) (mk : MReg) : State → Host.Outcome State Fault Refusal :=
  vshift (fun _ x k => x >>> k) h ty d a n mk
/-- VSAR (R251): copies of the sign bit enter, whatever the type. -/
def execVsar (h : Hdr) (ty : Ty) (d a : VReg) (n : VAmt) (mk : MReg) : State → Host.Outcome State Fault Refusal :=
  vshift (fun w x k => ofInt w (intOf true w x / (2 ^ k : Nat))) h ty d a n mk

/-- VPERM (R252). -/
def execVperm (h : Hdr) (ty : Ty) (d a b : VReg) (mk : MReg) : State → Host.Outcome State Fault Refusal :=
  let w := tyBits ty
  vmap h w [.v a, .v b] d mk (fun c i g =>
    let k := elem (c.v 1) w i
    (if k < nElems w then elem (c.v 0) w k else 0, g))
/-- VBCAST (R252). -/
def execVbcast (h : Hdr) (ty : Ty) (d : VReg) (a : SReg) (mk : MReg) : State → Host.Outcome State Fault Refusal :=
  vmap h (tyBits ty) [.s a] d mk (fun c _ g => ((c.x 0).toNat % 2 ^ tyBits ty, g))
/-- VSEL (R252): the mask selects, and every element is written. -/
def execVsel (h : Hdr) (ty : Ty) (d a b : VReg) (mk : MReg) : State → Host.Outcome State Fault Refusal :=
  let w := tyBits ty
  runS { h := h, rd := [.v a, .v b], wr := [.v d], masks := [mk] } (fun c =>
    .ok (c.setV d (ofElems w ((List.range (nElems w)).map (fun i =>
      if active (c.t.rM mk) w i then elem (c.v 0) w i else elem (c.v 1) w i)))))
/-- VMOV (R252). -/
def execVmov (h : Hdr) (ty : Ty) (d a : VReg) (mk : MReg) : State → Host.Outcome State Fault Refusal :=
  vmap h (tyBits ty) [.v a] d mk (fun c i g => (elem (c.v 0) (tyBits ty) i, g))
/-- VMOV.tos (R252). -/
def execVmovTos (h : Hdr) (ty : Ty) (d : SReg) (a : VReg) (e : BitVec 6) : State → Host.Outcome State Fault Refusal :=
  runS { h := h, rd := [.v a], wr := [.s d] } (fun c =>
    .ok (c.setS d (BitVec.ofNat 64 (elem (c.v 0) (tyBits ty) e.toNat))))
/-- VMOV.tov (R252): D is also a source. -/
def execVmovTov (h : Hdr) (ty : Ty) (d : VReg) (a : SReg) (e : BitVec 6) : State → Host.Outcome State Fault Refusal :=
  runS { h := h, rd := [.s a, .v d], wr := [.v d] } (fun c =>
    let w := tyBits ty
    .ok (c.setV d (putBits (c.v 1) (w * e.toNat) w ((c.x 0).toNat % 2 ^ w))))
/-- VIDX (R252). -/
def execVidx (h : Hdr) (ty : Ty) (d : VReg) (mk : MReg) : State → Host.Outcome State Fault Refusal :=
  vmap h (tyBits ty) [] d mk (fun _ i g => (i % 2 ^ tyBits ty, g))

/-! ### Masks (R253) -/

/-- M[d] ← x. -/
def Cx.setM (c : Cx) (d : MReg) (x : BitVec 32) : State := c.s.modTh c.aid (fun t => t.wM d x)

/-- MAND (R253). -/
def execMand (h : Hdr) (d a b : MReg) : State → Host.Outcome State Fault Refusal :=
  runS { h := h, masks := [d, a, b] } (fun c => .ok (c.setM d (c.t.rM a &&& c.t.rM b)))
/-- MOR (R253). -/
def execMor (h : Hdr) (d a b : MReg) : State → Host.Outcome State Fault Refusal :=
  runS { h := h, masks := [d, a, b] } (fun c => .ok (c.setM d (c.t.rM a ||| c.t.rM b)))
/-- MOR.fs (R253). -/
def execMorFs (h : Hdr) (d : MReg) (a : SReg) : State → Host.Outcome State Fault Refusal :=
  runS { h := h, rd := [.s a], masks := [d] } (fun c => .ok (c.setM d ((c.x 0).setWidth 32)))
/-- MNOT (R253). -/
def execMnot (h : Hdr) (d a : MReg) : State → Host.Outcome State Fault Refusal :=
  runS { h := h, masks := [d, a] } (fun c => .ok (c.setM d (~~~(c.t.rM a))))
/-- MPOPC (R253). -/
def execMpopc (h : Hdr) (d : SReg) (a : MReg) : State → Host.Outcome State Fault Refusal :=
  runS { h := h, wr := [.s d], masks := [a] } (fun c =>
    .ok (c.setS d (BitVec.ofNat 64 ((List.range 32).filter (fun i => (c.t.rM a).getLsbD i)).length)))
/-- MPOPC.raw (R253). -/
def execMpopcRaw (h : Hdr) (d : SReg) (a : MReg) : State → Host.Outcome State Fault Refusal :=
  runS { h := h, wr := [.s d], masks := [a] } (fun c => .ok (c.setS d ((c.t.rM a).setWidth 64)))

end Sys2Proof.Machine
end

