-- ==== Sys2Proof/Machine/Dispatch.lean ====
section
/-!
DEFINITION. Dispatch: one arm for each instruction and move, each a direct call of its meaning.
-/

namespace Sys2Proof.Machine

def exec (i : Instr) (s : State) : Host.Outcome State Fault Refusal :=
  match i with
  | .nop h => Sys2Proof.Machine.execNop h s
  | .nop96 h => Sys2Proof.Machine.execNop96 h s
  | .nop128 h => Sys2Proof.Machine.execNop128 h s
  | .br h off => Sys2Proof.Machine.execBr h off s
  | .brr h a => Sys2Proof.Machine.execBrr h a s
  | .call h d off => Sys2Proof.Machine.execCall h d off s
  | .callr h d a => Sys2Proof.Machine.execCallr h d a s
  | .ret h a => Sys2Proof.Machine.execRet h a s
  | .loop h a off => Sys2Proof.Machine.execLoop h a off s
  | .callat h d a b c nr => Sys2Proof.Machine.execCallat h d a b c nr s
  | .spawn h d a off => Sys2Proof.Machine.execSpawn h d a off s
  | .join h a => Sys2Proof.Machine.execJoin h a s
  | .exit h a => Sys2Proof.Machine.execExit h a s
  | .exitRep h a b c => Sys2Proof.Machine.execExitRep h a b c s
  | .yield h => Sys2Proof.Machine.execYield h s
  | .waitFull h a => Sys2Proof.Machine.execWaitFull h a s
  | .waitZero h a => Sys2Proof.Machine.execWaitZero h a s
  | .waitNe h d a b => Sys2Proof.Machine.execWaitNe h d a b s
  | .send h a b c => Sys2Proof.Machine.execSend h a b c s
  | .taskq h d a b c cnt => Sys2Proof.Machine.execTaskq h d a b c cnt s
  | .taskqDec h a => Sys2Proof.Machine.execTaskqDec h a s
  | .evset h n => Sys2Proof.Machine.execEvset h n s
  | .evclr h n => Sys2Proof.Machine.execEvclr h n s
  | .evwait h n => Sys2Proof.Machine.execEvwait h n s
  | .cancel h a => Sys2Proof.Machine.execCancel h a s
  | .cancelSeen core => Sys2Proof.Machine.execCancelSeen core s
  | .cancelMailboxWrite tag => Sys2Proof.Machine.execCancelMailboxWrite tag s
  | .trapu h code => Sys2Proof.Machine.execTrapu h code s
  | .exretRetry h a => Sys2Proof.Machine.execExretRetry h a s
  | .exretNext h a => Sys2Proof.Machine.execExretNext h a s
  | .exretTo h a b => Sys2Proof.Machine.execExretTo h a b s
  | .tack h a m => Sys2Proof.Machine.execTack h a m s
  | .tackDone h => Sys2Proof.Machine.execTackDone h s
  | .tkwait h a => Sys2Proof.Machine.execTkwait h a s
  | .tkwaitFrame h a => Sys2Proof.Machine.execTkwaitFrame h a s
  | .tkstat h d a => Sys2Proof.Machine.execTkstat h d a s
  | .tkstatProg h d => Sys2Proof.Machine.execTkstatProg h d s
  | .add h d a b => Sys2Proof.Machine.execAdd h d a b s
  | .sub h d a b => Sys2Proof.Machine.execSub h d a b s
  | .addi h d a m => Sys2Proof.Machine.execAddi h d a m s
  | .mul h d a b => Sys2Proof.Machine.execMul h d a b s
  | .mulh h u d a b => Sys2Proof.Machine.execMulh h u d a b s
  | .div h u d a b => Sys2Proof.Machine.execDiv h u d a b s
  | .rem h u d a b => Sys2Proof.Machine.execRem h u d a b s
  | .and h d a b => Sys2Proof.Machine.execAnd h d a b s
  | .or h d a b => Sys2Proof.Machine.execOr h d a b s
  | .xor h d a b => Sys2Proof.Machine.execXor h d a b s
  | .andn h d a b => Sys2Proof.Machine.execAndn h d a b s
  | .orn h d a b => Sys2Proof.Machine.execOrn h d a b s
  | .shl h d a n => Sys2Proof.Machine.execShl h d a n s
  | .shr h d a n => Sys2Proof.Machine.execShr h d a n s
  | .sar h d a n => Sys2Proof.Machine.execSar h d a n s
  | .rot h right d a n => Sys2Proof.Machine.execRot h right d a n s
  | .min h u d a b => Sys2Proof.Machine.execMin h u d a b s
  | .max h u d a b => Sys2Proof.Machine.execMax h u d a b s
  | .abs h d a => Sys2Proof.Machine.execAbs h d a s
  | .clz h d a => Sys2Proof.Machine.execClz h d a s
  | .ctz h d a => Sys2Proof.Machine.execCtz h d a s
  | .popc h d a => Sys2Proof.Machine.execPopc h d a s
  | .brev h d a => Sys2Proof.Machine.execBrev h d a s
  | .bswap h d a => Sys2Proof.Machine.execBswap h d a s
  | .ext h sgn d a lo w1 => Sys2Proof.Machine.execExt h sgn d a lo w1 s
  | .ins h d a lo w1 => Sys2Proof.Machine.execIns h d a lo w1 s
  | .sel h d a b p => Sys2Proof.Machine.execSel h d a b p s
  | .mov h d a => Sys2Proof.Machine.execMov h d a s
  | .movi h d m => Sys2Proof.Machine.execMovi h d m s
  | .movwF96 h sx d m => Sys2Proof.Machine.execMovwF96 h sx d m s
  | .movwF128 h d m => Sys2Proof.Machine.execMovwF128 h d m s
  | .lea h d m => Sys2Proof.Machine.execLea h d m s
  | .hash h d a b => Sys2Proof.Machine.execHash h d a b s
  | .cmp h c p a b => Sys2Proof.Machine.execCmp h c p a b s
  | .cmpi h c p a m => Sys2Proof.Machine.execCmpi h c p a m s
  | .pand h ia ib d a b => Sys2Proof.Machine.execPand h ia ib d a b s
  | .por h ia ib d a b => Sys2Proof.Machine.execPor h ia ib d a b s
  | .pxor h ia ib d a b => Sys2Proof.Machine.execPxor h ia ib d a b s
  | .pnot h d a => Sys2Proof.Machine.execPnot h d a s
  | .prd h d => Sys2Proof.Machine.execPrd h d s
  | .pwr h a => Sys2Proof.Machine.execPwr h a s
  | .mfu h d num => Sys2Proof.Machine.execMfu h d num s
  | .mtu h num a => Sys2Proof.Machine.execMtu h num a s
  | .ld h sx d m k sz => Sys2Proof.Machine.execLd h sx d m k sz s
  | .ldFe h sx d m sz => Sys2Proof.Machine.execLdFe h sx d m sz s
  | .ldFec h sx d m sz => Sys2Proof.Machine.execLdFec h sx d m sz s
  | .st h m c k ftag sz => Sys2Proof.Machine.execSt h m c k ftag sz s
  | .ldv h d m rp mk => Sys2Proof.Machine.execLdv h d m rp mk s
  | .stv h m c rp ftag mk => Sys2Proof.Machine.execStv h m c rp ftag mk s
  | .vgath h d g rp dw mk => Sys2Proof.Machine.execVgath h d g rp dw mk s
  | .vscat h g c rp dw mk => Sys2Proof.Machine.execVscat h g c rp dw mk s
  | .amo h op d m c o sc dw => Sys2Proof.Machine.execAmo h op d m c o sc dw s
  | .cas h d m c o sc dw => Sys2Proof.Machine.execCas h d m c o sc dw s
  | .fence h o sc => Sys2Proof.Machine.execFence h o sc s
  | .pref h m slice => Sys2Proof.Machine.execPref h m slice s
  | .stpair h a b c seg segT pp pt w => Sys2Proof.Machine.execStpair h a b c seg segT pp pt w s
  | .feset h m => Sys2Proof.Machine.execFeset h m s
  | .feclr h m => Sys2Proof.Machine.execFeclr h m s
  | .vadd h ty r d a b mk => Sys2Proof.Machine.execVadd h ty r d a b mk s
  | .vsub h ty r d a b mk => Sys2Proof.Machine.execVsub h ty r d a b mk s
  | .vmul h ty r d a b mk => Sys2Proof.Machine.execVmul h ty r d a b mk s
  | .vdiv h ty r d a b mk => Sys2Proof.Machine.execVdiv h ty r d a b mk s
  | .vfma h ty r d a b c mk => Sys2Proof.Machine.execVfma h ty r d a b c mk s
  | .vfms h ty r d a b c mk => Sys2Proof.Machine.execVfms h ty r d a b c mk s
  | .vfnma h ty r d a b c mk => Sys2Proof.Machine.execVfnma h ty r d a b c mk s
  | .vsqrt h ty r d a mk => Sys2Proof.Machine.execVsqrt h ty r d a mk s
  | .vmin h ty d a b mk => Sys2Proof.Machine.execVmin h ty d a b mk s
  | .vmax h ty d a b mk => Sys2Proof.Machine.execVmax h ty d a b mk s
  | .vabs h ty d a mk => Sys2Proof.Machine.execVabs h ty d a mk s
  | .vneg h ty d a mk => Sys2Proof.Machine.execVneg h ty d a mk s
  | .vcmp h c ty d a b mk => Sys2Proof.Machine.execVcmp h c ty d a b mk s
  | .vcvt h dty sty r d a mk => Sys2Proof.Machine.execVcvt h dty sty r d a mk s
  | .vpack h dty sty r d a b mk => Sys2Proof.Machine.execVpack h dty sty r d a b mk s
  | .vunpk h dty sty r d a part mk => Sys2Proof.Machine.execVunpk h dty sty r d a part mk s
  | .vbxq h bx4 d a blk c => Sys2Proof.Machine.execVbxq h bx4 d a blk c s
  | .vbxd h dty bx4 r d a blk c mk => Sys2Proof.Machine.execVbxd h dty bx4 r d a blk c mk s
  | .vscale h ty r d a b mk => Sys2Proof.Machine.execVscale h ty r d a b mk s
  | .vred h op ty r d a mk => Sys2Proof.Machine.execVred h op ty r d a mk s
  | .vsacc h dbl r d a b c n1 mk => Sys2Proof.Machine.execVsacc h dbl r d a b c n1 mk s
  | .vbdot h ty r bs st d a b c mk => Sys2Proof.Machine.execVbdot h ty r bs st d a b c mk s
  | .viadd h sat ty d a b mk => Sys2Proof.Machine.execViadd h sat ty d a b mk s
  | .visub h sat ty d a b mk => Sys2Proof.Machine.execVisub h sat ty d a b mk s
  | .vimul h hi ty d a b mk => Sys2Proof.Machine.execVimul h hi ty d a b mk s
  | .vand h ty d a b mk => Sys2Proof.Machine.execVand h ty d a b mk s
  | .vor h ty d a b mk => Sys2Proof.Machine.execVor h ty d a b mk s
  | .vxor h ty d a b mk => Sys2Proof.Machine.execVxor h ty d a b mk s
  | .vshl h ty d a n mk => Sys2Proof.Machine.execVshl h ty d a n mk s
  | .vshr h ty d a n mk => Sys2Proof.Machine.execVshr h ty d a n mk s
  | .vsar h ty d a n mk => Sys2Proof.Machine.execVsar h ty d a n mk s
  | .vimin h ty d a b mk => Sys2Proof.Machine.execVimin h ty d a b mk s
  | .vimax h ty d a b mk => Sys2Proof.Machine.execVimax h ty d a b mk s
  | .vperm h ty d a b mk => Sys2Proof.Machine.execVperm h ty d a b mk s
  | .vbcast h ty d a mk => Sys2Proof.Machine.execVbcast h ty d a mk s
  | .vsel h ty d a b mk => Sys2Proof.Machine.execVsel h ty d a b mk s
  | .vmov h ty d a mk => Sys2Proof.Machine.execVmov h ty d a mk s
  | .vmovTos h ty d a e => Sys2Proof.Machine.execVmovTos h ty d a e s
  | .vmovTov h ty d a e => Sys2Proof.Machine.execVmovTov h ty d a e s
  | .vidx h ty d mk => Sys2Proof.Machine.execVidx h ty d mk s
  | .mand h d a b => Sys2Proof.Machine.execMand h d a b s
  | .mor h d a b => Sys2Proof.Machine.execMor h d a b s
  | .morFs h d a => Sys2Proof.Machine.execMorFs h d a s
  | .mnot h d a => Sys2Proof.Machine.execMnot h d a s
  | .mpopc h d a => Sys2Proof.Machine.execMpopc h d a s
  | .mpopcRaw h d a => Sys2Proof.Machine.execMpopcRaw h d a s
  | .embpool h ty r d seg a b c lg => Sys2Proof.Machine.execEmbpool h ty r d seg a b c lg s
  | .embupd h ty r d seg a b c lg => Sys2Proof.Machine.execEmbupd h ty r d seg a b c lg s
  | .oclaim h d n1 => Sys2Proof.Machine.execOclaim h d n1 s
  | .oclaimM h d a => Sys2Proof.Machine.execOclaimM h d a s
  | .oclaimServe core => Sys2Proof.Machine.execOclaimServe core s
  | .orelease h a => Sys2Proof.Machine.execOrelease h a s
  | .ofill h d c m => Sys2Proof.Machine.execOfill h d c m s
  | .ofillS h d c b => Sys2Proof.Machine.execOfillS h d c b s
  | .wlatch h ty slot => Sys2Proof.Machine.execWlatch h ty slot s
  | .mma h ty mode a b slot cnt1 => Sys2Proof.Machine.execMma h ty mode a b slot cnt1 s
  | .arrayPerform core => Sys2Proof.Machine.execArrayPerform core s
  | .accz h a b => Sys2Proof.Machine.execAccz h a b s
  | .accrd h half d a mk => Sys2Proof.Machine.execAccrd h half d a mk s
  | .accwr h half a c mk => Sys2Proof.Machine.execAccwr h half a c mk s
  | .mstat h d => Sys2Proof.Machine.execMstat h d s
  | .mstatPeek h d => Sys2Proof.Machine.execMstatPeek h d s
  | .pbind h name out fwd p => Sys2Proof.Machine.execPbind h name out fwd p s
  | .punbind h name => Sys2Proof.Machine.execPunbind h name s
  | .pdrain h d name => Sys2Proof.Machine.execPdrain h d name s
  | .streamElementRead core name => Sys2Proof.Machine.execStreamElementRead core name s
  | .streamElementWrite core name => Sys2Proof.Machine.execStreamElementWrite core name s
  | .spopenIn h port => Sys2Proof.Machine.execSpopenIn h port s
  | .spopenOut h d a b port => Sys2Proof.Machine.execSpopenOut h d a b port s
  | .spopenLand h a b port => Sys2Proof.Machine.execSpopenLand h a b port s
  | .spclose h port => Sys2Proof.Machine.execSpclose h port s
  | .networkElementLand core port => Sys2Proof.Machine.execNetworkElementLand core port s
  | .closingFlit core port => Sys2Proof.Machine.execClosingFlit core port s
  | .trset h tr m => Sys2Proof.Machine.execTrset h tr m s
  | .kacc h ty r a c tree node e0 e1 mk => Sys2Proof.Machine.execKacc h ty r a c tree node e0 e1 mk s
  | .keyTableApply core idx => Sys2Proof.Machine.execKeyTableApply core idx s
  | .kget h ty r d a p c tree node => Sys2Proof.Machine.execKget h ty r d a p c tree node s
  | .kprobe h p a tree node => Sys2Proof.Machine.execKprobe h p a tree node s
  | .kput h ty r a b c tree node => Sys2Proof.Machine.execKput h ty r a b c tree node s
  | .kdel h a tree node => Sys2Proof.Machine.execKdel h a tree node s
  | .kmerge h a tree node => Sys2Proof.Machine.execKmerge h a tree node s
  | .kscan h d a c tree node => Sys2Proof.Machine.execKscan h d a c tree node s
  | .hpos h d a sp => Sys2Proof.Machine.execHpos h d a sp s
  | .bindpos h a b => Sys2Proof.Machine.execBindpos h a b s
  | .posset h a => Sys2Proof.Machine.execPosset h a s
  | .handOver record => Sys2Proof.Machine.execHandOver record s
  | .migrCore h a => Sys2Proof.Machine.execMigrCore h a s
  | .migrAddr h a => Sys2Proof.Machine.execMigrAddr h a s
  | .unbind h => Sys2Proof.Machine.execUnbind h s
  | .nbrS h d a b c l2 xself => Sys2Proof.Machine.execNbrS h d a b c l2 xself s
  | .nbrBuf h d a b c l2 xself cap => Sys2Proof.Machine.execNbrBuf h d a b c l2 xself cap s
  | .cqput h d a c seg nk => Sys2Proof.Machine.execCqput h d a c seg nk s
  | .hwaitFree h n => Sys2Proof.Machine.execHwaitFree h n s
  | .hwaitFull h n => Sys2Proof.Machine.execHwaitFull h n s
  | .hwaitTake h n => Sys2Proof.Machine.execHwaitTake h n s
  | .hstate h d n => Sys2Proof.Machine.execHstate h d n s
  | .hfree h n => Sys2Proof.Machine.execHfree h n s
  | .copyPacketTake cluster binding => Sys2Proof.Machine.execCopyPacketTake cluster binding s
  | .copyGranuleWrite cluster copy => Sys2Proof.Machine.execCopyGranuleWrite cluster copy s
  | .copyCompletion cluster copy => Sys2Proof.Machine.execCopyCompletion cluster copy s
  | .tierEntryIssue tag id => Sys2Proof.Machine.execTierEntryIssue tag id s
  | .tierEntryComplete tag id => Sys2Proof.Machine.execTierEntryComplete tag id s
  | .sretRetry h a en => Sys2Proof.Machine.execSretRetry h a en s
  | .sretNext h a en => Sys2Proof.Machine.execSretNext h a en s
  | .sretTo h a b en => Sys2Proof.Machine.execSretTo h a b en s
  | .sretKill h a en => Sys2Proof.Machine.execSretKill h a en s
  | .mfs h d num => Sys2Proof.Machine.execMfs h d num s
  | .mts h num a => Sys2Proof.Machine.execMts h num a s
  | .segld h g m => Sys2Proof.Machine.execSegld h g m s
  | .accsave h d c m => Sys2Proof.Machine.execAccsave h d c m s
  | .accload h d c m => Sys2Proof.Machine.execAccload h d c m s
  | .ctxoutCore h d a b => Sys2Proof.Machine.execCtxoutCore h d a b s
  | .ctxoutMem h d a b => Sys2Proof.Machine.execCtxoutMem h d a b s
  | .ctxin h d a b => Sys2Proof.Machine.execCtxin h d a b s
  | .xlinvVa h a b pkg => Sys2Proof.Machine.execXlinvVa h a b pkg s
  | .xlinvTag h a b pkg => Sys2Proof.Machine.execXlinvTag h a b pkg s
  | .xlinvAll h a b pkg => Sys2Proof.Machine.execXlinvAll h a b pkg s
  | .rtswap h d a b => Sys2Proof.Machine.execRtswap h d a b s
  | .haltWait h => Sys2Proof.Machine.execHaltWait h s
  | .haltStop h => Sys2Proof.Machine.execHaltStop h s
  | .rdstate h d a b => Sys2Proof.Machine.execRdstate h d a b s
  | .sysmsg h a c => Sys2Proof.Machine.execSysmsg h a c s
  | .longResultReturn core slot idx => Sys2Proof.Machine.execLongResultReturn core slot idx s
  | .journalEntrySend core idx => Sys2Proof.Machine.execJournalEntrySend core idx s
  | .postedWritePerform core idx => Sys2Proof.Machine.execPostedWritePerform core idx s
  | .journalAck core idx => Sys2Proof.Machine.execJournalAck core idx s
  | .trapEntry core slot => Sys2Proof.Machine.execTrapEntry core slot s
  | .supervisorRequestTake core => Sys2Proof.Machine.execSupervisorRequestTake core s
  | .systemMessageTake core => Sys2Proof.Machine.execSystemMessageTake core s
  | .wakeMove core aid => Sys2Proof.Machine.execWakeMove core aid s
  | .lightSlotTake core slot => Sys2Proof.Machine.execLightSlotTake core slot s
  | .stealServe core slot => Sys2Proof.Machine.execStealServe core slot s
  | .stealRetry core slot => Sys2Proof.Machine.execStealRetry core slot s
  | .lightDeparture core aid => Sys2Proof.Machine.execLightDeparture core aid s
  | .lightArrival aid => Sys2Proof.Machine.execLightArrival aid s
  | .messageHandlerStart core => Sys2Proof.Machine.execMessageHandlerStart core s
  | .launchRequest part => Sys2Proof.Machine.execLaunchRequest part s
  | .launchStart part => Sys2Proof.Machine.execLaunchStart part s
  | .launchCompletion tag => Sys2Proof.Machine.execLaunchCompletion tag s
  | .faultEntryWait cluster => Sys2Proof.Machine.execFaultEntryWait cluster s
  | .updateSequence remote => Sys2Proof.Machine.execUpdateSequence remote s
  | .updateMailboxWrite n => Sys2Proof.Machine.execUpdateMailboxWrite n s
  | .bastingForward core idx => Sys2Proof.Machine.execBastingForward core idx s
  | .bounceAppend core idx => Sys2Proof.Machine.execBounceAppend core idx s
  | .memoryTraining ok => Sys2Proof.Machine.execMemoryTraining ok s
  | .clusterResetDone cluster => Sys2Proof.Machine.execClusterResetDone cluster s
  | .updateApply => Sys2Proof.Machine.execUpdateApply s
  | .packageResetRelease => Sys2Proof.Machine.execPackageResetRelease s
  | .firmwareStart => Sys2Proof.Machine.execFirmwareStart s
  | .bupReady => Sys2Proof.Machine.execBupReady s
  | .powerTransition => Sys2Proof.Machine.execPowerTransition s
  | .extend => Sys2Proof.Machine.execExtend s
  | .token => Sys2Proof.Machine.execToken s
  | .quote => Sys2Proof.Machine.execQuote s
  | .readKeys => Sys2Proof.Machine.execReadKeys s
  | .readMeasurements => Sys2Proof.Machine.execReadMeasurements s
  | .faultReply cluster n value => Sys2Proof.Machine.execFaultReply cluster n value s
  | .migrationMarker sender old => Sys2Proof.Machine.execMigrationMarker sender old s
  | .crst cluster value => Sys2Proof.Machine.execCrst cluster value s
  | .partitionTableWrite off value => Sys2Proof.Machine.execPartitionTableWrite off value s
  | .translationBlockWrite off value => Sys2Proof.Machine.execTranslationBlockWrite off value s
  | .linkFailure dieA dieB => Sys2Proof.Machine.execLinkFailure dieA dieB s
  | .packageLostFence rank => Sys2Proof.Machine.execPackageLostFence rank s
  | .hostAccess wr addr size value => Sys2Proof.Machine.execHostAccess wr addr size value s
  | .hint value => Sys2Proof.Machine.execHint value s
  | .nvmeMsix port addr data => Sys2Proof.Machine.execNvmeMsix port addr data s
  | .errorLogConfigWrite die off value => Sys2Proof.Machine.execErrorLogConfigWrite die off value s
  | .coreReset core => Sys2Proof.Machine.execCoreReset core s
  | .dbgWrite value => Sys2Proof.Machine.execDbgWrite value s
  | .preqWrite value => Sys2Proof.Machine.execPreqWrite value s
  | .mgmtRead off => Sys2Proof.Machine.execMgmtRead off s
  | .mgmtWrite off value => Sys2Proof.Machine.execMgmtWrite off value s
  | .mgmtReadback sel idx => Sys2Proof.Machine.execMgmtReadback sel idx s
  | .registerWrite addr value => Sys2Proof.Machine.execRegisterWrite addr value s
  | .bastingEntryRetire cluster idx => Sys2Proof.Machine.execBastingEntryRetire cluster idx s
  | .nvmeControllerDma port wr addr size data => Sys2Proof.Machine.execNvmeControllerDma port wr addr size data s
  | .peerPackageAccess rank op addr size data => Sys2Proof.Machine.execPeerPackageAccess rank op addr size data s
  | .lamvanBlockWrite off value => Sys2Proof.Machine.execLamvanBlockWrite off value s
  | .entdaa addr => Sys2Proof.Machine.execEntdaa addr s

end Sys2Proof.Machine
end

