-- ==== Sys2Proof/Machine/Turns.lean ====
section
/-!
DEFINITION. Turns: the issue of a slot's next instruction, a move, and the turn taken when none is listed (R114, log 1).
-/

namespace Sys2Proof.Machine

/-- What follows a turn: waits whose condition holds wake, and tasks become ready (R195, R199). -/
def after (o : Host.Outcome State Fault Refusal) : Host.Outcome State Fault Refusal :=
  match o with
  | .next s => .next s.settle
  | .fault f => .fault f
  | .refused r => .refused r

/-- The instruction of a slot after what stands before it (R14, R209, R213), or the slot's stay. -/
def issue (core slot : Nat) (s : State) : Host.Outcome State Fault Refusal :=
  let s0 := { s with cur := (core, slot) }
  match s.occ core slot with
  | none => .next s0
  | some aid =>
    if s0.ready core slot = false then .next s0
    else if s0.trapDue aid then .next (s0.trapTake aid)
    else
      match (if (s0.th aid).marked then s0.atMarker core slot aid else none) with
      | some s1 => .next s1
      | none =>
        match s0.fetch aid with
        | .held => .next (s0.park aid false)
        | .fault va r s1 => .next (s1.waitFault aid va r (s1.th aid).pc)
        | .exc e npc s1 => .next (s1.fetchExc aid e npc)
        | .instr i s1 =>
          match (if markerFirst i && (s1.th aid).outst.isEmpty then s1.atMarker core slot aid else none) with
          | some s2 => .next s2
          | none => exec i (s1.modTh aid (fun t => { t with entering := false, marked := false }))

/-- A soft error that the ECC corrects, in the log: by a die and with an agent that no rule gives (R390, R392, log 56). -/
def State.softLog (s : State) (addr : Dword) (virt : Bool) : State :=
  let (n, s1) := s.takeFree
  s1.logErr ((Config.freeDword n).toNat % 10) 2 0 addr virt (Config.freeDword n) none

/-- A soft error of memory or of a scratchpad (R390): one that the ECC corrects is logged and changes nothing else; any other makes the
block of 32 bytes give error responses from then on (log 56). -/
def State.softError (s : State) (p : Place) (fatal : Bool) : State :=
  if fatal then { s with bad := p :: s.bad }
  else s.softLog (apertureVa p) (match p with
    | .sp _ _ => true
    | .phys _ => false)

/-- A soft error of a slot of operand memory, which has no address (R390, log 56). -/
def State.softSlot (s : State) (core slot : Nat) (fatal : Bool) : State :=
  if fatal then { s with badOp := (core, slot) :: s.badOp } else s.softLog 0 false

/-- One turn. -/
def runTurn (t : Turn) (s : State) : Host.Outcome State Fault Refusal :=
  match t with
  | .issue core slot => after (issue core slot s)
  | .move i => after (exec i s)
  | .deliver n => after (.next (s.arriveFlow n))
  | .start core => after (.next (s.startTask core))
  | .soft p fatal => .next (s.softError p fatal)
  | .softOp core slot fatal => .next (s.softSlot core slot fatal)
  | .mgmt cmd => .next (s.mgmtOther cmd)

/-! ### The turn taken when none is listed (log 1) -/

/-- A list where a condition holds. -/
def onlyIf {α : Type} (b : Bool) (l : List α) : List α := if b then l else []

/-- The slots of a core that may issue, take a trap or return a result, and free light slots. -/
def State.slotTurns (s : State) (core : Nat) : List Turn :=
  (List.range 16).flatMap (fun i =>
    match s.occ core i with
    | some a =>
      (List.range (s.th a).outst.length).map (fun n => Turn.move (.longResultReturn core i n)) ++
        onlyIf (s.ready core i && (i != 15 || s.bup == 4 || s.bup == 3)) [.issue core i]
    | none =>
      onlyIf (s.slotFree core i)
        [.move (.lightSlotTake core i), .move (.stealServe core i), .move (.stealRetry core i)])

/-- The moves of a core's array, journal, queues and ports. -/
def State.coreMoves (s : State) (core : Nat) : List Instr :=
  let k := s.core core
  onlyIf (!k.arrq.isEmpty) [.arrayPerform core] ++ onlyIf (!k.claims.isEmpty) [.oclaimServe core] ++
    (List.range 64).flatMap (fun i => onlyIf (vrd k.jrn i).isSome
      [Instr.journalEntrySend core i, .keyTableApply core i, .postedWritePerform core i, .journalAck core i]) ++
    onlyIf (!k.reqs.isEmpty) [.supervisorRequestTake core, .systemMessageTake core] ++
    onlyIf (!k.msgq.isEmpty || !k.mgRing.isEmpty) [.messageHandlerStart core] ++
    (List.range 4).flatMap (fun i => onlyIf (!(vrd k.net i).q.isEmpty) [.networkElementLand core i, .closingFlit core i]) ++
    (List.range k.binds.length).map (.streamElementWrite core) ++ (List.range k.fwdq.length).map (.bastingForward core)

/-- The moves of threads that wait, travel or depart. -/
def State.threadMoves (s : State) : List Instr :=
  s.threads.flatMap (fun e =>
    onlyIf e.2.wait.isSome [Instr.wakeMove e.2.core e.1] ++ onlyIf e.2.depart.isSome [.lightDeparture e.2.core e.1] ++
      (match e.2.loc with
       | .transit _ => [.lightArrival e.1]
       | _ => []))

/-- The moves of the streamers and ports of a cluster. -/
def State.cluMoves (s : State) (cl : Nat) : List Instr :=
  let k := s.clu cl
  (List.range k.qbinds.length).map (.copyPacketTake cl) ++
    k.copies.flatMap (fun c => [Instr.copyGranuleWrite cl c.1, .copyCompletion cl c.1]) ++
    onlyIf (!k.fwait.isEmpty) [.faultEntryWait cl] ++ onlyIf k.crst [.clusterResetDone cl] ++
    (List.range 8).flatMap (fun i => onlyIf (!(vrd k.recv i).wait.isEmpty) [.bounceAppend (4 * cl) i])

/-- The moves of the launches: plans, positions, cancellation, start and completion. -/
def State.launchMoves (s : State) : List Instr :=
  s.launches.flatMap (fun l =>
    l.plan.flatMap (fun e => [Instr.tierEntryIssue l.tag.toNat e.id, .tierEntryComplete l.tag.toNat e.id]) ++
      l.recs.flatMap (fun e => (e.2.filter (fun r => r.hand.isSome)).map (fun r => Instr.handOver (l.tag.toNat * 2 ^ 32 + r.num))) ++
      [.cancelMailboxWrite l.tag.toNat, .launchCompletion l.tag.toNat]) ++
    s.pendingL.map (fun e => .launchStart e.1) ++
    (List.range 8).flatMap (fun p => onlyIf (s.bellNext p (amGet s.pqueue p 0)).isSome [.launchRequest p])

/-- The moves of the package: updates, the root of trust, power and bring-up. -/
def State.packageMoves (s : State) : List Instr :=
  onlyIf (s.bellNext 8 s.uq).isSome [.updateSequence none] ++ onlyIf (!s.upds.isEmpty) [.updateApply] ++
    s.mbdue.map (fun e => .updateMailboxWrite e.n) ++
    onlyIf s.rotst.busy [.extend, .token, .quote, .readKeys, .readMeasurements] ++ [.powerTransition] ++
    (match s.bup.toNat with
     | 0 => [.packageResetRelease]
     | 1 => [.memoryTraining true]
     | 2 => [.firmwareStart]
     | _ => [])

/-- The turns that may be enabled: every one but those that an agent outside, the system software or a failure makes, and the
reads of stream elements ahead, which no rule requires (R102). -/
def State.candidates (s : State) : List Turn :=
  s.cores.flatMap (fun e => s.slotTurns e.1 ++ (s.coreMoves e.1).map Turn.move ++ onlyIf e.2.nextReady.isSome [.start e.1]) ++
    (List.range s.flows.length).filterMap (fun n => (s.nextFlow n).map (fun _ => Turn.deliver n)) ++
    (s.threadMoves ++ s.clus.flatMap (fun e => s.cluMoves e.1) ++ s.launchMoves ++ s.packageMoves).map Turn.move

/-- A turn changes more than which slot is current and which free value comes next. -/
def State.changes (s : State) (t : Turn) : Bool :=
  match runTurn t s with
  | .next s1 => decide ({ s1 with cur := s.cur, free := s.free } ≠ s)
  | _ => false

/-- The current slot goes on with its run of instructions: it may issue and stands at nothing that others must do first. -/
def State.runsOn (s : State) : Bool :=
  match s.occ s.cur.1 s.cur.2 with
  | some aid => s.ready s.cur.1 s.cur.2 && !(s.th aid).parked && (s.bup == 4 || s.bup == 3)
  | none => false

/-- Instructions that a slot issues in a row before another turn comes. -/
def runLength : Nat := 16

/-- The turn taken when none is listed, with where the rotation stands after it: the current slot's next instruction while its run
lasts, else the next candidate of the rotation that changes the state. So every move that stays enabled is taken (R114). -/
def State.pick (s : State) : Option (Turn × State) :=
  if 0 < s.pace.1 ∧ s.runsOn = true then some (.issue s.cur.1 s.cur.2, { s with pace := (s.pace.1 - 1, s.pace.2) })
  else
    let ts := s.candidates
    let k := s.pace.2 % (ts.length + 1)
    (findIx s.changes (ts.drop k ++ ts.take k) 0).bind (fun i =>
      let n := (k + i) % ts.length
      ts[n]?.map (fun t => (t, { s with pace := (runLength, n + 1) })))

end Sys2Proof.Machine
end

