-- ==== Sys2Proof/Machine/Step.lean ====
section
/-!
DEFINITION. One step of the machine, and the state in which the next step runs a given instruction.
-/

namespace Sys2Proof.Machine

/-- One step: the head of the listed turns, or, with none listed, the turn that `State.pick` names; a move with what
follows it before the next one (R114, log 1). With no move enabled the machine stays as it is until an agent outside acts. -/
def step (s : State) : Host.Outcome State Fault Refusal :=
  match s.turns with
  | t :: ts => runTurn t { s with turns := ts }
  | [] =>
    match s.pick with
    | some (t, s1) => runTurn t s1
    | none => .next s

/-- The state with an instruction stored where the next step fetches it (log 1). -/
def State.withFetchWord (s : State) (nbits w : Nat) : State := s.placeWord nbits w

end Sys2Proof.Machine
end

