-- ==== Sys2Proof/Safety.lean ====
section
/-!
DEFINITION. What counts as a safe run, in the terms that claims use: the invariants of the state, what the instruction of the
current slot works with when it issues, and the ways in which an instruction ends.
-/

namespace Sys2Proof.Machine

/-! ### Invariants -/

/-- Every memory of the state is in its canonical form. -/
def State.memWf (s : State) : Bool := s.mem.wf && s.cores.all (fun e => e.2.sp.wf)

/-- A state from which one step neither stops nor is refused. -/
def State.steps (s : State) : Prop := ∃ t, step s = .next t

/-! ### Issue -/

/-- What the instruction of the current slot works with when it issues (R151 steps 4 to 9, R40): its guard holds, no check raises,
the outstanding set lets it, nothing that it must wait for is left, bound destinations have room, and bound sources have an element, which
the stream unit has read (R102). Nothing that it posts is under way yet. -/
def State.takes (s : State) (o : Op) : Option Cx :=
  match s.occ s.cur.1 s.cur.2 with
  | none => none
  | some aid =>
    let t := s.th aid
    if (o.first && !t.outst.isEmpty) || t.isOut (.p o.h.grd) || !t.guardHolds o.h ||
        (s.opExc aid s.cur.2 o).isSome || s.mustWait aid o || !s.roomFor aid o.wr || (s.pushFaults aid o.wr).isSome ||
        t.outst.any (fun x => x.seq == t.seq) then none
    else
      match s.prefetch aid [] o.srcs with
      | .ok _ s0 =>
        match s0.sources aid o.rd with
        | .got vs us s1 =>
          some ⟨s0, s1, s.cur.1, s.cur.2, aid, t.pc, t.pc + BitVec.ofNat 64 o.len, vs, { s0.save aid with undo := us }⟩
        | _ => none
      | _ => none

/-- The state once the operations that an instruction posted have performed as far as they may (R112, R119); none where one of
them raises. -/
def Cx.posted (c : Cx) (s : State) : Option State :=
  match s.runPosts c.aid (c.s0.th c.aid).seq 64 with
  | .ok s1 => some s1
  | .error _ => none

/-- The same for what is left of the instruction once an operation of it has performed: what its forwarding pops push on (R105). -/
def Cx.later (c : Cx) (s : State) : Option State :=
  match s.runPosts c.aid (c.s0.th c.aid).seq 63 with
  | .ok s1 => some s1
  | .error _ => none

/-- Names of instructions whose registers no port is bound to. -/
def State.unbound (s : State) (aid : Nat) (ns : List Nm) : Bool := ns.all (fun n => (s.boundTo aid n).isNone)

/-- An operation that the instruction would post now, after effect `s`, may perform at once (R119). -/
def Cx.now (c : Cx) (s : State) (op : JOp) : Bool :=
  (c.send s op).canGo c.aid (s.th c.aid).seq (s.nextSub c.aid) (.post op)

/-! ### Ways to end -/

/-- Whenever the instruction issues and `p` holds of what it works with, it completes: its effect is `f`, what it posted has
performed as far as it may, and its thread goes on at the next instruction. -/
def Completes (i : Instr) (o : Op) (p : Cx → Bool) (f : Cx → State) : Prop :=
  ∀ s c, s.takes o = some c → p c = true → ∃ t, c.posted (f c) = some t ∧ exec i s = .next (t.finish c.aid c.npc o.h.sw)

/-- The same with the result `v` that `f` takes known by what it satisfies. -/
def YieldsIf {α : Type} (i : Instr) (o : Op) (p : Cx → Bool) (q : Cx → α → Prop) (f : Cx → α → State) : Prop :=
  ∀ s c, s.takes o = some c → p c = true →
    ∃ v t, q c v ∧ c.posted (f c v) = some t ∧ exec i s = .next (t.finish c.aid c.npc o.h.sw)

/-- The same without a condition. -/
def Yields {α : Type} (i : Instr) (o : Op) (q : Cx → α → Prop) (f : Cx → α → State) : Prop :=
  YieldsIf i o (fun _ => true) q f

/-- Whenever the instruction issues and `p` holds, it completes with effect `f`, and its thread goes on at a target. -/
def Jumps (i : Instr) (o : Op) (p : Cx → Bool) (pc : Cx → Dword) (f : Cx → State) : Prop :=
  ∀ s c, s.takes o = some c → p c = true → ∃ t, c.posted (f c) = some t ∧ exec i s = .next (t.finish c.aid (pc c) o.h.sw)

/-- Whenever the instruction issues and `p` holds, the state after it is `f`, its thread's place included. -/
def Leaves (i : Instr) (o : Op) (p : Cx → Bool) (f : Cx → State) : Prop :=
  ∀ s c, s.takes o = some c → p c = true → exec i s = .next (f c)

/-- An instruction posts one operation after its effect `f`, and its thread goes on at the next instruction. -/
def Cx.sendsOne (c : Cx) (i : Instr) (sw : Bool) (s f : State) (op : JOp) (q : State → Prop) : Prop :=
  (c.now f op = true → ∃ u t, q u ∧ c.later u = some t ∧ exec i s = .next (t.finish c.aid c.npc sw)) ∧
    (c.now f op = false → exec i s = .next ((c.send f op).finish c.aid c.npc sw))

/-- Whenever the instruction issues and `p` holds, it posts an operation after its effect `f`, and its thread goes on at the next
instruction: where R119 lets the operation perform at once it has, which left the state as `q` says, and after it what forwarding pops of
the instruction push on; else it waits in the pending set (R112). -/
def Sends (i : Instr) (o : Op) (p : Cx → Bool) (f : Cx → State) (op : Cx → JOp) (q : Cx → State → Prop) : Prop :=
  ∀ s c, s.takes o = some c → p c = true → c.sendsOne i o.h.sw s (f c) (op c) (q c)

/-- Whenever the instruction issues, `p` holds and the journal has the entries free, it posts the operations as journal entries, in
their order, and its thread goes on (R121); what forwarding pops push on may perform once they are acknowledged, or at once where there
are none (R119). -/
def Entries (i : Instr) (o : Op) (p : Cx → Bool) (f : Cx → State) (ops : Cx → List JOp) : Prop :=
  ∀ s c, s.takes o = some c → p c = true → (ops c).length ≤ (f c).journalFree c.core →
    ∃ t, c.posted ((f c).postEnts c.core (((List.range (ops c).length).zip (ops c)).map (fun e =>
      ⟨c.num, c.aid, c.t.seq, (f c).nextSub c.aid + e.1, c.pc, e.2, .waiting, none⟩))) = some t ∧
      exec i s = .next (t.finish c.aid c.npc o.h.sw)

/-- Whenever the instruction issues and `p` holds, it joins the outstanding set of its thread with what it is to do and the names
that it is to write, and its thread goes on (R52). -/
def Joins (i : Instr) (o : Op) (p : Cx → Bool) (f : Cx → State) (op : Cx → LongOp) (ns : List Nm) : Prop :=
  Completes i o p (fun c => (f c).modTh c.aid (fun t => { t with outst := t.outst ++ [c.outst (op c) ns] }))

/-- Whenever the instruction issues and `p` holds, it raises a precise exception, and none of its effects remains but elements that the
stream unit has read ahead (R34, R40, R102). -/
def Raises (i : Instr) (o : Op) (p : Cx → Bool) (e : Cx → Exc) : Prop :=
  ∀ s c, s.takes o = some c → p c = true → exec i s = .next (c.s0.raise c.aid (e c) c.npc)

/-- A state in which an instruction issues with `p`. -/
def State.meets (s : State) (o : Op) (p : Cx → Bool) : Bool :=
  match s.takes o with
  | some c => p c
  | none => false

/-- No condition. -/
def always (_ : Cx) : Bool := true

end Sys2Proof.Machine
end

