-- ==== Sys2Proof/Certificates/Slice0/Obligations.lean ====
section
/-!
DEFINITION. The statements for the provers. They follow the rules of the manual; each docstring names the rules, and a model's
choice with its log entry. `State.takes`, `Completes` and their like (Safety.lean) say when an instruction issues.
-/

namespace Sys2Proof.Machine

/-! ### Shapes of instructions that several statements name -/

/-- Names of an instruction S[D] ← f(S[A], S[B]). -/
def opSSS (h : Hdr) (d a b : SReg) : Op := { h := h, rd := [.s a, .s b], wr := [.s d] }
/-- Names of an instruction S[D] ← f(S[A]). -/
def opSS (h : Hdr) (d a : SReg) : Op := { h := h, rd := [.s a], wr := [.s d] }
/-- Names of a shift (R174). -/
def opShift (h : Hdr) (d a : SReg) (n : Amt) : Op := { h := h, rd := .s a :: amtNames n, wr := [.s d] }
/-- Names of a vector instruction on vectors `rd` (R238). -/
def vecOp (h : Hdr) (rd : List Nm) (d : VReg) (mk : MReg) : Op := { h := h, rd := rd, wr := [.v d], masks := [mk] }
/-- An instruction with one scalar source and nothing more. -/
def opA (h : Hdr) (a : SReg) : Op := { h := h, rd := [.s a] }

end Sys2Proof.Machine

open Sys2Proof Sys2Proof.Machine

/-! ### Scalar instructions (R152, R169 to R184) -/

/-- R152, R233: NOP in its three lengths and PREF have no effect: nothing but the program counter of the thread moves on. -/
def Obligations.NoEffectInstructions : Prop :=
  (∀ h, Completes (.nop h) { h := h } always (·.s)) ∧
  (∀ h, Completes (.nop96 h) { h := h, len := 12 } always (·.s)) ∧
  (∀ h, Completes (.nop128 h) { h := h, len := 16 } always (·.s)) ∧
  (∀ h m sl, Completes (.pref h m sl) { h := h, len := memLen m, rd := memNames m } always (·.s))

/-- R170 to R173: what the instructions of two scalar sources write to S[D]. -/
def Obligations.ScalarTwoOperandResults : Prop :=
  ∀ (h : Hdr) (d a b : SReg) (u : Bool),
    let r (f : Dword → Dword → Dword) (c : Cx) : State := c.setS d (f (c.x 0) (c.x 1))
    Completes (.add h d a b) (opSSS h d a b) always (r (fun x y => x + y)) ∧
    Completes (.sub h d a b) (opSSS h d a b) always (r (fun x y => x - y)) ∧
    Completes (.mul h d a b) (opSSS h d a b) always (r (fun x y => x * y)) ∧
    Completes (.mulh h u d a b) (opSSS h d a b) always (r (fun x y =>
      if u then ((x.setWidth 128 * y.setWidth 128) >>> 64).setWidth 64
      else ((x.signExtend 128 * y.signExtend 128) >>> 64).setWidth 64)) ∧
    Completes (.div h u d a b) (opSSS h d a b) always (r (fun x y =>
      if y = 0 then BitVec.allOnes 64 else if u then x / y else x.sdiv y)) ∧
    Completes (.rem h u d a b) (opSSS h d a b) always (r (fun x y =>
      if y = 0 then x else if u then x % y else x.srem y)) ∧
    Completes (.and h d a b) (opSSS h d a b) always (r (fun x y => x &&& y)) ∧
    Completes (.or h d a b) (opSSS h d a b) always (r (fun x y => x ||| y)) ∧
    Completes (.xor h d a b) (opSSS h d a b) always (r (fun x y => x ^^^ y)) ∧
    Completes (.andn h d a b) (opSSS h d a b) always (r (fun x y => x &&& ~~~y)) ∧
    Completes (.orn h d a b) (opSSS h d a b) always (r (fun x y => x ||| ~~~y)) ∧
    Completes (.min h u d a b) (opSSS h d a b) always (r (fun x y =>
      if (if u then x.ule y else x.sle y) then x else y)) ∧
    Completes (.max h u d a b) (opSSS h d a b) always (r (fun x y =>
      if (if u then x.ule y else x.sle y) then y else x))

/-- R170, R172, R174, R177 to R179: moves, selection, shifts, addresses and the hash. A rotation by n takes bit (i − n) mod 64
to bit i, or bit (i + n) mod 64 with .r. -/
def Obligations.ScalarMoveShiftAndHashResults : Prop :=
  ∀ (h : Hdr) (d a b : SReg) (n : Amt),
    let amt (c : Cx) : Nat := match n with
      | .reg _ => (c.x 1).toNat % 64
      | .imm k => k.toNat
    (∀ m, Completes (.addi h d a m) (opSS h d a) always (fun c => c.setS d (c.x 0 + m.signExtend 64))) ∧
    Completes (.abs h d a) (opSS h d a) always (fun c => c.setS d (if (c.x 0).slt 0 then -(c.x 0) else c.x 0)) ∧
    Completes (.mov h d a) (opSS h d a) always (fun c => c.setS d (c.x 0)) ∧
    (∀ m, Completes (.movi h d m) { h := h, wr := [.s d] } always (fun c => c.setS d (m.signExtend 64))) ∧
    (∀ sx m, Completes (.movwF96 h sx d m) { h := h, len := 12, wr := [.s d] } always
      (fun c => c.setS d (if sx then m.signExtend 64 else m.setWidth 64))) ∧
    (∀ m, Completes (.movwF128 h d m) { h := h, len := 16, wr := [.s d] } always (fun c => c.setS d m)) ∧
    (∀ p, Completes (.sel h d a b p) { h := h, rd := [.s a, .s b], own := [.p p], wr := [.s d] } always
      (fun c => c.setS d (if c.t.rP p then c.x 0 else c.x 1))) ∧
    Completes (.shl h d a n) (opShift h d a n) always (fun c => c.setS d (c.x 0 <<< amt c)) ∧
    Completes (.shr h d a n) (opShift h d a n) always (fun c => c.setS d (c.x 0 >>> amt c)) ∧
    Completes (.sar h d a n) (opShift h d a n) always (fun c => c.setS d ((c.x 0).sshiftRight (amt c))) ∧
    (∀ r, Yields (.rot h r d a n) (opShift h d a n)
      (fun c (v : Dword) => ∀ i < 64, v.getLsbD i = (c.x 0).getLsbD ((if r then i + amt c else i + 64 - amt c) % 64))
      (fun c v => c.setS d v)) ∧
    (∀ m, Completes (.lea h d m) { h := h, len := memLen m, rd := memNames m, wr := [.s d] } always
      (fun c => c.setS d (c.ea m 0))) ∧
    Completes (.hash h d a b) (opSSS h d a b) always (fun c => c.setS d (hash64 (c.x 0) (c.x 1)))

/-- R175, R176: counts, reversals and bit fields, each by what it does to the bits. A field that reaches past bit 63 is cut
there. -/
def Obligations.ScalarBitOperationResults : Prop :=
  ∀ (h : Hdr) (d a : SReg) (lo w1 : BitVec 6),
    let top := Nat.min (lo.toNat + w1.toNat) 63
    Yields (.clz h d a) (opSS h d a) (fun c (v : Dword) =>
      v.toNat ≤ 64 ∧ (∀ i < v.toNat, (c.x 0).getLsbD (63 - i) = false) ∧
        (v.toNat < 64 → (c.x 0).getLsbD (63 - v.toNat) = true)) (fun c v => c.setS d v) ∧
    Yields (.ctz h d a) (opSS h d a) (fun c (v : Dword) =>
      v.toNat ≤ 64 ∧ (∀ i < v.toNat, (c.x 0).getLsbD i = false) ∧
        (v.toNat < 64 → (c.x 0).getLsbD v.toNat = true)) (fun c v => c.setS d v) ∧
    Yields (.popc h d a) (opSS h d a) (fun c (v : Dword) =>
      v.toNat = ((List.range 64).map (fun i => ((c.x 0).getLsbD i).toNat)).sum) (fun c v => c.setS d v) ∧
    Yields (.brev h d a) (opSS h d a) (fun c (v : Dword) =>
      ∀ i < 64, v.getLsbD i = (c.x 0).getLsbD (63 - i)) (fun c v => c.setS d v) ∧
    Yields (.bswap h d a) (opSS h d a) (fun c (v : Dword) =>
      ∀ i < 64, v.getLsbD i = (c.x 0).getLsbD (8 * (7 - i / 8) + i % 8)) (fun c v => c.setS d v) ∧
    (∀ sgn, Yields (.ext h sgn d a lo w1) (opSS h d a) (fun c (v : Dword) =>
      ∀ i < 64, v.getLsbD i =
        if lo.toNat + i ≤ top then (c.x 0).getLsbD (lo.toNat + i) else sgn && (c.x 0).getLsbD top) (fun c v => c.setS d v)) ∧
    Yields (.ins h d a lo w1) { h := h, rd := [.s a, .s d], wr := [.s d] } (fun c (v : Dword) =>
      ∀ i < 64, v.getLsbD i =
        if lo.toNat ≤ i ∧ i ≤ top then (c.x 0).getLsbD (i - lo.toNat) else (c.x 1).getLsbD i) (fun c v => c.setS d v)

/-- R180 to R182, R39: compares and predicate instructions write one predicate, and a write to p0 is ignored; PRD reads the
predicate word with bit 0 as 1, and PWR replaces every predicate but p0. -/
def Obligations.PredicateResults : Prop :=
  ∀ (h : Hdr) (p q r : PReg) (a b : SReg) (ia ib : Bool),
    let cond (k : Cond) (x y : Dword) : Bool := match k with
      | .eq => x == y | .ne => x != y
      | .lt => x.slt y | .ltu => x.ult y | .le => x.sle y | .leu => x.ule y
      | .gt => y.slt x | .gtu => y.ult x | .ge => y.sle x | .geu => y.ule x
    let put (f : Cx → Bool) (c : Cx) : State := c.s.modTh c.aid (fun t => t.wP p (f c))
    (∀ k, Completes (.cmp h k p a b) { h := h, rd := [.s a, .s b], wr := [.p p] } always
      (put (fun c => cond k (c.x 0) (c.x 1)))) ∧
    (∀ k m, Completes (.cmpi h k p a m) { h := h, rd := [.s a], wr := [.p p] } always
      (put (fun c => cond k (c.x 0) (m.signExtend 64)))) ∧
    Completes (.pand h ia ib p q r) { h := h, own := [.p q, .p r], wr := [.p p] } always
      (put (fun c => (c.t.rP q ^^ ia) && (c.t.rP r ^^ ib))) ∧
    Completes (.por h ia ib p q r) { h := h, own := [.p q, .p r], wr := [.p p] } always
      (put (fun c => (c.t.rP q ^^ ia) || (c.t.rP r ^^ ib))) ∧
    Completes (.pxor h ia ib p q r) { h := h, own := [.p q, .p r], wr := [.p p] } always
      (put (fun c => (c.t.rP q ^^ ia) ^^ (c.t.rP r ^^ ib))) ∧
    Completes (.pnot h p q) { h := h, own := [.p q], wr := [.p p] } always (put (fun c => !c.t.rP q)) ∧
    Completes (.prd h a) { h := h, own := allPreds, wr := [.s a] } always
      (fun c => c.setS a ((c.t.regs.p ||| 1).setWidth 64)) ∧
    Completes (.pwr h a) { h := h, rd := [.s a], own := allPreds } always
      (fun c => c.s.modTh c.aid (fun t => { t with regs := { t.regs with p := (c.x 0).setWidth 32 ||| 1 } })) ∧
    (∀ (t : Thread) (x : Bool) (n : PReg), (t.wP p x).rP n = if n = p ∧ p ≠ 0 then x else t.rP n)

/-- R183, R184, R45 to R49: MFU and MTU at every register that the manual describes. MFU of the core, slot and thread numbers,
of `fstat`, `fctl`, `mstat`, `pos`, `segsel` and the segment fields; MTU of `fstat` clears the flags written as 1, MTU of
`fctl` replaces the rounding mode and the generator's state and refuses modes 5 to 7, MTU of `segsel` selects a set of the
launch. That a reading of `cyc` adds a free value to the register of the core is the model's choice (DESIGN CHOICE, log 11). -/
def Obligations.UserRegisterResults : Prop :=
  ∀ (h : Hdr) (d a : SReg) (num : BitVec 12),
    let rdOp : Op := { h := h, wr := [.s d], first := isFlagReg num }
    let wrOp : Op := { h := h, rd := [.s a], first := isFlagReg num }
    let quiet (c : Cx) : Bool := !(isFlagReg num && c.s.flagsPending c.aid)
    let mfu (n : BitVec 12) (p : Cx → Bool) (v : Cx → Dword) : Prop :=
      num = n → Completes (.mfu h d num) rdOp (fun c => quiet c && p c) (fun c => c.setS d (v c))
    mfu 0x000 always (fun c => BitVec.ofNat 64 (c.s.place c.t)) ∧
    mfu 0x001 always (fun c => BitVec.ofNat 64 c.slot) ∧
    mfu 0x002 always (fun c => BitVec.ofNat 64 (16 * c.s.place c.t + c.slot)) ∧
    mfu 0x010 always (fun c => c.t.regs.fstat.setWidth 64) ∧
    mfu 0x011 always (fun c => BitVec.ofNat 64 (c.t.regs.seed.toNat * 2 ^ 32 + c.t.regs.rm.toNat)) ∧
    mfu 0x012 (fun c => c.t.kind != .light) (fun c => BitVec.ofNat 64 (c.t.regs.ovwc.toNat * 2 ^ 32 + c.t.regs.nanc.toNat)) ∧
    mfu 0x014 always (fun c => if c.t.kind = .light then c.t.pos else 0) ∧
    mfu 0x015 always (fun c => if c.t.kind = .light then c.t.regs.segsel.setWidth 64 else 0) ∧
    (∀ g < 8,
      mfu (BitVec.ofNat 12 (0x020 + g)) always (fun c => (c.s.seg c.t (BitVec.ofNat 3 g)).base) ∧
      mfu (BitVec.ofNat 12 (0x028 + g)) always (fun c => (c.s.seg c.t (BitVec.ofNat 3 g)).limit) ∧
      mfu (BitVec.ofNat 12 (0x030 + g)) always (fun c => (c.s.seg c.t (BitVec.ofNat 3 g)).rts.setWidth 64)) ∧
    (∀ n, n = num.toNat → 3 ≤ n → n ≤ 10 → Completes (.mfu h d num) rdOp (fun c => (c.s.launchOf c.t).isSome)
      (fun c => c.setS d (match c.s.launchOf c.t with
        | some l =>
          let x := cxOf (clusterOf c.core) - l.ox
          BitVec.ofNat 64 (match n with
            | 3 => x
            | 4 => cyOf (clusterOf c.core) - l.oy
            | 5 => c.core % 4
            | 6 => stageOf l.stages x 0
            | 7 => l.w
            | 8 => l.ph
            | 9 => l.stages.length
            | _ => heavyOf l.pw)
        | none => 0))) ∧
    (num = 0x013 → Yields (.mfu h d num) rdOp (fun c (v : Dword) => ∃ x, v = (c.s.core c.num).cyc + x)
      (fun c v => ({ c.s with free := c.s.free + 1 }.modCore c.num (fun k => { k with cyc := v })).wrS c.aid d v)) ∧
    (num = 0x010 → Completes (.mtu h num a) wrOp (fun c => quiet c && (c.x 0).ult 64)
      (fun c => c.s.modTh c.aid (fun t => { t with regs := { t.regs with fstat := t.regs.fstat &&& ~~~((c.x 0).setWidth 6) } }))) ∧
    (num = 0x010 → Raises (.mtu h num a) wrOp (fun c => quiet c && !(c.x 0).ult 64) (fun _ => { cause := 3 })) ∧
    (num = 0x011 → Completes (.mtu h num a) wrOp (fun c => quiet c && decide ((c.x 0).toNat % 8 < 5))
      (fun c => c.s.modTh c.aid (fun t =>
        { t with regs := { t.regs with rm := (c.x 0).setWidth 3, seed := ((c.x 0) >>> 32).setWidth 32 } }))) ∧
    (num = 0x011 → Raises (.mtu h num a) wrOp (fun c => quiet c && decide (5 ≤ (c.x 0).toNat % 8)) (fun _ => { cause := 11 })) ∧
    (num = 0x015 → Completes (.mtu h num a) wrOp
      (fun c => c.t.kind == .light && (match c.s.launch? c.t.ltag with
        | some l => decide ((c.x 0).toNat < l.sets.length)
        | none => false))
      (fun c => c.s.modTh c.aid (fun t => { t with regs := { t.regs with segsel := (c.x 0).setWidth 2 } })))

/-! ### Control flow (R186, R187) -/

/-- R186, R187: relative transfers go to pc + sext(OFF34) × 4, the link is pc + 8, LOOP counts down and branches while the
counter is not zero; a transfer to a register's address goes there when it is aligned to 4, and else raises alignment with
the target as ADDR (the ADDR is DEDUCED, log 27). CALLR reads its target before it writes the link. -/
def Obligations.TransfersOfControl : Prop :=
  ∀ (h : Hdr) (d a : SReg) (off : BitVec 34),
    let rel (c : Cx) : Dword := c.pc + off.signExtend 64 * 4
    let al (c : Cx) : Bool := decide ((c.x 0).toNat % 4 = 0)
    let mis (c : Cx) : Bool := !al c
    let bad (c : Cx) : Exc := { cause := 12, addr := c.x 0 }
    Jumps (.br h off) { h := h } always rel (·.s) ∧
    Jumps (.call h d off) { h := h, wr := [.s d] } always rel (fun c => c.setS d (c.pc + 8)) ∧
    Jumps (.loop h a off) { h := h, rd := [.s a], wr := [.s a] } (fun c => c.x 0 != 1) rel (fun c => c.setS a (c.x 0 - 1)) ∧
    Completes (.loop h a off) { h := h, rd := [.s a], wr := [.s a] } (fun c => c.x 0 == 1) (fun c => c.setS a 0) ∧
    Jumps (.brr h a) (opA h a) al (·.x 0) (·.s) ∧ Raises (.brr h a) (opA h a) mis bad ∧
    Jumps (.ret h a) (opA h a) al (·.x 0) (·.s) ∧ Raises (.ret h a) (opA h a) mis bad ∧
    Jumps (.callr h d a) (opSS h d a) al (·.x 0) (fun c => c.setS d (c.pc + 8)) ∧
    Raises (.callr h d a) (opSS h d a) mis bad

/-! ### Tasks, messages, events (R189 to R205) -/

/-- R198, R200 to R203, R205: CALLAT and SEND send their task or message to a core of the panel as a release: when it performs it
is in flight behind every earlier one. A cell of CALLAT lies in the issuer's own scratchpad and is empty from the instruction's issue on.
TASKQ gives a new handle for the task that it posts, by the next index that no live task has (log 5), which joins the queue when it
performs, and after the cancel bit answers all ones. TASKQ.dec on the issuing core decrements the join count of a task that has one left;
one of another core goes into the journal. -/
def Obligations.MessagesAndTasks : Prop :=
  (∀ (h : Hdr) (d a b e : SReg) (v : VReg) (n : BitVec 16) (nr : Bool),
    let aligned (c : Cx) : Bool := decide ((c.x 0).toNat % 4 = 0)
    let inPanel (c : Cx) : Bool := c.s.inPanel c.t.ltag (c.x 1).toNat
    let call (ks : List Contrib) (c : Cx) : Traffic := .task
      { entry := c.x 0, args := [c.x 2, c.x 3, c.x 4, c.x 5], s4 := if nr then 0 else reportAddr c.core (c.x 6)
        waitM := 0, setM := 0, seed := c.t.regs.seed, rm := c.t.regs.rm, count := 0, index := 0, num := 0, ready := none
        ltag := c.t.ltag, sender := BitVec.ofNat 32 (c.s.tid c.t), rel := ks }
    let msg (ks : List Contrib) (c : Cx) : Traffic :=
      .message ⟨c.x 0, [c.x 2, c.x 3, c.x 4, c.x 5], BitVec.ofNat 32 (c.s.tid c.t), c.t.ltag, ks⟩
    let cell (c : Cx) : Nat := (windowOf c.core (c.x 6)).2 / 16
    let sent (f : List Contrib → Cx → Traffic) (c : Cx) (t : State) : Prop :=
      t.flows = c.s.flows ++ [⟨c.t.core, c.aid, c.t.ltag, (c.x 1).toNat, f [c.s.contrib c.ag .pkg] c⟩]
    let task (c : Cx) : Task :=
      { entry := c.x 0, args := [c.x 2, c.x 3, c.x 4, c.x 5], s4 := 0, waitM := (c.v 1).setWidth 256
        setM := ((c.v 1) >>> 256).setWidth 256, seed := c.t.regs.seed, rm := c.t.regs.rm, count := n
        index := c.s.freeIndex c.core, num := 0, ready := none, ltag := c.t.ltag, sender := BitVec.ofNat 32 (c.s.tid c.t), rel := [] }
    let tq : Op := { h := h, len := 16, rd := [.s a, .v v] ++ quad e, wr := [.s d], mem := true }
    let off (c : Cx) : Bool := (c.s.core c.core).seen && c.t.kind != .super
    let caOp : Op := { h := h, len := 16, rd := [.s a, .s b] ++ quad e ++ (if nr then [] else [.s d]), mem := true }
    (nr = true → Sends (.callat h d a b e nr) caOp (fun c => aligned c && inPanel c) (·.s)
      (fun c => .send (c.x 1).toNat (call [] c) none) (sent call)) ∧
    (nr = false → ∀ s c, s.takes caOp = some c → aligned c = true → inPanel c = true → (c.x 6).toNat % 16 = 0 →
      c.s.isOwn c.t (c.x 6) = true → c.s.ownOk c.t (c.x 6) 16 = true →
      let full := c.s.isFull c.core (cell c)
      let s1 := if full then (c.s.record c.aid c.t.seq (.full (cell c))).setFull c.core (cell c) false else c.s
      let back : Saved := if full then { c.saved with undo := .full (cell c) :: c.saved.undo } else c.saved
      s1.isFull c.core (cell c) = false ∧
        ({ c with saved := back } : Cx).sendsOne (.callat h d a b e nr) h.sw s s1
          (.send (c.x 1).toNat (call [] c) (if c.s.wordBusy c.aid (c.x 6) 16 then some (cell c) else none))
          (fun t => sent call c t ∧ t.isFull c.t.core (cell c) = false)) ∧
    Sends (.send h a b e) { h := h, len := 16, rd := [.s a, .s b] ++ quad e, mem := true }
      (fun c => aligned c && inPanel c) (·.s) (fun c => .send (c.x 1).toNat (msg [] c) none) (sent msg) ∧
    Completes (.taskq h d a v e n) tq (fun c => aligned c && off c) (fun c => c.setS d (BitVec.allOnes 64)) ∧
    Completes (.taskq h d a v e n) tq
      (fun c => aligned c && !off c && (match c.s.pushTask c.core (task c) with
        | .ok _ => true
        | .error _ => false))
      (fun c => (c.send (c.s.modCore c.core (fun k => { k with taskIx := (c.s.freeIndex c.core + 1) % 65536 })) (.task (task c))).wrS
        c.aid d (BitVec.ofNat 64 (c.core * 65536 + c.s.freeIndex c.core))) ∧
    Sends (.taskqDec h a) { h := h, len := 16, rd := [.s a], mem := true }
      (fun c => c.s.inPanel c.t.ltag ((c.x 0).toNat / 65536) && decide ((c.x 0).toNat / 65536 = c.core) &&
        (c.s.taskDec c.t.core ((c.x 0).toNat % 65536) []).isSome) (·.s) (fun c => .taskOwn (c.x 0))
      (fun c t => ∃ s1, (c.send c.s (.taskOwn (c.x 0))).taskDec c.t.core ((c.x 0).toNat % 65536)
        (c.s.contrib c.ag .pkg :: c.t.fences) = some s1 ∧ t.cores = s1.cores ∧ t.mem = s1.mem) ∧
    Entries (.taskqDec h a) { h := h, len := 16, rd := [.s a], mem := true }
      (fun c => c.s.inPanel c.t.ltag ((c.x 0).toNat / 65536) && decide ((c.x 0).toNat / 65536 ≠ c.core)) (·.s)
      (fun c => [.taskDec (c.x 0)])) ∧
  (∀ (s s1 : State) (aid q : Nat) (x : Task), (s.core (s.th aid).core).seen = false →
    s.pushTask (s.th aid).core { x with num := s.order } = .ok s1 →
    s.postVal aid q (.task x) = .ok ⟨[], 0⟩ { s1 with order := s1.order + 1 })

/-- R189, R190, R193, R196, R201: SPAWN counts the counter up and makes a child, in which S[D] is 0. From a heavy thread the child goes
to the deque and S[D] is 1; from a light one the child takes the slot with the vectors, and its parent goes to the deque with S[D] = 1.
EXIT ends its thread, after its reply when it has one; an EXIT with a counter in the issuer's own scratchpad counts it down first, and with
a counter elsewhere it posts the subtract and waits for its acknowledgement. YIELD sends a light thread to the run queue. -/
def Obligations.SpawnExitAndYield : Prop :=
  ∀ (h : Hdr) (d a b e : SReg) (off : BitVec 34),
    let spOp : Op := { h := h, rd := [.s a], wr := [.s d], first := true, mem := true }
    let exOp (rd : List Nm) : Op := { h := h, rd := rd, blk := true, first := true, mem := true }
    let yOp : Op := { h := h, noHandler := true, blk := true, first := true, mem := true }
    let quiet (c : Cx) : Bool := c.s.journalClear c.aid && c.t.traps.isEmpty
    let target (c : Cx) : Dword := c.pc + off.signExtend 64 * 4
    let ended (c : Cx) (u : State) (r : Option (Nat × Nat × Dword)) : State := match r with
      | some (k, o, x) =>
        ((u.endRegion c.ag).sendMsg (u.th c.aid).core c.aid (u.th c.aid).ltag k
          (.reply o x [u.contrib c.ag .pkg] c.aid (u.region c.ag))).endThread c.aid true
      | none => u.endThread c.aid true
    let counted (i : Instr) (rd : List Nm) (ok : Cx → Prop) (r : Cx → Option (Nat × Nat × Dword)) : Prop :=
      ∀ s c, s.takes (exOp rd) = some c → quiet c = true → ok c → c.s.chkSeg c.t 0 (c.x 0) 8 8 false true = none →
        (c.s.isOwn c.t (c.x 0) = true → c.s.chkSp c.t (c.x 0) 8 = none →
          ∀ p s1 v s2, c.s.placeFor c.aid (c.x 0) 8 .both true = .ok p s1 → s1.val p 8 ≠ 0 →
            s1.atomUpdate c.aid true false .pkg p 8 (fun v => some (v - 1)) = .ok (v, s2) →
          exec i s = .next (ended c ({ c with s := s2 } : Cx).left (r c))) ∧
        (c.s.isOwn c.t (c.x 0) = false → 1 ≤ c.s.journalFree c.core →
          ∃ s2, s2 = (c.s.postEnts c.core [⟨c.num, c.aid, c.t.seq, c.s.nextSub c.aid, c.pc, .dec (c.x 0), .waiting, none⟩]).modTh
            c.aid (fun t =>
              { t with wait := some ⟨.exiting (r c), 0, c.npc, none, none⟩, seq := t.seq + 1, parked := false, pnpc := c.npc }) ∧
          exec i s = .next (if c.t.kind = .light then s2.leaveSlot c.aid .blocked else s2))
    let reply (j : Nat) (c : Cx) : Option (Nat × Nat × Dword) := (c.replyCell (c.x (j + 1))).map (fun e => (e.1, e.2, c.x j))
    Completes (.spawn h d a off) spOp (fun c => (c.s.core c.core).seen && c.t.kind != .super)
      (fun c => c.setS d (BitVec.allOnes 64)) ∧
    (∀ s c, s.takes spOp = some c → (c.s.core c.core).seen = false → c.relReady = true →
      ∀ p s1 v s2, c.counter (c.x 0) .both = .ok p s1 →
        s1.atomUpdate c.aid false false .pkg p 8 (fun v => some (v + 1)) = .ok (v, s2) →
      let ks := [s2.contrib c.ag .pkg]
      let child := childOf c.t c.core (if c.t.kind = .light then c.slot else 0) (target c) d ks
      child.rS d = 0 ∧
      (c.t.kind ≠ .light → ∀ s4, (s2.endRegion c.ag).newThread child = s4 → ∀ s3, s4.2.pushDeque c.core s4.1 = .ok s3 →
        ∃ t, c.posted (s3.wrS c.aid d 1) = some t ∧ exec (.spawn h d a off) s = .next (t.finish c.aid c.npc h.sw)) ∧
      (c.t.kind = .light → ∀ s3, ((s2.endRegion c.ag).newThread
            { child with regs := { child.regs with v := c.t.regs.v }, marked := h.sw }) = s3 →
          ∀ s4, ((s3.2.leaveSlot c.aid .deque).modTh c.aid (fun t =>
            { (t.wS d 1) with pc := c.npc, seq := t.seq + 1, entering := false })).pushDeque c.core c.aid = .ok s4 →
        exec (.spawn h d a off) s = .next (((s4.setSlot c.core c.slot (some s3.1) .running).syncFrom (.thread s3.1) ks).modTh s3.1
          (fun t => { t with acq := [] })))) ∧
    Leaves (.exit h none) (exOp []) quiet (fun c => ended c c.left none) ∧
    counted (.exit h (some a)) [.s a] (fun _ => True) (fun _ => none) ∧
    Leaves (.exitRep h none b e) (exOp [.s b, .s e]) (fun c => quiet c && (reply 0 c).isSome) (fun c => ended c c.left (reply 0 c)) ∧
    counted (.exitRep h (some a) b e) [.s a, .s b, .s e] (fun c => (reply 1 c).isSome = true) (reply 1) ∧
    Completes (.yield h) yOp (fun c => c.t.kind != .light) (·.s) ∧
    (∀ s c, s.takes yOp = some c → c.t.kind = .light →
      ∀ s1, ((c.s.leaveSlot c.aid .runq).modTh c.aid (fun t =>
        { t with pc := c.npc, seq := t.seq + 1, entering := false })).pushRun c.core c.aid = .ok s1 →
      exec (.yield h) s = .next s1)

/-- R188, R191, R194, R195, R197, R215, R221, R301: an instruction that waits completes at once when its condition holds: it
takes the value and the state that the condition's object gives, and goes on at the next instruction. -/
def Obligations.WaitsWhoseConditionHolds : Prop :=
  ∀ (h : Hdr) (d a b : SReg) (n : BitVec 8) (m : MemOp) (sx : Bool) (sz : BitVec 2),
    let done (i : Instr) (o : Op) (p : Cx → State → Prop) (obj : Cx → WaitObj) (f : Cx → Dword → State → State) : Prop :=
      ∀ s c, s.takes o = some c → ∀ s1, p c s1 → ∀ v s2,
        ({ s1 with order := s1.order + 1 } : State).waitReady c.aid
          ⟨obj c, s1.order, c.npc, none, if c.t.kind = .light then none else some c.saved⟩ = some (v, s2) →
        (s2.th c.aid).pend = none →
        ∃ t, c.posted (f c v s2) = some t ∧ exec i s = .next (t.finish c.aid c.npc h.sw)
    let go (_ : Cx) (_ : Dword) (s : State) : State := s
    let here (c : Cx) (s1 : State) : Prop := s1 = c.s
    let ho : Op := { h := h, blk := true, first := true, mem := true }
    let wo : Op := { h := h, rd := [.s a], noHandler := true, blk := true, first := true, mem := true }
    let at_ (k n : Nat) (c : Cx) (o : Nat) (s1 : State) : Prop :=
      c.s.chkSeg c.t 0 (c.x 0) n n true false = none ∧ inWindow (c.x 0) = true ∧ c.s.wordBusy c.aid (c.x 0) n = false ∧
        c.s.placeFor c.aid (c.x 0) n .read false = .ok (.sp k o) s1
    done (.evwait h n) { h := h, noHandler := true, blk := true, first := true, mem := true } here
      (fun c => .event (clusterOf c.core) n.toNat) go ∧
    done (.hwaitFree h n) ho here (fun c => .handle (clusterOf c.core) n.toNat 0) go ∧
    done (.hwaitFull h n) ho here (fun c => .handle (clusterOf c.core) n.toNat 1) go ∧
    done (.hwaitTake h n) ho here (fun c => .handle (clusterOf c.core) n.toNat 2) go ∧
    (∀ p, done (.join h a) wo
      (fun c s1 => c.s.wordBusy c.aid (c.x 0) 8 = false ∧ c.counter (c.x 0) .read = .ok p s1) (fun c => .join p (c.x 0)) go) ∧
    (∀ k o, done (.waitFull h a) wo (fun c => at_ k 16 c o) (fun _ => .full k (o / 16)) go) ∧
    (∀ k o, done (.waitZero h a) wo (fun c => at_ k 8 c o) (fun _ => .zero (.sp k o)) go) ∧
    (∀ k o, done (.waitNe h d a b)
      { h := h, rd := [.s a, .s b], wr := [.s d], noHandler := true, blk := true, first := true, mem := true } (fun c => at_ k 8 c o)
      (fun c => .ne (.sp k o) (c.x 1) d) (fun c v s => s.wrS c.aid d v)) ∧
    (∀ (fec : Bool) k o, done (if fec then .ldFec h sx d m sz else .ldFe h sx d m sz)
      { h := h, len := memLen m, rd := memNames m, wr := [.s d], blk := true, first := true, mem := true }
      (fun c s1 =>
        let va := c.ea m 0
        let w := 2 ^ sz.toNat
        c.s.chkSeg c.t m.seg va w w true false = none ∧ inWindow va = true ∧ c.s.chkSp c.t va w = none ∧
          c.s.wordBusy c.aid va w = false ∧ c.s.placeFor c.aid va w .read false = .ok (.sp k o) s1 ∧
          s1.isFull k (o / 16) = true)
      (fun _ => .load k o (2 ^ sz.toNat) sx fec d)
      (fun c v s => s.wrS c.aid d ((extLoad sx (2 ^ sz.toNat) v.toNat).setWidth 64)))

/-- R197, R205: EVSET sets its bit as a release, EVCLR clears it with none, unless the fabric refuses a context that has moved the event
unit of the cluster that it left (R338, R379 to R383); CANCEL sets the launch's cancel bit and multicasts it
to every core of the panel, to the engines of its clusters and to its tier engines.
R205, R364: CANCEL_SEEN orders the bit of a cancelled launch at a core that it has reached, whose queued tasks and messages go;
CANCEL_MAILBOX_WRITE stores 1 to the mailbox of a CANCEL once every thread has ended, as a release of the mailbox. -/
def Obligations.EventsAndCancellation : Prop :=
  (∀ (h : Hdr) (a : SReg) (n : BitVec 8),
    let ev (c : Cx) (t : State) : BitVec 256 := (t.clu (clusterOf c.core)).event
    let box (c : Cx) : Met Place := c.counter (c.x 0) .write
    let at_ (c : Cx) : State := match box c with
      | .ok _ s1 => s1
      | _ => c.s
    let off (c : Cx) (s t : State) : Prop := ∀ l, s.launch? c.t.ltag = some l →
      (t.launch? c.t.ltag).map (·.cancel) = some true ∧
        t.flows = s.flows ++ (l.cores ++ ((l.cores.map clusterOf).eraseDups.map (1152 + ·)) ++ [1440]).map
          (fun k => ⟨c.t.core, c.aid, c.t.ltag, k, .cancel c.t.ltag c.t.core⟩)
    let up (c : Cx) : Bool := c.s.eventUp c.aid (clusterOf c.core)
    Sends (.evset h n) { h := h, mem := true } up (·.s) (fun c => .event (clusterOf c.core) n.toNat true)
      (fun c t => ev c t = ev c c.s ||| (1#256 <<< n.toNat) ∧
        t.objs = (c.s.release (.event (clusterOf c.core) n.toNat) [c.s.contrib c.ag .pkg]).objs) ∧
    Sends (.evclr h n) { h := h, mem := true } up (·.s) (fun c => .event (clusterOf c.core) n.toNat false)
      (fun c t => ev c t = ev c c.s &&& ~~~(1#256 <<< n.toNat) ∧ t.objs = c.s.objs) ∧
    (∀ set, Sends (if set then .evset h n else .evclr h n) { h := h, mem := true } (fun c => !up c) (·.s)
      (fun c => .event (clusterOf c.core) n.toNat set) (fun c t => ev c t = ev c c.s)) ∧
    Sends (.cancel h none) { h := h, mem := true } always (·.s) (fun _ => .cancel none) (fun c t => off c c.s t) ∧
    Sends (.cancel h (some a)) { h := h, rd := [.s a], mem := true }
      (fun c => match box c with
        | .ok _ _ => true
        | _ => false) at_ (fun c => .cancel (some (c.x 0))) (fun c t => off c (at_ c) t)) ∧
  (∀ (core n : Nat) (s : State), s.cancelFlow core = some n → exec (.cancelSeen core) s = .next (s.arriveFlow n)) ∧
  (∀ (core n : Nat) (s s1 : State) (f : Flow), s.nextFlow n = some f → f.tr = .cancel f.tag f.src → f.dst = core → core < 1152 →
    ({ s with flows := s.flows.eraseIdx n } : State).deliver f.src f.aid f.tag core f.tr = some s1 → s.arriveFlow n = s1) ∧
  (∀ (core aid src : Nat) (tag : BitVec 32) (s : State), s.takeIn core aid (.cancel tag src) = some (s.cancelAt core)) ∧
  (∀ (tag : Nat) (s s1 s2 : State) (l : Launch) (a : Dword) (aid : Nat) (p : Place),
    s.launch? (BitVec.ofNat 32 tag) = some l → s.cancelDone l = true → l.cbox = [(a, aid)] →
    (s.th aid).wait = none → (s.th aid).pend = none → s.placeFor aid a 8 .write true = .ok p s1 →
    s1.atomWrite aid true .pkg p (leBytes 8 1) = .ok s2 →
    exec (.cancelMailboxWrite tag) s = .next ((s2.boxRelease p [s1.contrib (.thread aid) .pkg]).modLaunch l.tag
      (fun l => { l with cbox := l.cbox.erase (a, aid) })))

/-! ### Exceptions (R206 to R213) -/

/-- R82, R206 to R209, R211: TRAPU raises cause 27 with its code; with nothing outstanding, H = 0, an installed entry and a frame
that is not busy, the user entry writes the frame (CAUSE with BUSY, PC, NPC, no address, s0), sets H and FIDX, puts the frame's
address into s0 and goes on at the installed entry. Flags that an EMBUPD has staged wait for it. -/
def Obligations.UserTrapEntersHandler : Prop :=
  ∀ (h : Hdr) (code : BitVec 16),
    Raises (.trapu h code) { h := h } always (fun _ => { cause := 27, code := code.setWidth 32 }) ∧
    (∀ (s0 : State) (aid : Nat) (npc : Dword) (p : Place) (s1 : State),
      let s := if (s0.th aid).stage = 0 then s0 else s0.modTh aid Thread.keepStage
      let t := s.th aid
      let f := frameAddr (s.core t.core).fb (s.tid t)
      let e : Exc := { cause := 27, code := code.setWidth 32 }
      t.outst = [] → t.kind ≠ .super → t.hh = false → (s.uxtEntry t.core 27).getLsbD 0 = true →
      (s.reachTh aid f 64 .both = (.mem p, s1) ∨ s.reachTh aid f 64 .both = (.host p, s1)) → s1.inPool p 64 = false →
      (s1.val p 8).testBit 31 = false →
      s0.raise aid e npc = (s1.framePut t.core p
          (leBytes 8 (code.toNat * 2 ^ 32 + 2 ^ 31 + 27) ++ leBytes 8 t.pc.toNat ++ leBytes 8 npc.toNat ++ leBytes 8 0 ++
            leBytes 8 0 ++ leBytes 8 0 ++ leBytes 8 0 ++ leBytes 8 (t.rS 0).toNat)).putTh aid
        { (t.wS 0 f) with
          hh := true, fidx := BitVec.ofNat 15 (s.tid t), pc := s.uxtEntry t.core 27 &&& ~~~(3#64), entering := true
          pend := none, marked := false, parked := false })

/-- R331, R333: an exception of a slot that goes to the supervisor is written to the slot's latch, armed, as a release; the
slot is held and its request joins the queue of slot 15 of its core. Slot 15 itself, with no entry in progress and its latch
not armed, is entered at once: `sipc` holds its pc when SIT was 0, SIT and EW are 1, `ssel` is 15, and it goes on at `stvec`. -/
def Obligations.SupervisorEntry : Prop :=
  (∀ (s : State) (aid : Nat) (e : Exc) (as rp : Bool) (pc npc : Dword),
    let t := s.th aid
    t.slot < 15 → ∃ s1,
      s1 = ((s.release (.latch t.core t.slot) [s.contrib (.thread aid) .pkg]).endRegion (.thread aid)).modCore t.core
        (fun k => { k with
          lat := vwr k.lat t.slot ⟨causeWord e true as rp, pc, npc, e.addr, e.data, e.iaddr, e.agent⟩
          sst := vwr k.sst t.slot .held }) ∧
      s.superEntry aid e as rp pc npc =
        s1.modCore (if t.kind = .super then t.core else s.phys t.core) (fun k => { k with reqs := k.reqs ++ [.slot t.slot] })) ∧
  (∀ (s : State) (core : Nat),
    let k := s.core core
    let s1 := s.takeRequest core 15
    (s1.core core).ssel = 15 ∧ (s1.core core).sit = true ∧ (s1.core core).ew = true ∧
      (s1.core core).sipc = (if k.sit then k.sipc else (s.th (superAid core 15)).pc) ∧
      (s1.th (superAid core 15)).pc = k.stvec) ∧
  (∀ (s : State) (aid : Nat) (e : Exc) (as rp : Bool) (pc npc : Dword),
    let t := s.th aid
    t.slot = 15 → ((s.core t.core).ew = true ∨ (s.latch t.core 15).armed = true) →
    vrd ((s.superEntry aid e as rp pc npc).core t.core).sst 15 = .frozen) ∧
  (∀ (s : State) (aid : Nat) (e : Exc) (as rp : Bool) (pc npc : Dword),
    let t := s.th aid
    t.slot = 15 → (s.core t.core).ew = false → (s.latch t.core 15).armed = false → ∃ s1,
      s1 = ((s.release (.latch t.core 15) [s.contrib (.thread aid) .pkg]).endRegion (.thread aid)).modCore t.core
        (fun k => { k with lat := vwr k.lat 15 ⟨causeWord e true as rp, pc, npc, e.addr, e.data, e.iaddr, e.agent⟩ }) ∧
      s.superEntry aid e as rp pc npc = s1.takeRequest t.core 15)

/-- R212: EXRET of a frame that the thread's handler holds, which is busy, restores s0 from it, clears BUSY and H, and goes on
at the frame's PC, its NPC or the register's target, which must be aligned. -/
def Obligations.ExceptionReturn : Prop :=
  ∀ (h : Hdr) (a b : SReg) (s s1 : State) (c : Cx) (p : Place) (i : Instr) (o : Op) (tg : Dword),
    ((i = .exretRetry h a ∧ o = { h := h, rd := [.s a], mem := true } ∧ tg = BitVec.ofNat 64 (s1.val (p.plus 8) 8)) ∨
     (i = .exretNext h a ∧ o = { h := h, rd := [.s a], mem := true } ∧ tg = BitVec.ofNat 64 (s1.val (p.plus 16) 8)) ∨
     (i = .exretTo h a b ∧ o = { h := h, rd := [.s a, .s b], mem := true } ∧ tg = c.x 1)) →
    s.takes o = some c → c.s.holdsFrame c.aid (c.x 0) = true → c.s.placeFor c.aid (c.x 0) 64 .both false = .ok p s1 →
    s1.memWf = true → (s1.val p 8).testBit 31 = true → tg.toNat % 4 = 0 →
    ∃ t, exec i s = .next t ∧ (t.th c.aid).pc = tg ∧ (t.th c.aid).hh = false ∧
      (t.th c.aid).rS 0 = BitVec.ofNat 64 (s1.val (p.plus 56) 8) ∧ (t.val p 8).testBit 31 = false

/-! ### Tacks (R214 to R216) -/

/-- R214 to R216: a TACK whose due entries, and revoked ones that it checks again, are all resident or released registers its
thread and becomes its last tack; a TACK that does not raise the last tack only registers; TACK.done ends the registration; TKSTAT
reads an entry's state and TKWAIT of an entry that is resident, released or failed goes on. -/
def Obligations.Tacks : Prop :=
  ∀ (h : Hdr) (d a : SReg) (x : Option SReg) (m : BitVec 28),
    let tk (c : Cx) : BitVec 32 := match x with
      | some _ => (c.x 0 + m.setWidth 64).setWidth 32
      | none => m.setWidth 32
    let tkOp : Op := { h := h, rd := optS x, blk := true, first := true, mem := true }
    (∀ s c, s.takes tkOp = some c → c.s.journalClear c.aid = true → c.t.lastTack < ((tk c).toNat : Int) →
      (∀ l, (c.s.tackStart c.aid).launch? c.t.ltag = some l →
        ((l.due c.t.lastTack (tk c).toNat) ++ l.lost c.t.lastTack).all (fun e => e.st == 2 || e.st == 3) = true) →
      ∃ t, exec (.tack h x m) s = .next t ∧ (t.th c.aid).ltack = some (tk c) ∧ (t.th c.aid).treg = true ∧
        (t.th c.aid).pc = c.npc) ∧
    Completes (.tack h x m) tkOp (fun c => c.s.journalClear c.aid && decide (((tk c).toNat : Int) ≤ c.t.lastTack))
      (fun c => (c.s.tackStart c.aid).releasePlan c.t.ltag) ∧
    Completes (.tackDone h) { h := h, first := true, mem := true } always
      (fun c => (c.s.modTh c.aid (fun t => { t with treg := false })).releasePlan c.t.ltag) ∧
    Completes (.tkstat h d a) (opSS h d a) always
      (fun c => c.setS d (BitVec.ofNat 64 (match c.s.planEnt? c.t.ltag.toNat ((c.x 0).toNat % 2 ^ 32) with
        | some e => e.st
        | none => 7))) ∧
    Completes (.tkstatProg h d) { h := h, wr := [.s d] } always
      (fun c => c.setS d (match c.s.progress c.t.ltag with
        | some x => BitVec.ofInt 64 x
        | none => BitVec.allOnes 64)) ∧
    (∀ (frame : Bool) s c, s.takes { h := h, rd := [.s a], noHandler := true, blk := true, first := true, mem := true } = some c →
      ∀ s1 id e, (if frame then ∃ p, c.s.holdsFrame c.aid (c.x 0) = true ∧
          c.s.placeFor c.aid (c.x 0) 64 .both false = .ok p s1 ∧ (s1.val p 8).testBit 31 = true ∧
          id = s1.val (p.plus 24) 8 % 2 ^ 32
        else s1 = c.s ∧ id = (c.x 0).toNat % 2 ^ 32) →
      s1.planEnt? c.t.ltag.toNat id = some e → 2 ≤ e.st → e.st ≤ 4 → (s1.th c.aid).pend = none →
      ∃ t, exec (if frame then .tkwaitFrame h a else .tkwait h a) s = .next t ∧ (t.th c.aid).pc = c.npc)

/-! ### Memory instructions (R217 to R236, R254, R255) -/

/-- R14, R52, R218 to R221, R227 to R230, R254, R261, R285, R342: a long-class instruction whose checks pass joins the outstanding
set of its thread with what it is to do, and the thread goes on; a vector load or gather without an active element completes at
once. EMBPOOL pops its base register once, when it issues, and under stochastic rounding the generator then stands behind the draws of
the indices that are left: both are the model's reading (log 30). -/
def Obligations.LongClassInstructionsJoinTheOutstandingSet : Prop :=
  ∀ (h : Hdr) (d cr : SReg) (v : VReg) (m : MemOp) (g : GatherOp) (mk : MReg) (sx rp dw : Bool),
    let lo (l : Nat) (rd : List Nm) (wr : List Nm) : Op := { h := h, len := l, rd := rd, wr := wr, long := true, mem := true }
    let ok (c : Cx) (n : Nat) (rd wr : Bool) : Bool :=
      (c.s.chkSeg c.t m.seg (c.ea m 0) n n rd wr).isNone && (c.s.chkSp c.t (c.ea m 0) n).isNone
    let lanes (c : Cx) : List (Nat × Dword) := laneAddrs (c.t.rM mk) (c.ea m 0)
    let lanesOk (c : Cx) : Bool := decide ((c.ea m 0).toNat % 4 = 0) && (c.chkEach m.seg 4 4 true false (lanes c)).isNone &&
      (lanes c).all (fun x => (c.s.chkSp c.t x.2 4).isNone)
    let elems (c : Cx) : List (Nat × Dword) := c.gather g dw mk
    let elemsOk (c : Cx) : Bool := (c.chkEach g.seg (dwBytes dw) (dwBytes dw) true false (elems c)).isNone &&
      (elems c).all (fun x => (c.s.chkSp c.t x.2 (dwBytes dw)).isNone)
    let ldvOp : Op := { lo (memLen m) (memNames m) [.v v] with masks := [mk] }
    let vgathOp : Op := { lo (gatherLen g) (gatherNames g) [.v v] with masks := [mk] }
    (∀ k sz, Joins (.ld h sx d m k sz) (lo (memLen m) (memNames m) [.s d]) (fun c => ok c (2 ^ sz.toNat) true false) (·.s)
      (fun c => .ld sx d ⟨c.ea m 0, 2 ^ sz.toNat⟩ k) [.s d]) ∧
    Joins (.ldv h v m rp mk) ldvOp (fun c => lanesOk c && !(lanes c).isEmpty) (·.s) (fun c => .lanes v 4 (lanes c) rp) [.v v] ∧
    Completes (.ldv h v m rp mk) ldvOp (fun c => lanesOk c && (lanes c).isEmpty) (·.s) ∧
    Joins (.vgath h v g rp dw mk) vgathOp (fun c => elemsOk c && !(elems c).isEmpty) (·.s)
      (fun c => .lanes v (dwBytes dw) (elems c) rp) [.v v] ∧
    Completes (.vgath h v g rp dw mk) vgathOp (fun c => elemsOk c && (elems c).isEmpty) (·.s) ∧
    (∀ op o sc, Joins (.amo h op (some d) m cr o sc dw) (lo (memLen m) (memNames m ++ [.s cr]) [.s d])
      (fun c => ok c (dwBytes dw) true true) (·.s)
      (fun c => .amo op d ⟨c.ea m 0, dwBytes dw⟩ (c.x (memNames m).length) o sc) [.s d]) ∧
    (∀ o sc, Joins (.cas h d m cr o sc dw) (lo (memLen m) (memNames m ++ [.s cr, .s d]) [.s d])
      (fun c => ok c (dwBytes dw) true true) (·.s)
      (fun c => .cas d ⟨c.ea m 0, dwBytes dw⟩ (c.x ((memNames m).length + 1)) (c.x (memNames m).length) o sc) [.s d]) ∧
    (∀ (p : PReg) (a : SReg) (tr : BitVec 2) (nd : BitVec 4),
      Joins (.kprobe h p a tr nd) (lo 8 [.s a] (predNames p)) (fun c => (c.node tr.toNat nd.toNat true none).isSome) (·.s)
        (fun c => .kprobe p tr.toNat nd.toNat (c.x 0)) (predNames p) ∧
      (∀ ty r k, Joins (.kget h ty r v a p k tr nd) (lo 8 [.s a] (keyRegs ty v ++ predNames p ++ optS k))
        (fun c => (c.node tr.toNat nd.toNat true (some ty)).isSome) (·.s)
        (fun c => .kget ty (rndOf (c.t.modeNoSt r)) v p k tr.toNat nd.toNat (c.x 0)) (keyRegs ty v ++ predNames p ++ optS k))) ∧
    Joins (.ofill h d cr m) { lo (memLen m) (memNames m ++ [.s cr]) [.s d] with heavy := true, noHandler := true }
      (fun c =>
        let x := c.x (memNames m).length
        c.descOk x 16 && (c.s.chkSeg c.t m.seg (c.ea m 0) (slotDesc x).2.2 16 true false).isNone &&
          c.s.isOwn c.t (c.ea m 0) && c.s.ownOk c.t (c.ea m 0) (slotDesc x).2.2) (·.s)
      (fun c =>
        let x := slotDesc (c.x (memNames m).length)
        .ofill d x.1 x.2.1 ⟨c.ea m 0, x.2.2⟩ []) [.s d] ∧
    (∀ b, Joins (.ofillS h d cr b)
      { h := h, rd := [.s cr], own := [.v (vport b)], wr := [.s d], heavy := true, noHandler := true, long := true, mem := true }
      (fun c => c.descOk (c.x 0) 128 && c.s.affineIn c.aid (.v (vport b))) (·.s)
      (fun c =>
        let x := slotDesc (c.x 0)
        .ofillS d x.1 x.2.1 x.2.2 x.2.2 ⟨true, b⟩) [.s d]) ∧
    (∀ ty r (seg : BitVec 3) (a : Option SReg) (b : SReg) (lg : BitVec 6),
      let eo : Op :=
        { h := h, rd := optS a, own := [.s b, .s cr], aff := [.s b, .s cr], wr := [.v v], heavy := true, long := true, mem := true }
      let base (c : Cx) : Dword := (c.s.seg c.t seg).base + (if a.isSome then c.x 0 else 0)
      Joins (.embpool h ty r v seg a b cr lg) eo always
        (fun c => if c.t.mode r = .st then c.s.modTh c.aid (fun t => { t with regs := { t.regs with
            seed := seedAfter c.t.regs.seed (32 * c.s.left c.aid (pnameS b)) } })
          else c.s)
        (fun c => .embpool ty (rndOf (c.t.mode r)) v seg (base c) (pnameS b) (pnameS cr) lg.toNat c.t.regs.seed) [.v v]) ∧
    (∀ a b : SReg, Joins (.rdstate h d a b) { h := h, rd := [.s a, .s b], wr := [.s d], priv := true, long := true } always (·.s)
      (fun c => .rdstate d (c.x 0) (c.x 1)) [.s d])

/-- R52, R119, R124, R220, R227 to R230, R254, R261, R285, R342: the result of an outstanding instruction that may perform returns: memory
is as its access left it, and its thread holds the result and no longer the instruction. A load that is outstanding with nothing before
it in its thread's pending set, journal and streams may perform. A load writes S[D] with the bytes read, extended; LDV and VGATH replace
the active elements of V[D]; AMO writes the combination of the old value with its operand and CAS the new value where the old one equals
the compared one, and both give the old value; OFILL reads a word in each move and writes its slot with the last, OFILL.s 128 bytes with
each pop; EMBPOOL accumulates row by row in index order; KGET and KPROBE give what the shards of the key hold; RDSTATE gives its dword. A
read that conflicts raises a precise memory-model exception with the word and the other agent. That the access performs in the move
LONG_RESULT_RETURN, and a KGET in one move of its own, is log 5; the order of an OFILL's words is log 30. -/
def Obligations.LongResultReturns : Prop :=
  (∀ (core slot idx : Nat) (s s1 : State) (aid : Nat) (o : Outst),
    s.occ core slot = some aid → (s.th aid).outst[idx]? = some o → o.fault = none →
    s.canGo aid o.seq o.sub o.op = true →
    (s.longStep aid o = .ok () s1 → exec (.longResultReturn core slot idx) s = .next s1) ∧
    (∀ e, s.longStep aid o = .exc e s1 →
      exec (.longResultReturn core slot idx) s = .next ((s.keepReads s1).raiseLong aid o e))) ∧
  (∀ (s : State) (aid : Nat) (o : Outst), (s.th aid).outst = [o] → s.journalClear aid = true → s.unwrOf aid = [] →
    s.canGo aid o.seq o.sub o.op = true) ∧
  (∀ (s s1 : State) (aid : Nat) (o : Outst) (d : SReg) (a : Acc) (p : Place),
    let core := (s.th aid).core
    let ret (x : Vec) (fl : Flags) (s2 : State) : Prop := s.longStep aid o = .ok () (s2.accept aid o ⟨[(.s d, x)], fl⟩)
    let zx (v : Nat) : Vec := BitVec.ofNat 1024 (v % 2 ^ (8 * a.n))
    (s.reachTh aid a.addr a.n .read = (.mem p, s1) → ∀ sx v s2,
      (o.op = .ld sx d a .plain → s1.plainRead aid core false p a.n = .ok (v, s2) → ret (extLoad sx a.n v) 0 s2.consume) ∧
      (o.op = .ld sx d a .rp → s1.plainRead aid core true p a.n = .ok (v, s2) → ret (extLoad sx a.n v) 0 s2.consume) ∧
      (∀ od sc, o.op = .ld sx d a (.atomic od sc) → s1.atomRead aid (ordAcq od) sc p a.n = .ok (v, s2) →
        ret (extLoad sx a.n v) 0 (s2.forwardRead core p a.n).consume) ∧
      (∀ x, o.op = .ld sx d a .plain → s1.boxContribs p a.n = [] →
        s1.conflicts? (.thread aid) false false (p.words a.n) = some x →
        s.longStep aid o = .exc { cause := 15, addr := reportAddr core (wordVa a.addr p x.1), agent := x.2.rep, note := .conflict } s1)) ∧
    (a.n = 4 ∨ a.n = 8 → s.memWf = true → s.toAbsent aid a.addr a.n = false → s.placeFor aid a.addr a.n .both true = .ok p s1 →
      let old := s1.val p a.n
      (∀ op (x : Dword) od sc, o.op = .amo op d a x od sc → s1.conflicts? (.thread aid) true true (p.words a.n) = none →
        ∃ s2 : State, ret (zx old) (amoVal op a.n old x.toNat).2 s2 ∧ s2.val p a.n = (amoVal op a.n old x.toNat).1 % 2 ^ (8 * a.n)) ∧
      (∀ (exp new : Dword) od sc, o.op = .cas d a exp new od sc →
        (old = exp.toNat % 2 ^ (8 * a.n) → s1.conflicts? (.thread aid) true true (p.words a.n) = none →
          ∃ s2 : State, ret (zx old) 0 s2 ∧ s2.val p a.n = new.toNat % 2 ^ (8 * a.n)) ∧
        (old ≠ exp.toNat % 2 ^ (8 * a.n) → s1.conflicts? (.thread aid) false true (p.words a.n) = none →
          ∃ s2 : State, ret (zx old) 0 s2 ∧ s2.mem = s1.mem ∧ s2.cores = s1.cores)))) ∧
  (∀ (s s1 : State) (aid : Nat) (o : Outst) (d : VReg) (w : Nat) (as : List (Nat × Dword)) (rp : Bool) (vs : List (Nat × Nat)),
    w = 4 ∨ w = 8 → (as.map (·.1)).Nodup → o.op = .lanes d w as rp →
    s.readEach aid w (if rp then .rp else .plain) as = .ok vs s1 →
    vs.map (·.1) = as.map (·.1) ∧
    ∃ x : Vec, s.longStep aid o = .ok () (s1.consume.accept aid o ⟨[(.v d, x)], 0⟩) ∧
      ∀ i < nElems (8 * w), (∀ e ∈ vs, e.1 = i → elem x (8 * w) i = e.2 % 2 ^ (8 * w)) ∧
        (i ∉ as.map (·.1) → elem x (8 * w) i = elem ((s1.th aid).rV d) (8 * w) i)) ∧
  (∀ (s s2 : State) (aid w i v : Nat) (k : MKind) (a : Dword) (l : List (Nat × Dword)) (vs : List (Nat × Nat)),
    s.readEach aid w k ((i, a) :: l) = .ok ((i, v) :: vs) s2 ↔
      ∃ s1, s.readAt aid a w k = .ok v s1 ∧ s1.readEach aid w k l = .ok vs s2) ∧
  (∀ (s s1 : State) (aid : Nat) (o : Outst) (d : SReg) (slot off : Nat) (a : Acc) (got bs : List Byte),
    slot < 32 → o.op = .ofill d slot off a got → s.readWord4 aid (a.addr + BitVec.ofNat 64 got.length) = .ok bs s1 →
    (got.length + 4 < a.n → s.longStep aid o = .ok () (s1.fillOn aid o (.ofill d slot off a (got ++ bs)))) ∧
    (a.n ≤ got.length + 4 → ∃ s2 : State, s.longStep aid o = .ok () (s2.accept aid o ⟨[(.s d, BitVec.ofNat 1024 a.n)], 0⟩) ∧
      s2.mem = s1.mem ∧ vrd (s2.core (s.th aid).core).opm slot =
        { vrd (s1.core (s.th aid).core).opm slot with
          bytes := Memory.put (vrd (s1.core (s.th aid).core).opm slot).bytes off (got ++ bs) })) ∧
  (∀ (s s1 : State) (aid : Nat) (o : Outst) (d : SReg) (slot off n left : Nat) (b : PName),
    o.op = .ofillS d slot off n left b → s.fillPop aid o.seq slot (off + (n - left)) b = .ok () s1 →
    (128 < left → s.longStep aid o = .ok () (s1.fillOn aid o (.ofillS d slot off n (left - 128) b))) ∧
    (left ≤ 128 → s.longStep aid o = .ok () (s1.accept aid o ⟨[(.s d, BitVec.ofNat 1024 n)], 0⟩))) ∧
  (∀ (s : State) (aid : Nat) (o : Outst) (ty : Ty) (r : Rnd) (d : VReg) (seg : BitVec 3) (base : Dword) (ix wt : PName) (lg : Nat)
      (seed : BitVec 32), o.op = .embpool ty r d seg base ix wt lg seed →
    let rm := (s.th aid).mode r
    let go (s : State) := s.embRows aid ty rm seg base ix wt lg
    (∀ acc g s1, go s (s.left aid ix) 0 (List.replicate 32 0) ⟨seed, 0⟩ = .ok (acc, g) s1 → s.longStep aid o = .ok ()
      (((s1.skipElems aid ix (s.left aid ix)).skipElems aid wt (s.left aid ix)).accept aid o ⟨[(.v d, ofElems 32 acc)], g.fl⟩)) ∧
    (∀ i acc g, go s 0 i acc g = .ok (acc, g) s) ∧
    (∀ k i acc g x y s1 s2 row s3, s.peekElem aid ix i = .ok x s1 → s1.peekElem aid wt i = .ok y s2 →
      let va := base + (x <<< lg)
      s2.chkSeg (s2.th aid) seg va (rowBytes ty) (rowBytes ty) true false = none → s2.chkSp (s2.th aid) va (rowBytes ty) = none →
      s2.readAt aid va (rowBytes ty) .plain = .ok row s3 →
      ∃ (acc1 : List Nat) (gs : Nat → Staged), gs 0 = g ∧ acc1.length = 32 ∧
        (∀ j < 32, (gs j).enc f32 rm (fmaVal rm ((tyFmt ty).decode (row / 2 ^ (tyBits ty * j) % 2 ^ tyBits ty))
          (f32.decode (y.toNat % 2 ^ 32)) (f32.decode (acc.getD j 0))) = (acc1.getD j 0, gs (j + 1))) ∧
        go s (k + 1) i acc g = go s3.consume k (i + 1) acc1 (gs 32))) ∧
  (∀ (s : State) (aid : Nat) (o : Outst) (l : Launch) (tree node : Nat) (key : Dword),
    let t := s.th aid
    let cs := s.keyGoes aid l tree key
    s.launch? t.ltag = some l → cs.any (s.absent l.tag) = false → cs.all (fun c => s.meetsCore aid c) = true →
    let s0 := s.passedAll aid cs
    let gone := (s0.keyRead l t.core tree node key).1
    let cnt := (s0.keyRead l t.core tree node key).2.1
    let ls := (s0.keyRead l t.core tree node key).2.2
    let n := ((s0.core t.core).node? tree node).getD default
    let s1 := (s0.endRegion (.thread aid)).modTh aid (fun t =>
      { t with reads := (Obj.entry l.tag.toNat tree node key :: t.reads).eraseDups })
    (∀ p, o.op = .kprobe p tree node key → s.longStep aid o = .ok () (s1.accept aid o ⟨[(.p p, predVec !gone)], 0⟩)) ∧
    (∀ ty r (d : VReg) p c, o.op = .kget ty r d p c tree node key → tyBits ty = 32 ∨ tyBits ty = 64 → ∃ (v v1 : Vec) (fl : Flags),
      (∀ j < 32, wideElem v v1 (tyBits ty) j =
        if h : j < ls.length then (keyOut n ty (t.modeNoSt r) ls[j]).1 % 2 ^ tyBits ty else 0) ∧
      s.longStep aid o = .ok () (s1.accept aid o ⟨(if tyBits ty = 32 then [(.v d, v)] else [(.v d, v), (.v (d + 1), v1)]) ++
        [(.p p, predVec gone)] ++ (match c with
          | some x => [(.s x, cnt.setWidth 1024)]
          | none => []), fl⟩))) ∧
  (∀ (s : State) (l : Launch) (core tree node : Nat) (key : Dword),
    let found := ((s.keyCores l ((s.core core).ksp tree) key).eraseDups).filterMap (fun c => (s.core c).findKey tree node key)
    let r := s.keyRead l core tree node key
    (r.1 = true ↔ found = []) ∧ r.2.1.toNat = ((found.map (fun e => e.2.count.toNat)).sum) % 2 ^ 64 ∧
      (found = [] → ∀ x ∈ r.2.2, x = 0) ∧ (∀ e, found = [e] → r.2.2 = e.2.lanes)) ∧
  (∀ (s : State) (aid : Nat) (o : Outst) (d : SReg) (sel idx : Dword), o.op = .rdstate d sel idx →
    s.longStep aid o = .ok () ((s.readItem sel idx).2.accept aid o ⟨[(.s d, ((s.readItem sel idx).1).setWidth 1024)], 0⟩) ∧
    (∀ who unit a, who < 1152 → unit < 16 → sel.toNat = 2 ^ 48 + 65536 * who + unit → s.occ (s.slotHome who unit) unit = some a →
      s.readItem sel idx = ((s.th a).regDword idx.toNat, s))) ∧
  (∀ (s : State) (aid : Nat) (o : Outst) (d : SReg) (v : Vec),
    let t := (s.accept aid o ⟨[(.s d, v)], 0⟩).th aid
    t.rS d = v.setWidth 64 ∧ t.pc = (s.th aid).pc ∧ t.outst.all (fun x => decide (x.seq ≠ o.seq ∨ x.sub ≠ o.sub)) = true)

/-! ### Stores (R222 to R228, R234, R235, R255) -/

/-- R96, R120, R121, R123, R222 to R229, R232, R234, R385: a store, an atomic without a result and FESET or FECLR in the issuer's own
scratchpad are carried out there, at once where R119 allows it; one elsewhere takes journal entries, in the order of its accesses. FENCE.rel
leaves a fence contribution, FENCE.acq acquires what every object read atomically since the last one holds, and both end the region. A
supervisor's store to HINT is a release. Each access checks every word that it touches against the stamps of earlier ones before it changes
anything and then stamps it; a plain write of device memory leaves its word owned by its core alone among those that own it, a plain read
takes its core's valid copy, an atomic access performs at the home and leaves the word unregistered, and an acquire clears the copies that
its core does not own. -/
def Obligations.StoresPerformOrArePosted : Prop :=
  ∀ (h : Hdr) (cr : SReg) (v : VReg) (m : MemOp) (g : GatherOp) (mk : MReg) (k : MKind) (tag : Option SReg) (rp dw : Bool),
    let op (l : Nat) (rd : List Nm) : Op := { h := h, len := l, rd := rd, mem := true }
    let stOp : Op := op (memLen m) (memNames m ++ [.s cr] ++ optS tag)
    let kind : MKind := if rp then .rp else .plain
    let far (c : Cx) (ps : List StPart) : Bool := ps.all (fun p => !c.s.isOwn c.t p.at)
    let near (c : Cx) (ps : List StPart) : Bool := ps.all (fun p => c.s.isOwn c.t p.at && p.bs.all (fun b =>
      (c.s.chkSp c.t (p.a + BitVec.ofNat 64 b.1) 1).isNone))
    let grant (c : Cx) (n al : Nat) (rd : Bool) : Bool := (c.s.chkSeg c.t m.seg (c.ea m 0) n al rd true).isNone
    let posts (i : Instr) (o : Op) (p : Cx → Bool) (ps : Cx → List StPart) (kd : Cx → MKind) (tg : Cx → Option Nat) : Prop :=
      (let hint (c : Cx) (x : StPart) : Bool := c.super && x.bs.any (fun b => (x.a + BitVec.ofNat 64 b.1).toNat / 8 == hintAddr.toNat / 8)
       let ops (c : Cx) : List JOp := (ps c).map (fun x => .write x.a x.bs (if hint c x then .atomic .rel .pkg else kd c) (tg c))
       Entries i o (fun c => p c && far c (ps c) && !(ps c).isEmpty) (·.s) ops) ∧
      (let own (c : Cx) : JOp := .own (kd c) ((ps c).map (fun x => (x.a, x.bs)))
       let perf (c : Cx) : Perf := (c.send c.s (own c)).ownParts c.aid (kd c) ((ps c).map (fun x => (x.a, x.bs)))
       Sends i o (fun c => p c && near c (ps c) && !(ps c).isEmpty && (match perf c with
          | .done _ _ => true
          | _ => false)) (·.s) own
        (fun c t => ∃ fl s1, perf c = .done fl s1 ∧ t.mem = s1.mem ∧ t.cores = s1.cores))
    let stPart (c : Cx) (sz : BitVec 2) : List StPart :=
      [⟨c.ea m 0, offBytes 0 (leBytes (2 ^ sz.toNat) (c.x (memNames m).length).toNat)⟩]
    let stTag (c : Cx) : Option Nat := c.ftag tag ((memNames m).length + 1)
    let stvOp : Op := { op (memLen m) (memNames m ++ [.v v] ++ optS tag) with masks := [mk] }
    let stvOk (c : Cx) : Bool := decide ((c.ea m 0).toNat % 4 = 0) &&
      (c.chkEach m.seg 4 4 false true (laneAddrs (c.t.rM mk) (c.ea m 0))).isNone
    let stvParts (c : Cx) : List StPart :=
      blockParts (c.ea m 0) (laneAddrs (c.t.rM mk) (c.ea m 0)) (c.v (memNames m).length)
    let scOp : Op := { op (gatherLen g) (gatherNames g ++ [.v v]) with masks := [mk] }
    let scOk (c : Cx) : Bool := (c.chkEach g.seg (dwBytes dw) (dwBytes dw) false true (c.gather g dw mk)).isNone
    let scParts (c : Cx) : List StPart := (c.gather g dw mk).map (fun a =>
      ⟨a.2, offBytes 0 (leBytes (dwBytes dw) (elem (c.v (gatherNames g).length) (8 * dwBytes dw) a.1))⟩)
    (∀ sz, posts (.st h m cr k tag sz) stOp (fun c => grant c (2 ^ sz.toNat) (2 ^ sz.toNat) false) (fun c => stPart c sz)
      (fun _ => k) stTag) ∧
    Completes (.stv h m v rp tag mk) stvOp (fun c => stvOk c && (stvParts c).isEmpty) (·.s) ∧
    posts (.stv h m v rp tag mk) stvOp stvOk stvParts (fun _ => kind) stTag ∧
    Completes (.vscat h g v rp dw mk) scOp (fun c => scOk c && (scParts c).isEmpty) (·.s) ∧
    posts (.vscat h g v rp dw mk) scOp scOk scParts (fun _ => kind) (fun _ => none) ∧
    (∀ o a sc,
      let am (c : Cx) : JOp := .amo a (c.ea m 0) (dwBytes dw) (c.x (memNames m).length) o sc
      let perf (c : Cx) : Met (Nat × Flags) :=
        (c.send c.s (am c)).amoAt c.aid (c.ea m 0) (dwBytes dw) o sc none a (c.x (memNames m).length).toNat
      Entries (.amo h a none m cr o sc dw) (op (memLen m) (memNames m ++ [.s cr]))
        (fun c => grant c (dwBytes dw) (dwBytes dw) true && !c.s.isOwn c.t (c.ea m 0)) (·.s) (fun c => [am c]) ∧
      Sends (.amo h a none m cr o sc dw) (op (memLen m) (memNames m ++ [.s cr]))
        (fun c => grant c (dwBytes dw) (dwBytes dw) true && c.s.isOwn c.t (c.ea m 0) &&
          (c.s.chkSp c.t (c.ea m 0) (dwBytes dw)).isNone && (match perf c with
            | .ok _ _ => true
            | _ => false)) (·.s) am
        (fun c t => ∃ old fl s1, perf c = .ok (old, fl) s1 ∧ t.mem = s1.mem ∧ t.cores = s1.cores ∧
          (t.th c.aid).regs.fstat = (s1.th c.aid).regs.fstat ||| fl)) ∧
    (∀ full : Bool,
      let i : Instr := if full then .feset h m else .feclr h m
      let w (c : Cx) : Nat × Nat := windowOf c.core (c.ea m 0)
      let good (c : Cx) : Bool := grant c 16 16 false && inWindow (c.ea m 0)
      Entries i (op (memLen m) (memNames m)) (fun c => good c && !c.s.isOwn c.t (c.ea m 0)) (·.s)
        (fun c => [.fe (w c).1 ((w c).2 / 16) full]) ∧
      Sends i (op (memLen m) (memNames m))
        (fun c => good c && c.s.isOwn c.t (c.ea m 0) && (c.s.chkSp c.t (c.ea m 0) 16).isNone) (·.s)
        (fun c => .fe c.core ((w c).2 / 16) full)
        (fun c t => t.isFull c.core ((w c).2 / 16) = full ∧ t.mem = c.s.mem)) ∧
    (∀ o sc, Sends (.fence h o sc) { h := h, mem := true } always (·.s) (fun _ => .fence o sc)
      (fun c t =>
        (t.th c.aid).fences = (if ordRel o then addContrib c.t.fences (c.s.contrib c.ag sc) else c.t.fences) ∧
        (ordAcq o = true → (t.th c.aid).reads = [] ∧
          t.clock c.ag = ((c.t.reads.foldl (fun s x => s.acquire c.ag sc (s.contribs x)) c.s).endRegion c.ag).clock c.ag) ∧
        (ordAcq o = false → t.clock c.ag = (c.s.endRegion c.ag).clock c.ag))) ∧
    (∀ (s : State) (t : Agent) (w : WordKey) (writes atom : Bool), (s.conflict? t w writes atom).isSome = true ↔
      ∃ x, ((s.stamp w).w = some x ∨ writes = true ∧ x ∈ (s.stamp w).r) ∧
        x.ag ≠ t ∧ ¬(x.atom = true ∧ atom = true) ∧ (s.clock t).atWord w x.ag < x.n) ∧
    (∀ (s : State) (t : Agent) (p : Place) (n : Nat) (writes atom : Bool),
      ((∃ s1, s.touch t writes atom p n = .ok s1) ↔ ∀ w ∈ p.words n, s.conflict? t w writes atom = none) ∧
      ∀ s1, s.touch t writes atom p n = .ok s1 →
        s1.mem = s.mem ∧ s1.cores = s.cores ∧ s1.clocks = s.clocks ∧
        (∀ w, w ∉ p.words n → s1.stamp w = s.stamp w) ∧
        ∀ w ∈ p.words n, s1.stamp w =
          let x : Stamp := ⟨t, s.region t, atom, s.rep t⟩
          if writes then ⟨some x, []⟩ else ⟨(s.stamp w).w, (s.stamp w).r.filter (fun y => decide (y.ag ≠ t)) ++ [x]⟩) ∧
    (∀ (s s1 : State) (aid core a v : Nat) (bs : List Byte), 4 * a + 4 ≤ hbmBytes → s.memWf = true →
      let w : WordKey := .phys a
      let p : Place := .phys (4 * a)
      (s.boxContribs p 4 = [] → s.plainRead aid core false p 4 = .ok (v, s1) →
        v = ((amGet? (s.cacheOf w).valid core).getD (s.wordData w)).toNat ∧
        amGet? (s1.cacheOf w).valid core = some (BitVec.ofNat 32 v) ∧ (s1.cacheOf w).owned = (s.cacheOf w).owned) ∧
      (bs.length = 4 → s.plainWrite (.thread aid) (some core) false p bs = .ok s1 →
        s1.bytes p 4 = bs ∧ (s1.cacheOf w).reg = some core ∧ (s1.cacheOf w).owned = [core] ∧
        amGet? (s1.cacheOf w).valid core = some (BitVec.ofNat 32 (leVal bs)) ∧
        (∀ c, c ≠ core → amGet? (s1.cacheOf w).valid c = if c ∈ (s.cacheOf w).owned then none else amGet? (s.cacheOf w).valid c)) ∧
      (∀ sc, s.boxContribs p 4 = [] → s.atomRead aid false sc p 4 = .ok (v, s1) →
        v = s.val p 4 ∧ (s1.cacheOf w).reg = none ∧ (s1.cacheOf w).owned = []) ∧
      (∀ rel sc, bs.length = 4 → s.atomWrite aid rel sc p bs = .ok s1 → s1.bytes p 4 = bs ∧ s1.cacheOf w = ⟨none, [], []⟩)) ∧
    (∀ (s : State) (core c : Nat) (w : WordKey),
      amGet? ((s.invalidate (some core)).cacheOf w).valid c =
        if c = core ∧ core ∉ (s.cacheOf w).owned then none else amGet? (s.cacheOf w).valid c)

/-- R235, R255, R367: STPAIR whose checks pass reads its source and posts one entry of both areas, which performs in one move: row I of
one area holds row I of the source, row J of the other its column J. EMBUPD whose index stream has no element left completes, its
sources consumed and its flags committed; with one index left whose row is not in the issuer's own scratchpad it posts that update and
then completes; one in the own scratchpad is done at once where R119 lets it, with its flags staged until EMBUPD completes, or joins the
pending set. An update adds the scaled gradient to each element of its row. -/
def Obligations.PairedStoresAndEmbeddingUpdates : Prop :=
  ∀ (h : Hdr) (a b cr : SReg) (v : VReg) (sg sgT : BitVec 3) (pp pt : BitVec 16) (w : Bool),
    (∀ s c, s.takes { h := h, len := 16, rd := [.s a, .s b, .s cr], mem := true } = some c →
      let n := if w then 4 else 2
      let sb := (c.s.seg c.t sgT).base + c.x 0
      let pb := (c.s.seg c.t sg).base + c.x 1
      let tb := (c.s.seg c.t sg).base + c.x 2
      let rows := (List.range 32).map (fun i => (i, pb + BitVec.ofNat 64 (64 * pp.toNat * i))) ++
        (List.range 32).map (fun i => (i, tb + BitVec.ofNat 64 (64 * pt.toNat * i)))
      sb.toNat % 64 = 0 → pb.toNat % 64 = 0 → tb.toNat % 64 = 0 →
      c.s.chkSeg c.t sgT sb (1024 * n) 64 true false = none → c.chkEach sg (32 * n) 64 false true rows = none →
      (∀ r ∈ rows, inWindow r.2 = false) → areasMeet pb.toNat tb.toNat (64 * pp.toNat) (64 * pt.toNat) (32 * n) = false →
      32 * n ≤ 64 * pp.toNat → 32 * n ≤ 64 * pt.toNat → c.s.isOwn c.t sb = true → c.s.ownOk c.t sb (1024 * n) = true →
      c.s.wordBusy c.aid sb (1024 * n) = false → c.s.acqPending c.aid = false → ∀ p s1 x s2,
      c.s.placeFor c.aid sb (1024 * n) .read false = .ok p s1 → s1.plainRead c.aid c.core false p (1024 * n) = .ok (x, s2) →
      1 ≤ s2.journalFree c.core →
      ∃ t, c.posted (s2.postEnts c.core
        [⟨c.num, c.aid, c.t.seq, s2.nextSub c.aid, c.pc, .pair pb tb (64 * pp.toNat) (64 * pt.toNat) n (s1.bytes p (1024 * n)),
          .waiting, none⟩]) = some t ∧ exec (.stpair h a b cr sg sgT pp pt w) s = .next (t.finish c.aid c.npc h.sw)) ∧
    (∀ (s s1 : State) (e : JEnt) (pb tb : Dword) (p q n : Nat) (bs : List Byte) (rs : List Run),
      e.op = .pair pb tb p q n bs → s.pairPlaces e.aid (pairRows pb tb p q n bs) = .places rs s1 →
      s1.runsConflict e.aid false rs = none →
      s.perform e = .done 0 (rs.foldl (fun s r => s.runWrite e.aid .plain true none r.p r.bs) s1) ∧
      rs.map (fun r => (r.va, r.bs)) = pairRows pb tb p q n bs) ∧
    (∀ (pb tb : Dword) (p q n : Nat) (bs : List Byte), n = 2 ∨ n = 4 → bs.length = 1024 * n →
      (∀ i < 32, (pb + BitVec.ofNat 64 (p * i)).toNat % 65536 + 32 * n ≤ 65536 ∧
        (tb + BitVec.ofNat 64 (q * i)).toNat % 65536 + 32 * n ≤ 65536) →
      pairRows pb tb p q n bs =
        (List.range 32).map (fun i => (pb + BitVec.ofNat 64 (p * i), (bs.drop (32 * n * i)).take (32 * n))) ++
        (List.range 32).map (fun j => (tb + BitVec.ofNat 64 (q * j),
          (List.range 32).flatMap (fun i => (bs.drop (32 * n * i + n * j)).take n)))) ∧
    (∀ ty r (d : SReg) (a : Option SReg) (lg : BitVec 6) s c,
      let srcs := optS a ++ [.v v, .s d]
      s.takes { h := h, own := [.s b], aff := [.s b], peek := srcs, heavy := true, mem := true } = some c →
      ∀ vs us s9, c.peeks c.s srcs = .got vs us s9 → c.t.kept.any (fun e => e.1 == c.pc) = false →
      let x (i : Nat) : Dword := (vs.getD i 0).setWidth 64
      let base := (c.s.seg c.t sg).base + (if a.isSome then x 0 else 0)
      let done (s1 : State) : State := s1.modTh c.aid (fun t => { t.orFlags t.stage with stage := 0 })
      let i := Instr.embupd h ty r d sg a b v lg
      let s2 := if srcs.any (fun n => (c.s.boundTo c.aid n).isSome) then c.unread s9 us else c.s
      let ends (s3 : State) (q : State → Prop) : Prop := ∀ s4 k, s3.fillAhead c.aid (pnameS b) 1 1 = .ok () s4 →
        s4.bindOf c.aid (pnameS b) = some k → s4.pop k c.t.seq = .empty → ∀ vs' us' s8, c.peeks s4 srcs = .got vs' us' s8 → q (done s8)
      ends s2 (fun u => ∃ t, c.posted u = some t ∧ exec i s = .next (t.finish c.aid c.npc h.sw)) ∧
      (∀ s3 k n s4, s2.fillAhead c.aid (pnameS b) 1 1 = .ok () s3 → s3.bindOf c.aid (pnameS b) = some k →
        s3.pop k c.t.seq = .got n s4 → 1 ≤ c.s.left c.aid (pnameS b) →
        let va := base + (n.setWidth 64 <<< lg)
        let scale := x (a.isSome.toNat + 1)
        let grad := vs.getD a.isSome.toNat 0
        let op : JOp := .emb ty (rndOf (c.t.modeNoSt r)) va scale grad
        let post : Outst := ⟨c.t.seq, s4.nextSub c.aid, c.pc, c.npc, .post op, [], s3.save c.aid, none, 0⟩
        let go := s4.canGo c.aid post.seq post.sub post.op
        s3.chkSeg c.t sg va (rowBytes ty) (rowBytes ty) true true = none →
        (s3.isOwn c.t va = false → 1 ≤ s4.journalFree c.core →
          ends (s4.postEnts c.core [⟨c.num, c.aid, c.t.seq, s4.nextSub c.aid, c.pc, op, .waiting, none⟩])
            (fun u => ∃ t, c.posted u = some t ∧ exec i s = .next (t.finish c.aid c.npc h.sw))) ∧
        (s3.isOwn c.t va = true → s3.chkSp c.t va (rowBytes ty) = none →
          (∀ fl s5, go = true → s4.embUpdate c.aid ty ((s4.th c.aid).modeNoSt (rndOf (c.t.modeNoSt r))) va scale grad = .done fl s5 →
            ends (s5.modTh c.aid (fun t => { t with stage := t.stage ||| fl }))
              (fun u => ∃ t, c.posted u = some t ∧ exec i s = .next (t.finish c.aid c.npc h.sw))) ∧
          (go = false → ends (s4.modTh c.aid (fun t => { t with outst := t.outst ++ [post] }))
            (fun u => ∀ t, c.posted u = some t → exec i s = .next (t.finish c.aid c.npc h.sw)))))) ∧
    (∀ (s s1 : State) (aid : Nat) (ty : Ty) (rm : Rm) (va scale : Dword) (grad : Vec) (p : Place), s.memWf = true →
      s.placeFor aid va (rowBytes ty) .both true = .ok p s1 →
      s1.conflicts? (.thread aid) true false (p.words (rowBytes ty)) = none →
      let row := s1.readVal (some (s.th aid).core) false p (rowBytes ty)
      let u := tyBits ty
      ∃ fl s2, s.embUpdate aid ty rm va scale grad = .done fl s2 ∧ ∀ j < 32, s2.val p (rowBytes ty) / 2 ^ (u * j) % 2 ^ u =
        ((tyFmt ty).encode rm 0 (fmaVal rm (f32.decode (scale.toNat % 2 ^ 32)) (f32.decode (elem grad 32 j))
          ((tyFmt ty).decode (row / 2 ^ (u * j) % 2 ^ u))).1).1 % 2 ^ u)

/-! ### Operands and frames -/

/-- R36 to R40, R151: when no name of an instruction is bound, nothing is left that it must wait for and the checks pass, its
sources are the values of its registers, and reading them changes nothing. -/
def Obligations.OperandsOfRegisters : Prop :=
  ∀ (s : State) (o : Op) (aid : Nat),
    let t := s.th aid
    s.occ s.cur.1 s.cur.2 = some aid → (o.first = true → t.outst = []) → t.isOut (.p o.h.grd) = false →
    t.guardHolds o.h = true → s.opExc aid s.cur.2 o = none → s.mustWait aid o = false → s.unbound aid (o.srcs ++ o.wr) = true →
    (∀ x ∈ t.outst, x.seq ≠ t.seq) →
    s.takes o = some ⟨s, s, s.cur.1, s.cur.2, aid, t.pc, t.pc + BitVec.ofNat 64 o.len, o.rd.map t.src, s.save aid⟩

/-- R30, R139: with a guard that does not hold and is not outstanding, an instruction has no effect: only the program counter
moves on by its length, and its marker counts. Stated for one instruction of each length and kind. -/
def Obligations.FalseGuardHasNoEffect : Prop :=
  ∀ (h : Hdr) (s : State) (aid : Nat) (i : Instr) (len : Nat),
    ((∃ d a b, i = .add h d a b) ∧ len = 8 ∨ (∃ m, i = .trapu h m) ∧ len = 8 ∨ (∃ sx d m, i = .movwF96 h sx d m) ∧ len = 12 ∨
      (∃ m c k g sz, i = .st h m c k g sz ∧ len = memLen m) ∨ (∃ ty r d a b mk, i = .vadd h ty r d a b mk) ∧ len = 8 ∨
      (∃ a b c, i = .send h a b c) ∧ len = 16 ∨ (∃ n a, i = .mts h n a) ∧ len = 8) →
    s.occ s.cur.1 s.cur.2 = some aid → (s.th aid).isOut (.p h.grd) = false → (s.th aid).guardHolds h = false →
    exec i s = .next (s.modTh aid (fun t =>
      { t with pc := t.pc + BitVec.ofNat 64 len, seq := t.seq + 1, marked := h.sw, parked := false, entering := false }))

/-- The operands of the scalar instructions whose only result is S[D]. -/
def scalarOp : Instr → Option (Op × SReg)
  | .add h d a b | .sub h d a b | .mul h d a b | .mulh h _ d a b | .div h _ d a b | .rem h _ d a b | .and h d a b
  | .or h d a b | .xor h d a b | .andn h d a b | .orn h d a b | .min h _ d a b | .max h _ d a b | .hash h d a b =>
    some (opSSS h d a b, d)
  | .addi h d a _ | .abs h d a | .mov h d a | .clz h d a | .ctz h d a | .popc h d a | .brev h d a | .bswap h d a
  | .ext h _ d a _ _ => some (opSS h d a, d)
  | .shl h d a n | .shr h d a n | .sar h d a n | .rot h _ d a n => some (opShift h d a n, d)
  | .ins h d a _ _ => some ({ h := h, rd := [.s a, .s d], wr := [.s d] }, d)
  | .movi h d _ => some ({ h := h, wr := [.s d] }, d)
  | .movwF96 h _ d _ => some ({ h := h, len := 12, wr := [.s d] }, d)
  | .movwF128 h d _ => some ({ h := h, len := 16, wr := [.s d] }, d)
  | .sel h d a b p => some ({ h := h, rd := [.s a, .s b], own := [.p p], wr := [.s d] }, d)
  | .lea h d m => some ({ h := h, len := memLen m, rd := memNames m, wr := [.s d] }, d)
  | _ => none

/-- Frame of the scalar instructions (R170 to R179): with registers that no port is bound to, the next state differs from the
state before in register D, the program counter and the count of instructions of the issuing thread only; every other register,
predicate, mask, flag, every other thread and every byte of memory stays. -/
def Obligations.ScalarInstructionsChangeOneRegister : Prop :=
  ∀ (i : Instr) (o : Op) (d : SReg) (s : State) (c : Cx), scalarOp i = some (o, d) → s.takes o = some c →
    s.unbound c.aid (o.rd ++ o.wr) = true →
    ∃ x t, exec i s = .next t ∧
      t = s.putTh c.aid { s.th c.aid with
        regs := { (s.th c.aid).regs with s := vwr (s.th c.aid).regs.s d.toNat x }
        pc := (s.th c.aid).pc + BitVec.ofNat 64 o.len, seq := (s.th c.aid).seq + 1, marked := o.h.sw, parked := false
        entering := false } ∧
      (t.th c.aid).rS d = x ∧ (∀ r, r ≠ d → (t.th c.aid).rS r = (s.th c.aid).rS r) ∧
      (∀ n, n ≠ c.aid → t.th n = s.th n) ∧ (∀ q, t.byte q = s.byte q)

/-- The operands of the vector instructions whose results are V[D] and flags. -/
def vectorOp : Instr → Option (Op × VReg)
  | .vadd h _ _ d a b mk | .vsub h _ _ d a b mk | .vmul h _ _ d a b mk | .vdiv h _ _ d a b mk | .vmin h _ d a b mk
  | .vmax h _ d a b mk | .vscale h _ _ d a b mk | .viadd h _ _ d a b mk | .visub h _ _ d a b mk | .vimul h _ _ d a b mk
  | .vand h _ d a b mk | .vor h _ d a b mk | .vxor h _ d a b mk | .vimin h _ d a b mk | .vimax h _ d a b mk
  | .vperm h _ d a b mk | .vpack h _ _ _ d a b mk => some (vecOp h [.v a, .v b] d mk, d)
  | .vfma h _ _ d a b c mk | .vfms h _ _ d a b c mk | .vfnma h _ _ d a b c mk => some (vecOp h [.v a, .v b, .v c] d mk, d)
  | .vsqrt h _ _ d a mk | .vabs h _ d a mk | .vneg h _ d a mk | .vcvt h _ _ _ d a mk | .vunpk h _ _ _ d a _ mk
  | .vmov h _ d a mk => some (vecOp h [.v a] d mk, d)
  | .vidx h _ d mk => some (vecOp h [] d mk, d)
  | .vbcast h _ d a mk => some (vecOp h [.s a] d mk, d)
  | _ => none

/-- Frame of the vector instructions (R238 to R252): with registers that no port is bound to, the next state differs in V[D], the
flags of `fstat`, which only rise, the generator's state, the program counter and the count of instructions of the issuing thread
only. -/
def Obligations.VectorInstructionsChangeOneRegisterAndFlags : Prop :=
  ∀ (i : Instr) (o : Op) (d : VReg) (s : State) (c : Cx), vectorOp i = some (o, d) → s.takes o = some c →
    s.unbound c.aid (o.rd ++ o.wr) = true →
    ∃ (x : Vec) (fl : BitVec 6) (sd : BitVec 32) (t : State), exec i s = .next t ∧
      t = s.putTh c.aid { s.th c.aid with
        regs := { (s.th c.aid).regs with
          v := vwr (s.th c.aid).regs.v d.toNat x, fstat := (s.th c.aid).regs.fstat ||| fl, seed := sd }
        pc := (s.th c.aid).pc + BitVec.ofNat 64 o.len, seq := (s.th c.aid).seq + 1, marked := o.h.sw, parked := false
        entering := false } ∧
      (∀ r, r ≠ d → (t.th c.aid).rV r = (s.th c.aid).rV r) ∧ (∀ n, n ≠ c.aid → t.th n = s.th n) ∧ (∀ q, t.byte q = s.byte q)

/-- A byte lies in the run of bytes at a place. -/
def inRun (q p : Place) (n : Nat) : Bool :=
  match q, p with
  | .sp c x, .sp c' y => decide (c = c' ∧ y ≤ x ∧ x < y + n)
  | .phys x, .phys y => decide (y ≤ x ∧ x < y + n)
  | _, _ => false

/-- Frame of the stores (R222 to R228): a store in the issuer's own scratchpad changes the bytes at the place of its effective
address and no other byte, no register and no flag; one that is posted changes no byte when it issues. The place is what the
store's own look-up of its address gives. -/
def Obligations.StoresChangeOnlyTheirBytes : Prop :=
  (∀ (s s1 s2 : State) (aid : Nat) (a : Dword) (bs : List (Nat × Byte)) (k : MKind) (tag : Option Nat) (own : Bool) (fl : BitVec 6)
    (rs : List Run),
    s.memWf = true → s.writeRuns aid a bs k tag own = .done fl s2 →
    s.destOf aid ((byteRuns bs).map (fun r => (a + BitVec.ofNat 64 r.1, r.2))) = .places rs s1 →
    (∀ q, (∀ e ∈ rs, inRun q e.p e.bs.length = false) → s2.byte q = s.byte q) ∧
      (∀ e ∈ rs, rs.length = 1 → s2.bytes e.p e.bs.length = e.bs) ∧
      (∀ n, (s2.th n).regs = (s.th n).regs ∧ (s2.th n).pc = (s.th n).pc)) ∧
  (∀ (s : State) (core : Nat) (es : List JEnt) (q : Place), (s.postEnts core es).byte q = s.byte q)

/-! ### Vector instructions (R237 to R253) -/

/-- Number of active elements up to and with element `i`. -/
def drawsTo (m : BitVec 32) (w i : Nat) : Nat := ((List.range (i + 1)).filter (active m w)).length

/-- The generator's state after some draws (R73). -/
def drawn (x : BitVec 32) : Nat → BitVec 32
  | 0 => x
  | n + 1 => nextDraw (drawn x n)

/-- What a rounding vector instruction yields (R73, R74, R82, R238): each active element is the exact result of its operands
rounded once, under stochastic rounding with the draw that counts the active elements up to it; an inactive element keeps its old
value; the flags are those of the active elements; the generator has advanced once an active element. -/
def rounded (ty : Ty) (r : Rnd) (d : VReg) (mk : MReg) (val : Cx → Nat → Val × Flags) (c : Cx) (x : Vec × Staged) : Prop :=
  let w := tyBits ty
  let m := c.t.rM mk
  let rm := c.t.mode r
  let u (i : Nat) : Nat := if rm = .st then (drawn c.t.regs.seed (drawsTo m w i)).toNat else 0
  let code (i : Nat) : Nat × Flags := (tyFmt ty).encode rm (u i) (val c i).1
  (∀ i < nElems w, elem x.1 w i = if active m w i then (code i).1 % 2 ^ w else elem (c.oldV d) w i) ∧
    (∀ b < 6, x.2.fl.getLsbD b = true ↔
      ∃ i < nElems w, active m w i = true ∧ ((code i).2 ||| (val c i).2).getLsbD b = true) ∧
    x.2.seed = if rm = .st then drawn c.t.regs.seed (drawsTo m w (nElems w - 1)) else c.t.regs.seed

/-- V[D] written and the flags and the generator committed. -/
def commits (d : VReg) (c : Cx) (x : Vec × Staged) : State := (c.setV d x.1).commit c.aid x.2

/-- R241, R247: the arithmetic instructions and VSCALE, by element. VFMS and VFNMA negate the addend or the first factor of the
fused operation. -/
def Obligations.VectorArithmeticByElement : Prop :=
  ∀ (h : Hdr) (ty : Ty) (r : Rnd) (d a b e : VReg) (mk : MReg),
    let rm (c : Cx) : Rm := c.t.mode r
    let two (i : Instr) (f : Rm → Val → Val → Val × Flags) : Prop :=
      Yields i (vecOp h [.v a, .v b] d mk) (rounded ty r d mk (fun c i => f (rm c) (c.dec ty 0 i) (c.dec ty 1 i))) (commits d)
    let three (i : Instr) (f : Rm → Val → Val → Val → Val × Flags) : Prop :=
      Yields i (vecOp h [.v a, .v b, .v e] d mk)
        (rounded ty r d mk (fun c i => f (rm c) (c.dec ty 0 i) (c.dec ty 1 i) (c.dec ty 2 i))) (commits d)
    two (.vadd h ty r d a b mk) addVal ∧
    two (.vsub h ty r d a b mk) (fun rm x y => addVal rm x y.negate) ∧
    two (.vmul h ty r d a b mk) (fun _ => mulVal) ∧
    two (.vdiv h ty r d a b mk) (fun _ => divVal') ∧
    three (.vfma h ty r d a b e mk) fmaVal ∧
    three (.vfms h ty r d a b e mk) (fun rm x y z => fmaVal rm x y z.negate) ∧
    three (.vfnma h ty r d a b e mk) (fun rm x y z => fmaVal rm x.negate y z) ∧
    Yields (.vsqrt h ty r d a mk) (vecOp h [.v a] d mk) (rounded ty r d mk (fun c i => sqrtVal (c.dec ty 0 i))) (commits d) ∧
    Yields (.vscale h ty r d a b mk) (vecOp h [.v a, .v b] d mk)
      (rounded ty r d mk (fun c i => scaleVal (c.dec ty 0 i) (intOf true (tyBits ty) (elem (c.v 1) (tyBits ty) i)))) (commits d)

/-- What an instruction that computes each active element without rounding yields (R238): an inactive element keeps its old value. -/
def byElem (w : Nat) (d : VReg) (mk : MReg) (f : Cx → Nat → Nat) (c : Cx) (x : Vec) : Prop :=
  ∀ i < nElems w, elem x w i = if active (c.t.rM mk) w i then f c i % 2 ^ w else elem (c.oldV d) w i

/-- V[D] written, with no flag. -/
def plainV (d : VReg) (c : Cx) (x : Vec) : State := (c.setV d x).commit c.aid c.t.staged

/-- R242 to R244: VMIN and VMAX raise NV for a signalling NaN and do not round, VABS and VNEG only change the sign bit, and VCMP
writes a mask bit: of an active lane, whether the condition holds of all its elements. -/
def Obligations.VectorMinMaxSignAndCompare : Prop :=
  ∀ (h : Hdr) (ty : Ty) (d a b : VReg) (mk dm : MReg),
    let w := tyBits ty
    (∀ mx : Bool, Yields (if mx then .vmax h ty d a b mk else .vmin h ty d a b mk) (vecOp h [.v a, .v b] d mk)
      (fun c (x : Vec × Staged) =>
        let z (i : Nat) := minmaxVal mx ((tyFmt ty).decode (elem (c.v 0) w i)) ((tyFmt ty).decode (elem (c.v 1) w i))
        byElem w d mk (fun _ i => ((tyFmt ty).encode .rne 0 (z i).1).1) c x.1 ∧ x.2.seed = c.t.regs.seed ∧
          (∀ k < 6, x.2.fl.getLsbD k = true ↔
            ∃ i < nElems w, active (c.t.rM mk) w i = true ∧ (z i).2.getLsbD k = true)) (commits d)) ∧
    Yields (.vabs h ty d a mk) (vecOp h [.v a] d mk) (byElem w d mk (fun c i => elem (c.v 0) w i % 2 ^ (w - 1))) (plainV d) ∧
    Yields (.vneg h ty d a mk) (vecOp h [.v a] d mk) (byElem w d mk (fun c i =>
      if 2 ^ (w - 1) ≤ elem (c.v 0) w i then elem (c.v 0) w i - 2 ^ (w - 1) else elem (c.v 0) w i + 2 ^ (w - 1))) (plainV d) ∧
    (∀ cd, Yields (.vcmp h cd ty dm a b mk) { h := h, rd := [.v a, .v b], masks := [dm, mk] }
      (fun c (x : BitVec 32 × Flags) =>
        let z (i : Nat) := vcondHolds cd ty (elem (c.v 0) w i) (elem (c.v 1) w i)
        (∀ j < 32, x.1.getLsbD j =
          if w = 64 ∧ 16 ≤ j then false
          else if (c.t.rM mk).getLsbD j then (laneElems w j).all (fun i => (z i).1) else (c.t.rM dm).getLsbD j) ∧
        (∀ k < 6, x.2.getLsbD k = true ↔ ∃ j < 32, ¬(w = 64 ∧ 16 ≤ j) ∧ (c.t.rM mk).getLsbD j = true ∧
          ∃ i ∈ laneElems w j, (z i).2.getLsbD k = true))
      (fun c x => c.s.modTh c.aid (fun t => (t.wM dm x.1).orFlags x.2)))

/-- What a conversion yields (R74, R245): each active element that has a source element is its conversion, and one without is 0;
each active element draws. -/
def converted (dty sty : Ty) (r : Rnd) (d : VReg) (mk : MReg) (src : Cx → Nat → Option Nat) (c : Cx) (x : Vec × Staged) : Prop :=
  let w := tyBits dty
  let m := c.t.rM mk
  let rm := c.t.mode r
  let u (i : Nat) : Nat := if rm = .st then (drawn c.t.regs.seed (drawsTo m w i)).toNat else 0
  let y (i : Nat) : Nat × Flags := match src c i with
    | some v => convert sty dty rm (u i) v
    | none => (0, 0)
  (∀ i < nElems w, elem x.1 w i = if active m w i then (y i).1 % 2 ^ w else elem (c.oldV d) w i) ∧
    (∀ b < 6, x.2.fl.getLsbD b = true ↔ ∃ i < nElems w, active m w i = true ∧ (y i).2.getLsbD b = true) ∧
    x.2.seed = if rm = .st then drawn c.t.regs.seed (drawsTo m w (nElems w - 1)) else c.t.regs.seed

/-- R245, R246: VCVT, VPACK and VUNPK by element; VBXQ puts the codes of 32 FP32 elements into a block of D and their exponent pair
into a half of C; VBXD rounds the decoded elements of a block. That an element without a source draws as well is log 20; that D of VBXQ
is a source, and that C is written last when C is D, is DEDUCED (log 18). -/
def Obligations.VectorConversions : Prop :=
  ∀ (h : Hdr) (dty sty : Ty) (r : Rnd) (d a b : VReg) (part : BitVec 6) (mk : MReg) (bx4 : Bool),
    let ws := tyBits sty
    let ns := nElems ws
    Yields (.vcvt h dty sty r d a mk) (vecOp h [.v a] d mk)
      (converted dty sty r d mk (fun c i => if i < ns then some (elem (c.v 0) ws i) else none)) (commits d) ∧
    Yields (.vpack h dty sty r d a b mk) (vecOp h [.v a, .v b] d mk)
      (converted dty sty r d mk (fun c i =>
        if i < ns then some (elem (c.v 0) ws i) else if i < 2 * ns then some (elem (c.v 1) ws (i - ns)) else none)) (commits d) ∧
    Yields (.vunpk h dty sty r d a part mk) (vecOp h [.v a] d mk)
      (converted dty sty r d mk (fun c i => some (elem (c.v 0) ws (part.toNat * nElems (tyBits dty) + i)))) (commits d) ∧
    Completes (.vbxq h bx4 d a part b) { h := h, rd := [.v a, .v b, .v d], wr := [.v d, .v b] } always (fun c =>
      let q := bxQuant bx4 ((List.range 32).map (fun i => f32.decode (elem (c.v 0) 32 i)))
      let n := bxBits bx4
      let dv := putBits (c.v 2) (32 * n * part.toNat) (32 * n) (packNat n q.2.2.1)
      ((c.setV d dv).wrV c.aid b (putBits (if b = d then dv else c.v 1) (16 * part.toNat) 16 (q.1 + 256 * q.2.1))).modTh c.aid
        (fun t => t.orFlags q.2.2.2)) ∧
    (∀ v : Vec, ∀ lo n x i, lo + n ≤ 1024 → (putBits v lo n x).getLsbD i =
      if lo ≤ i ∧ i < lo + n then x.testBit (i - lo) else v.getLsbD i) ∧
    Completes (.vbxd h dty bx4 r d a part b mk) (vecOp h [.v a, .v b] d mk) always (fun c =>
      let x := mapVec (c.t.rM mk) (tyBits dty) (c.oldV d) c.t.staged (fun i g =>
        if i < 32 then g.enc (tyFmt dty) (c.t.mode r) (bxDecode bx4 (elem (c.v 1) 8 (2 * part.toNat))
          (elem (c.v 1) 8 (2 * part.toNat + 1)) (elem (c.v 0) (bxBits bx4) (32 * part.toNat + i)), 0)
        else (0, (g.draw (c.t.mode r)).2))
      (c.setV d x.1).commit c.aid x.2)

/-- R81, R248, R249, R250: VRED reduces the active elements, identities in place of the others, by the tree and writes element 0
only; VBDOT adds the tree sum of its blocks' terms to lane 0; VSACC adds scaled products of delivered accumulator rows to its
registers, and meets a row that is open with accumulator-open and one past the storage with accumulator-bounds. That D of VRED is a
source, and the sign of a block of +0 products in mode down, is DEDUCED (log 18). -/
def Obligations.VectorReductionsAndRowAccumulation : Prop :=
  ∀ (h : Hdr) (ty : Ty) (r : Rnd) (op : RedOp) (d a b e : VReg) (sa : SReg) (bs : BlockSize) (st : ScaleTy) (dbl : Bool)
    (n1 : BitVec 2) (mk : MReg),
    let w := tyBits ty
    let f := tyFmt ty
    Completes (.vred h op ty r d a mk) (vecOp h [.v a, .v d] d mk) always (fun c =>
      let xs := (List.range (nElems w)).map (fun i => if active (c.t.rM mk) w i then elem (c.v 0) w i else redUnit f op)
      let x := treeReduce (redStep f op (c.t.mode r)) (Nat.log2 (nElems w)) c.t.staged xs
      (c.setV d (putBits (c.v 1) 0 w x.1)).commit c.aid x.2) ∧
    Completes (.vbdot h ty r bs st d a b e mk) (vecOp h [.v a, .v b, .v e, .v d] d mk) always (fun c =>
      let n := nElems w / blockSize bs
      let ts := dotBlocks c ty (c.t.mode r) (blockSize bs) st (c.t.rM mk) n 0 c.t.staged
      let x := treeReduce (redStep f32 .add (c.t.mode r)) (Nat.log2 n) ts.2 ts.1
      let y := redStep f32 .add (c.t.mode r) x.2 (elem (c.v 3) 32 0) x.1
      (c.setV d (putBits (c.v 3) 0 32 y.1)).commit c.aid y.2) ∧
    (let ds := vsaccDests dbl d n1
     let o : Op := { h := h, rd := [.s sa, .v e], nob := ds.map Nm.v ++ (if dbl then [.v b, .v (b + 1)] else [.v b])
                     masks := [mk], heavy := true }
     let bad (c : Cx) : Bool := decide ((c.s.core c.core).accRows < (c.x 0).toNat + ds.length ∨ (dbl = true ∧ (c.x 0).toNat % 2 = 1))
     let opn (c : Cx) : Bool := (List.range ds.length).any (fun i => ((c.s.core c.core).row ((c.x 0).toNat + i)).opn)
     Completes (.vsacc h dbl r d sa b e n1 mk) o (fun c => !bad c && !opn c) (fun c =>
      let x := c.vsaccRegs dbl (c.t.mode r) b mk (c.x 0).toNat 0 ds c.t.staged
      (x.1.foldl (fun s k => s.modTh c.aid (fun t => t.wV k.1 k.2)) c.s).commit c.aid x.2) ∧
     Raises (.vsacc h dbl r d sa b e n1 mk) o bad (fun _ => { cause := 23 }) ∧
     Raises (.vsacc h dbl r d sa b e n1 mk) o (fun c => !bad c && opn c) (fun _ => { cause := 34 }))

/-- R251: the integer and bitwise instructions by element: sums, differences and products modulo 2^w, clamped with .sat, the high
half of a product with .hi, and shifts whose amount is taken modulo the width or from the field. -/
def Obligations.VectorIntegerByElement : Prop :=
  ∀ (h : Hdr) (ty : Ty) (d a b : VReg) (mk : MReg) (x : Bool) (n : VAmt),
    let w := tyBits ty
    let sg := isSigned ty
    let z (k : Nat) (c : Cx) (i : Nat) : Int := intOf sg w (elem (c.v k) w i)
    let wrap (y : Int) : Nat := (y % (2 ^ w : Nat)).toNat
    let cl (y : Int) : Int := if x then max (intMin sg w) (min (intMax sg w) y) else y
    let two (i : Instr) (f : Cx → Nat → Nat) : Prop := Yields i (vecOp h [.v a, .v b] d mk) (byElem w d mk f) (plainV d)
    let bit (i : Instr) (f : Nat → Nat → Nat) : Prop := two i (fun c j => f (elem (c.v 0) w j) (elem (c.v 1) w j))
    let sh (i : Instr) (f : Nat → Nat → Nat) : Prop :=
      Yields i (vecOp h (.v a :: vamtNames n) d mk) (byElem w d mk (fun c j => f (elem (c.v 0) w j) (match n with
        | .reg _ => elem (c.v 1) w j % w
        | .imm k => k.toNat))) (plainV d)
    two (.viadd h x ty d a b mk) (fun c i => wrap (cl (z 0 c i + z 1 c i))) ∧
    two (.visub h x ty d a b mk) (fun c i => wrap (cl (z 0 c i - z 1 c i))) ∧
    two (.vimul h x ty d a b mk) (fun c i => wrap (if x then z 0 c i * z 1 c i / (2 ^ w : Nat) else z 0 c i * z 1 c i)) ∧
    two (.vimin h ty d a b mk) (fun c i => if z 0 c i ≤ z 1 c i then elem (c.v 0) w i else elem (c.v 1) w i) ∧
    two (.vimax h ty d a b mk) (fun c i => if z 0 c i ≤ z 1 c i then elem (c.v 1) w i else elem (c.v 0) w i) ∧
    bit (.vand h ty d a b mk) (· &&& ·) ∧ bit (.vor h ty d a b mk) (· ||| ·) ∧ bit (.vxor h ty d a b mk) (· ^^^ ·) ∧
    sh (.vshl h ty d a n mk) (fun y k => y * 2 ^ k) ∧
    sh (.vshr h ty d a n mk) (fun y k => y / 2 ^ k) ∧
    sh (.vsar h ty d a n mk) (fun y k => wrap (intOf true w y / (2 ^ k : Nat)))

/-- R252: permutation, broadcast, selection, moves and the index, by element; VMOV.tov changes one element and VMOV.tos reads one. -/
def Obligations.VectorMovesByElement : Prop :=
  ∀ (h : Hdr) (ty : Ty) (d a b : VReg) (sd sa : SReg) (e : BitVec 6) (mk : MReg),
    let w := tyBits ty
    Yields (.vperm h ty d a b mk) (vecOp h [.v a, .v b] d mk) (byElem w d mk (fun c i =>
      if elem (c.v 1) w i < nElems w then elem (c.v 0) w (elem (c.v 1) w i) else 0)) (plainV d) ∧
    Yields (.vbcast h ty d sa mk) (vecOp h [.s sa] d mk) (byElem w d mk (fun c _ => (c.x 0).toNat)) (plainV d) ∧
    Yields (.vsel h ty d a b mk) (vecOp h [.v a, .v b] d mk) (fun c (x : Vec) => ∀ i < nElems w,
      elem x w i = if active (c.t.rM mk) w i then elem (c.v 0) w i else elem (c.v 1) w i) (fun c x => c.setV d x) ∧
    Yields (.vmov h ty d a mk) (vecOp h [.v a] d mk) (byElem w d mk (fun c i => elem (c.v 0) w i)) (plainV d) ∧
    Yields (.vidx h ty d mk) (vecOp h [] d mk) (byElem w d mk (fun _ i => i)) (plainV d) ∧
    Completes (.vmovTos h ty sd a e) { h := h, rd := [.v a], wr := [.s sd] } always
      (fun c => c.setS sd (BitVec.ofNat 64 (elem (c.v 0) w e.toNat))) ∧
    (w * e.toNat + w ≤ 1024 → Yields (.vmovTov h ty d sa e) { h := h, rd := [.s sa, .v d], wr := [.v d] } (fun c (x : Vec) =>
      ∀ i < nElems w, elem x w i = if i = e.toNat then (c.x 0).toNat % 2 ^ w else elem (c.v 1) w i) (fun c x => c.setV d x))

/-- R38, R253: the mask instructions; m0 reads as ones and a write to it is ignored. -/
def Obligations.MaskResults : Prop :=
  ∀ (h : Hdr) (d a b : MReg) (sd sa : SReg),
    let put (f : Cx → BitVec 32) (c : Cx) : State := c.s.modTh c.aid (fun t => t.wM d (f c))
    Completes (.mand h d a b) { h := h, masks := [d, a, b] } always (put (fun c => c.t.rM a &&& c.t.rM b)) ∧
    Completes (.mor h d a b) { h := h, masks := [d, a, b] } always (put (fun c => c.t.rM a ||| c.t.rM b)) ∧
    Completes (.mnot h d a) { h := h, masks := [d, a] } always (put (fun c => ~~~(c.t.rM a))) ∧
    Completes (.morFs h d sa) { h := h, rd := [.s sa], masks := [d] } always (put (fun c => (c.x 0).setWidth 32)) ∧
    Yields (.mpopc h sd a) { h := h, wr := [.s sd], masks := [a] } (fun c (x : Dword) =>
      x.toNat = ((List.range 32).map (fun i => ((c.t.rM a).getLsbD i).toNat)).sum) (fun c x => c.setS sd x) ∧
    Completes (.mpopcRaw h sd a) { h := h, wr := [.s sd], masks := [a] } always (fun c => c.setS sd ((c.t.rM a).setWidth 64)) ∧
    (∀ (t : Thread) (x : BitVec 32) (n : MReg),
      (t.wM d x).rM n = if n = 0 then BitVec.allOnes 32 else if n = d then x else t.rM n)

/-! ### Operand memory, the array and accumulator rows (R257 to R269) -/

/-- R108, R259, R260: a claim joins the order of its core's operand memory with its result outstanding; the claim that stands
first takes the lowest free slots, or those of its mask, once all are free (and, the model's choice of log 5, once no earlier
operation of its thread can raise), and they read as zero; ORELEASE of slots that the thread owns, none of them being filled, frees
them; of another slot it raises operand-bounds, and of one being filled unmarked-use. -/
def Obligations.OperandSlotsClaimedAndReleased : Prop :=
  ∀ (h : Hdr) (d a : SReg) (n1 : BitVec 5),
    let claims (i : Instr) (o : Op) (p : Cx → Bool) (n : Nat) (m : Cx → Option (BitVec 32)) : Prop :=
      Joins i o p (fun c => c.s.modCore c.core (fun k => { k with claims := k.claims ++ [⟨c.aid, c.t.seq, n, m c⟩] }))
        (fun c => .oclaim d n (m c) none) [.s d]
    let owns (c : Cx) (i : Nat) : Bool := (c.s.core c.core).slotOwner i == some c.aid
    let reOp : Op := { h := h, rd := [.s a], heavy := true, noHandler := true }
    let named (c : Cx) : List Nat := slotsOf ((c.x 0).setWidth 32)
    claims (.oclaim h d n1) { h := h, wr := [.s d], heavy := true, noHandler := true, long := true } always (n1.toNat + 1)
      (fun _ => none) ∧
    claims (.oclaimM h d a) { h := h, rd := [.s a], wr := [.s d], heavy := true, noHandler := true, long := true }
      (fun c => decide ((c.x 0).toNat < 2 ^ 32) && c.x 0 != 0 && !(named c).any (owns c)) 0
      (fun c => some ((c.x 0).setWidth 32)) ∧
    Completes (.orelease h a) reOp (fun c => decide ((c.x 0).toNat < 2 ^ 32) && (named c).all (owns c) && !(named c).any c.t.filling)
      (fun c => ((named c).foldl (fun s i => s.record c.aid c.t.seq (.slot i (vrd (s.core c.core).opm i))) c.s).modCore c.core
        (fun k => { k with opm := (named c).foldl (fun v i => vwr v i ⟨none, []⟩) k.opm })) ∧
    Raises (.orelease h a) reOp (fun c => decide ((c.x 0).toNat < 2 ^ 32) && !(named c).all (owns c)) (fun _ => { cause := 22 }) ∧
    Raises (.orelease h a) reOp
      (fun c => decide ((c.x 0).toNat < 2 ^ 32) && (named c).all (owns c) && (named c).any c.t.filling) (fun _ => { cause := 5 }) ∧
    (∀ (core : Nat) (s : State) (c : Claim) (r : List Claim) (l : List Nat), s.here core = true →
      (s.core core).claims = c :: r → ((s.th c.aid).before c.seq 0).all (fun o => o.op.quiet) = true →
      s.claimSlots core c = some l →
      ∃ t, exec (.oclaimServe core) s = .next t ∧ (t.core core).claims = r ∧
        (∀ i ∈ l, i < 32 → vrd (t.core core).opm i = ⟨some c.aid, []⟩) ∧
        (∀ i, i ∉ l → vrd (t.core core).opm i = vrd (s.core core).opm i) ∧ (∀ q, t.byte q = s.byte q)) ∧
    (∀ (s : State) (core : Nat) (c : Claim) (l : List Nat), c.mask = none → s.claimSlots core c = some l →
      l.length = c.n ∧ (∀ i ∈ l, i < 32 ∧ (s.core core).slotOwner i = none) ∧
        (∀ i j, i < j → j ∈ l → (s.core core).slotOwner i = none → s.slotKept core i = false → i ∈ l))

/-- R262 to R266: WLATCH and MMA leave the rotation for the array's queue; the array latches the slot's bytes, opens the rows of an
MMA that passes its checks, and in its close step delivers them or leaves them open with 64 steps more, each time returning the
thread. A slot with an uncorrectable soft error raises a segment exception instead (R390; that it does so at the array, log 56). -/
def Obligations.ArrayInstructions : Prop :=
  ∀ (h : Hdr) (ty : Ty) (mode : MmaMode) (a b : SReg) (slot : BitVec 5) (n1 : BitVec 9),
    let queue (i : Instr) (rd : List Nm) (x y : Cx → Dword) : Prop :=
      Leaves i { h := h, len := 16, rd := rd, heavy := true, noHandler := true, first := true } always (fun c =>
        (c.s.modCore c.core (fun k => { k with arrq := k.arrq ++ [⟨c.saved, c.aid, c.pc, c.npc, i, x c, y c, false⟩] })).modTh c.aid
          (fun t => { t with inRot := false, parked := false }))
    queue (.wlatch h ty slot) [] (fun _ => 0) (fun _ => 0) ∧
    queue (.mma h ty mode a b slot n1) [.s a, .s b] (·.x 0) (·.x 1) ∧
    (∀ (core : Nat) (s : State) (o : ArrOp) (r : List ArrOp), s.here core = true → (s.core core).arrq = o :: r →
      let k := s.core core
      let n := slot.toNat
      let rows := mmaRows (ty == .f64) o.a.toNat (n1.toNat + 1)
      (o.instr = .wlatch h ty slot → k.slotOwner n = some o.aid → (s.th o.aid).filling n = false → s.slotBad core n = false →
        ∃ t, exec (.arrayPerform core) s = .next t ∧ (t.core core).latch = some ⟨o.aid, ty, (vrd k.opm n).bytes⟩ ∧
          (t.core core).arrq = r ∧ (t.th o.aid).inRot = true ∧ (t.th o.aid).pc = o.npc) ∧
      (o.instr = .mma h ty mode a b slot n1 → o.opened = false →
        k.mmaCheck (s.th o.aid) o.aid ty mode n o.a.toNat o.b.toNat (n1.toNat + 1) = 0 → s.slotBad core n = false →
        ∃ t, exec (.arrayPerform core) s = .next t ∧ (∀ x ∈ rows, ((t.core core).row x).opn = true ∧
          ((t.core core).row x).owner = some o.aid) ∧ (t.core core).arrq = { o with opened := true } :: r) ∧
      (∀ l, o.instr = .mma h ty mode a b slot n1 → o.opened = true → k.latch = some l →
        ∃ t, exec (.arrayPerform core) s = .next t ∧
          (t.core core).acc = (k.mmaClose o.aid ty mode l n (n1.toNat + 1) o.a.toNat o.b.toNat).1.acc ∧
          (t.core core).arrq = r ∧ (t.th o.aid).inRot = true ∧ (t.th o.aid).pc = o.npc) ∧
      (o.instr = .wlatch h ty slot → k.slotOwner n = some o.aid → (s.th o.aid).filling n = false → s.slotBad core n = true →
        exec (.arrayPerform core) s = .next ((s.putCore core { k with arrq := r }).arrayRaise o { cause := 9, note := .soft })))

/-- R110, R267 to R269, R184: ACCZ delivers rows of zeros, ACCRD reads and ACCWR writes a row, MSTAT reads the counts and clears
them; a row past the storage is accumulator-bounds and one that is open for ACCRD.f32 accumulator-open. -/
def Obligations.AccumulatorRows : Prop :=
  ∀ (h : Hdr) (a b d : SReg) (v : VReg) (half : Option Bool) (mk : MReg),
    let k (c : Cx) : Core := c.s.core c.core
    let r (c : Cx) : Nat := (c.x 0).toNat
    let row (c : Cx) : AccRow := (k c).row (r c)
    let mine (c : Cx) : Bool := if half.isSome then !(row c).opn || (row c).owner == some c.aid else !(row c).opn
    let w : Nat := if half.isSome then 64 else 32
    let zOp : Op := { h := h, rd := [.s a, .s b], heavy := true, noHandler := true }
    let rdOp : Op := { h := h, rd := [.s a], wr := [.v v], masks := [mk], heavy := true, noHandler := true }
    let wrOp : Op := { h := h, rd := [.s a, .v v], masks := [mk], heavy := true, noHandler := true }
    let msOp : Op := { h := h, wr := [.s d], heavy := true, noHandler := true, first := true }
    let out (c : Cx) : Bool := decide ((k c).accRows ≤ r c)
    let rows (c : Cx) : List Nat := (List.range (c.x 1).toNat).map (fun i => r c + i)
    Completes (.accz h a b) zOp (fun c => decide (r c + (c.x 1).toNat ≤ (k c).accRows) && decide (0 < (c.x 1).toNat) &&
        (rows c).all (fun x => !((k c).row x).opn || ((k c).row x).owner == some c.aid))
      (fun c => (c.noteRows (rows c)).putCore c.core ((rows c).foldl (fun k x => k.setRow x zeroRow) (k c))) ∧
    Completes (.accz h a b) zOp (fun c => c.x 1 == 0) (·.s) ∧
    Raises (.accz h a b) zOp (fun c => decide (0 < (c.x 1).toNat) && decide ((k c).accRows < r c + (c.x 1).toNat))
      (fun _ => { cause := 23 }) ∧
    Raises (.accz h a b) zOp (fun c => decide (r c + (c.x 1).toNat ≤ (k c).accRows) && decide (0 < (c.x 1).toNat) &&
      (rows c).any (fun x => ((k c).row x).opn && ((k c).row x).owner != some c.aid)) (fun _ => { cause := 36 }) ∧
    YieldsIf (.accrd h half v a mk) rdOp (fun c => !out c && mine c) (byElem w v mk (fun c i =>
        (vrd (row c).cells (match half with
          | some hf => 16 * hf.toNat + i
          | none => i)).toNat)) (fun c x => c.setV v x) ∧
    Raises (.accrd h half v a mk) rdOp out (fun _ => { cause := 23 }) ∧
    Raises (.accrd h half v a mk) rdOp (fun c => !out c && !mine c) (fun _ => { cause := 34 }) ∧
    YieldsIf (.accwr h half a v mk) wrOp (fun c => !out c && (!(row c).opn || (row c).owner == some c.aid))
      (fun c (x : AccRow) =>
        (half.isSome = true → x.opn = (row c).opn ∧ x.owner = (row c).owner ∧ x.steps = (row c).steps) ∧
        (half = none → x.opn = false) ∧
        ∀ j < 32, vrd x.cells j = (match half with
          | some hf => if j / 16 = hf.toNat ∧ active (c.t.rM mk) 64 (j % 16) = true then
              BitVec.ofNat 64 (elem (c.v 1) 64 (j % 16)) else vrd (row c).cells j
          | none => if active (c.t.rM mk) 32 j then BitVec.ofNat 64 (elem (c.v 1) 32 j) else vrd (row c).cells j))
      (fun c x => (c.noteRows [r c]).putCore c.core ((k c).setRow (r c) x)) ∧
    Raises (.accwr h half a v mk) wrOp out (fun _ => { cause := 23 }) ∧
    Raises (.accwr h half a v mk) wrOp (fun c => !out c && (row c).opn && (row c).owner != some c.aid) (fun _ => { cause := 36 }) ∧
    Completes (.mstat h d) msOp (fun c => !c.s.flagsPending c.aid)
      (fun c => (c.setS d (BitVec.ofNat 64 (c.t.regs.ovwc.toNat * 2 ^ 32 + c.t.regs.nanc.toNat))).modTh c.aid
        (fun t => { t with regs := { t.regs with nanc := 0, ovwc := 0 } })) ∧
    Completes (.mstatPeek h d) msOp (fun c => !c.s.flagsPending c.aid)
      (fun c => c.setS d (BitVec.ofNat 64 (c.t.regs.ovwc.toNat * 2 ^ 32 + c.t.regs.nanc.toNat)))

/-! ### Ports (R97 to R107, R270 to R275) -/

/-- R97, R98, R100, R103, R270 to R272: PBIND of a free link, queue or open network port adds a binding, and of an affine stream
whose descriptor reads and passes its checks a binding of its stream; a bound name, or a port end that is held, is port-busy.
PUNBIND removes the binding, once every pushed element is written, and the register reads as zero; PDRAIN of an input discards and
counts what it holds, and of an output waits for what was pushed before it. That neither waits for an OFILL.s or EMBPOOL of the name is
log 30's choice. -/
def Obligations.BindingsMadeAndEnded : Prop :=
  ∀ (h : Hdr) (d : SReg) (name : PName) (out fwd : Bool),
    let free (p : PortSel) (c : Cx) : Bool := (c.s.bindOf c.aid name).isNone &&
      !(portEnds out fwd p).any ((c.s.core c.core).binds.flatMap Binding.ends).contains
    let pbOp (l : Nat) (rd : List Nm) : Op :=
      { h := h, len := l, rd := rd, heavy := true, noHandler := true, first := true, mem := true }
    let add (c : Cx) (s : State) (fwd : Bool) (x : PortKind) : State :=
      s.modCore c.core (fun k => { k with binds := k.binds ++ [⟨c.aid, name, out, fwd, x⟩] })
    let plain : Op := { h := h, heavy := true, noHandler := true, mem := true }
    let drainOp : Op := { h := h, wr := [.s d], heavy := true, noHandler := true, long := true, mem := true }
    let ends (i : Instr) (s : State) (c : Cx) (f : State) : Prop :=
      ∃ t, c.posted f = some t ∧ exec i s = .next (t.finish c.aid c.npc h.sw)
    (∀ east x, Completes (.pbind h name out fwd (.link east x)) (pbOp (if x then 12 else 8) [])
      (fun c => free (.link east x) c && (c.s.linkPeer c.core east).isSome && (!fwd || (c.s.linkPeer c.core (!east)).isSome))
      (fun c => add c c.s fwd (.link east))) ∧
    (∀ n x, Completes (.pbind h name out fwd (.queue n x)) (pbOp (if x then 12 else 8) []) (free (.queue n x))
      (fun c => add c c.s false (.queue n.toNat))) ∧
    (∀ n x, Completes (.pbind h name out fwd (.net n x)) (pbOp (if x then 12 else 8) [])
      (fun c =>
        let q := vrd (c.s.core c.core).net n.toNat
        free (.net n x) c && q.opens out && !q.lands && q.opener == some c.aid)
      (fun c => add c c.s false (.net n.toNat))) ∧
    (∀ sg a imm s c, s.takes (pbOp (if imm.isSome then 12 else 8) (optS a)) = some c → free (.affine sg a imm) c = true →
      let va := c.ea ⟨sg, a, none, 0, imm⟩ 0
      c.s.chkSeg c.t sg va 32 32 true false = none → c.s.chkSp c.t va 32 = none → c.s.wordBusy c.aid va 32 = false →
      ∀ q s1 x s2 st, c.s.placeFor c.aid va 32 .read false = .ok q s1 → s1.plainRead c.aid c.core false q 32 = .ok (x, s2) →
      readDesc out (descDwords (s1.bytes q 32)) (fun g => (s2.seg c.t g).base) = some st → st.misaligned = none →
      s2.streamOk c.t out st = true → (s2.core c.core).affines < 8 →
      ends (.pbind h name out fwd (.affine sg a imm)) s c (add c s2 false (.affine { st with since := c.t.seq }))) ∧
    (∀ n x, Raises (.pbind h name out fwd (.queue n x)) (pbOp (if x then 12 else 8) []) (fun c => !free (.queue n x) c) (fun _ => { cause := 17 })) ∧
    Completes (.punbind h name) plain
      (fun c => match c.s.bindOf c.aid name with
        | some b => (match b.port with
          | .affine st => st.unwr.isEmpty
          | _ => true)
        | none => false)
      (fun c => (c.s.modCore c.core (fun k =>
        { k with binds := k.binds.filter (fun b => !(b.aid == c.aid && b.name == name)) })).modTh c.aid (fun t => t.clearName name)) ∧
    Completes (.punbind h name) plain (fun c => (c.s.bindOf c.aid name).isNone) (·.s) ∧
    Joins (.pdrain h d name) drainOp (fun c => (c.s.bindOf c.aid name).isNone) (·.s) (fun _ => .known d 0) [.s d] ∧
    (∀ s c b, s.takes drainOp = some c → c.s.bindOf c.aid name = some b →
      let k := c.s.core c.core
      let gone (f : State) (op : LongOp) : Prop := ends (.pdrain h d name) s c
        (f.modTh c.aid (fun t => { t with outst := t.outst ++ [({ c with s := f } : Cx).outst op [.s d]] }))
      let counted (f : State) (n : Nat) : Prop := gone f (.known d (BitVec.ofNat 64 n))
      (b.out = true → gone c.s (.drain d b.port)) ∧
      (b.out = false →
        (∀ st, b.port = .affine st → counted (c.s.putBind { b with port := .affine { st with taken := st.total, ahead := [] } })
          (st.total - st.taken)) ∧
        (∀ east, b.port = .link east → counted ((c.drained (.link east) (k.linkIn east)).modCore c.core
          (fun k => k.setLinkIn east [])) (k.linkIn east).length) ∧
        (∀ n, b.port = .queue n → counted ((c.drained (.queue n) (vrd k.sq n)).modCore c.core
          (fun k => { k with sq := vwr k.sq n [] })) (vrd k.sq n).length) ∧
        (∀ n, b.port = .net n →
          let es := (vrd k.net n).q.filter (fun e => !e.close)
          counted ((c.drained (.net n) es).putNet c.core n { vrd k.net n with q := (vrd k.net n).q.filter (·.close) }) es.length)))

/-- R102, R119: when no store of the thread that stands before it and touches it is still on its way, and no acquire, the stream
unit reads the next element of an input stream ahead of its pop, behind those it holds, and writes the oldest pushed element of an
output stream. R273 to R275: a closed port is opened for listening or landing; SPOPEN.out joins the outstanding set, and its status
is 0 when the route reaches a listening port, which then receives from it, 1 when the port does not listen, 2 when it receives from
another sender and 3 when the core cannot be reached (log 36) or a router does not grant the route (which is free: log 12); SPCLOSE closes a
port that is open, unbound and the issuer's, and a sending one sends its closing flit; of a closed port it raises port-closed (log 39). An
element lands in its ring when its granules are empty, and a closing flit makes the port listen again. What a read ahead waits for is log
37's reading. -/
def Obligations.StreamMovesAndNetworkPorts : Prop :=
  ((∀ (core n : Nat) (s s1 : State) (b : Binding) (st : Stream) (x : Dword × List WordKey),
    (s.core core).binds[n]? = some b → b.port = .affine st → b.out = false → st.taken + st.ahead.length < st.total →
    s.elemBusy b.aid st.since (st.addr (st.taken + st.ahead.length)) (2 ^ st.size) = false →
    s.elemHeld b.aid st.since (st.addr (st.taken + st.ahead.length)) (2 ^ st.size) = false →
    s.here core = true → s.elemRead b.aid st (st.taken + st.ahead.length) = .ok x s1 →
    exec (.streamElementRead core n) s = .next (s1.putBind { b with port := .affine { st with ahead := st.ahead ++ [x] } }).consume) ∧
  (∀ (core n : Nat) (s s1 : State) (b : Binding), (s.core core).binds[n]? = some b → s.here core = true →
    (∀ st e r, b.port = .affine st → st.unwr = e :: r → s.elemGoes b.aid e.1 e.2.1 (2 ^ st.size) = true) →
    s.elemWrite b = .ok () s1 → exec (.streamElementWrite core n) s = .next s1)) ∧
  (∀ (h : Hdr) (d a b : SReg) (port : BitVec 2),
    let i := port.toNat
    let p (c : Cx) : NetPort := vrd (c.s.core c.core).net i
    let idle (c : Cx) : Bool := !c.t.porting i
    let closed (c : Cx) : Bool := (p c).st == .closed
    let opn : Op := { h := h, heavy := true, noHandler := true }
    let outOp : Op := { h := h, rd := [.s a, .s b], wr := [.s d], heavy := true, noHandler := true, long := true }
    let landOp : Op := { h := h, rd := [.s a, .s b], heavy := true, noHandler := true }
    let port_ (c : Cx) (t : State) : NetPort := vrd (t.core c.t.core).net i
    let off (c : Cx) : Nat := (windowOf c.core (c.x 0)).2
    Sends (.spopenIn h port) opn (fun c => idle c && closed c) (·.s) (fun _ => .listen i none)
      (fun c t => port_ c t = { port_ c c.s with st := .listening, opener := some c.aid, q := [] }) ∧
    Raises (.spopenIn h port) opn (fun c => idle c && !closed c) (fun _ => { cause := 17 }) ∧
    Joins (.spopenOut h d a b port) outOp
      (fun c => idle c && closed c && decide ((c.x 1).toNat < 4) && c.s.inPanel c.t.ltag (c.x 0).toNat) (·.s)
      (fun c => .route d i (c.x 0).toNat (c.x 1).toNat) [.s d] ∧
    Sends (.spopenLand h a b port) landOp
      (fun c => idle c && closed c && decide ((c.x 0).toNat % 128 = 0 ∧ (c.x 1).toNat ≠ 0 ∧ (c.x 1).toNat % 128 = 0) &&
        (c.s.chkSeg c.t 0 (c.x 0) (c.x 1).toNat 128 false true).isNone && c.s.isOwn c.t (c.x 0) &&
        c.s.ownOk c.t (c.x 0) (c.x 1).toNat) (·.s)
      (fun c => .listen i (some (off c, (c.x 1).toNat)))
      (fun c t => port_ c t = ⟨.landing none, some c.aid, [], off c, (c.x 1).toNat, 0, 0, []⟩) ∧
    Sends (.spclose h port) opn (fun c => idle c && (p c).opener == some c.aid && !(c.s.core c.core).netBound i &&
      (match (p c).st with
        | .listening | .sending _ _ | .landing none => true
        | _ => false)) (·.s) (fun _ => .close i)
      (fun c t => (port_ c t).st = .closed ∧ ∀ d dp, (port_ c c.s).st = .sending d dp → t.flows = c.s.flows ++
        [⟨c.t.core, c.aid, (c.s.core c.t.core).ltag, d, .element dp ⟨true, false, 0, [], (port_ c c.s).route, (port_ c c.s).path, 0⟩ c.t.core i⟩]) ∧
    Raises (.spclose h port) opn (fun c => idle c && closed c) (fun _ => { cause := 37 }) ∧
    (∀ (core n : Nat) (s : State) (x : Option (Nat × Nat)) (e : NetEl) (r : List NetEl), s.here core = true →
      (vrd (s.core core).net n).st = .landing x → (vrd (s.core core).net n).q = e :: r → e.close = false →
      ((vrd (s.core core).net n).slotsFor e).all (fun g => !s.isFull core (g.1 / 16)) = true →
      exec (.networkElementLand core n) s = .next (s.landElement core n (vrd (s.core core).net n) e r)) ∧
    (∀ (core n x y : Nat) (s : State) (e : NetEl) (r : List NetEl),
      (vrd (s.core core).net n).st = .receiving x y → (vrd (s.core core).net n).q = e :: r → e.close = true →
      exec (.closingFlit core n) s = .next (s.putNet core n { vrd (s.core core).net n with st := .listening, q := r }))) ∧
  (∀ (s : State) (aid q n dst dp : Nat) (d : SReg),
    let t := s.th aid
    let ps := vrd (s.core dst).net dp
    let away : Prop := (s.core dst).ltag ≠ t.ltag ∨ s.absent t.ltag dst = true ∨
      (dst ≠ t.core ∧ s.way true (t.kind == .super) (s.port t) (clusterOf (s.phys dst)) ≠ .through)
    let status (x : Nat) (s1 : State) : Prop :=
      s.longVal aid q (.route d n dst dp) = .ok ⟨[(.s d, BitVec.ofNat 1024 x)], 0⟩ s1
    (away → status 3 s) ∧
    (¬ away → ps.st = .closed → status 1 s) ∧
    (¬ away → ∀ x y, ps.st = .receiving x y → (x ≠ t.core ∨ y ≠ n) → status 2 s) ∧
    (¬ away → ps.st = .listening →
      let s1 : State := { s with free := s.free + 1 }
      let s2 := ({ s1 with order := s.order + 1 } : State).putNet dst dp { ps with st := .receiving t.core n, route := s.order + 1 }
      if Config.routeGranted s.free = true then
        status 0 (s2.putNet t.core n { vrd (s2.core t.core).net n with
          st := .sending dst dp, opener := some aid, q := [], route := s.order + 1
          path := s.heldPath (s.port t) (clusterOf (s.phys dst)) })
      else status 3 s1))

/-! ### Tree types, key tables and positions (R279 to R295) -/

/-- R280 to R289: TRSET installs a tree type on every core of the panel, as a release; the posted operations take one journal entry
with their converted lanes, whose flags commit at issue; an entry that is sent performs at its owner; KSCAN, which follows the
thread's earlier key-table operations, ends the region and returns the first entry at or after its cursor and the cursor past it, or
all ones; HPOS gives the point of a key. A node that is not there is a tree exception. -/
def Obligations.KeyTableInstructions : Prop :=
  ∀ (h : Hdr) (d a e : SReg) (b : Option SReg) (v : VReg) (ty : Ty) (r : Rnd) (tr : BitVec 2) (nd : BitVec 4) (e0 e1 : BitVec 16)
    (mk : MReg) (m : MemOp),
    let node (c : Cx) (chk : Bool) (t : Option Ty) : Option TreeNode := c.node tr.toNat nd.toNat chk t
    let rm (c : Cx) : Rm := c.t.modeNoSt r
    let lanes (c : Cx) (chk : Bool) (k : BitVec 32) (i : Nat) : List (Option (BitVec 80)) × BitVec 6 :=
      match node c chk (some ty) with
      | some n => keyLanes n ty (rm c) k (c.v i) (c.v (i + 1))
      | none => ([], 0)
    let post (i : Instr) (o : Op) (chk : Bool) (t : Option Ty) (fl : Cx → BitVec 6) (op : Cx → JOp) : Prop :=
      Entries i o (fun c => (node c chk t).isSome) (fun c => c.s.modTh c.aid (fun t => t.orFlags (fl c))) (fun c => [op c]) ∧
        Raises i o (fun c => (node c chk t).isNone) (fun _ => { cause := 24 })
    let accOp : Op := { h := h, len := 16, rd := .s a :: keyRegs ty v, masks := [mk], mem := true }
    let putOp : Op := { h := h, rd := [.s a] ++ optS b ++ keyRegs ty v, mem := true }
    let aOp : Op := { h := h, rd := [.s a], mem := true }
    let scOp : Op := { h := h, rd := [.s a], wr := [.s d, .s e], mem := true, sync := true }
    let scan (c : Cx) : Option (Nat × KeyEnt) := (c.s.core c.core).scan tr.toNat nd.toNat (c.x 0).toNat
      (match c.s.launch? c.t.ltag with
       | some l => 8 * l.buckets
       | none => 0)
    post (.kacc h ty r a v tr nd e0 e1 mk) accOp false (some ty) (fun c => (lanes c false (c.t.rM mk) 1).2) (fun c =>
      .key 0 tr.toNat nd.toNat (c.x 0) (lanes c false (c.t.rM mk) 1).1 (e0.signExtend 64) (rndOf (rm c)) e1) ∧
    (let x (c : Cx) : List (Option (BitVec 80)) × BitVec 6 := lanes c true (BitVec.allOnes 32) (if b.isSome then 2 else 1)
     post (.kput h ty r a b v tr nd) putOp true (some ty) (fun c => (x c).2)
       (fun c => .key 1 tr.toNat nd.toNat (c.x 0) (x c).1 (if b.isSome then c.x 1 else 1) (rndOf (rm c)) 0)) ∧
    post (.kdel h a tr nd) aOp true none (fun _ => 0) (fun c => .key 2 tr.toNat nd.toNat (c.x 0) [] 0 .rne 0) ∧
    post (.kmerge h a tr nd) aOp true none (fun _ => 0) (fun c => .key 3 tr.toNat nd.toNat (c.x 0) [] 0 .rne 0) ∧
    Completes (.kscan h d a e tr nd) scOp (fun c => (node c true none).isSome && !c.s.keyBusy c.aid) (fun c =>
      match scan c with
      | none => ((c.s.endRegion c.ag).wrS c.aid e 0).wrS c.aid d (BitVec.allOnes 64)
      | some (w, x) =>
        (((c.s.endRegion c.ag).modTh c.aid (fun t =>
          { t with reads := (Obj.entry c.t.ltag.toNat tr.toNat nd.toNat x.key :: t.reads).eraseDups })).wrS c.aid e x.key).wrS
            c.aid d (BitVec.ofNat 64 (w + 1))) ∧
    (∀ (k : Core) (tree node cur lim w : Nat) (x : KeyEnt), k.scan tree node cur lim = some (w, x) →
      (w, x) ∈ k.keys ∧ x.tree = tree ∧ x.node = node ∧ cur ≤ w ∧ w < lim ∧
        ∀ y ∈ k.keys, y.2.tree = tree → y.2.node = node → cur ≤ y.1 → y.1 < lim → w ≤ y.1) ∧
    (∀ sp : BitVec 4, Raises (.hpos h d a sp) (opSS h d a)
        (fun c => ((c.s.launch? c.t.ltag).bind (fun l => l.space? sp.toNat)).isNone) (fun _ => { cause := 40 }) ∧
      Completes (.hpos h d a sp) (opSS h d a)
        (fun c => ((c.s.launch? c.t.ltag).bind (fun l => l.space? sp.toNat)).isSome)
        (fun c => match (c.s.launch? c.t.ltag).bind (fun l => l.space? sp.toNat) with
          | some x => c.setS d (x.hposPoint sp.toNat (c.x 0))
          | none => c.s)) ∧
    (∀ s c, s.takes { h := h, len := memLen m, rd := memNames m, first := true, mem := true } = some c →
      c.s.chkSeg c.t m.seg (c.ea m 0) 272 16 true false = none → c.s.chkSp c.t (c.ea m 0) 272 = none → c.relReady = true →
      ∀ ps s1 bs s2 l ty, c.s.piecesFor c.aid (c.ea m 0) .read 2 272 = .ok ps s1 →
      s1.readPieces c.aid (c.ea m 0) ps = .ok (bs, s2) → s2.launch? c.t.ltag = some l →
      readTree l.ktu (fun i => (dwordAt bs i).toNat) = some ty →
      vrd (s2.core c.core).trees tr.toNat = none → s2.hasSpace l.tag ty.ksp = true →
      ∃ t, c.posted ((s2.endRegion c.ag).installTree l tr.toNat ty) = some t ∧
        exec (.trset h tr m) s = .next (t.finish c.aid c.npc h.sw)) ∧
    (∀ (core idx : Nat) (s s1 : State) (j : JEnt) (kind : Nat) (key : Dword) (ls : List (Option (BitVec 80))) (k : Dword)
      (r1 : Rnd) (g : BitVec 16) (fl : BitVec 6),
      vrd (s.core core).jrn idx = some j → j.op = .key kind tr.toNat nd.toNat key ls k r1 g → j.st = .sent → j.fault = none →
      s.wordsFree j.aid j.seq j.sub (.post j.op) = true → s.perform j = .done fl s1 →
      exec (.keyTableApply core idx) s = .next (s1.putEnt core idx (some { j with st := .performed none fl (!s.here core) })))

/-- R132, R133, R291: BINDPOS of an unbound light thread gives it the next record number of its core and its position, as a
release, and files its record; POSSET of a bound thread moves it within its space; UNBIND takes the record away; a bound thread's
BINDPOS and MIGR, and POSSET and UNBIND of an unbound one, raise position. MIGR to another core of the panel sends the thread
there.
R130, R132, R292: the moves of positions: the hand-over of a record makes its new position its position; a thread out of its slot
departs when its entries are acknowledged and no trap is pending; a thread in transit arrives, Queued where its residence is. That the
record number comes from the core on which the thread executes, and the move HAND_OVER of a POSSET, are log 40's. -/
def Obligations.PositionInstructionsAndMoves : Prop :=
  (∀ (h : Hdr) (a b : SReg),
    let lo (rd : List Nm) : Op := { h := h, rd := rd, light := true, first := true, mem := true }
    let free (c : Cx) : Bool := c.t.bnd.isNone
    let bound (c : Cx) : Bool := c.t.bnd.isSome
    let e40 (_ : Cx) : Exc := { cause := 40 }
    let go (c : Cx) (d : Nat) : Bool := free c && c.s.inPanel c.t.ltag d && c.s.journalClear c.aid && decide (d ≠ c.core)
    let gone (c : Cx) (d : Nat) : State := (c.s.finish c.aid c.npc h.sw).departFor c.aid d
    Raises (.bindpos h a b) (lo [.s a, .s b]) bound e40 ∧ Raises (.posset h a) (lo [.s a]) free e40 ∧
    Raises (.unbind h) (lo []) free e40 ∧ Raises (.migrCore h a) (lo [.s a]) bound e40 ∧
    Raises (.migrAddr h a) (lo [.s a]) bound e40 ∧
    Completes (.unbind h) (lo []) (fun c => bound c && c.relReady) (fun c => c.s.unbindRec c.aid) ∧
    Completes (.migrCore h a) (lo [.s a]) (fun c => free c && decide ((c.x 0).toNat = c.core) && c.s.inPanel c.t.ltag c.core)
      (·.s) ∧
    Leaves (.migrCore h a) (lo [.s a]) (fun c => go c (c.x 0).toNat) (fun c => gone c (c.x 0).toNat) ∧
    Leaves (.migrAddr h a) (lo [.s a]) (fun c => decide (apertureBase ≤ (c.x 0).toNat ∧ (c.x 0).toNat < aliasBase) &&
        go c (((c.x 0).toNat - apertureBase) / apertureStep))
      (fun c => gone c (((c.x 0).toNat - apertureBase) / apertureStep)) ∧
    Completes (.migrAddr h a) (lo [.s a]) (fun c => free c && c.s.inPanel c.t.ltag c.core &&
        decide (apertureBase ≤ (c.x 0).toNat ∧ (c.x 0).toNat < aliasBase ∧ ((c.x 0).toNat - apertureBase) / apertureStep = c.core))
      (·.s) ∧
    (∀ s c l, s.takes (lo [.s a, .s b]) = some c → free c = true → c.s.launch? c.t.ltag = some l →
      l.validPoint (c.x 0) = true → (c.s.core c.core).bindCtr < 65536 → c.relReady = true →
      ∃ t, exec (.bindpos h a b) s = .next t ∧ (t.th c.aid).bnd = some (c.num * 65536 + (c.s.core c.core).bindCtr) ∧
        (t.th c.aid).pos = c.x 0 ∧ (t.core c.core).bindCtr = (c.s.core c.core).bindCtr + 1 ∧ (t.th c.aid).pc = c.npc) ∧
    (∀ s c num l sp, s.takes (lo [.s a]) = some c → c.t.bnd = some num → c.s.launch? c.t.ltag = some l →
      l.space? (ptSpace (c.x 0)) = some sp → l.validPoint (c.x 0) = true → ptSpace (c.x 0) = ptSpace c.t.pos →
      c.relReady = true →
      ∃ t, exec (.posset h a) s = .next t ∧ (t.th c.aid).pos = c.x 0 ∧ (t.th c.aid).bnd = some num ∧ (t.th c.aid).pc = c.npc)) ∧
  ((∀ (s : State) (record n : Nat) (p : Dword) (l : Launch), s.launch? (BitVec.ofNat 32 (record / 2 ^ 32)) = some l →
    l.recs.findSome? (fun e => e.2.findSome? (fun r =>
      if r.num = record % 2 ^ 32 then r.hand.map (fun p => (e.1, p)) else none)) = some (n, p) →
    exec (.handOver record) s = .next ((s.modRec (BitVec.ofNat 32 (record / 2 ^ 32)) n (record % 2 ^ 32)
      (fun r => { r with pos := p, hand := none })).testBox (BitVec.ofNat 32 (record / 2 ^ 32)) p)) ∧
  (∀ (s : State) (core aid d : Nat), let t := s.th aid
    (t.loc = .runq ∨ t.loc = .deque ∨ t.loc = .blocked) → t.core = core → t.kind = .light → s.journalClear aid = true →
    t.traps = [] → t.pend = none → t.depart = some d →
    let u := s.departFor aid d
    exec (.lightDeparture core aid) s = .next (u.refill core) ∧ (u.th aid).loc = .transit d ∧ (u.th aid).depart = none ∧
      aid ∉ (u.core core).runq ∧ aid ∉ (u.core core).deque) ∧
  (∀ (s s2 : State) (aid d : Nat), let t := s.th aid
    t.loc = .transit d → s.absent t.ltag d = false → (s.core d).ltag = t.ltag → s.finds t.ltag t.core d = true →
    (t.core = d ∨ s.reaches false (s.port t) (clusterOf (s.phys d)) = true) → t.bnd = none → t.wait = none →
    (s.passed t.ltag t.core d).arrive d aid = .ok s2 → exec (.lightArrival aid) s = .next s2))

/-- R132, R133, R294: NBR.s binds a stream of three dwords a record, and NBR.buf stores 32 bytes a record up to the capacity, of the
records within the radius, and acquires the position releases of those that it delivers; both return the count. The records are exactly
those of the space that lie within the radius, but for the issuer's own under .xself, each once, in increasing record number. Both complete
where the checks pass, the core of the snapshot answers and, for a buffer that receives something, its place is reached without a conflict.
An invalid point or a radius past the space's is refused. -/
def Obligations.NeighbourEnumeration : Prop :=
  ∀ (h : Hdr) (name : PName) (d a b e : SReg) (l2 xself : Bool) (cap : BitVec 16),
    let sOp : Op := { h := h, len := 16, rd := [.s a, .s b], wr := [.s e], heavy := true, first := true, mem := true }
    let bOp : Op := { h := h, len := 16, rd := [.s a, .s b, .s d], wr := [.s e], first := true, mem := true }
    let near (c : Cx) (l : Launch) : List PosRec := l.nearby (c.x 0) l2 (c.x 1).toNat (if xself then c.t.bnd else none)
    let got (c : Cx) (l : Launch) (rs : List PosRec) : State :=
      (c.s.nbrPassed c.aid l (c.x 0)).acquirePos c.aid l.tag (ptSpace (c.x 0)) rs
    let heard (c : Cx) (l : Launch) : Bool := !c.s.nbrAway l (c.x 0) && !c.s.nbrLost c.aid l (c.x 0)
    let fits (c : Cx) : Bool := decide ((c.x 2).toNat % 32 = 0) && (cap == 0 ||
      (c.s.seg c.t 0).grants (c.x 2).toNat (32 * cap.toNat) false true && c.s.isOwn c.t (c.x 2) &&
        c.s.ownOk c.t (c.x 2) (32 * cap.toNat) && !c.s.wordBusy c.aid (c.x 2) (32 * cap.toNat))
    (∀ s c l, s.takes sOp = some c → c.s.launch? c.t.ltag = some l → l.nbrCheck (c.x 0) l2 (c.x 1).toNat = 0 →
      c.s.bindOf c.aid name = none → (c.s.core c.core).affines < 8 → heard c l = true →
      ∃ t, c.posted (((got c l (near c l)).wrS c.aid e (BitVec.ofNat 64 (near c l).length)).modCore c.core
        (fun k => { k with binds := k.binds ++ [⟨c.aid, name, false, false, .affine
          { size := 3, counts := [((near c l).flatMap (fun r => [BitVec.ofNat 64 r.num, r.pos, r.tag])).length], stride := [8]
            base := 0, seg := 0, taken := 0, unwr := [], since := c.t.seq, fault := none
            ahead := ((near c l).flatMap (fun r => [BitVec.ofNat 64 r.num, r.pos, r.tag])).map (fun x => (x, [])) }⟩] })) = some t ∧
        exec (.nbrS h name a b e l2 xself) s = .next (t.finish c.aid c.npc h.sw)) ∧
    (∀ s c l, s.takes bOp = some c → c.s.launch? c.t.ltag = some l → l.nbrCheck (c.x 0) l2 (c.x 1).toNat = 0 →
      fits c = true → heard c l = true → (near c l).take cap.toNat = [] →
      ∃ t, c.posted ((got c l []).wrS c.aid e (BitVec.ofNat 64 (near c l).length)) = some t ∧
        exec (.nbrBuf h d a b e l2 xself cap) s = .next (t.finish c.aid c.npc h.sw)) ∧
    (∀ s c l, s.takes bOp = some c → c.s.launch? c.t.ltag = some l → l.nbrCheck (c.x 0) l2 (c.x 1).toNat = 0 →
      fits c = true → heard c l = true → (near c l).take cap.toNat ≠ [] →
      let out := (near c l).take cap.toNat
      let bs := nbrBytes out
      ∀ p s2, (got c l out).placeFor c.aid (c.x 2) bs.length .write false = .ok p s2 →
      s2.conflicts? c.ag true false (p.words bs.length) = none →
      ∃ s3 t, s2.plainWrite c.ag (some c.core) false p bs = .ok s3 ∧ (s2.memWf = true → s3.bytes p bs.length = bs) ∧
        c.posted ((s3.fill c.ag p bs.length).wrS c.aid e (BitVec.ofNat 64 (near c l).length)) = some t ∧
        exec (.nbrBuf h d a b e l2 xself cap) s = .next (t.finish c.aid c.npc h.sw)) ∧
    (∀ s c l, s.takes sOp = some c → c.s.launch? c.t.ltag = some l → l.nbrCheck (c.x 0) l2 (c.x 1).toNat ≠ 0 →
      exec (.nbrS h name a b e l2 xself) s = .next (c.s0.raise c.aid { cause := l.nbrCheck (c.x 0) l2 (c.x 1).toNat } c.npc)) ∧
    (∀ s c l, s.takes bOp = some c → c.s.launch? c.t.ltag = some l → l.nbrCheck (c.x 0) l2 (c.x 1).toNat ≠ 0 →
      exec (.nbrBuf h d a b e l2 xself cap) s = .next (c.s0.raise c.aid { cause := l.nbrCheck (c.x 0) l2 (c.x 1).toNat } c.npc)) ∧
    (∀ (l : Launch) p r own x, (x ∈ l.nearby p l2 r own ↔
        x ∈ l.recsOf (ptSpace p) ∧ within l2 r p x.pos = true ∧ own ≠ some x.num) ∧
      (l.nearby p l2 r own).count x ≤ (l.recsOf (ptSpace p)).count x) ∧
    (∀ (r : Nat) (p q : Dword), let dx (i : Nat) : Int := (ptAx p i : Int) - ptAx q i
      within l2 r p q = true ↔
        if l2 then dx 0 ^ 2 + dx 1 ^ 2 + dx 2 ^ 2 ≤ (r : Int) else |dx 0| ≤ r ∧ |dx 1| ≤ r ∧ |dx 2| ≤ r) ∧
    (∀ (l : Launch) p r own, (l.nearby p l2 r own).Pairwise (fun x y => x.num ≤ y.num))

/-! ### Copies and plans (R296 to R304, R350, R351) -/

/-- R298: CQPUT to a queue with a free slot claims its index and posts the packet, SEQ and the kick, and S[D] is the index; a header
that is no copy queue's raises queue. That the form is judged at the claim, and that all three stores take journal entries, also those to a
queue in the own scratchpad, is log 41's reading. HSTATE reads a handle's word; HFREE frees one that is full or draining, and raises for one
that is filling. -/
def Obligations.CopyQueueAndHandleInstructions : Prop :=
  ∀ (h : Hdr) (d a : SReg) (v : VReg) (sg : BitVec 3) (nk : Bool) (n : BitVec 8),
    let o : Op := { h := h, len := 16, rd := [.s a, .v v], wr := [.s d], blk := true, first := true, mem := true }
    let hd (c : Cx) : Handle := c.s.handle c.clu n.toNat
    let q (c : Cx) : Dword := (c.s.seg c.t sg).base + c.x 0
    let ok (c : Cx) : Bool := (c.s.chkSeg c.t sg (q c) 64 64 true true).isNone && (c.s.chkSp c.t (q c) 64).isNone &&
      !c.s.wordBusy c.aid (q c) 64 && decide (3 ≤ c.s.journalFree c.core)
    (∀ s c, s.takes o = some c → ok c = true → ∀ p s1 lg slots s2 w s3 x s4,
      c.s.placeFor c.aid (q c) 64 .both true = .ok p s1 → s1.cqForm c.aid p = .ok (some (lg, slots), s2) →
      s2.atomUpdate c.aid false false .pkg p 8 (fun v => some ((v + 1) % 2 ^ 64)) = .ok (w, s3) →
      s3.cqRoom p (BitVec.ofNat 64 w) lg = true → s3.atomRead c.aid true .pkg (p.plus 8) 8 = .ok (x, s4) →
      3 ≤ s4.journalFree c.core →
      let ops := cqOps (q c) slots (BitVec.ofNat 64 w) lg (leBytes 56 (c.v 1).toNat) nk
      ∃ t, c.posted ((s4.postEnts c.core (((List.range ops.length).zip ops).map
        (fun e => ⟨c.num, c.aid, c.t.seq, s4.nextSub c.aid + e.1, c.pc, e.2, .waiting, none⟩))).wrS c.aid d (BitVec.ofNat 64 w)) = some t ∧
        exec (.cqput h d a v sg nk) s = .next (t.finish c.aid c.npc h.sw)) ∧
    (∀ s c, s.takes o = some c → ok c = true → ∀ p s1 s2, c.s.placeFor c.aid (q c) 64 .both true = .ok p s1 →
      s1.cqForm c.aid p = .ok (none, s2) → exec (.cqput h d a v sg nk) s = .next (c.s0.raise c.aid { cause := 42 } c.npc)) ∧
    Completes (.hstate h d n) { h := h, wr := [.s d], mem := true, sync := true } (fun c => !c.t.freeing c.clu n.toNat) (fun c =>
      let s1 := c.s.sync c.ag (.handle c.clu n.toNat) false true .pkg
      s1.wrS c.aid d (handleWord (s1.handle c.clu n.toNat))) ∧
    Sends (.hfree h n) { h := h, mem := true } (fun c => decide ((hd c).st ≠ 1)) (·.s) (fun c => .free c.clu n.toNat)
      (fun c t => 2 ≤ (hd c).st → t.handle c.clu n.toNat = { hd c with st := 0, e := false }) ∧
    Raises (.hfree h n) { h := h, mem := true }
      (fun c => decide ((hd c).st = 1) && c.now c.s (.free c.clu n.toNat)) (fun _ => { cause := 41 })

/-- R124, R128, R299, R351: the streamer takes the packet of the queue whose turn it is; a copy without a handle starts, with an error where
its step tag is fenced (log 41), and one with a handle starts when the handle is free and makes it filling; a copy that has started reads
its next granule or writes one that it has read, in an order that no rule gives (log 1); a conflict of it leaves the access performed and
goes to its kicker; with every granule written the handle is full, and a copy without a mailbox has ended.
R214, R302 to R304: an entry that is due is issued and its engine acquires the take-up of the plan; one with nothing to copy and
no service core to ask becomes resident, as a release, and one that needs the service core asks it (when it does: log 42). -/
def Obligations.CopyAndPlanMoves : Prop :=
  ((∀ (cl i : Nat) (s s1 : State) (r : Ready), s.nextPacket cl ((s.clu cl).qbinds.length + 1) = (some r, s1) →
    (s1.clu cl).qnext = i → exec (.copyPacketTake cl i) s = .next (s1.takePacket cl i r)) ∧
  (∀ (cl id : Nat) (s : State) (c : Copy), s.copy? cl id = some c → c.going = false →
    (pktH c.pkt = false →
      exec (.copyGranuleWrite cl id) s = .next (s.putCopy cl id { c with going := true, err := c.err || s.fenced (pktTag c.pkt) })) ∧
    (pktH c.pkt = true → (s.handle cl (pktHandle c.pkt)).st = 0 →
      ∃ t, exec (.copyGranuleWrite cl id) s = .next t ∧
        t.handle cl (pktHandle c.pkt) = ⟨1, false, pktTag c.pkt⟩ ∧ (t.copy? cl id).map (·.going) = some true)) ∧
  (∀ (cl id : Nat) (s s0 : State) (c : Copy), s.copy? cl id = some c → c.going = true → c.err = false → c.done < c.len →
    s.atFault cl (.copy id) = false →
    let e (s : State) : Eng := copyEng s cl id c.tag
    (∀ g s1 s2 bs, s.nextMove c.left c.got = (some none, s0) → s0.nextPiece c.dst.toNat c.left = (g, s1) →
      s1.engLoad (e s1) (c.src + BitVec.ofNat 64 g.1) g.2 = .ok (bs, none) s2 →
      exec (.copyGranuleWrite cl id) s = .next (s2.modCopy cl id (fun c =>
        { c with left := takeOut g c.left, got := c.got ++ [(g.1, bs)] }))) ∧
    (∀ (g : Nat × List Byte) (p : Place) (s1 : State), s.nextMove c.left c.got = (some (some g), s0) →
      s0.engPlace (e s0) (c.dst + BitVec.ofNat 64 g.1) g.2.length .write = .ok (some p) s1 →
      let w := s1.engWrite (e s0) p g.2
      let s2 := match w.1 with
        | some _ => w.2.copyConflict cl id (w.2.withWrite w.1) (c.dst + BitVec.ofNat 64 g.1) w.1
        | none => w.2
      exec (.copyGranuleWrite cl id) s = .next ((s2.fill (.copy cl id) p g.2.length).modCopy cl id (fun c =>
        { c with done := c.done + g.2.length, got := c.got.filter (fun x => decide (x.1 ≠ g.1)) })))) ∧
  (∀ (cl id : Nat) (s : State) (c : Copy) (va : Dword) (w : WordKey) (x : Stamp), s.copy? cl id = some c →
    s.copyConflict cl id false va (some (w, x)) = s.engTrap (dieOfClu cl) c.kicker (s.rep (.copy cl id)) x.rep
      (reportAddr (4 * cl) (engWordVa va w)) 0 false) ∧
  (∀ (cl id : Nat) (s : State) (c : Copy), s.copy? cl id = some c → c.going = true → c.out = 0 → (c.err = true ∨ c.len ≤ c.done) →
    s.atFault cl (.copy id) = false →
    (pktH c.pkt = true → c.filled = false → ∃ t, exec (.copyCompletion cl id) s = .next t ∧
      t.handle cl (pktHandle c.pkt) = ⟨2, c.err, pktTag c.pkt⟩ ∧
      (pktMb c.pkt = false → t.copy? cl id = none) ∧ (pktMb c.pkt = true → t.copy? cl id = some { c with filled := true, fin := false })) ∧
    ((pktH c.pkt = false ∨ c.filled = true) → pktMb c.pkt = false → ∃ t, exec (.copyCompletion cl id) s = .next t ∧ t.copy? cl id = none) ∧
    ((pktH c.pkt = false ∨ c.filled = true) → pktMb c.pkt = true →
      exec (.copyCompletion cl id) s = .next (s.copyMailbox cl id c)))) ∧
  (∀ (tag id : Nat) (s : State) (l : Launch) (e : PlanEnt), s.launch? (BitVec.ofNat 32 tag) = some l →
    l.plan.find? (fun e => e.id == id) = some e → tag = l.tag.toNat →
    (s.issueDue l e = true → ∃ t, exec (.tierEntryIssue tag id) s = .next t ∧ (t.planEnt? tag id).map (·.st) = some 1) ∧
    (e.st = 1 → e.out = 0 → e.svc = 2 → e.copies = false →
      exec (.tierEntryComplete tag id) s = .next (s.planEnds l.tag id 2)) ∧
    (e.st = 1 → e.out = 0 → e.svc = 0 → s.tierAsk l e = none → e.copies = false →
      s.atFault (dieCluster e.die) (.tier tag id) = false → s.tierProbe (tierEng l e) e.pages = none →
      exec (.tierEntryComplete tag id) s = .next (s.planEnds l.tag id 2)) ∧
    (∀ d, e.st = 1 → e.out = 0 → e.svc = 0 → s.tierAsk l e = some d →
      exec (.tierEntryComplete tag id) s = .next (s.tierRequest l e d)))

/-! ### The supervisor (R325 to R343) -/

/-- R136, R326, R327, R331, R334 to R336: SRET ends the request of an armed latch: a held slot of 0 to 14 resumes at its PC, its NPC
or the target, or its thread ends as by cancellation, each as a release that performs when R119 lets it (log 43); slot 15's own latch sends
slot 15 there, and the message latch is emptied; with .end slot 15 returns to `sipc` with SIT and EW 0. MFS reads each register, and slot
15's reads close the entry window; MTS writes `ssel`, `stvec`, `sipc` and `ssvc`; SEGLD loads a segment of the issuer or of a held slot,
and one of an empty slot into nothing that an access uses (log 43). What an exception of an earlier instruction would go back to is noted
(R34). -/
def Obligations.SupervisorReturnsAndRegisters : Prop :=
  ∀ (h : Hdr) (d a b : SReg) (en : Bool) (num : BitVec 12) (g : BitVec 3) (m : MemOp),
    let o (rd : List Nm) : Op := { h := h, rd := rd, priv := true, mem := true }
    let l (c : Cx) : Nat := (c.x 0).toNat
    let r (c : Cx) : Nat := c.s.slotHome c.core (l c)
    let lat (c : Cx) : Latch := c.s.latch (r c) (l c)
    let armed (c : Cx) : Bool := (lat c).armed
    let slot (c : Cx) : Bool := decide (l c < 15) && armed c
    let own (c : Cx) : Bool := decide (l c = 15) && armed c
    let msg (c : Cx) : Bool := decide (l c = 16) && armed c
    let us (c : Cx) : List Undo := [.latch (r c) (l c) (lat c), .sys (c.s.core c.core).sysRegs]
    let gone (c : Cx) : State := ((us c).foldl (fun s u => s.record c.aid c.t.seq u) c.s).disarm (r c) (l c)
    let sit (c : Cx) : Bool := (c.s.core c.core).sit
    let ended (c : Cx) (s : State) : State := s.modCore c.core (fun k => { k with sit := false, ew := false })
    let sipc (c : Cx) : Dword := (c.s.core c.core).sipc &&& ~~~(3#64)
    let acts (i : Instr) (rd : List Nm) (p : Cx → Bool) (f : Cx → State) (tgt : Cx → Option Dword) (pc : Cx → Dword)
        (q : Cx → State → State) : Prop :=
      ∀ s c, s.takes (o rd) = some c → p c = true →
        let x : JOp := .sret (r c) (l c) (tgt c)
        let c1 : Cx := { c with saved := { c.saved with undo := us c ++ c.saved.undo } }
        let u := c1.send (f c) x
        (c1.now (f c) x = true → ∃ y t, y ∈ (u.th c.aid).outst ∧ y.op = .post x ∧
          c.later ((q c (u.sync c.ag (.latch (r c) (l c)) true false .pkg)).accept c.aid y ⟨[], 0⟩) = some t ∧
          exec i s = .next (t.finish c.aid (pc c) h.sw)) ∧
        (c1.now (f c) x = false → exec i s = .next (u.finish c.aid (pc c) h.sw))
    let bad (i : Bool → Instr) (rd : List Nm) : Prop :=
      Raises (i en) (o rd) (fun c => decide (16 < l c) || !(lat c).armed) (fun _ => { cause := 44 }) ∧
      Raises (i true) (o rd) (fun c => !sit c) (fun _ => { cause := 44 })
    let ret (i : Bool → Instr) (rd : List Nm) (t : Cx → Dword) (q : Cx → Bool) : Prop :=
      acts (i false) rd (fun c => slot c && q c) gone (fun c => some (t c)) (·.npc) (fun c s => s.resumeSlot (r c) (l c) (t c)) ∧
      acts (i true) rd (fun c => slot c && q c && sit c) (fun c => ended c (gone c)) (fun c => some (t c)) sipc
        (fun c s => s.resumeSlot (r c) (l c) (t c)) ∧
      Jumps (i false) (o rd) (fun c => own c && q c) t gone ∧
      Jumps (i true) (o rd) (fun c => own c && q c && sit c) sipc (fun c => ended c (gone c)) ∧ bad i rd
    let noted (c : Cx) : State := c.s.record c.aid c.t.seq (.sys (c.s.core c.core).sysRegs)
    let rdOp : Op := { h := h, wr := [.s d], priv := true }
    let wrOp : Op := { h := h, rd := [.s a], priv := true }
    let sgOp : Op := { h := h, len := memLen m, rd := memNames m, priv := true, mem := true }
    ret (fun e => .sretRetry h a e) [.s a] (fun c => (lat c).pc) always ∧
    Completes (.sretRetry h a false) (o [.s a]) msg gone ∧
    Jumps (.sretRetry h a true) (o [.s a]) (fun c => msg c && sit c) sipc (fun c => ended c (gone c)) ∧
    ret (fun e => .sretNext h a e) [.s a] (fun c => (lat c).npc) always ∧
    ret (fun e => .sretTo h a b e) [.s a, .s b] (fun c => c.x 1) (fun c => decide ((c.x 1).toNat % 4 = 0)) ∧
    Raises (.sretTo h a b en) (o [.s a, .s b])
      (fun c => decide (l c < 16) && armed c && (!en || sit c) && decide ((c.x 1).toNat % 4 ≠ 0)) (fun c => { cause := 12, addr := c.x 1 }) ∧
    (let kill (c : Cx) (s : State) : State := match s.occ (r c) (l c) with
      | some x => (s.endThread x true).setSlot (r c) (l c) none
          (if vrd (s.core (r c)).sst (l c) == .frozen then .frozen else .empty)
      | none => s
     acts (.sretKill h a false) [.s a] slot gone (fun _ => none) (·.npc) kill ∧
      acts (.sretKill h a true) [.s a] (fun c => slot c && sit c) (fun c => ended c (gone c)) (fun _ => none) sipc kill ∧
      bad (fun e => .sretKill h a e) [.s a] ∧
      Raises (.sretKill h a en) (o [.s a]) (fun c => decide (15 ≤ l c)) (fun _ => { cause := 44 })) ∧
    Raises (.sretNext h a en) (o [.s a]) (fun c => decide (16 ≤ l c)) (fun _ => { cause := 44 }) ∧
    Raises (.sretTo h a b en) (o [.s a, .s b]) (fun c => decide (16 ≤ l c)) (fun _ => { cause := 44 }) ∧
    Completes (.mfs h d num) rdOp always (fun c =>
      (if c.slot = 15 then (noted c).modCore c.core (fun k => k.look num.toNat) else c.s).wrS c.aid d (c.s.sysReg c.core num.toNat)) ∧
    (∀ (s : State) (n : Nat), let k := s.core n
      s.sysReg n 0x000 = 1 ∧ s.sysReg n 0x001 = BitVec.ofNat 64 k.ssel ∧ s.sysReg n 0x002 = k.stvec ∧
      s.sysReg n 0x003 = k.sipc ∧ s.sysReg n 0x004 = k.sstat ∧ s.sysReg n 0x005 = k.ssvc ∧
      s.sysReg n 0x006 = BitVec.ofNat 64 k.ssvcf.toNat ∧
      (k.ssel = 16 → s.sysReg n 0x010 = (s.latch n 16).cause ∧ s.sysReg n 0x011 = (s.latch n 16).pc ∧
        s.sysReg n 0x013 = (s.latch n 16).addr ∧ s.sysReg n 0x018 = vrd k.smsg 0 ∧ s.sysReg n 0x01B = vrd k.smsg 3) ∧
      (k.ssel < 16 → let st := vrd (s.core (s.slotHome n k.ssel)).sst k.ssel
        let y := s.latch (s.slotHome n k.ssel) k.ssel
        s.sysReg n 0x017 = (match st with
          | .empty => 0
          | .running => 1
          | .held => 2
          | .frozen => 3) ∧
        (st = .empty → s.sysReg n 0x010 = 0) ∧ (st ≠ .empty → s.sysReg n 0x010 = y.cause ∧ s.sysReg n 0x011 = y.pc ∧
          s.sysReg n 0x012 = y.npc ∧ s.sysReg n 0x013 = y.addr ∧ s.sysReg n 0x014 = y.data ∧ s.sysReg n 0x015 = y.iaddr ∧
          s.sysReg n 0x016 = y.agent))) ∧
    Completes (.mts h 0x001 a) wrOp (fun c => decide ((c.x 0).toNat ≤ 16))
      (fun c => (noted c).modCore c.core (fun k => { k with ssel := (c.x 0).toNat })) ∧
    Raises (.mts h 0x001 a) wrOp (fun c => decide (16 < (c.x 0).toNat)) (fun _ => { cause := 11 }) ∧
    Completes (.mts h 0x002 a) wrOp (fun c => decide ((c.x 0).toNat % 4 = 0))
      (fun c => (noted c).modCore c.core (fun k => { k with stvec := c.x 0 })) ∧
    Raises (.mts h 0x002 a) wrOp (fun c => decide ((c.x 0).toNat % 4 ≠ 0)) (fun _ => { cause := 11 }) ∧
    Completes (.mts h 0x003 a) wrOp always
      (fun c => (noted c).modCore c.core (fun k => { k with sipc := c.x 0 })) ∧
    Completes (.mts h 0x005 a) wrOp always (fun c => (noted c).modCore c.core (fun k => { k with ssvc := c.x 0 })) ∧
    (∀ s c vs s1, s.takes sgOp = some c → c.s.chkSeg c.t m.seg (c.ea m 0) 24 8 true false = none →
      let sel := (c.s.core c.core).ssel
      let q := c.s.slotHome c.core sel
      let st := vrd (c.s.core q).sst sel
      let va := c.ea m 0
      sel < 16 → (st = .held ∨ st = .empty ∨ (st = .running ∧ sel = c.slot)) →
      c.s.wordBusy c.aid va 24 = false → c.s.acqPending c.aid = false →
      c.s.readEach c.aid 8 .plain [(0, va), (1, va + 8), (2, va + 16)] = .ok vs s1 → (s1.th c.aid).outst = c.t.outst →
      let v := vs.foldr (fun e r => e.2 + 2 ^ 64 * r) 0
      (v / 2 ^ 132 ≠ 0 → exec (.segld h g m) s = .next (c.s0.raise c.aid { cause := 43 } c.npc)) ∧
      (∀ x, v / 2 ^ 132 = 0 → st ≠ .empty → s1.occ q sel = some x →
        let seg : Seg := ⟨BitVec.ofNat 64 (v % 2 ^ 64), BitVec.ofNat 64 (v / 2 ^ 64 % 2 ^ 64), BitVec.ofNat 4 (v / 2 ^ 128)⟩
        ∃ t, c.posted ((s1.record c.aid c.t.seq (.seg x g.toNat (vrd (s1.th x).segs g.toNat))).modTh x (fun t =>
            { t with segs := vwr t.segs g.toNat seg })) = some t ∧ exec (.segld h g m) s = .next (t.finish c.aid c.npc h.sw)) ∧
      (v / 2 ^ 132 = 0 → st = .empty → ∃ t, c.posted s1 = some t ∧ exec (.segld h g m) s = .next (t.finish c.aid c.npc h.sw)))

/-- R339 to R341, R343: XLINV drops translations that match at its cluster's port or at every port (.va those of every address space, .tag
those of the address space that its launch has or had, and each form reads both A and B: log 45); RTSWAP installs a valid table
whole and returns 0, refuses another with 1 and a cluster outside the partition with 2, the last before it reads the table (log 26);
HALT.wait waits in slot 15, HALT.stop empties its slot; SYSMSG, a release of the ordered class, queues its payload at a core of the
package where no boundary, router or partition is in its way. -/
def Obligations.TranslationRoutingHaltsAndMessages : Prop :=
  ∀ (h : Hdr) (d a b e : SReg) (pkg : Bool),
    let o (rd wr : List Nm) : Op := { h := h, rd := rd, wr := wr, priv := true, first := true, mem := true }
    let drop (c : Cx) (p : Tlb → Bool) : State := c.s.dropTlb pkg (clusterOf c.num) p
    let rt (c : Cx) : Bool := (c.s.chkSeg c.t 0 (c.x 0) 4640 64 true false).isNone
    let inside (c : Cx) : Bool := decide ((c.x 1).toNat < 288 ∧ c.s.partOf (c.x 1).toNat = c.s.partOf (clusterOf c.num))
    let msg : Op := { h := h, rd := [.s a] ++ quad e, priv := true, mem := true }
    let sizes (c : Cx) : Bool := decide ((c.x 1).toNat = 16 ∨ (c.x 1).toNat = 21 ∨ (c.x 1).toNat = 30)
    Completes (.xlinvVa h a b pkg) (o [.s a, .s b] []) sizes
      (fun c => drop c (fun t => t.lg == (c.x 1).toNat &&
        t.va == (c.x 0).toNat / 2 ^ (c.x 1).toNat * 2 ^ (c.x 1).toNat)) ∧
    Raises (.xlinvVa h a b pkg) (o [.s a, .s b] []) (fun c => !sizes c) (fun _ => { cause := 11 }) ∧
    Completes (.xlinvTag h a b pkg) (o [.s a, .s b] []) always (fun c =>
      match amGet? c.s.asids (c.x 0).toNat with
      | some n => drop c (fun t => t.asid == n)
      | none => c.s) ∧
    Completes (.xlinvAll h a b pkg) (o [.s a, .s b] []) always (fun c => drop c (fun _ => true)) ∧
    (∀ (s : State) (all : Bool) (n k : Nat) (p : Tlb → Bool) (x : Tlb),
      x ∈ ((s.dropTlb all n p).clu k).tlb ↔ x ∈ (s.clu k).tlb ∧ ((all = true ∨ k = n) → p x = false)) ∧
    Completes (.rtswap h d a b) (o [.s a, .s b] [.s d]) (fun c => rt c && !inside c) (fun c => c.setS d 2) ∧
    (∀ s c bs s1, s.takes (o [.s a, .s b] [.s d]) = some c → rt c = true → inside c = true →
      c.s.wordBusy c.aid (c.x 0) 4640 = false → c.s.loadAll c.aid (c.x 0) 4640 73 = .ok bs s1 → (s1.th c.aid).outst = [] →
      let es := (List.range 2320).zip (routeTable bs)
      let valid := es.all (fun x => routeOk (c.x 1).toNat (x.1 % 290) x.2)
      (valid = false → ∃ t, c.posted (s1.wrS c.aid d 1) = some t ∧ exec (.rtswap h d a b) s = .next (t.finish c.aid c.npc h.sw)) ∧
      (valid = true → ∃ t, c.posted ((s1.modClu (c.x 1).toNat (fun k =>
          { k with route := es.foldl (fun m x => if x.2 = 0 then amDel m x.1 else amSet m x.1 x.2) k.route })).wrS c.aid d 0) = some t ∧
        exec (.rtswap h d a b) s = .next (t.finish c.aid c.npc h.sw))) ∧
    Leaves (.haltWait h) (o [] []) (fun c => c.slot == 15) (fun c => c.s.modTh c.aid (fun t =>
      { t with wait := some ⟨.halt, 0, c.npc, none, none⟩, parked := false, entering := false })) ∧
    Raises (.haltWait h) (o [] []) (fun c => c.slot != 15) (fun _ => { cause := 44 }) ∧
    Leaves (.haltStop h) (o [] []) always
      (fun c => (c.s.finish c.aid c.npc h.sw).modCore c.core (fun k => { k with sst := vwr k.sst c.slot .empty })) ∧
    Sends (.sysmsg h a e) msg (fun c => decide ((c.x 1).toNat < 2 ^ 48 ∧ (c.x 0).toNat ≤ 1151)) (·.s)
      (fun c => .sysmsg (c.x 0).toNat (c.x 1) (c.x 2) (c.x 3) (c.x 4))
      (fun c t => let n := (c.x 0).toNat
        c.s.broken.contains (2 ^ 16 + clusterOf c.num * 2 ^ 20 + (c.num * 16 + c.t.slot) % 2 ^ 16, n) = false →
        c.s.wayFrom true true (clusterOf c.num) (clusterOf n) = .through →
        (t.core n).reqs = (c.s.core n).reqs ++
          [.msg (BitVec.ofNat 64 (c.num * 16 + c.t.slot)) (c.x 1) (c.x 2) (c.x 3) (c.x 4) [c.s.contrib c.ag .pkg]]) ∧
    Raises (.sysmsg h a e) msg (fun c => decide ((c.x 1).toNat < 2 ^ 48 ∧ 1151 < (c.x 0).toNat)) (fun _ => { cause := 31 }) ∧
    Raises (.sysmsg h a e) msg (fun c => decide (2 ^ 48 ≤ (c.x 1).toNat)) (fun _ => { cause := 11 })

/-- R131, R337, R338, R359 to R362: ACCSAVE stores the rows and their state, ACCLOAD restores them, and a count of 0 does nothing;
CTXOUT.core moves a settled context to a free core and leaves a basting entry, CTXOUT.mem writes its image and makes it absent, CTXIN
restores it with its traffic; traffic at a core that a context left goes on to it, counted by the basting entry, and a passed marker tells
its sender; what a bounce ring has no room for waits, and is appended when it has. The image's content is log 9's, CTXOUT's status 2 before
1 is log 26's, the rows that ACCSAVE and ACCLOAD act on and their stall are log 44's, and CTXIN's replay as one move and the move
MIGRATION_MARKER are log 46's. -/
def Obligations.ContextsThatMove : Prop :=
  ∀ (h : Hdr) (d a b e : SReg) (m : MemOp),
    let o (rd wr : List Nm) : Op := { h := h, rd := rd, wr := wr, priv := true, first := true, mem := true }
    let acOp : Op := { h := h, len := memLen m, rd := memNames m ++ [.s d, .s e], priv := true, first := true, mem := true }
    let row (c : Cx) : Nat := (c.x (memNames m).length).toNat
    let n (c : Cx) : Nat := (c.x ((memNames m).length + 1)).toNat
    let r (c : Cx) : Nat := if c.super then c.s.guest c.core else c.core
    let acc (c : Cx) (rd : Bool) : Bool := (c.s.chkSeg c.t m.seg (c.ea m 0) (257 * n c) 64 rd (!rd)).isNone &&
      decide (row c + n c ≤ (c.s.core (r c)).accRows) && decide (n c ≠ 0) && !c.s.wordBusy c.aid (c.ea m 0) (257 * n c) &&
      (c.s.core (r c)).arrq.all (fun q => !q.opened)
    let bytes := Config.imageBytes.toNat
    let src (c : Cx) : Nat := (c.x 0).toNat
    let dst (c : Cx) : Nat := (c.x 1).toNat
    let p (c : Cx) : Nat := c.s.guest (src c)
    let tag (c : Cx) : BitVec 32 := (c.s.core (p c)).ltag
    let some_ (c : Cx) : Bool := decide (src c < 1152 ∧ tag c ≠ 0)
    let xOp : Op := o [.s a, .s b] [.s d]
    Completes (.accsave h d e m) acOp (fun c => decide (n c = 0)) (·.s) ∧
    Completes (.accload h d e m) acOp (fun c => decide (n c = 0)) (·.s) ∧
    (∀ s c s1, s.takes acOp = some c → acc c false = true →
      (let rows := (List.range (n c)).map (fun i => (c.s.core (r c)).row (row c + i))
       c.storeAll (pieces (c.ea m 0) (rows.flatMap AccRow.raw ++ rows.map c.s.rowByte)) c.s = .ok s1) → (s1.th c.aid).outst = [] →
      exec (.accsave h d e m) s = .next (s1.finish c.aid c.npc h.sw)) ∧
    (∀ s c bs s1, s.takes acOp = some c → acc c true = true →
      c.s.loadAll c.aid (c.ea m 0) (257 * n c) (257 * n c / 64 + 1) = .ok bs s1 → (s1.th c.aid).outst = [] →
      (bs.drop (256 * n c)).all (fun x => decide (x.toNat < 32)) = true →
      exec (.accload h d e m) s = .next ((s1.modCore (r c) (fun k =>
        ((List.range (n c)).zip (s1.rowsOf (r c) (n c) bs)).foldl (fun k x => k.setRow (row c + x.1) x.2) k)).finish
          c.aid c.npc h.sw)) ∧
    Completes (.ctxoutCore h d a b) xOp (fun c => !some_ c) (fun c => c.setS d 2) ∧
    Completes (.ctxoutCore h d a b) xOp (fun c => some_ c && !c.s.coreFree (dst c)) (fun c => c.setS d 1) ∧
    (∀ s c i, s.takes xOp = some c → some_ c = true → c.s.coreFree (dst c) = true →
      findIx (fun x => !x.v) (c.s.clu (clusterOf (src c))).bast.toList 0 = some i → c.s.settled (p c) = true →
      ∃ t, c.posted ((((c.s.vacate (p c) (src c) (.on (dst c))).occupy (p c) (dst c)).modClu (clusterOf (src c))
          (fun k => { k with bast := vwr k.bast i ⟨true, tag c, dst c, 0, src c, p c⟩ })).wrS c.aid d 0) = some t ∧
        exec (.ctxoutCore h d a b) s = .next (t.finish c.aid c.npc h.sw)) ∧
    (∀ s c s2, s.takes xOp = some c → dst c % 4096 = 0 →
      c.s.chkSeg c.t 0 (c.x 1) bytes 1 false true = none → some_ c = true →
      (c.s.clu (clusterOf (src c))).recv.toList.any (fun x => x.v && !x.fwdn && x.ltag == tag c && x.core == src c) = true →
      c.s.settled (p c) = true →
      c.storeAll (pieces (c.x 1) (imageHeader (src c) (tag c) ++ imageBody c.s.free bytes))
        { c.s with free := c.s.free + bytes } = .ok s2 → (s2.th c.aid).outst = [] →
      ∃ t, c.posted (((s2.vacate (p c) (src c) (.away (src c))).modCore (p c) (fun k => { k with img := c.s.free })).wrS
          c.aid d 0) = some t ∧ exec (.ctxoutMem h d a b) s = .next (t.finish c.aid c.npc h.sw)) ∧
    (∀ s c bs s1, s.takes xOp = some c → src c % 4096 = 0 →
      c.s.chkSeg c.t 0 (c.x 0) bytes 1 true false = none → c.s.coreFree (dst c) = true →
      c.s.loadAll c.aid (c.x 0) bytes (bytes / 64 + 1) = .ok bs s1 → (s1.th c.aid).outst = [] →
      (s1.imageOf bs = none → ∃ t, c.posted (s1.wrS c.aid d 3) = some t ∧
        exec (.ctxin h d a b) s = .next (t.finish c.aid c.npc h.sw)) ∧
      (∀ q s2, s1.imageOf bs = some q → (s1.occupy q (dst c)).replayAll q (s1.phys q) (dst c) = s2 → (s2.th c.aid).outst = [] →
        ∃ t, c.posted (s2.wrS c.aid d 0) = some t ∧ exec (.ctxin h d a b) s = .next (t.finish c.aid c.npc h.sw))) ∧
    (∀ (s s2 : State) (core idx : Nat) (x : Fwd) (y : Basting), (s.core core).fwdq[idx]? = some x →
      ((s.core core).fwdq.take idx).any (fun z => z.src == x.src) = false →
      let s1 := s.modCore core (fun k => { k with fwdq := k.fwdq.eraseIdx idx })
      s1.basting? (s.core core).ltag core x.at_ = some y → s.arrives (s.core core).ltag core 3 y.new = s.phys core →
      let counted (q : Cluster) : Cluster := { q with bast := q.bast.map (fun z => if z = y then { z with fwd := z.fwd + 1 } else z) }
      (s1.modClu (clusterOf x.at_) counted).land x.aid (s.core core).ltag core x.tr = some s2 →
      exec (.bastingForward core idx) s = .next s2) ∧
    (∀ (s : State) (sender old : Nat) (y : Basting),
      (s.clu (clusterOf old)).bast.toList.find? (fun z => z.v && z.ltag == (s.core sender).ltag && z.old == old) = some y →
      (s.core sender).ltag ≠ 0 → s.here sender = true → s.firstStop (s.core sender).ltag sender y.pos = old →
      (s.core y.pos).fwdq.any (fun z => z.src == sender) = false → s.flows.any (fun f => f.src == sender && f.dst == y.pos) = false →
      s.way true false (clusterOf (s.phys sender)) (clusterOf old) = .through →
      exec (.migrationMarker sender old) s = .next ((s.passFrom (s.core sender).ltag y.pos 8 old).modCore sender (fun k => { k with known := amSet k.known y.pos y.new }))) ∧
    (∀ (s : State) (cl i : Nat), i < 8 → exec (.bastingEntryRetire cl i) s = .next (s.modClu cl (fun k =>
      { k with bast := vwr k.bast i { (vrd k.bast i) with v := false } }))) ∧
    (∀ (s s1 : State) (core i : Nat) (tr : Traffic) (w : List Traffic), i < 8 → (vrd (s.clu (clusterOf core)).recv i).wait = tr :: w →
      tr.isCancel = false →
      (s.putRecv (clusterOf core) i { (vrd (s.clu (clusterOf core)).recv i) with wait := w }).appendRec (clusterOf core) i tr = some s1 →
      exec (.bounceAppend core i) s = .next s1)

/-! ### Moves of the journal, of slots and of threads out of them -/

/-- R119, R121, R131, R361: a waiting entry is sent once the earlier accesses that its order waits for allow it; a sent entry performs,
a refused one with its cause, and one whose destination is absent becomes a record of its ring; the acknowledgement frees the
entry, commits its flags, makes of a refusal a pending trap of the thread in its place in issue order, and ends a thread whose EXIT
waited for it; for a context that is absent it becomes a record of its ring. -/
def Obligations.JournalMoves : Prop :=
  ∀ (s : State) (core idx : Nat) (j : JEnt), vrd (s.core core).jrn idx = some j →
    let put (s : State) (e : Option JEnt) : State :=
      s.modCore core (fun k => { k with jrn := vwr k.jrn idx e })
    let away : Bool := !s.here core
    let tag : BitVec 32 := (s.th j.aid).ltag
    let a : State := put (s.ackPass core j) none
    let t : Thread := a.th j.aid
    let leaves (r : Option (Nat × Nat × Dword)) : Prop := ∃ w, t.wait = some w ∧ w.obj = .exiting r
    let plain : Prop := ∀ r, ¬leaves r
    let open_ : Prop := j.st = .sent ∧ j.fault = none ∧ s.wordsFree j.aid j.seq j.sub (.post j.op) = true
    (s.here core = true → j.st = .waiting → s.canSend j = true →
      exec (.journalEntrySend core idx) s = .next (put s (some { j with st := .sent }))) ∧
    (∀ fl s1, open_ → s.perform j = .done fl s1 →
      exec (.postedWritePerform core idx) s = .next (put s1 (some { j with st := .performed none fl away }))) ∧
    (∀ e s1, open_ → s.perform j = .refuse e s1 →
      exec (.postedWritePerform core idx) s = .next (put (s1.noteExc j.aid e) (some { j with st := .performed (some e.noted) 0 away }))) ∧
    (∀ h, open_ → s.perform j = .absent h →
      exec (.postedWritePerform core idx) s = .next ((put s (some { j with st := .bounced })).bounce tag h (.posted core idx))) ∧
    (∀ x fl b, s.here core = false → j.st = .performed x fl b →
      exec (.journalAck core idx) s = .next ((put s (some { j with st := .returning })).bounce tag core (.ack idx x fl))) ∧
    (s.here core = true →
      (∀ x fl b, j.st = .performed x fl b → t.loc = .exited → exec (.journalAck core idx) s = .next a) ∧
      (t.loc ≠ .exited →
        (∀ fl b, j.st = .performed none fl b → plain →
          exec (.journalAck core idx) s = .next (a.modTh j.aid (fun t => { t.commitFlags fl with parked := false }))) ∧
        (∀ e fl b, j.st = .performed (some e) fl b → plain →
          exec (.journalAck core idx) s = .next (a.modTh j.aid (fun t =>
            { t with traps := insertTrap (refusalTrap core idx j e b) t.traps, parked := false }))) ∧
        (∀ fl b r, j.st = .performed none fl b → leaves r → exec (.journalAck core idx) s = .next (a.exitThread j.aid r)) ∧
        (∀ e fl b r, j.st = .performed (some e) fl b → leaves r → t.loc = .slot →
          exec (.journalAck core idx) s = .next (a.modTh j.aid (fun t =>
            { t with traps := insertTrap (refusalTrap core idx j e b) t.traps, parked := false, wait := none })))))

/-- R188, R192, R202, R209, R213, R331, R332, R355, R356: a slot whose thread has an exception or a trap enters it; slot 15 takes
the head of its queue; a thread whose wait has its value goes on with it, and one that is Blocked is Queued; a free light slot takes
the near end of the deque, else the head of the run queue, else begins to steal, and reads back first what stands next in a ring only
(R357); a served steal request sends the context away, and one that is refused goes on to the next victim; a new pass begins when the
slot has rested (log 1 says when); a message's handler starts in slot 14 with its payload and sender. That a served request is one
move, and that a slot whose request is out takes a context of its own, is DEDUCED (log 34). -/
def Obligations.SlotMoves : Prop :=
  ∀ (s : State) (core slot : Nat),
    let k := s.core core
    let boss := superAid core 15
    let hold (x : State) (st : StealSt) : State := x.modCore core (fun k => { k with steal := vwr k.steal slot st })
    (∀ a, s.occ core slot = some a → s.ready core slot = true → (s.th a).outst = [] →
      (∀ e, (s.th a).pend = some e → (s.th a).entering = false → exec (.trapEntry core slot) s = .next
        ((s.putTh a { (s.th a) with pend := none }).enterTrap a e false false (s.th a).pc (s.th a).pnpc)) ∧
      (∀ x, (s.th a).pend = none → firstTrap (s.th a).traps = some x →
        let s1 := s.enterTrap a x.exc true x.replay (s.th a).pc ((s.th a).pc + s.lenAt a)
        ((s1.th a).wait.isSome = true → exec (.trapEntry core slot) s = .next s1) ∧
        ((s1.th a).wait = none → exec (.trapEntry core slot) s = .next
          (s1.modTh a (fun t => { t with traps := dropTrap x t.traps }))))) ∧
    (∀ n r, k.reqs = .slot n :: r → s.canTake core = true → (s.th boss).pend = none →
      (s.th boss).wait = none → (s.th boss).marked = true → (s.th boss).outst = [] →
      ∃ t, exec (.supervisorRequestTake core) s = .next t ∧ (t.core core).reqs = r ∧ (t.core core).ssel = n ∧
        (t.core core).sit = true ∧ (t.core core).sipc = (s.th boss).pc ∧ (t.th boss).pc = k.stvec) ∧
    (∀ a p0 p1 p2 p3 rel r w, k.reqs = .msg a p0 p1 p2 p3 rel :: r → s.canTake core = true →
      (s.th boss).pend = none → (s.th boss).wait = some w → w.obj = .halt → w.fired = none →
      ∃ t, exec (.systemMessageTake core) s = .next t ∧ (t.core core).reqs = r ∧ (t.core core).ssel = 16 ∧
        (t.core core).smsg.toList = [p0, p1, p2, p3] ∧ (t.core core).sipc = w.npc ∧
        ((t.latch core 16).cause.toNat % 65536 = 45) ∧ (t.latch core 16).armed = true ∧
        (t.th boss).pc = k.stvec) ∧
    (∀ a w x, (s.th a).core = core → s.here core = true → (s.th a).wait = some w → w.fired = some x →
      ((s.th a).loc = .slot → w.obj.dest = none → (∀ i j v, w.obj ≠ .fault i j v) → w.obj ≠ .acks → (∀ r, w.obj ≠ .exiting r) →
        (∀ v n, w.obj ≠ .clear v n) → w.obj ≠ .entry → (s.th a).pend = none → ∃ t, exec (.wakeMove core a) s = .next t ∧ t.th a = { (s.th a) with
          wait := none, marked := false, parked := false, pc := w.npc, seq := (s.th a).seq + 1, entering := false }) ∧
      (∀ t, (s.th a).loc = .blocked → (s.wakeDone a w x).pushRun core a = .ok t → exec (.wakeMove core a) s = .next t)) ∧
    (s.slotFree core slot = true →
      (k.deque = [] → k.dqRing ≠ [] ∨ (k.runq = [] ∧ k.runRing ≠ []) →
        exec (.lightSlotTake core slot) s = .next (s.refill core)) ∧
      (k.deque = [] → k.dqRing = [] → k.runq = [] → k.runRing = [] → vrd k.steal slot = .calm →
        exec (.lightSlotTake core slot) s = .next (hold s (.asking 0))) ∧
      (∀ a k', ((k.deque.getLast? = some a ∧ k' = { k with deque := k.deque.dropLast }) ∨
          (∃ r, k.deque = [] ∧ k.dqRing = [] ∧ k.runq = a :: r ∧ k' = { k with runq := r })) → (s.th a).depart = none →
        let u := hold ((s.putCore core k').takeSlot core slot a) .calm
        exec (.lightSlotTake core slot) s = .next (u.refill core) ∧ u.occ core slot = some a ∧
          vrd (u.core core).sst slot = .running ∧ (u.th a).loc = .slot ∧ (u.th a).slot = slot) ∧
      (∀ l n v, s.launch? k.ltag = some l → vrd k.steal slot = .asking n → (l.victims core)[n]? = some v →
        let asks : Prop := (s.core v).ltag = k.ltag ∧ s.absent k.ltag v = false ∧ s.firstStop k.ltag core v = s.phys v ∧
          s.reaches false (clusterOf (s.phys core)) (clusterOf (s.phys v)) = true
        (∀ a s1, asks → s.stealPick v = some a → s.ringContext v a = .ok s1 →
          exec (.stealServe core slot) s = .next (hold ((s1.departFor a core).refill v) .calm)) ∧
        (asks → s.stealPick v = none → exec (.stealServe core slot) s = .next
          (hold s (if n + 1 < (l.victims core).length then .asking (n + 1) else .resting)))) ∧
      (vrd k.steal slot = .resting → exec (.stealRetry core slot) s = .next (hold s (.asking 0)))) ∧
    (k.msgq = [] → k.mgRing ≠ [] → exec (.messageHandlerStart core) s = .next (s.refill core)) ∧
    (∀ m r l, k.msgq = m :: r → s.launch? k.ltag = some l → s.here core = true → k.seen = false → s.occ core 14 = none →
      vrd k.sst 14 = .empty →
      let s1 := (s.modCore core (fun k => { k with msgq := r })).newThread (m.thread l core)
      exec (.messageHandlerStart core) s = .next
        (((s1.2.modCore core (fun k => { k with occ := vwr k.occ 14 (some s1.1), sst := vwr k.sst 14 .running })).syncFrom
          (.thread s1.1) m.rel).refill core) ∧
      (m.thread l core).pc = m.handler ∧ (m.thread l core).kind = .handler ∧
      ∀ i < 4, vrd (m.thread l core).regs.s i = m.payload.getD i 0 ∨ m.payload.length ≤ i)

/-- R26, R345, R349: the launch unit of a partition takes the request at RIDX once a doorbell store made that slot visible, whose agent is
its kicker: one whose record cannot be read is done without a launch, a checked one waits for its panel; it starts when every cluster of the
panel is free and RIDX advances; a launch that is over writes 1, or 2 after its cancel bit, to its mailbox and leaves the machine. The
launch unit's accesses are as log 12 has them. -/
def Obligations.LaunchMoves : Prop :=
  (∀ (s s1 : State) (part : Nat) (h z : Place) (r : Dword),
    ∀ kick, part < 8 → amGet? s.pendingL part = none → s.bellNext part (amGet s.pqueue part 0) = some (h, r, kick) →
    s.atFault 0 (.launchUnit part r.toNat) = false →
    let e := (launchEng part r.toNat 0 0 kick).physical
    s.unitSlot e h r 2 = (some z, s1) →
    let q := (s1.unitTake e z).1
    let s2 := (s1.unitTake e z).2
    let u : Req1 := ⟨part, r.toNat, field q 16 4, kick⟩
    (fieldA q 0).toNat % 64 = 0 →
    (∀ code s3, s2.luRead u 1 (fieldA q 0) 288 = .refuse code s3 →
      exec (.launchRequest part) s = .next (s3.luDone u.eng part h r)) ∧
    (∀ bs s3, s2.luRead u 1 (fieldA q 0) 288 = .ok bs s3 →
      let read := s3.readLaunch u { launchOf part u.asid (field q 8 1) (field q 9 1) bs with request := r.toNat, kicker := kick } bs
        (decide (field q 10 6 ≠ 0 ∨ field q 20 4 ≠ 0 ∨ field q 24 32 ≠ 0))
      (∀ l s4, read = .ok l s4 → exec (.launchRequest part) s = .next { s4 with
        pendingL := amSet s4.pendingL part l, luErr := s4.luErr.filter (fun e => decide (e.1 ≠ part)) }) ∧
      (∀ code s4, read = .refuse code s4 → fieldA bs 136 = 0 →
        exec (.launchRequest part) s = .next (s4.luDone u.eng part h r)))) ∧
  (∀ (s : State) (part : Nat) (l : Launch) (h : Place) (r : Dword), amGet? s.pendingL part = some l →
    s.unitHead (amGet s.pqueue part 0) = some (h, r) →
    (s.panelFree l = true → exec (.launchStart part) s = .next ((s.startLaunch l).luDone l.eng part h r)) ∧
    (s.panelFree l = false → exec (.launchStart part) s = .next s)) ∧
  (∀ (s : State) (tag : Nat) (l : Launch), s.launch? (BitVec.ofNat 32 tag) = some l → s.launchOver l = true →
    s.atFault 0 l.eng.w = false →
    (l.mbox = 0 → ∃ t, exec (.launchCompletion tag) s = .next t ∧ ∀ m ∈ t.launches, m.tag ≠ l.tag) ∧
    (∀ s2, l.mbox ≠ 0 →
      let ths := (s.threads.filter (fun e => e.2.ltag == l.tag)).map (fun e => s.contrib (.thread e.1) .pkg)
      let cps := s.clus.flatMap (fun e => (e.2.copies.filter (fun c => c.2.tag == l.tag)).map (fun c =>
        s.contrib (.copy e.1 c.1) .pkg))
      let trs := l.plan.map (fun e => s.contrib (.tier l.tag.toNat e.id) .pkg)
      let ovs := ((List.range 288).filter l.hasClu).map (fun i => s.contrib (.overflow i) .pkg)
      (s.syncFrom l.eng.ag (ths ++ cps ++ trs ++ ovs)).luStore l.eng l.part l.mbox (if l.cancel then 2 else 1) = .ok s2 →
      ∃ t, exec (.launchCompletion tag) s = .next t ∧ t.mem = s2.mem ∧ ∀ m ∈ t.launches, m.tag ≠ l.tag))

/-- R374 to R377: a fault that waits takes a free entry; a reply of 0 or 1 frees the entry and ends the waits at it. A record of
the queue of the package that sequences is numbered; the next record in sequence that covers no plan entry, or has FORCE, writes
its entry, drops the translations that it names and sets APSEQ, and its mailbox write becomes due; a malformed one changes no entry and
owes all ones. That the queue, its slots and the mailbox are package physical addresses, and that a malformed record leaves APSEQ, is
log 49; that FAULT_REPLY is made as slot 15 of the service core is log 50. -/
def Obligations.FaultsAndUpdates : Prop :=
  (∀ (s : State) (cl : Nat) (f : FaultReq) (r : List FaultReq), (s.clu cl).fwait = f :: r →
    (s.clu cl).faults.toList.any (fun e => e.isNone) = true →
    exec (.faultEntryWait cl) s = .next ((s.modClu cl (fun k => { k with fwait := r })).pageFaultAt cl f.asid f.va f.kind f.reason
      f.tag f.seqno f.dest f.w)) ∧
  (∀ (s : State) (cl n : Nat) (v : Dword) (f : FaultEnt), cl < 288 → n < 16 → v.toNat % 4 < 2 →
    vrd (s.clu cl).faults n = some f →
    let ag := Agent.thread (superAid (s.service (4 * cl)) 15)
    let s1 := s.endRegion ag
    let s2 := if v.toNat % 4 = 0 then s1.dropPage cl f.asid f.page else s1
    let s3 := (f.ws.foldl (fun x w => x.replyTo cl f.page [s.contrib ag .pkg] (v.toNat % 4 == 1) w.1 w.2) s2).modClu cl
      (fun k => { k with faults := vwr k.faults n none })
    exec (.faultReply cl n v) s = .next (f.ws.foldl (fun s w => match w.1 with
      | .overflow c => s.refill c
      | _ => s) s3)) ∧
  (∀ (s : State) (r : RemoteUpd),
    (s.rankFenced r.rank = false → exec (.updateSequence (some r)) s = .next
      { s with seqn := s.seqn + 1, upds := s.upds ++ [⟨s.seqn + 1, r.upd, r.upd.own, .peer r.rank⟩] }) ∧
    (s.rankFenced r.rank = true → exec (.updateSequence (some r)) s = .next s)) ∧
  (∀ (s s1 : State) (h : Place) (i : Dword) (kick : Agent), s.bellNext 8 s.uq = some (h, i, kick) →
    let e := tableEng kick
    (s.unitSlot e h i 3 = (none, s1) → exec (.updateSequence none) s = .next (s1.bellTaken 8 i.toNat)) ∧
    (∀ z, s.unitSlot e h i 3 = (some z, s1) →
      let k := s1.unitTake e z
      let s2 := k.2.unitDone e 8 h i
      exec (.updateSequence none) s = .next (if s2.seqr then s2.addUpd (readUpd k.1) kick else s2))) ∧
  (∀ (s : State) (x : SeqRec) (rest : List SeqRec), s.upds = x :: rest → s.badUpd x.r = true →
    exec .updateApply s = .next
      { s with upds := rest, mbdue := s.mbdue ++ (if x.own then [⟨x.n, x.r.mba, BitVec.allOnes 64, x.kick⟩] else []) }) ∧
  (∀ (s : State) (x : SeqRec) (rest : List SeqRec), s.upds = x :: rest → s.badUpd x.r = false → s.memWf = true →
    (s.covered x.r = [] ∨ x.r.force = true) → s.ptpb.toNat + x.r.off.toNat + 8 ≤ hbmBytes →
    (((s.covered x.r).foldl (fun s e => s.revoke e.1 e.2) s).conflicts? .tableUnit true false
      ((Place.phys (s.ptpb.toNat + x.r.off.toNat)).words 8)) = none →
    ∃ t, exec .updateApply s = .next t ∧ t.upds = rest ∧ t.apseq = BitVec.ofNat 64 x.n ∧
      t.mbdue = s.mbdue ++ (if x.own then [⟨x.n, x.r.mba, BitVec.ofNat 64 x.n, x.kick⟩] else []) ∧
      t.mem.bytes (s.ptpb.toNat + x.r.off.toNat) 8 = leBytes 8 x.r.val.toNat ∧
      (x.r.inv = 3 → ∀ cl, (t.clu cl).tlb = [])) ∧
  (∀ (s : State) (x : SeqRec) (rest : List SeqRec), s.upds = x :: rest → s.badUpd x.r = false → s.covered x.r ≠ [] →
    x.r.force = false → exec .updateApply s = .next s) ∧
  (∀ (s : State) (n : Nat) (e : MailDue) (p : Place), s.mbdue.find? (fun e => e.n == n) = some e →
    e.mba.toNat % 8 = 0 → s.physPlace e.mba.toNat = some p →
    exec (.updateMailboxWrite n) s = .next
      ({ s with mbdue := s.mbdue.filter (fun x => x.n != n) }.engMail (tableEng e.kick) e.mba p e.v))

/-! ### The package (R325, R378 to R403) -/

/-- R325, R383, R394, R395, R397, R399: reset release reads the image and, verified, extends measurement 0 by its digest, or fails
with BUP 0xFF; training leads to phase 2 or fails; phase 3 writes the tables and starts every core at its reset state, and BUP 4
ends it; the power state moves one transition towards the requested one. A reset core's slot 15 is at the reset vector with its
latch empty and `ssel`, `sipc`, `ssvc` and `ssvcf` 0; CRST starts a cluster's reset, whose end, once the entries that it sent have
performed, empties its slots and stores. Memory empty after reset is log 3, the digest log 7, and when the measurements are extended,
whose key verifies, what P1 gates and what a core reset leaves are log 51. -/
def Obligations.BringUpResetAndPower : Prop :=
  ∀ (s : State),
    let digest (old : BitVec 256) (m : List Byte) : BitVec 256 :=
      BitVec.ofNat 256 (leVal (sha256 (leBytes 32 old.toNat ++ sha256 m)))
    (∀ f, s.image = some f → (s.byOwner f.code f.sig || byVendor f.code f.sig) = true →
      ∃ t, exec .packageResetRelease s = .next t ∧ t.bup = 1 ∧ vrd t.meas 0 = digest 0 f.code ∧ t.mem = [] ∧ t.launches = []) ∧
    (∀ f, s.image = some f → (s.byOwner f.code f.sig || byVendor f.code f.sig) = false →
      ∃ t, exec .packageResetRelease s = .next t ∧ t.bup = 0xFF) ∧
    (s.bup = 1 → exec (.memoryTraining true) s = .next { s with bup := 2 }) ∧
    (s.bup = 1 → ∃ t, exec (.memoryTraining false) s = .next t ∧ t.bup = 0xFF) ∧
    (∀ f, s.bup = 2 → s.image = some f →
      ∃ t, exec .firmwareStart s = .next t ∧ t.bup = 3 ∧ t.ptpb = f.ptpb ∧ t.ptps = f.ptps ∧ t.atb = f.atb ∧ t.atn = f.atn ∧
        vrd t.meas 1 = digest (vrd s.meas 1) f.kernel ∧
        (∀ c, c < 1152 → t.core c = startedCore (f.svc.getD defaultService) c ∧ vrd (t.core c).sst 15 = .running ∧
          (t.core c).stvec = resetVector)) ∧
    (s.bup = 3 → exec .bupReady s = .next { s with bup := 4 }) ∧
    (s.pwr = 0 → s.preq = 1 → ∃ t, exec .powerTransition s = .next t ∧ t.pwr = 1 ∧
      ∀ i, i < 288 → s.launchAt i = none → (t.clu i).gated = true) ∧
    (s.pwr = 1 → s.preq = 0 → ∃ t, exec .powerTransition s = .next t ∧ t.pwr = 0 ∧ ∀ i, (t.clu i).gated = false) ∧
    (s.pwr = 0 → s.preq = 2 → exec .powerTransition s = .next (if s.quiet then { s with pwr := 2 } else s)) ∧
    (s.pwr = 2 → s.preq = 0 → exec .powerTransition s = .next { s with pwr := 0 }) ∧
    (s.pwr = 2 → s.preq = 3 → exec .powerTransition s = .next { s with pwr := 3 }) ∧
    (s.pwr = 3 → s.preq = 2 → ∃ t, exec .powerTransition s = .next t ∧ t.pwr = 2 ∧ (t.bup = 1 ∨ t.bup = 0xFF)) ∧
    (∀ core, core < 1152 → ∃ t, exec (.coreReset core) s = .next t ∧ t.occ core 15 = some (superAid core 15) ∧
      vrd (t.core core).sst 15 = .running ∧ t.th (superAid core 15) = Thread.superReset core 15 ∧
      t.latch core 15 = Latch.zero ∧ t.latch core 16 = Latch.zero ∧ (t.core core).sit = false ∧ (t.core core).reqs = [] ∧
      (t.core core).stvec = resetVector ∧ (t.core core).ssel = 0 ∧ (t.core core).sipc = 0 ∧ (t.core core).ssvc = 0 ∧
      (t.core core).ssvcf = false ∧ (∀ b ∈ (t.core core).binds, b.aid ≠ superAid core 15) ∧
      (∀ b ∈ (t.core core).claims, b.aid ≠ superAid core 15) ∧ (∀ b ∈ (t.core core).arrq, b.aid ≠ superAid core 15)) ∧
    (∀ cl v, cl < 288 → v.getLsbD 0 = true → s.gateOpen false = true → (s.clu cl).crst = false →
      s.wayFrom false true 288 cl = .through →
      exec (.crst cl v) s = .next ((s.endRegion .host).startReset cl) ∧
      (((s.endRegion .host).startReset cl).clu cl).crst = true) ∧
    (∀ cl, s.resetDue cl = true → ∃ t, exec (.clusterResetDone cl) s = .next t ∧ (t.clu cl).crst = false ∧
      (t.clu cl).route = (s.clu cl).route ∧
      ∀ j, j < 4 → s.guest (4 * cl + j) = 4 * cl + j → (t.core (4 * cl + j)).sp = [] ∧ (t.core (4 * cl + j)).ltag = 0 ∧
        ∀ i, i < 16 → vrd (t.core (4 * cl + j)).sst i = .empty)

/-- R396, R399 to R402: the root of trust carries out the command of a request whose block it may access, and refuses any other with 1:
EXTEND of register 2 to 7 extends it, and of another is refused with 4; a token that no key signed, or that is malformed, is refused with
2, one of the owner for this boot sets the state and debug level that it names, and one of the vendor erases and enters Vendor-return;
QUOTE with its leaves used up, or at boot counter 32,767, is refused with 3, else uses a leaf; READ_KEYS and READ_MEASUREMENTS answer
with 0; each ends the request with RSEQ counted up. Which token does what, the malformed token, the boot counter and QUOTE at debug level
0 are log 52, the digest and the keys log 7. -/
def Obligations.RootOfTrustCommands : Prop :=
  ∀ (s : State), s.rotst.busy = true →
    let a := leVal s.rotst.blk
    let s1 := s.syncFrom .rot s.rotst.rel
    let ends (i : Instr) (res : Byte) : Prop := ∃ t, exec i s = .next t ∧ t.rotst.busy = false ∧ t.rotst.rres = res ∧
      t.rotst.rseq = s.rotst.rseq + 1
    let block (n : Nat) : List Byte := (s1.rotRead a n).1
    let hd := (block (64 + hssBytes)).take 64
    let sig := (block (64 + hssBytes)).drop 64
    (∀ x, s.rotBlock s.rotst.cmd.toNat a = some x →
      (s.rotst.cmd = 1 → ends .extend 1) ∧ (s.rotst.cmd = 2 → ends .token 1) ∧ (s.rotst.cmd = 3 → ends .quote 1) ∧
        (s.rotst.cmd = 4 → ends .readKeys 1) ∧ (s.rotst.cmd = 5 → ends .readMeasurements 1)) ∧
    (s.rotBlock s.rotst.cmd.toNat a = none →
    (s.rotst.cmd = 1 → (field (block 64) 0 1 < 2 ∨ 7 < field (block 64) 0 1) → ends .extend 4) ∧
    (s.rotst.cmd = 1 → 2 ≤ field (block 64) 0 1 → field (block 64) 0 1 ≤ 7 →
      ends .extend 0 ∧ ∃ t, exec .extend s = .next t ∧ vrd t.meas (field (block 64) 0 1) =
        BitVec.ofNat 256 (leVal (sha256 (leBytes 32 (vrd s.meas (field (block 64) 0 1)).toNat ++ (block 64).drop 32)))) ∧
    (s.rotst.cmd = 2 → (s.byOwner hd sig || byVendor hd sig) = false ∨ tokenForm hd = false ∨
      field hd 8 8 ≠ Config.fuseSerial.toNat ∨ field hd 4 2 ≠ s.bootc → ends .token 2) ∧
    (s.rotst.cmd = 2 → tokenForm hd = true → field hd 8 8 = Config.fuseSerial.toNat → field hd 4 2 = s.bootc →
      (s.byOwner hd sig = true → field hd 2 1 < 2 → dbgAllowed (field hd 2 1) (field hd 3 1) = true →
        ends .token 0 ∧ ∃ t, exec .token s = .next t ∧ t.sec.toNat = field hd 2 1 ∧ t.dbg.toNat = field hd 3 1) ∧
      (s.byOwner hd sig = false → byVendor hd sig = true → s.sec ≠ 2 → field hd 2 1 = 2 → field hd 3 1 = 2 →
        ends .token 0 ∧ ∃ t, exec .token s = .next t ∧ t.sec = 2 ∧ t.dbg = 2 ∧ t.meas = Vector.replicate 8 0 ∧
          ∀ x, x < hbmBytes → t.mem.get x = 0)) ∧
    (s.rotst.cmd = 3 → s.dbg = 0 → ends .quote 4) ∧
    (s.rotst.cmd = 3 → s.dbg ≠ 0 → (1024 ≤ s.quotes ∨ 32767 ≤ s.bootc) → ends .quote 3) ∧
    (s.rotst.cmd = 3 → s.dbg ≠ 0 → s.quotes < 1024 → s.bootc < 32767 →
      ends .quote 0 ∧ ∃ t, exec .quote s = .next t ∧ t.quotes = s.quotes + 1) ∧
    (s.rotst.cmd = 4 → ends .readKeys 0) ∧ (s.rotst.cmd = 5 → ends .readMeasurements 0))

/-- The flow of system messages from an I/O die, 288 or 289, to a core, whose sender is 16c + 15 (log 50). -/
def messageFlow (src core : Nat) : Nat × Nat := (2 ^ 16 + src * 2 ^ 20 + (16 * core + 15), core)

/-- R8, R372, R379, R382, R385, R388, R389, R391, R394, R397, R398, R403: what a write of a register from outside changes, with bring-up
ended: the tables' base, a partition's queue, a log's base, a rank's own number, the requested power state and a lowered debug level; HINT
sends its vector; a failed link is recorded; a lost package is fenced and reported, and a write to FSTEP ends what that discards; the
management bus reads an identification register, writes and refuses; its readback needs the debug level; ENTDAA sets the dynamic address.
Register moves are made as the host, HINT as slot 15 of a service core, and the sender of the peer-lost message is log 50; writes of any
register at debug level 2 are log 52. -/
def Obligations.RegistersFromOutside : Prop :=
  ∀ (s : State) (v : Dword), s.gateOpen false = true →
    let s1 := s.endRegion .host
    (s.running = false → exec (.translationBlockWrite 0x00 v) s = .next { s1 with ptpb := v } ∧
      exec (.translationBlockWrite 0x08 v) s = .next { s1 with ptps := v }) ∧
    (s.running = true → exec (.translationBlockWrite 0x00 v) s = .next (s1.ignored (.package 0x00) (s.rep .host))) ∧
    (∀ p, p < 8 → exec (.partitionTableWrite (0x200 + 8 * p) v) s = .next { s1 with pqueue := amSet s.pqueue p v }) ∧
    (∀ d, d < 10 → exec (.errorLogConfigWrite d 0 v) s = .next { s1 with
      elog := amSet s.elog d { amGet s.elog d ⟨0, 0, 0, 0, 0⟩ with base := v, widx := 0, ridx := 0 } }) ∧
    exec (.lamvanBlockWrite 0x200 v) s = .next { s1 with rank := bits v.toNat 5 0 } ∧
    exec (.registerWrite 0x010100002208 v) s = .next { s1 with stepTag := BitVec.ofNat 64 (bits v.toNat 15 0) } ∧
    exec (.preqWrite v) s = .next { s1 with preq := BitVec.ofNat 2 (bits v.toNat 1 0) } ∧
    ((BitVec.ofNat 2 (bits v.toNat 3 2)).toNat ≤ s.dbg.toNat →
      exec (.dbgWrite v) s = .next { s1 with dbg := BitVec.ofNat 2 (bits v.toNat 3 2) }) ∧
    exec (.lamvanBlockWrite 0x210 v) s = .next { s1 with fstep := BitVec.ofNat 64 (bits v.toNat 15 0), fencing := false } ∧
    (s.gateOpen true = true → ∃ t, exec (.hint v) s = .next t ∧ t.msix = s.msix ++
      [(BitVec.ofNat 64 (bits v.toNat 5 0), [s.contrib (.thread (superAid (s.service 0) 15)) .pkg])]) ∧
    (∀ a b, s.links.contains (a, b) = false → exec (.linkFailure a b) s = .next { s with links := (a, b) :: s.links }) ∧
    (∀ r, s.wayFrom true true 288 (clusterOf (s.plc.toNat % 2048)) = .through →
      s.broken.contains (messageFlow 288 (s.plc.toNat % 2048)) = false →
      ∃ t, exec (.packageLostFence r) s = .next t ∧ t.rankFenced r = true ∧ t.fstep = s.stepTag ∧ t.fencing = true ∧
      (t.core (s.plc.toNat % 2048)).reqs = (s.core (s.plc.toNat % 2048)).reqs ++
        [.msg (BitVec.ofNat 64 (16 * (s.plc.toNat % 2048) + 15))
          (BitVec.ofNat 64 (3 * 2 ^ 48 + r % 64 * 2 ^ 16 + s.stepTag.toNat % 65536))
          (BitVec.ofNat 64 (amGet s.ranks r ⟨false, false, 0, 0⟩).fid.toNat) 0 0 []]) ∧
    (∃ t, exec (.mgmtRead 0x7020) s = .next t ∧ t.answer = some (s.preq.setWidth 64)) ∧
    (∃ t, exec (.mgmtRead 0x7030) s = .next t ∧ t.answer = none) ∧
    exec (.mgmtWrite 0x7020 v) s = .next { s.endRegion .mgmt with preq := BitVec.ofNat 2 (bits v.toNat 1 0) } ∧
    (∀ off, 2 ≤ s.dbg.toNat → exec (.mgmtWrite off v) s = .next (s.outSet .mgmt (.package off) 8 v)) ∧
    (∀ off, s.dbg.toNat < 2 → isMailbox off = false → off ≠ 0x7018 → off ≠ 0x7020 →
      ∃ t, exec (.mgmtWrite off v) s = .next t ∧ t.answer = none) ∧
    (∀ sel idx x s2, readbackOk s.dbg.toNat sel = true → s.itemGated sel = false → s.readItem sel idx = (x, s2) →
      exec (.mgmtReadback sel idx) s = .next { s2 with answer := some x }) ∧
    (∀ sel idx, readbackOk s.dbg.toNat sel = false → ∃ t, exec (.mgmtReadback sel idx) s = .next t ∧ t.answer = none) ∧
    (∀ a, exec (.entdaa a) s = .next { s with i3c := some a })

/-- R127, R231, R378, R384 to R386, R388 to R390: an access from outside to local HBM without an uncorrectable error, of which no word
has a conflicting stamp: a write stores its bytes and no other byte of memory, a read answers with them, for the host, an NVMe
controller and a peer package that is not fenced, whose atomics read and write in one; an NVMe interrupt message queues its kind,
port and data; a fenced peer's access is dropped. The sender of the interrupt message is log 50. -/
def Obligations.AccessesFromOutside : Prop :=
  ∀ (s : State) (a n k : Nat) (v : Dword), s.gateOpen false = true → s.memWf = true → 1 ≤ n → n ≤ 8 → a + n ≤ hbmBytes →
    s.meetsBad (.phys a) n = false →
    let ws := (Place.phys a).words n
    let puts (i : Instr) (bs : List Byte) : Prop :=
      ∃ t, exec i s = .next t ∧ t.mem.bytes a n = bs ∧
        (∀ x, x < a ∨ a + n ≤ x → t.mem.get x = s.mem.get x) ∧ ∀ c, (t.core c).sp = (s.core c).sp
    let stores (i : Instr) (ag : Agent) : Prop := s.inPool (.phys a) n = false → s.conflicts? ag true false ws = none →
      puts i (leBytes n v.toNat)
    let loads (i : Instr) (ag : Agent) : Prop :=
      (s.conflicts? ag false false ws = none ∧ ∀ ks, (s.syncFrom ag ks).conflicts? ag false false ws = none) →
      ∃ t, exec i s = .next t ∧ t.answer = some (BitVec.ofNat 64 (leVal (s.mem.bytes a n))) ∧ t.mem = s.mem
    stores (.hostAccess true a n v) .host ∧ loads (.hostAccess false a n v) .host ∧
    stores (.nvmeControllerDma k true a n v) (.nvme k) ∧ loads (.nvmeControllerDma k false a n v) (.nvme k) ∧
    (s.rankFenced k = false →
      stores (.peerPackageAccess k (.store none) a n v) (.peer k) ∧ loads (.peerPackageAccess k (.load none) a n v) (.peer k) ∧
      (∀ f o, (n = 4 ∨ n = 8) → a % n = 0 → s.inPool (.phys a) n = false → s.conflicts? (.peer k) true true ws = none →
        let i : Instr := .peerPackageAccess k (.amo f o) a n v
        puts i (leBytes n (amoVal f n (leVal (s.mem.bytes a n)) v.toNat).1) ∧
        ∃ t, exec i s = .next t ∧ t.answer = some (BitVec.ofNat 64 (leVal (s.mem.bytes a n))))) ∧
    (∀ op, s.rankFenced k = true → exec (.peerPackageAccess k op a n v) s = .next s) ∧
    (∀ c, c < 1152 → s.wayFrom true true 289 (clusterOf c) = .through → s.broken.contains (messageFlow 289 c) = false → exec (.nvmeMsix k c v) s = .next (s.modCore c (fun x => { x with
      reqs := x.reqs ++ [.msg (BitVec.ofNat 64 (16 * c + 15)) (BitVec.ofNat 64 (7 * 2 ^ 48 + k % 4)) v 0 0 []] })))

/-! ### The checks of an instruction, its words and the step (R135 to R151) -/

/-- The operands of the privileged instructions (R329). -/
def privOp : Instr → Option Op
  | .sretRetry h a _ | .sretNext h a _ | .sretKill h a _ => some { h := h, rd := [.s a], priv := true, mem := true }
  | .sretTo h a b _ => some { h := h, rd := [.s a, .s b], priv := true, mem := true }
  | .mfs h d _ => some { h := h, wr := [.s d], priv := true }
  | .mts h _ a => some { h := h, rd := [.s a], priv := true }
  | .segld h _ m => some { h := h, len := memLen m, rd := memNames m, priv := true, mem := true }
  | .accsave h d e m | .accload h d e m =>
    some { h := h, len := memLen m, rd := memNames m ++ [.s d, .s e], priv := true, first := true, mem := true }
  | .ctxoutCore h d a b | .ctxoutMem h d a b | .ctxin h d a b | .rtswap h d a b =>
    some { h := h, rd := [.s a, .s b], wr := [.s d], priv := true, first := true, mem := true }
  | .xlinvVa h a b _ | .xlinvTag h a b _ | .xlinvAll h a b _ =>
    some { h := h, rd := [.s a, .s b], priv := true, first := true, mem := true }
  | .haltWait h | .haltStop h => some { h := h, priv := true, first := true, mem := true }
  | .rdstate h d a b => some { h := h, rd := [.s a, .s b], wr := [.s d], priv := true, long := true }
  | .sysmsg h a e => some { h := h, rd := [.s a] ++ quad e, priv := true, mem := true }
  | _ => none

/-- R21, R40, R52, R150, R151 steps 4 and 6 to 8: with a guard that is outstanding unmarked-use is raised; else, when the guard holds,
a privileged instruction in a user thread raises privileged-instruction; else a light thread that names a register it has not, or a
mask other than m0, raises heavy-only; else a source bound to an output raises bound-register; else an outstanding name raises
unmarked-use. Stated for the privileged, the scalar and the vector instructions. -/
def Obligations.ChecksInOrder : Prop :=
  ∀ (i : Instr) (o : Op) (s : State) (aid : Nat),
    (privOp i = some o ∨ (∃ d, scalarOp i = some (o, d)) ∨ ∃ d, vectorOp i = some (o, d)) →
    s.occ s.cur.1 s.cur.2 = some aid → (o.first = true → (s.th aid).outst = []) →
    let t := s.th aid
    let raises (n : Nat) : Prop := exec i s = .next (s.raise aid { cause := n } (t.pc + BitVec.ofNat 64 o.len))
    let names := o.rd ++ o.wr ++ o.own
    let priv := o.priv = true ∧ t.kind ≠ .super
    let lacks := t.kind = .light ∧ (names.all Nm.lightOk = false ∨ o.masks.any (fun m => m != 0) = true)
    let wrongEnd := o.rd.any (fun n => match s.boundTo aid n with
      | some b => b.out
      | none => false) = true
    (t.isOut (.p o.h.grd) = true → raises 5) ∧
    (t.isOut (.p o.h.grd) = false → t.guardHolds o.h = true →
      (priv → raises 4) ∧ (¬priv → lacks → raises 6) ∧
      (¬priv → ¬lacks → wrongEnd → raises 8) ∧
      (¬priv → ¬lacks → s.unbound aid (o.rd ++ o.wr) = true → names.any t.isOut = true → raises 5))

/-- R135 to R149: the bytes of a well-formed instruction, whatever follows them, decode to the instruction, and they are 8, 12 or
16. The moves have no bytes. -/
def Obligations.DecodeOfEncode : Prop :=
  ∀ (i : Instr) (bs : List Byte), i.wf = true → encodeBytes i = some bs →
    (bs.length = 8 ∨ bs.length = 12 ∨ bs.length = 16) ∧ ∀ rest, decode (bs ++ rest) = .ok i

/-- R135 to R149: bytes that decode to an instruction begin with its encoding, so that no bit of a word is disregarded and each
instruction has one word; and the instruction is well formed. -/
def Obligations.DecodedBytesAreTheEncoding : Prop :=
  ∀ (bs : List Byte) (i : Instr), decode bs = .ok i → i.wf = true ∧ ∃ w, encodeBytes i = some w ∧ w <+: bs

/-- Words written out from the encodings of the manual decode to the instructions that they stand for: the NOPs of R152, and words of the
encodings of chapters 08, 09, 13 and 20, worked there or composed from their tables (R135 to R149, R174, R277, R335). -/
def Obligations.DecodeWords : Prop :=
  decodeTableWord 64 0x0000000000000010 = some (.nop .plain) ∧
  decodeTableWord 96 0x000000000000000000000011 = some (.nop96 .plain) ∧
  decodeTableWord 128 0x00000000000000000000000000000012 = some (.nop128 .plain) ∧
  decodeTableWord 64 0x00010001811C02C0 = some (.shl .plain 7 1 (.imm 6)) ∧
  decodeTableWord 64 0x00000001811C02C0 = some (.shl .plain 7 1 (.reg 6)) ∧
  decodeTableWord 64 0x0000005000000100 = some (.evset .plain 5) ∧
  decodeTableWord 128 0x000000000000000100084A2003000C12 = some (.kacc .plain .f32 .rne 3 2 1 2 1 0 0) ∧
  decodeTableWord 64 0x0000010000040E10 = some (.mfs .plain 1 0x010) ∧
  decodeTableWord 64 0x0000140001000E00 = some (.sretNext .plain 1 true) ∧
  decodeTableWord 64 0x0000000000000EA0 = some (.haltWait .plain)

/-- R14, R42, R136, R209, R213: a slot whose turn it is and that may issue, with no trap due and nothing to do at a marker before its
instruction, runs the instruction that the bytes at its program counter decode to, after which waits wake and tasks become ready
(R195, R199); those bytes are what its translation reaches, up to the end of the fetch block, within a segment that grants them.
Which turn is next is log 1; a machine in which no turn changes anything stays as it is. -/
def Obligations.StepRunsDecodedInstruction : Prop :=
  (∀ (s s1 : State) (core slot aid : Nat) (i : Instr) (ts : List Turn), s.turns = .issue core slot :: ts →
    s.occ core slot = some aid →
    let s0 : State := { s with turns := ts, cur := (core, slot) }
    s0.ready core slot = true → s0.trapDue aid = false → ((s0.th aid).marked = false ∨ s0.atMarker core slot aid = none) →
    s0.fetch aid = .instr i s1 →
    (markerFirst i = false ∨ (s1.th aid).outst ≠ [] ∨ s1.atMarker core slot aid = none) →
    step s = after (exec i (s1.modTh aid (fun t => { t with entering := false, marked := false })))) ∧
  (∀ t : State, after (.next t) = .next t.settle) ∧
  (∀ (s s1 : State) (aid : Nat) (p : Place) (i : Instr), let t := s.th aid
    s.fetchOk t 1 = true → (s.reachTh aid t.pc 1 .fetch = (.mem p, s1) ∨ s.reachTh aid t.pc 1 .fetch = (.host p, s1)) →
    let bs := s1.bytes p (32 - t.pc.toNat % 32)
    s1.fetchOk (s1.th aid) (lenBytes ((bs.headD 0).setWidth 2)) = true → decode bs = .ok i → s.fetch aid = .instr i s1) ∧
  (∀ (i : Instr) (s : State) (ts : List Turn), s.turns = .move i :: ts → step s = after (exec i { s with turns := ts })) ∧
  (∀ (n : Nat) (s : State) (ts : List Turn), s.turns = .deliver n :: ts →
    step s = .next (({ s with turns := ts } : State).arriveFlow n).settle) ∧
  (∀ (s s1 : State) (t : Turn), s.turns = [] → s.pick = some (t, s1) → step s = runTurn t s1) ∧
  (∀ s : State, s.turns = [] → s.pick = none → step s = .next s)

/-! ### Reset and the canonical form of memory -/

/-- R325, R394, R395: after reset bring-up is in phase 0 and power in state 0, no launch runs; slot 15 of every core holds its
supervisor thread at the reset vector, with its scalar, vector and mask registers, flags, controls, counters, position and latches zero,
p0 alone true, g0 granting everything and every other segment zero; its other slots are empty, `stvec` is the reset vector and the
other system registers are zero. Registers without a stated reset value: log 3. -/
def Obligations.ResetState : Prop :=
  let s := State.reset
  s.bup = 0 ∧ s.pwr = 0 ∧ s.launches = [] ∧ s.apseq = 0 ∧
  ∀ c, c < 1152 → let t := s.th (superAid c 15)
    s.occ c 15 = some (superAid c 15) ∧ vrd (s.core c).sst 15 = .running ∧ t.kind = .super ∧ t.pc = 0x10000 ∧ t.core = c ∧
      (∀ n, t.rS n = 0) ∧ (∀ n, t.rV n = 0) ∧ t.regs.m = Vector.replicate 8 0 ∧ t.regs.p = 1 ∧ t.regs.fstat = 0 ∧
      t.regs.rm = 0 ∧ t.regs.seed = 0 ∧ t.regs.nanc = 0 ∧ t.regs.ovwc = 0 ∧ t.regs.segsel = 0 ∧ t.pos = 0 ∧ t.hh = false ∧
      t.traps = [] ∧ t.outst = [] ∧ t.pend = none ∧ t.wait = none ∧ vrd t.segs 0 = ⟨0, BitVec.allOnes 64, 0xF⟩ ∧
      (∀ g, 1 ≤ g → g < 8 → vrd t.segs g = ⟨0, 0, 0⟩) ∧ (∀ n, n < 15 → s.occ c n = none ∧ vrd (s.core c).sst n = .empty) ∧
      (∀ l, l ≤ 16 → s.latch c l = Latch.zero ∧ (s.latch c l).armed = false) ∧ (s.core c).stvec = 0x10000 ∧
      (s.core c).sit = false ∧ (s.core c).ssel = 0 ∧ (s.core c).sipc = 0 ∧ (s.core c).ssvc = 0 ∧ (s.core c).ew = false ∧
      (s.core c).reqs = []

/-- Log 2: after reset every memory of the machine is in its canonical form (addresses rising, no byte 0 listed). -/
def Obligations.ResetMemoryForm : Prop := State.reset.memWf = true

/-- Log 2: every step keeps every memory of the machine in its canonical form, so that equal memories are equal data. -/
def Obligations.StepKeepsMemoryForm : Prop :=
  ∀ (s t : State), s.memWf = true → step s = .next t → t.memWf = true
end

