-- ==== Sys2Proof/Laws/Codec.lean ====
section
/-!
SUPPORT. The decoder's reading of each field that the encoder writes, said once per field.
-/

set_option linter.unusedSimpArgs false

namespace Sys2Proof

/-! ### Refusals -/

@[simp] theorem need_true {p : Prop} [Decidable p] {e : Reject} (h : p) : need p e = .ok () := by simp [need, h]

@[simp] theorem ok_bind {α β : Type} (a : α) (f : α → Except Reject β) : (Except.ok a >>= f) = f a := rfl
@[simp] theorem ok_map {α β : Type} (a : α) (f : α → β) : f <$> (Except.ok a : Except Reject α) = .ok (f a) := rfl
@[simp] theorem pure_ok {α : Type} (a : α) : (pure a : Except Reject α) = .ok a := rfl

/-! ### Register fields -/

@[simp] theorem sregOf_sF (r : BitVec 5) : sregOf (sF r) = .ok r := by revert r; decide
@[simp] theorem vregOf_vF (r : VReg) : vregOf (vF r) = .ok r := by revert r; decide
@[simp] theorem termOf_tF (t : Option SReg) : termOf (tF t) = .ok t := by
  cases t with
  | none => rfl
  | some r => revert r; decide
@[simp] theorem termOf_sF (r : SReg) : termOf (sF r) = .ok (some r) := termOf_tF (some r)
@[simp] theorem mregOf_kF (r : MReg) : mregOf (kF r) = .ok r := by revert r; decide
@[simp] theorem pnameOf_nF (n : PName) : pnameOf (nF n) = .ok n := by
  obtain ⟨v, k⟩ := n; revert v k; decide
@[simp] theorem maskOf_x3 (m : BitVec 3) : maskOf (x3 m) = .ok m := by revert m; decide
@[simp] theorem segOf_x3 (m : BitVec 3) : segOf (x3 m) = .ok m := by revert m; decide

/-! ### Modifier codes -/

@[simp] theorem tyOf_code (t : Ty) : tyOf t.code = .ok t := by cases t <;> rfl
@[simp] theorem rndOf_code (r : Rnd) : rndOf r.code = .ok r := by cases r <;> rfl
@[simp] theorem ordOf_code (o : Ord) : ordOf o.code = .ok o := by cases o <;> rfl
@[simp] theorem scopeOf_code (s : Scope) : scopeOf s.code = .ok s := by cases s <;> rfl
@[simp] theorem condOf_code (c : Cond) : condOf c.code = .ok c := by cases c <;> rfl
@[simp] theorem vcondOf_code (c : VCond) : vcondOf c.code = .ok c := by cases c <;> rfl
@[simp] theorem amoOf_code (o : AmoOp) : amoOf o.code = .ok o := by cases o <;> rfl
@[simp] theorem redOf_code (o : RedOp) : redOf o.code = .ok o := by cases o <;> rfl
@[simp] theorem bsOf_code (b : BlockSize) : bsOf b.code = .ok b := by cases b <;> rfl
@[simp] theorem stOf_code (t : ScaleTy) : stOf t.code = .ok t := by cases t <;> rfl
@[simp] theorem mmaModeOf_code (m : MmaMode) : mmaModeOf m.code = .ok m := by cases m <;> rfl
@[simp] theorem tyRndOf_tyMd (t : Ty) (r : Rnd) : tyRndOf (tyMd t r) = .ok (t, r) := by cases t <;> cases r <;> rfl
@[simp] theorem tyPlainOf_tyQ (t : Ty) : tyPlainOf (tyQ t 0#3) = .ok t := by cases t <;> rfl
@[simp] theorem bit0_zero {n : Nat} (e : Reject) : bit0 (0#n) e = .ok false := by simp [bit0]
@[simp] theorem bit0_one (n : Nat) (e : Reject) : bit0 (1#(n + 1)) e = .ok true := by simp [bit0]
@[simp] theorem bit0_one6 (e : Reject) : bit0 (1#6) e = .ok true := bit0_one 5 e
@[simp] theorem bit0_one8 (e : Reject) : bit0 (1#8) e = .ok true := bit0_one 7 e
@[simp] theorem bit0_one64 (e : Reject) : bit0 (1#64) e = .ok true := bit0_one 63 e
@[simp] theorem bit0_bF (b : Bool) (e : Reject) : bit0 (bF b) e = .ok b := by cases b <;> rfl

/-! ### Immediates -/

/-- The places of an F64-B offset. -/
@[simp] theorem rawB_off (h : Hdr) (op : BitVec 8) (m : BitVec 34) : (rawB h op m).x8 ++ (rawB h op m).md ++
    (rawB h op m).fn ++ (rawB h op m).c ++ (rawB h op m).b = m := by
  ext i hi
  simp only [rawB, BitVec.getElem_append, BitVec.getElem_extractLsb']
  repeat' split
  all_goals (rw [← BitVec.getLsbD_eq_getElem]; congr 1; omega)
@[simp] theorem rawB_d (h : Hdr) (op : BitVec 8) (m : BitVec 34) : (rawB h op m).d = 0 := rfl
@[simp] theorem rawB_a (h : Hdr) (op : BitVec 8) (m : BitVec 34) : (rawB h op m).a = 0 := rfl
@[simp] theorem rawB_op (h : Hdr) (op : BitVec 8) (m : BitVec 34) : (rawB h op m).op = op := rfl
@[simp] theorem rawB_len (h : Hdr) (op : BitVec 8) (m : BitVec 34) : (rawB h op m).len = 0 := rfl
@[simp] theorem rawB_b3 (h : Hdr) (op : BitVec 8) (m : BitVec 34) : (rawB h op m).b3 = false := rfl
@[simp] theorem rawB_neg (h : Hdr) (op : BitVec 8) (m : BitVec 34) : (rawB h op m).neg = h.neg := rfl
@[simp] theorem rawB_grd (h : Hdr) (op : BitVec 8) (m : BitVec 34) : (rawB h op m).grd = h.grd := rfl
@[simp] theorem rawB_sw (h : Hdr) (op : BitVec 8) (m : BitVec 34) : (rawB h op m).sw = h.sw := rfl
/-- The places of an F64-I immediate. -/
@[simp] theorem rawI_imm (h : Hdr) (op : BitVec 8) (m : BitVec 28) : (rawI h op m).x8 ++ (rawI h op m).md ++
    (rawI h op m).fn ++ (rawI h op m).c = m := by
  ext i hi
  simp only [rawI, BitVec.getElem_append, BitVec.getElem_extractLsb']
  repeat' split
  all_goals (rw [← BitVec.getLsbD_eq_getElem]; congr 1; omega)
@[simp] theorem rawI_d (h : Hdr) (op : BitVec 8) (m : BitVec 28) : (rawI h op m).d = 0 := rfl
@[simp] theorem rawI_a (h : Hdr) (op : BitVec 8) (m : BitVec 28) : (rawI h op m).a = 0 := rfl
@[simp] theorem rawI_b (h : Hdr) (op : BitVec 8) (m : BitVec 28) : (rawI h op m).b = 0 := rfl
@[simp] theorem rawI_op (h : Hdr) (op : BitVec 8) (m : BitVec 28) : (rawI h op m).op = op := rfl
@[simp] theorem rawI_len (h : Hdr) (op : BitVec 8) (m : BitVec 28) : (rawI h op m).len = 0 := rfl
@[simp] theorem rawI_b3 (h : Hdr) (op : BitVec 8) (m : BitVec 28) : (rawI h op m).b3 = false := rfl
@[simp] theorem rawI_neg (h : Hdr) (op : BitVec 8) (m : BitVec 28) : (rawI h op m).neg = h.neg := rfl
@[simp] theorem rawI_grd (h : Hdr) (op : BitVec 8) (m : BitVec 28) : (rawI h op m).grd = h.grd := rfl
@[simp] theorem rawI_sw (h : Hdr) (op : BitVec 8) (m : BitVec 28) : (rawI h op m).sw = h.sw := rfl
@[simp] theorem ext_high {n k a b : Nat} (m : BitVec n) (h : n ≤ a) : (m.setWidth k).extractLsb' a b = 0#b := by
  ext i hi
  simp [BitVec.getElem_extractLsb', BitVec.getLsbD_of_ge m (a + i) (by omega)]
@[simp] theorem set_back {n k : Nat} (m : BitVec n) (h : n ≤ k) : (m.setWidth k).setWidth n = m := by
  rw [BitVec.setWidth_setWidth_of_le m h, BitVec.setWidth_eq]
theorem ext_left {m n s l : Nat} (a : BitVec m) (b : BitVec n) (h : n ≤ s) :
    (a ++ b).extractLsb' s l = a.extractLsb' (s - n) l := by
  ext i hi
  simp only [BitVec.getElem_extractLsb', BitVec.getLsbD_append]
  rw [if_neg (by omega)]; congr 1; omega
theorem ext_right {m n s l : Nat} (a : BitVec m) (b : BitVec n) (h : s + l ≤ n) :
    (a ++ b).extractLsb' s l = b.extractLsb' s l := by
  ext i hi
  simp only [BitVec.getElem_extractLsb', BitVec.getLsbD_append]
  rw [if_pos (by omega)]
theorem set_right {m n l : Nat} (a : BitVec m) (b : BitVec n) (h : l ≤ n) :
    (a ++ b).setWidth l = b.setWidth l := by
  ext i hi
  simp only [BitVec.getElem_setWidth, BitVec.getLsbD_append]
  rw [if_pos (by omega)]
theorem ext_zero {n l : Nat} (a : BitVec n) : a.extractLsb' 0 l = a.setWidth l := by
  ext i hi
  simp

/-! ### Operands -/

@[simp] theorem memK (k g : BitVec 3) : (0#2 ++ k ++ g).extractLsb' 6 2 = 0#2 ∧ (0#2 ++ k ++ g).extractLsb' 3 3 = k ∧
    (0#2 ++ k ++ g).setWidth 3 = g := by revert k g; decide
@[simp] theorem tyQualOf_no (t : Ty) (q : BitVec 3) : tyQualOf (tyQ t 0#3) q = .ok (t, false) := by cases t <;> rfl
@[simp] theorem tyQualOf_one (t : Ty) : tyQualOf (tyQ t 1#3) 1#3 = .ok (t, true) := by cases t <;> rfl
@[simp] theorem tyQualOf_two (t : Ty) : tyQualOf (tyQ t 2#3) 2#3 = .ok (t, true) := by cases t <;> rfl
@[simp] theorem tyQualOf_imm (t : Ty) : tyQualOf (tyQ t 3#3) 3#3 = .ok (t, true) := by cases t <;> rfl
@[simp] theorem tyQ_lo (t : Ty) (q : BitVec 3) : (tyQ t q).setWidth 3 = q := by cases t <;> revert q <;> decide
@[simp] theorem tyQ_hi (t : Ty) (q : BitVec 3) : (tyQ t q).extractLsb' 3 5 = t.code := by
  cases t <;> revert q <;> decide
@[simp] theorem srcTyOf_sF (t : Ty) : srcTyOf (sF t.code) = .ok t := by cases t <;> rfl
@[simp] theorem qMd_hi (q : BitVec 3) (z : BitVec 2) : (qMd q z).extractLsb' 5 3 = 0#3 := by revert q z; decide
@[simp] theorem qMd_mid (q : BitVec 3) (z : BitVec 2) : (qMd q z).extractLsb' 2 3 = q := by revert q z; decide
@[simp] theorem qMd_lo (q : BitVec 3) (z : BitVec 2) : (qMd q z).setWidth 2 = z := by revert q z; decide
@[simp] theorem rpOf_no (z : BitVec 2) : rpOf (qMd 0#3 z) = .ok false := by revert z; decide
@[simp] theorem rpOf_rp (z : BitVec 2) : rpOf (qMd 3#3 z) = .ok true := by revert z; decide
@[simp] theorem qualOf_codes : qualOf 0#3 = .ok .none ∧ qualOf 1#3 = .ok .fe ∧ qualOf 2#3 = .ok .fec ∧
    qualOf 3#3 = .ok .rp ∧ qualOf 4#3 = .ok .ftag := by decide
@[simp] theorem dwOf_md (q : BitVec 3) : dwOf (qMd q 2#2) = .ok false ∧ dwOf (qMd q 3#2) = .ok true := by revert q; decide
@[simp] theorem plain_md (z : BitVec 2) : MKind.md .plain z = qMd 0#3 z := rfl
@[simp] theorem rp_md (z : BitVec 2) : MKind.md .rp z = qMd 3#3 z := rfl
@[simp] theorem atomic_hi (o : Ord) (c : Scope) (z : BitVec 2) : (MKind.md (.atomic o c) z).extractLsb' 5 3 = o.code := by
  cases o <;> cases c <;> revert z <;> decide
@[simp] theorem atomic_mid (o : Ord) (c : Scope) (z : BitVec 2) : (MKind.md (.atomic o c) z).extractLsb' 2 3 = c.code := by
  cases o <;> cases c <;> revert z <;> decide
@[simp] theorem atomic_lo (o : Ord) (c : Scope) (z : BitVec 2) : (MKind.md (.atomic o c) z).setWidth 2 = z := by
  cases o <;> cases c <;> revert z <;> decide
@[simp] theorem ordCode_ne (o : Ord) : (o.code = 0#3) = False := by cases o <;> decide
@[simp] theorem fence_md (o : Ord) (c : Scope) : (o.code ++ c.code ++ 0#2).extractLsb' 5 3 = o.code ∧
    (o.code ++ c.code ++ 0#2).extractLsb' 2 3 = c.code ∧ (o.code ++ c.code ++ 0#2).setWidth 2 = 0#2 := by
  cases o <;> cases c <;> decide
@[simp] theorem rmwOf_rmwMd (o : Ord) (s : Scope) (w : Bool) : rmwOf (rmwMd o s w) = .ok (o, s, w) := by
  cases o <;> cases s <;> cases w <;> rfl
@[simp] theorem amtOf_reg (b : SReg) : amtOf (sF b) 0#8 = .ok (.reg b) := by simp [amtOf]
@[simp] theorem amtOf_imm (b : BitVec 6) : amtOf b 1#8 = .ok (.imm b) := by simp [amtOf]
@[simp] theorem vamtOf_reg (b : VReg) : vamtOf (vF b) false = .ok (.reg b) := by simp [vamtOf]
@[simp] theorem vamtOf_imm (b : BitVec 6) : vamtOf b true = .ok (.imm b) := by simp [vamtOf]
@[simp] theorem trnd_hi (t : BitVec 2) (n : BitVec 4) : (trnd t n).extractLsb' 4 2 = t := by revert t n; decide
@[simp] theorem trnd_lo (t : BitVec 2) (n : BitVec 4) : (trnd t n).setWidth 4 = n := by revert t n; decide
@[simp] theorem fnSys_lo (k : BitVec 2) (b : Bool) : (fnSys k b).setWidth 2 = k := by revert k b; decide
@[simp] theorem fnSys_mid (k : BitVec 2) (b : Bool) : (fnSys k b).getLsbD 2 = b := by revert k b; decide
@[simp] theorem fnSys_hi (k : BitVec 2) (b : Bool) : (fnSys k b).extractLsb' 3 3 = 0#3 := by revert k b; decide

@[simp] theorem qn_field (b : BitVec 3) : (7#3 ++ b).extractLsb' 3 3 = 7#3 ∧ (7#3 ++ b).setWidth 3 = b := by
  revert b; decide
@[simp] theorem srcTyOf_codes : srcTyOf 1#6 = .ok .f32 ∧ srcTyOf 8#6 = .ok .bx8 ∧ srcTyOf 9#6 = .ok .bx4 := by decide
@[simp] theorem bxOf_types : bxOf .bx8 = .ok false ∧ bxOf .bx4 = .ok true := by decide
@[simp] theorem fnSys_two (k : BitVec 2) (b : Bool) : (fnSys k b)[2] = b := fnSys_mid k b
@[simp] theorem stpair_ext (t : BitVec 3) (y x : BitVec 16) : (0#29 ++ t ++ y ++ x).extractLsb' 35 29 = 0#29 ∧
    (0#29 ++ t ++ y ++ x).extractLsb' 32 3 = t ∧ (0#29 ++ t ++ y ++ x).extractLsb' 16 16 = y ∧
    (0#29 ++ t ++ y ++ x).setWidth 16 = x := by
  refine ⟨?_, ?_, ?_, ?_⟩ <;> ext i hi <;>
    simp only [BitVec.getElem_extractLsb', BitVec.getElem_setWidth, BitVec.getLsbD_append] <;> repeat' split
  all_goals first
    | omega
    | (rw [← BitVec.getLsbD_eq_getElem]; done)
    | (rw [← BitVec.getLsbD_eq_getElem]; congr 1; omega)
@[simp] theorem mma_ext (r : BitVec 9) (n : BitVec 5) : (0#39 ++ r ++ 0#11 ++ n).extractLsb' 5 11 = 0#11 ∧
    (0#39 ++ r ++ 0#11 ++ n).extractLsb' 25 39 = 0#39 ∧ (0#39 ++ r ++ 0#11 ++ n).extractLsb' 16 9 = r ∧
    (0#39 ++ r ++ 0#11 ++ n).setWidth 5 = n := by
  refine ⟨?_, ?_, ?_, ?_⟩ <;> ext i hi <;>
    simp only [BitVec.getElem_extractLsb', BitVec.getElem_setWidth, BitVec.getLsbD_append] <;> repeat' split
  all_goals first
    | omega
    | (rw [← BitVec.getLsbD_eq_getElem]; done)
    | (rw [← BitVec.getLsbD_eq_getElem]; congr 1; omega)
@[simp] theorem kacc_ext (y x : BitVec 16) : (0#32 ++ y ++ x).extractLsb' 32 32 = 0#32 ∧
    (0#32 ++ y ++ x).extractLsb' 16 16 = y ∧ (0#32 ++ y ++ x).setWidth 16 = x ∧ (0#32 ++ y ++ x).setWidth 16 = x := by
  refine ⟨?_, ?_, ?_, ?_⟩ <;> ext i hi <;>
    simp only [BitVec.getElem_extractLsb', BitVec.getElem_setWidth, BitVec.getLsbD_append] <;> repeat' split
  all_goals first
    | omega
    | (rw [← BitVec.getLsbD_eq_getElem]; done)
    | (rw [← BitVec.getLsbD_eq_getElem]; congr 1; omega)
@[simp] theorem nbr_ext (c : BitVec 16) (u v : BitVec 1) : (0#32 ++ c ++ 0#14 ++ u ++ v).extractLsb' 2 14 = 0#14 ∧
    (0#32 ++ c ++ 0#14 ++ u ++ v).extractLsb' 32 32 = 0#32 ∧ (0#32 ++ c ++ 0#14 ++ u ++ v).extractLsb' 16 16 = c ∧
    (0#32 ++ c ++ 0#14 ++ u ++ v).extractLsb' 16 16 = c := by
  refine ⟨?_, ?_, ?_, ?_⟩ <;> ext i hi <;>
    simp only [BitVec.getElem_extractLsb', BitVec.getElem_setWidth, BitVec.getLsbD_append] <;> repeat' split
  all_goals first
    | omega
    | (rw [← BitVec.getLsbD_eq_getElem]; done)
    | (rw [← BitVec.getLsbD_eq_getElem]; congr 1; omega)
@[simp] theorem nbr_bits (c : BitVec 16) (u v : BitVec 1) : (0#32 ++ c ++ 0#14 ++ u ++ v)[0] = v[0] ∧
    (0#32 ++ c ++ 0#14 ++ u ++ v)[1] = u[0] := by
  constructor <;> simp only [← BitVec.getLsbD_eq_getElem, BitVec.getLsbD_append] <;> rfl
@[simp] theorem pbindQ_md (q : BitVec 3) (u v : BitVec 1) : (0#3 ++ q ++ u ++ v).extractLsb' 5 3 = 0#3 ∧
    (0#3 ++ q ++ u ++ v).extractLsb' 2 3 = q ∧ (0#3 ++ q ++ u ++ v)[0] = v[0] ∧ (0#3 ++ q ++ u ++ v)[1] = u[0] := by
  revert q u v; decide
@[simp] theorem pbindN_md (q : BitVec 2) (u v : BitVec 1) : (0#4 ++ q ++ u ++ v).extractLsb' 5 3 = 0#3 ∧
    (0#4 ++ q ++ u ++ v).extractLsb' 2 2 = q ∧ (0#4 ++ q ++ u ++ v)[0] = v[0] ∧ (0#4 ++ q ++ u ++ v)[1] = u[0] ∧
    (0#4 ++ q ++ u ++ v)[4] = false := by
  revert q u v; decide

/-! ### Words and bytes -/

/-- The fields of a word are read back. -/
@[simp] theorem ofWord_word (r : Raw) : Raw.ofWord r.word = r := by
  obtain ⟨e, x, m, f, c, b, a, d, n, g, o, b3, sw, l⟩ := r
  simp only [Raw.ofWord, Raw.word, Raw.mk.injEq]
  refine ⟨?_, ?_, ?_, ?_, ?_, ?_, ?_, ?_, ?_, ?_, ?_, ?_, ?_, ?_⟩
  all_goals first
    | (ext i hi
       simp only [BitVec.getElem_extractLsb', BitVec.getLsbD_append]
       rw [if_neg (by omega)]
       rw [← BitVec.getLsbD_eq_getElem]
       congr 1
       omega)
    | (ext i hi
       simp only [BitVec.getElem_extractLsb', BitVec.getLsbD_append]
       rw [if_pos (by omega)]
       repeat rw [if_neg (by omega)]
       try rw [if_pos (by omega)]
       rw [← BitVec.getLsbD_eq_getElem]
       congr 1
       omega)
    | (simp only [BitVec.getLsbD_append]
       rw [if_pos (by omega)]
       repeat rw [if_neg (by omega)]
       rw [if_pos (by omega)]
       simp)
/-- Bytes of a value, read back. -/
theorem bytesVal_valBytes (n v : Nat) : bytesVal (valBytes n v) = v % 256 ^ n := by
  induction n generalizing v with
  | zero => simp [valBytes, bytesVal, Nat.mod_one]
  | succ n ih =>
    simp only [valBytes, bytesVal, ih, BitVec.toNat_ofNat]
    rw [show 256 ^ (n + 1) = 256 * 256 ^ n by rw [Nat.pow_succ, Nat.mul_comm], Nat.mod_mul]
@[simp] theorem valBytes_length (n v : Nat) : (valBytes n v).length = n := by
  induction n generalizing v with
  | zero => rfl
  | succ n ih => simp [valBytes, ih]
end Sys2Proof
end

