-- ==== Sys2Proof/Laws/Memory.lean ====
section
/-!
SUPPORT. Memory: what a byte reads as after a write or a clear, and that every memory operation keeps the canonical form.
-/

namespace Sys2Proof.Machine

/-! ### One byte -/

theorem Memory.get_set (m : Memory) (x y : Nat) (v : Byte) (h : m.wf = true) :
    (Memory.set m x v).get y = if y = x then v else m.get y := by
  induction m with
  | nil =>
    by_cases hv : v = 0
    · subst hv; simp [Memory.set, Memory.get]
    · simp only [Memory.set, if_neg hv, Memory.get, eq_comm]
  | cons e m ih =>
    obtain ⟨a, b⟩ := e
    have hm : Memory.wf m = true := by
      cases m with
      | nil => rfl
      | cons e' m' => simp only [Memory.wf, Bool.and_eq_true] at h; exact h.2
    have low : ∀ z, z ≤ a → Memory.get m z = 0 := by
      clear ih
      induction m generalizing a b with
      | nil => intro z _; rfl
      | cons e' m' ih' =>
        obtain ⟨a', b'⟩ := e'
        simp only [Memory.wf, Bool.and_eq_true, decide_eq_true_eq] at h
        intro z hz
        have hm' : Memory.wf m' = true := by
          cases m' with
          | nil => rfl
          | cons e'' m'' => simp only [Memory.wf, Bool.and_eq_true] at hm; exact hm.2
        have := ih' a' b' hm hm' z (by omega)
        simp only [Memory.get]
        rw [if_neg (by omega)]; exact this
    simp only [Memory.set]
    split
    · simp only [Memory.get, ih hm]
      split <;> split <;> first | rfl | omega
    · split
      · rename_i h1 h2
        subst h2
        split
        · rename_i hv
          by_cases hy : y = a
          · subst hy; simp [hv, low y (Nat.le_refl _)]
          · simp only [Memory.get, if_neg hy, if_neg (Ne.symm hy)]
        · simp only [Memory.get]
          by_cases hy : y = a <;> simp [hy, eq_comm]
      · split
        · rename_i h1 h2 hv
          by_cases hy : y = x
          · subst hy
            simp only [if_true, hv, Memory.get, if_neg h2]
            exact low y (by omega)
          · simp [hy]
        · by_cases hy : y = x
          · simp [Memory.get, hy]
          · simp only [Memory.get, if_neg (Ne.symm hy), if_neg hy]

/-- Every listed address is at least `lo`, and the form holds. -/
def Memory.from_ (lo : Nat) : Memory → Bool
  | [] => true
  | (a, b) :: m => decide (lo ≤ a) && decide (b ≠ 0) && Memory.from_ (a + 1) m

theorem Memory.from_mono (m : Memory) (lo hi : Nat) (h : lo ≤ hi) (w : m.from_ hi = true) : m.from_ lo = true := by
  cases m with
  | nil => rfl
  | cons e m =>
    simp only [Memory.from_, Bool.and_eq_true, decide_eq_true_eq] at *
    exact ⟨⟨by omega, w.1.2⟩, w.2⟩

theorem Memory.wf_iff (m : Memory) : m.wf = true ↔ m.from_ 0 = true := by
  have step : ∀ (m : Memory) (a : Nat) (b : Byte), Memory.wf ((a, b) :: m) = true ↔ (b ≠ 0 ∧ m.from_ (a + 1) = true) := by
    intro m
    induction m with
    | nil => intro a b; simp [Memory.wf, Memory.from_]
    | cons e m ih =>
      obtain ⟨a', b'⟩ := e
      intro a b
      simp only [Memory.wf, Memory.from_, Bool.and_eq_true, decide_eq_true_eq, ih a' b']
      constructor
      · rintro ⟨⟨h1, h2⟩, h3, h4⟩; exact ⟨h1, ⟨by omega, h3⟩, h4⟩
      · rintro ⟨h1, ⟨h2, h3⟩, h4⟩; exact ⟨⟨h1, by omega⟩, h3, h4⟩
  cases m with
  | nil => simp [Memory.wf, Memory.from_]
  | cons e m =>
    obtain ⟨a, b⟩ := e
    simp only [step, Memory.from_, Nat.zero_le, decide_true, Bool.true_and, Bool.and_eq_true, decide_eq_true_eq]

theorem Memory.from_set (m : Memory) (x lo : Nat) (v : Byte) (hx : lo ≤ x) (h : m.from_ lo = true) :
    (Memory.set m x v).from_ lo = true := by
  induction m generalizing lo with
  | nil =>
    by_cases hv : v = 0
    · simp only [Memory.set, if_pos hv, Memory.from_]
    · simp only [Memory.set, if_neg hv, Memory.from_, Bool.and_true, Bool.and_eq_true, decide_eq_true_eq]; exact ⟨hx, hv⟩
  | cons e m ih =>
    obtain ⟨a, b⟩ := e
    simp only [Memory.from_, Bool.and_eq_true, decide_eq_true_eq] at h
    simp only [Memory.set]
    split
    · simp only [Memory.from_, Bool.and_eq_true, decide_eq_true_eq]
      exact ⟨h.1, ih (a + 1) (by omega) h.2⟩
    · split
      · rename_i h1 h2; subst h2
        split
        · exact Memory.from_mono m lo (a + 1) (by omega) h.2
        · simp only [Memory.from_, Bool.and_eq_true, decide_eq_true_eq]
          exact ⟨⟨hx, by assumption⟩, h.2⟩
      · split
        · simp only [Memory.from_, Bool.and_eq_true, decide_eq_true_eq]; exact h
        · simp only [Memory.from_, Bool.and_eq_true, decide_eq_true_eq]
          exact ⟨⟨hx, by assumption⟩, ⟨by omega, h.1.2⟩, h.2⟩

theorem Memory.wf_set (m : Memory) (x : Nat) (v : Byte) (h : m.wf = true) : (Memory.set m x v).wf = true := by
  rw [Memory.wf_iff] at *; exact Memory.from_set m x 0 v (Nat.zero_le _) h

/-! ### Several bytes -/

theorem Memory.wf_put (m : Memory) (a : Nat) (bs : List Byte) (h : m.wf = true) : (m.put a bs).wf = true := by
  induction bs generalizing m a with
  | nil => exact h
  | cons b bs ih => exact ih _ _ (Memory.wf_set m a b h)

/-- A byte after a write is the one written there, else the one before. -/
theorem Memory.get_put (m : Memory) (a y : Nat) (bs : List Byte) (h : m.wf = true) :
    (m.put a bs).get y = if a ≤ y ∧ y < a + bs.length then bs.getD (y - a) 0 else m.get y := by
  induction bs generalizing m a with
  | nil => simp only [Memory.put, List.length_nil]; rw [if_neg (by omega)]
  | cons b bs ih =>
    simp only [Memory.put, ih _ _ (Memory.wf_set m a b h), Memory.get_set m a y b h, List.length_cons]
    by_cases h1 : y = a
    · subst h1; rw [if_neg (by omega), if_pos (by omega)]; simp
    · by_cases h2 : a + 1 ≤ y ∧ y < a + 1 + bs.length
      · rw [if_pos h2, if_pos (by omega)]
        have : y - a = (y - (a + 1)) + 1 := by omega
        rw [this]; simp
      · rw [if_neg h2, if_neg h1, if_neg (by omega)]

theorem Memory.bytes_length (m : Memory) (a n : Nat) : (m.bytes a n).length = n := by
  induction n generalizing a with
  | zero => rfl
  | succ n ih => simp [Memory.bytes, ih]

/-- The bytes of a range are those of its addresses. -/
theorem Memory.bytes_eq (m : Memory) (a n : Nat) : m.bytes a n = (List.range n).map (fun i => m.get (a + i)) := by
  induction n generalizing a with
  | zero => rfl
  | succ n ih =>
    simp only [Memory.bytes, ih, List.range_succ_eq_map, List.map_cons, List.map_map, Nat.add_zero, List.cons.injEq, true_and]
    apply List.map_congr_left
    intro i _
    simp only [Function.comp, Nat.succ_eq_add_one]
    congr 1; omega

/-- Memory reads what was written. -/
theorem Memory.bytes_put (m : Memory) (a : Nat) (bs : List Byte) (h : m.wf = true) : (m.put a bs).bytes a bs.length = bs := by
  rw [Memory.bytes_eq]
  apply List.ext_getElem
  · simp
  · intro i h1 h2
    have hi : i < bs.length := h2
    have e : a + i - a = i := by omega
    rw [List.getElem_map, List.getElem_range, Memory.get_put m a _ bs h, if_pos (by omega), e]
    simp [hi]

/-- Bytes outside a written range read as before. -/
theorem Memory.bytes_put_ne (m : Memory) (a c n : Nat) (bs : List Byte) (h : m.wf = true)
    (d : c + n ≤ a ∨ a + bs.length ≤ c) : (m.put a bs).bytes c n = m.bytes c n := by
  rw [Memory.bytes_eq, Memory.bytes_eq]
  apply List.map_congr_left
  intro i hi
  rw [List.mem_range] at hi
  rw [Memory.get_put m a _ bs h, if_neg (by omega)]

theorem Memory.from_filter (m : Memory) (p : Host.Cell → Bool) (lo : Nat) (h : m.from_ lo = true) :
    Memory.from_ lo (m.filter p) = true := by
  induction m generalizing lo with
  | nil => rfl
  | cons e m ih =>
    obtain ⟨a, b⟩ := e
    simp only [Memory.from_, Bool.and_eq_true, decide_eq_true_eq] at h
    simp only [List.filter_cons]
    split
    · simp only [Memory.from_, Bool.and_eq_true, decide_eq_true_eq]; exact ⟨h.1, ih _ h.2⟩
    · exact Memory.from_mono _ lo (a + 1) (by omega) (ih _ h.2)

theorem Memory.wf_filter (m : Memory) (p : Host.Cell → Bool) (h : m.wf = true) : Memory.wf (m.filter p) = true := by
  rw [Memory.wf_iff] at *; exact Memory.from_filter m p 0 h

theorem Memory.wf_clear (m : Memory) (a n : Nat) (h : m.wf = true) : (m.clear a n).wf = true := Memory.wf_filter m _ h

theorem Memory.wf_nil : Memory.wf [] = true := rfl

/-! ### Values -/

theorem leBytes_length (n v : Nat) : (leBytes n v).length = n := by
  induction n generalizing v with
  | zero => rfl
  | succ n ih => simp [leBytes, ih]

/-- The bytes of a value give the value back, cut to its width (R7). -/
theorem leVal_leBytes (n v : Nat) : leVal (leBytes n v) = v % 256 ^ n := by
  induction n generalizing v with
  | zero => simp [leBytes, leVal, Nat.mod_one]
  | succ n ih =>
    have e : v % 256 ^ (n + 1) = v % 256 + 256 * (v / 256 % 256 ^ n) := by
      rw [Nat.pow_succ, Nat.mul_comm (256 ^ n) 256, Nat.mod_mul]
    rw [e]
    simp only [leBytes, leVal, ih, BitVec.toNat_ofNat]

/-- A value of 8 bytes reads back. -/
theorem Memory.read_put (m : Memory) (a n v : Nat) (h : m.wf = true) :
    leVal ((m.put a (leBytes n v)).bytes a n) = v % 256 ^ n := by
  have := Memory.bytes_put m a (leBytes n v) h
  rw [leBytes_length] at this
  rw [this, leVal_leBytes]

end Sys2Proof.Machine
end

