-- ==== Sys2Proof/Laws/State.lean ====
section
/-!
SUPPORT. What a change of a thread, a core, a cluster or a launch leaves of the state, field by field, and what a read of a
thread, a core or a cluster gives after one.
-/

namespace Sys2Proof.Machine

variable (s : State) (a b : Nat)

/-! ### Fields of the state -/

@[simp] theorem putTh_turns (t : Thread) : (s.putTh a t).turns = s.turns := rfl
@[simp] theorem putTh_cur (t : Thread) : (s.putTh a t).cur = s.cur := rfl
@[simp] theorem putTh_pace (t : Thread) : (s.putTh a t).pace = s.pace := rfl
@[simp] theorem putTh_free (t : Thread) : (s.putTh a t).free = s.free := rfl
@[simp] theorem putTh_nextAid (t : Thread) : (s.putTh a t).nextAid = s.nextAid := rfl
@[simp] theorem putTh_order (t : Thread) : (s.putTh a t).order = s.order := rfl
@[simp] theorem putTh_cores (t : Thread) : (s.putTh a t).cores = s.cores := rfl
@[simp] theorem putTh_clus (t : Thread) : (s.putTh a t).clus = s.clus := rfl
@[simp] theorem putTh_clocks (t : Thread) : (s.putTh a t).clocks = s.clocks := rfl
@[simp] theorem putTh_objs (t : Thread) : (s.putTh a t).objs = s.objs := rfl
@[simp] theorem putTh_stamps (t : Thread) : (s.putTh a t).stamps = s.stamps := rfl
@[simp] theorem putTh_wcache (t : Thread) : (s.putTh a t).wcache = s.wcache := rfl
@[simp] theorem putTh_mem (t : Thread) : (s.putTh a t).mem = s.mem := rfl
@[simp] theorem putTh_fwd (t : Thread) : (s.putTh a t).fwd = s.fwd := rfl
@[simp] theorem putTh_launches (t : Thread) : (s.putTh a t).launches = s.launches := rfl
@[simp] theorem putTh_pendingL (t : Thread) : (s.putTh a t).pendingL = s.pendingL := rfl
@[simp] theorem putTh_counts (t : Thread) : (s.putTh a t).counts = s.counts := rfl
@[simp] theorem putTh_asids (t : Thread) : (s.putTh a t).asids = s.asids := rfl
@[simp] theorem putTh_flows (t : Thread) : (s.putTh a t).flows = s.flows := rfl
@[simp] theorem putTh_trapq (t : Thread) : (s.putTh a t).trapq = s.trapq := rfl
@[simp] theorem putTh_ptpb (t : Thread) : (s.putTh a t).ptpb = s.ptpb := rfl
@[simp] theorem putTh_ptps (t : Thread) : (s.putTh a t).ptps = s.ptps := rfl
@[simp] theorem putTh_atb (t : Thread) : (s.putTh a t).atb = s.atb := rfl
@[simp] theorem putTh_atn (t : Thread) : (s.putTh a t).atn = s.atn := rfl
@[simp] theorem putTh_apseq (t : Thread) : (s.putTh a t).apseq = s.apseq := rfl
@[simp] theorem putTh_uq (t : Thread) : (s.putTh a t).uq = s.uq := rfl
@[simp] theorem putTh_seqr (t : Thread) : (s.putTh a t).seqr = s.seqr := rfl
@[simp] theorem putTh_seqn (t : Thread) : (s.putTh a t).seqn = s.seqn := rfl
@[simp] theorem putTh_upds (t : Thread) : (s.putTh a t).upds = s.upds := rfl
@[simp] theorem putTh_mbdue (t : Thread) : (s.putTh a t).mbdue = s.mbdue := rfl
@[simp] theorem putTh_cpart (t : Thread) : (s.putTh a t).cpart = s.cpart := rfl
@[simp] theorem putTh_pqueue (t : Thread) : (s.putTh a t).pqueue = s.pqueue := rfl
@[simp] theorem putTh_ranks (t : Thread) : (s.putTh a t).ranks = s.ranks := rfl
@[simp] theorem putTh_rank (t : Thread) : (s.putTh a t).rank = s.rank := rfl
@[simp] theorem putTh_stepTag (t : Thread) : (s.putTh a t).stepTag = s.stepTag := rfl
@[simp] theorem putTh_fstep (t : Thread) : (s.putTh a t).fstep = s.fstep := rfl
@[simp] theorem putTh_plc (t : Thread) : (s.putTh a t).plc = s.plc := rfl
@[simp] theorem putTh_elog (t : Thread) : (s.putTh a t).elog = s.elog := rfl
@[simp] theorem putTh_links (t : Thread) : (s.putTh a t).links = s.links := rfl
@[simp] theorem putTh_msix (t : Thread) : (s.putTh a t).msix = s.msix := rfl
@[simp] theorem putTh_fencing (t : Thread) : (s.putTh a t).fencing = s.fencing := rfl
@[simp] theorem putTh_broken (t : Thread) : (s.putTh a t).broken = s.broken := rfl
@[simp] theorem putTh_bad (t : Thread) : (s.putTh a t).bad = s.bad := rfl
@[simp] theorem putTh_badOp (t : Thread) : (s.putTh a t).badOp = s.badOp := rfl
@[simp] theorem putTh_bup (t : Thread) : (s.putTh a t).bup = s.bup := rfl
@[simp] theorem putTh_pwr (t : Thread) : (s.putTh a t).pwr = s.pwr := rfl
@[simp] theorem putTh_dbg (t : Thread) : (s.putTh a t).dbg = s.dbg := rfl
@[simp] theorem putTh_sec (t : Thread) : (s.putTh a t).sec = s.sec := rfl
@[simp] theorem putTh_preq (t : Thread) : (s.putTh a t).preq = s.preq := rfl
@[simp] theorem putTh_meas (t : Thread) : (s.putTh a t).meas = s.meas := rfl
@[simp] theorem putTh_rotst (t : Thread) : (s.putTh a t).rotst = s.rotst := rfl
@[simp] theorem putTh_bootc (t : Thread) : (s.putTh a t).bootc = s.bootc := rfl
@[simp] theorem putTh_quotes (t : Thread) : (s.putTh a t).quotes = s.quotes := rfl
@[simp] theorem putTh_bootTree (t : Thread) : (s.putTh a t).bootTree = s.bootTree := rfl
@[simp] theorem putTh_image (t : Thread) : (s.putTh a t).image = s.image := rfl
@[simp] theorem putTh_svcMap (t : Thread) : (s.putTh a t).svcMap = s.svcMap := rfl
@[simp] theorem putTh_i3c (t : Thread) : (s.putTh a t).i3c = s.i3c := rfl
@[simp] theorem putTh_luErr (t : Thread) : (s.putTh a t).luErr = s.luErr := rfl
@[simp] theorem putTh_bells (t : Thread) : (s.putTh a t).bells = s.bells := rfl
@[simp] theorem putTh_answer (t : Thread) : (s.putTh a t).answer = s.answer := rfl

@[simp] theorem modTh_turns (f : Thread → Thread) : (s.modTh a f).turns = s.turns := rfl
@[simp] theorem modTh_cur (f : Thread → Thread) : (s.modTh a f).cur = s.cur := rfl
@[simp] theorem modTh_pace (f : Thread → Thread) : (s.modTh a f).pace = s.pace := rfl
@[simp] theorem modTh_free (f : Thread → Thread) : (s.modTh a f).free = s.free := rfl
@[simp] theorem modTh_nextAid (f : Thread → Thread) : (s.modTh a f).nextAid = s.nextAid := rfl
@[simp] theorem modTh_order (f : Thread → Thread) : (s.modTh a f).order = s.order := rfl
@[simp] theorem modTh_cores (f : Thread → Thread) : (s.modTh a f).cores = s.cores := rfl
@[simp] theorem modTh_clus (f : Thread → Thread) : (s.modTh a f).clus = s.clus := rfl
@[simp] theorem modTh_clocks (f : Thread → Thread) : (s.modTh a f).clocks = s.clocks := rfl
@[simp] theorem modTh_objs (f : Thread → Thread) : (s.modTh a f).objs = s.objs := rfl
@[simp] theorem modTh_stamps (f : Thread → Thread) : (s.modTh a f).stamps = s.stamps := rfl
@[simp] theorem modTh_wcache (f : Thread → Thread) : (s.modTh a f).wcache = s.wcache := rfl
@[simp] theorem modTh_mem (f : Thread → Thread) : (s.modTh a f).mem = s.mem := rfl
@[simp] theorem modTh_fwd (f : Thread → Thread) : (s.modTh a f).fwd = s.fwd := rfl
@[simp] theorem modTh_launches (f : Thread → Thread) : (s.modTh a f).launches = s.launches := rfl
@[simp] theorem modTh_pendingL (f : Thread → Thread) : (s.modTh a f).pendingL = s.pendingL := rfl
@[simp] theorem modTh_counts (f : Thread → Thread) : (s.modTh a f).counts = s.counts := rfl
@[simp] theorem modTh_asids (f : Thread → Thread) : (s.modTh a f).asids = s.asids := rfl
@[simp] theorem modTh_flows (f : Thread → Thread) : (s.modTh a f).flows = s.flows := rfl
@[simp] theorem modTh_trapq (f : Thread → Thread) : (s.modTh a f).trapq = s.trapq := rfl
@[simp] theorem modTh_ptpb (f : Thread → Thread) : (s.modTh a f).ptpb = s.ptpb := rfl
@[simp] theorem modTh_ptps (f : Thread → Thread) : (s.modTh a f).ptps = s.ptps := rfl
@[simp] theorem modTh_atb (f : Thread → Thread) : (s.modTh a f).atb = s.atb := rfl
@[simp] theorem modTh_atn (f : Thread → Thread) : (s.modTh a f).atn = s.atn := rfl
@[simp] theorem modTh_apseq (f : Thread → Thread) : (s.modTh a f).apseq = s.apseq := rfl
@[simp] theorem modTh_uq (f : Thread → Thread) : (s.modTh a f).uq = s.uq := rfl
@[simp] theorem modTh_seqr (f : Thread → Thread) : (s.modTh a f).seqr = s.seqr := rfl
@[simp] theorem modTh_seqn (f : Thread → Thread) : (s.modTh a f).seqn = s.seqn := rfl
@[simp] theorem modTh_upds (f : Thread → Thread) : (s.modTh a f).upds = s.upds := rfl
@[simp] theorem modTh_mbdue (f : Thread → Thread) : (s.modTh a f).mbdue = s.mbdue := rfl
@[simp] theorem modTh_cpart (f : Thread → Thread) : (s.modTh a f).cpart = s.cpart := rfl
@[simp] theorem modTh_pqueue (f : Thread → Thread) : (s.modTh a f).pqueue = s.pqueue := rfl
@[simp] theorem modTh_ranks (f : Thread → Thread) : (s.modTh a f).ranks = s.ranks := rfl
@[simp] theorem modTh_rank (f : Thread → Thread) : (s.modTh a f).rank = s.rank := rfl
@[simp] theorem modTh_stepTag (f : Thread → Thread) : (s.modTh a f).stepTag = s.stepTag := rfl
@[simp] theorem modTh_fstep (f : Thread → Thread) : (s.modTh a f).fstep = s.fstep := rfl
@[simp] theorem modTh_plc (f : Thread → Thread) : (s.modTh a f).plc = s.plc := rfl
@[simp] theorem modTh_elog (f : Thread → Thread) : (s.modTh a f).elog = s.elog := rfl
@[simp] theorem modTh_links (f : Thread → Thread) : (s.modTh a f).links = s.links := rfl
@[simp] theorem modTh_msix (f : Thread → Thread) : (s.modTh a f).msix = s.msix := rfl
@[simp] theorem modTh_fencing (f : Thread → Thread) : (s.modTh a f).fencing = s.fencing := rfl
@[simp] theorem modTh_broken (f : Thread → Thread) : (s.modTh a f).broken = s.broken := rfl
@[simp] theorem modTh_bad (f : Thread → Thread) : (s.modTh a f).bad = s.bad := rfl
@[simp] theorem modTh_badOp (f : Thread → Thread) : (s.modTh a f).badOp = s.badOp := rfl
@[simp] theorem modTh_bup (f : Thread → Thread) : (s.modTh a f).bup = s.bup := rfl
@[simp] theorem modTh_pwr (f : Thread → Thread) : (s.modTh a f).pwr = s.pwr := rfl
@[simp] theorem modTh_dbg (f : Thread → Thread) : (s.modTh a f).dbg = s.dbg := rfl
@[simp] theorem modTh_sec (f : Thread → Thread) : (s.modTh a f).sec = s.sec := rfl
@[simp] theorem modTh_preq (f : Thread → Thread) : (s.modTh a f).preq = s.preq := rfl
@[simp] theorem modTh_meas (f : Thread → Thread) : (s.modTh a f).meas = s.meas := rfl
@[simp] theorem modTh_rotst (f : Thread → Thread) : (s.modTh a f).rotst = s.rotst := rfl
@[simp] theorem modTh_bootc (f : Thread → Thread) : (s.modTh a f).bootc = s.bootc := rfl
@[simp] theorem modTh_quotes (f : Thread → Thread) : (s.modTh a f).quotes = s.quotes := rfl
@[simp] theorem modTh_bootTree (f : Thread → Thread) : (s.modTh a f).bootTree = s.bootTree := rfl
@[simp] theorem modTh_image (f : Thread → Thread) : (s.modTh a f).image = s.image := rfl
@[simp] theorem modTh_svcMap (f : Thread → Thread) : (s.modTh a f).svcMap = s.svcMap := rfl
@[simp] theorem modTh_i3c (f : Thread → Thread) : (s.modTh a f).i3c = s.i3c := rfl
@[simp] theorem modTh_luErr (f : Thread → Thread) : (s.modTh a f).luErr = s.luErr := rfl
@[simp] theorem modTh_bells (f : Thread → Thread) : (s.modTh a f).bells = s.bells := rfl
@[simp] theorem modTh_answer (f : Thread → Thread) : (s.modTh a f).answer = s.answer := rfl

@[simp] theorem putCore_turns (k : Core) : (s.putCore a k).turns = s.turns := rfl
@[simp] theorem putCore_cur (k : Core) : (s.putCore a k).cur = s.cur := rfl
@[simp] theorem putCore_pace (k : Core) : (s.putCore a k).pace = s.pace := rfl
@[simp] theorem putCore_free (k : Core) : (s.putCore a k).free = s.free := rfl
@[simp] theorem putCore_nextAid (k : Core) : (s.putCore a k).nextAid = s.nextAid := rfl
@[simp] theorem putCore_order (k : Core) : (s.putCore a k).order = s.order := rfl
@[simp] theorem putCore_threads (k : Core) : (s.putCore a k).threads = s.threads := rfl
@[simp] theorem putCore_clus (k : Core) : (s.putCore a k).clus = s.clus := rfl
@[simp] theorem putCore_clocks (k : Core) : (s.putCore a k).clocks = s.clocks := rfl
@[simp] theorem putCore_objs (k : Core) : (s.putCore a k).objs = s.objs := rfl
@[simp] theorem putCore_stamps (k : Core) : (s.putCore a k).stamps = s.stamps := rfl
@[simp] theorem putCore_wcache (k : Core) : (s.putCore a k).wcache = s.wcache := rfl
@[simp] theorem putCore_mem (k : Core) : (s.putCore a k).mem = s.mem := rfl
@[simp] theorem putCore_fwd (k : Core) : (s.putCore a k).fwd = s.fwd := rfl
@[simp] theorem putCore_launches (k : Core) : (s.putCore a k).launches = s.launches := rfl
@[simp] theorem putCore_pendingL (k : Core) : (s.putCore a k).pendingL = s.pendingL := rfl
@[simp] theorem putCore_counts (k : Core) : (s.putCore a k).counts = s.counts := rfl
@[simp] theorem putCore_asids (k : Core) : (s.putCore a k).asids = s.asids := rfl
@[simp] theorem putCore_flows (k : Core) : (s.putCore a k).flows = s.flows := rfl
@[simp] theorem putCore_trapq (k : Core) : (s.putCore a k).trapq = s.trapq := rfl
@[simp] theorem putCore_ptpb (k : Core) : (s.putCore a k).ptpb = s.ptpb := rfl
@[simp] theorem putCore_ptps (k : Core) : (s.putCore a k).ptps = s.ptps := rfl
@[simp] theorem putCore_atb (k : Core) : (s.putCore a k).atb = s.atb := rfl
@[simp] theorem putCore_atn (k : Core) : (s.putCore a k).atn = s.atn := rfl
@[simp] theorem putCore_apseq (k : Core) : (s.putCore a k).apseq = s.apseq := rfl
@[simp] theorem putCore_uq (k : Core) : (s.putCore a k).uq = s.uq := rfl
@[simp] theorem putCore_seqr (k : Core) : (s.putCore a k).seqr = s.seqr := rfl
@[simp] theorem putCore_seqn (k : Core) : (s.putCore a k).seqn = s.seqn := rfl
@[simp] theorem putCore_upds (k : Core) : (s.putCore a k).upds = s.upds := rfl
@[simp] theorem putCore_mbdue (k : Core) : (s.putCore a k).mbdue = s.mbdue := rfl
@[simp] theorem putCore_cpart (k : Core) : (s.putCore a k).cpart = s.cpart := rfl
@[simp] theorem putCore_pqueue (k : Core) : (s.putCore a k).pqueue = s.pqueue := rfl
@[simp] theorem putCore_ranks (k : Core) : (s.putCore a k).ranks = s.ranks := rfl
@[simp] theorem putCore_rank (k : Core) : (s.putCore a k).rank = s.rank := rfl
@[simp] theorem putCore_stepTag (k : Core) : (s.putCore a k).stepTag = s.stepTag := rfl
@[simp] theorem putCore_fstep (k : Core) : (s.putCore a k).fstep = s.fstep := rfl
@[simp] theorem putCore_plc (k : Core) : (s.putCore a k).plc = s.plc := rfl
@[simp] theorem putCore_elog (k : Core) : (s.putCore a k).elog = s.elog := rfl
@[simp] theorem putCore_links (k : Core) : (s.putCore a k).links = s.links := rfl
@[simp] theorem putCore_msix (k : Core) : (s.putCore a k).msix = s.msix := rfl
@[simp] theorem putCore_fencing (k : Core) : (s.putCore a k).fencing = s.fencing := rfl
@[simp] theorem putCore_broken (k : Core) : (s.putCore a k).broken = s.broken := rfl
@[simp] theorem putCore_bad (k : Core) : (s.putCore a k).bad = s.bad := rfl
@[simp] theorem putCore_badOp (k : Core) : (s.putCore a k).badOp = s.badOp := rfl
@[simp] theorem putCore_bup (k : Core) : (s.putCore a k).bup = s.bup := rfl
@[simp] theorem putCore_pwr (k : Core) : (s.putCore a k).pwr = s.pwr := rfl
@[simp] theorem putCore_dbg (k : Core) : (s.putCore a k).dbg = s.dbg := rfl
@[simp] theorem putCore_sec (k : Core) : (s.putCore a k).sec = s.sec := rfl
@[simp] theorem putCore_preq (k : Core) : (s.putCore a k).preq = s.preq := rfl
@[simp] theorem putCore_meas (k : Core) : (s.putCore a k).meas = s.meas := rfl
@[simp] theorem putCore_rotst (k : Core) : (s.putCore a k).rotst = s.rotst := rfl
@[simp] theorem putCore_bootc (k : Core) : (s.putCore a k).bootc = s.bootc := rfl
@[simp] theorem putCore_quotes (k : Core) : (s.putCore a k).quotes = s.quotes := rfl
@[simp] theorem putCore_bootTree (k : Core) : (s.putCore a k).bootTree = s.bootTree := rfl
@[simp] theorem putCore_image (k : Core) : (s.putCore a k).image = s.image := rfl
@[simp] theorem putCore_svcMap (k : Core) : (s.putCore a k).svcMap = s.svcMap := rfl
@[simp] theorem putCore_i3c (k : Core) : (s.putCore a k).i3c = s.i3c := rfl
@[simp] theorem putCore_luErr (k : Core) : (s.putCore a k).luErr = s.luErr := rfl
@[simp] theorem putCore_bells (k : Core) : (s.putCore a k).bells = s.bells := rfl
@[simp] theorem putCore_answer (k : Core) : (s.putCore a k).answer = s.answer := rfl

@[simp] theorem modCore_turns (f : Core → Core) : (s.modCore a f).turns = s.turns := rfl
@[simp] theorem modCore_cur (f : Core → Core) : (s.modCore a f).cur = s.cur := rfl
@[simp] theorem modCore_pace (f : Core → Core) : (s.modCore a f).pace = s.pace := rfl
@[simp] theorem modCore_free (f : Core → Core) : (s.modCore a f).free = s.free := rfl
@[simp] theorem modCore_nextAid (f : Core → Core) : (s.modCore a f).nextAid = s.nextAid := rfl
@[simp] theorem modCore_order (f : Core → Core) : (s.modCore a f).order = s.order := rfl
@[simp] theorem modCore_threads (f : Core → Core) : (s.modCore a f).threads = s.threads := rfl
@[simp] theorem modCore_clus (f : Core → Core) : (s.modCore a f).clus = s.clus := rfl
@[simp] theorem modCore_clocks (f : Core → Core) : (s.modCore a f).clocks = s.clocks := rfl
@[simp] theorem modCore_objs (f : Core → Core) : (s.modCore a f).objs = s.objs := rfl
@[simp] theorem modCore_stamps (f : Core → Core) : (s.modCore a f).stamps = s.stamps := rfl
@[simp] theorem modCore_wcache (f : Core → Core) : (s.modCore a f).wcache = s.wcache := rfl
@[simp] theorem modCore_mem (f : Core → Core) : (s.modCore a f).mem = s.mem := rfl
@[simp] theorem modCore_fwd (f : Core → Core) : (s.modCore a f).fwd = s.fwd := rfl
@[simp] theorem modCore_launches (f : Core → Core) : (s.modCore a f).launches = s.launches := rfl
@[simp] theorem modCore_pendingL (f : Core → Core) : (s.modCore a f).pendingL = s.pendingL := rfl
@[simp] theorem modCore_counts (f : Core → Core) : (s.modCore a f).counts = s.counts := rfl
@[simp] theorem modCore_asids (f : Core → Core) : (s.modCore a f).asids = s.asids := rfl
@[simp] theorem modCore_flows (f : Core → Core) : (s.modCore a f).flows = s.flows := rfl
@[simp] theorem modCore_trapq (f : Core → Core) : (s.modCore a f).trapq = s.trapq := rfl
@[simp] theorem modCore_ptpb (f : Core → Core) : (s.modCore a f).ptpb = s.ptpb := rfl
@[simp] theorem modCore_ptps (f : Core → Core) : (s.modCore a f).ptps = s.ptps := rfl
@[simp] theorem modCore_atb (f : Core → Core) : (s.modCore a f).atb = s.atb := rfl
@[simp] theorem modCore_atn (f : Core → Core) : (s.modCore a f).atn = s.atn := rfl
@[simp] theorem modCore_apseq (f : Core → Core) : (s.modCore a f).apseq = s.apseq := rfl
@[simp] theorem modCore_uq (f : Core → Core) : (s.modCore a f).uq = s.uq := rfl
@[simp] theorem modCore_seqr (f : Core → Core) : (s.modCore a f).seqr = s.seqr := rfl
@[simp] theorem modCore_seqn (f : Core → Core) : (s.modCore a f).seqn = s.seqn := rfl
@[simp] theorem modCore_upds (f : Core → Core) : (s.modCore a f).upds = s.upds := rfl
@[simp] theorem modCore_mbdue (f : Core → Core) : (s.modCore a f).mbdue = s.mbdue := rfl
@[simp] theorem modCore_cpart (f : Core → Core) : (s.modCore a f).cpart = s.cpart := rfl
@[simp] theorem modCore_pqueue (f : Core → Core) : (s.modCore a f).pqueue = s.pqueue := rfl
@[simp] theorem modCore_ranks (f : Core → Core) : (s.modCore a f).ranks = s.ranks := rfl
@[simp] theorem modCore_rank (f : Core → Core) : (s.modCore a f).rank = s.rank := rfl
@[simp] theorem modCore_stepTag (f : Core → Core) : (s.modCore a f).stepTag = s.stepTag := rfl
@[simp] theorem modCore_fstep (f : Core → Core) : (s.modCore a f).fstep = s.fstep := rfl
@[simp] theorem modCore_plc (f : Core → Core) : (s.modCore a f).plc = s.plc := rfl
@[simp] theorem modCore_elog (f : Core → Core) : (s.modCore a f).elog = s.elog := rfl
@[simp] theorem modCore_links (f : Core → Core) : (s.modCore a f).links = s.links := rfl
@[simp] theorem modCore_msix (f : Core → Core) : (s.modCore a f).msix = s.msix := rfl
@[simp] theorem modCore_fencing (f : Core → Core) : (s.modCore a f).fencing = s.fencing := rfl
@[simp] theorem modCore_broken (f : Core → Core) : (s.modCore a f).broken = s.broken := rfl
@[simp] theorem modCore_bad (f : Core → Core) : (s.modCore a f).bad = s.bad := rfl
@[simp] theorem modCore_badOp (f : Core → Core) : (s.modCore a f).badOp = s.badOp := rfl
@[simp] theorem modCore_bup (f : Core → Core) : (s.modCore a f).bup = s.bup := rfl
@[simp] theorem modCore_pwr (f : Core → Core) : (s.modCore a f).pwr = s.pwr := rfl
@[simp] theorem modCore_dbg (f : Core → Core) : (s.modCore a f).dbg = s.dbg := rfl
@[simp] theorem modCore_sec (f : Core → Core) : (s.modCore a f).sec = s.sec := rfl
@[simp] theorem modCore_preq (f : Core → Core) : (s.modCore a f).preq = s.preq := rfl
@[simp] theorem modCore_meas (f : Core → Core) : (s.modCore a f).meas = s.meas := rfl
@[simp] theorem modCore_rotst (f : Core → Core) : (s.modCore a f).rotst = s.rotst := rfl
@[simp] theorem modCore_bootc (f : Core → Core) : (s.modCore a f).bootc = s.bootc := rfl
@[simp] theorem modCore_quotes (f : Core → Core) : (s.modCore a f).quotes = s.quotes := rfl
@[simp] theorem modCore_bootTree (f : Core → Core) : (s.modCore a f).bootTree = s.bootTree := rfl
@[simp] theorem modCore_image (f : Core → Core) : (s.modCore a f).image = s.image := rfl
@[simp] theorem modCore_svcMap (f : Core → Core) : (s.modCore a f).svcMap = s.svcMap := rfl
@[simp] theorem modCore_i3c (f : Core → Core) : (s.modCore a f).i3c = s.i3c := rfl
@[simp] theorem modCore_luErr (f : Core → Core) : (s.modCore a f).luErr = s.luErr := rfl
@[simp] theorem modCore_bells (f : Core → Core) : (s.modCore a f).bells = s.bells := rfl
@[simp] theorem modCore_answer (f : Core → Core) : (s.modCore a f).answer = s.answer := rfl

@[simp] theorem putClu_turns (k : Cluster) : (s.putClu a k).turns = s.turns := rfl
@[simp] theorem putClu_cur (k : Cluster) : (s.putClu a k).cur = s.cur := rfl
@[simp] theorem putClu_pace (k : Cluster) : (s.putClu a k).pace = s.pace := rfl
@[simp] theorem putClu_free (k : Cluster) : (s.putClu a k).free = s.free := rfl
@[simp] theorem putClu_nextAid (k : Cluster) : (s.putClu a k).nextAid = s.nextAid := rfl
@[simp] theorem putClu_order (k : Cluster) : (s.putClu a k).order = s.order := rfl
@[simp] theorem putClu_threads (k : Cluster) : (s.putClu a k).threads = s.threads := rfl
@[simp] theorem putClu_cores (k : Cluster) : (s.putClu a k).cores = s.cores := rfl
@[simp] theorem putClu_clocks (k : Cluster) : (s.putClu a k).clocks = s.clocks := rfl
@[simp] theorem putClu_objs (k : Cluster) : (s.putClu a k).objs = s.objs := rfl
@[simp] theorem putClu_stamps (k : Cluster) : (s.putClu a k).stamps = s.stamps := rfl
@[simp] theorem putClu_wcache (k : Cluster) : (s.putClu a k).wcache = s.wcache := rfl
@[simp] theorem putClu_mem (k : Cluster) : (s.putClu a k).mem = s.mem := rfl
@[simp] theorem putClu_fwd (k : Cluster) : (s.putClu a k).fwd = s.fwd := rfl
@[simp] theorem putClu_launches (k : Cluster) : (s.putClu a k).launches = s.launches := rfl
@[simp] theorem putClu_pendingL (k : Cluster) : (s.putClu a k).pendingL = s.pendingL := rfl
@[simp] theorem putClu_counts (k : Cluster) : (s.putClu a k).counts = s.counts := rfl
@[simp] theorem putClu_asids (k : Cluster) : (s.putClu a k).asids = s.asids := rfl
@[simp] theorem putClu_flows (k : Cluster) : (s.putClu a k).flows = s.flows := rfl
@[simp] theorem putClu_trapq (k : Cluster) : (s.putClu a k).trapq = s.trapq := rfl
@[simp] theorem putClu_ptpb (k : Cluster) : (s.putClu a k).ptpb = s.ptpb := rfl
@[simp] theorem putClu_ptps (k : Cluster) : (s.putClu a k).ptps = s.ptps := rfl
@[simp] theorem putClu_atb (k : Cluster) : (s.putClu a k).atb = s.atb := rfl
@[simp] theorem putClu_atn (k : Cluster) : (s.putClu a k).atn = s.atn := rfl
@[simp] theorem putClu_apseq (k : Cluster) : (s.putClu a k).apseq = s.apseq := rfl
@[simp] theorem putClu_uq (k : Cluster) : (s.putClu a k).uq = s.uq := rfl
@[simp] theorem putClu_seqr (k : Cluster) : (s.putClu a k).seqr = s.seqr := rfl
@[simp] theorem putClu_seqn (k : Cluster) : (s.putClu a k).seqn = s.seqn := rfl
@[simp] theorem putClu_upds (k : Cluster) : (s.putClu a k).upds = s.upds := rfl
@[simp] theorem putClu_mbdue (k : Cluster) : (s.putClu a k).mbdue = s.mbdue := rfl
@[simp] theorem putClu_cpart (k : Cluster) : (s.putClu a k).cpart = s.cpart := rfl
@[simp] theorem putClu_pqueue (k : Cluster) : (s.putClu a k).pqueue = s.pqueue := rfl
@[simp] theorem putClu_ranks (k : Cluster) : (s.putClu a k).ranks = s.ranks := rfl
@[simp] theorem putClu_rank (k : Cluster) : (s.putClu a k).rank = s.rank := rfl
@[simp] theorem putClu_stepTag (k : Cluster) : (s.putClu a k).stepTag = s.stepTag := rfl
@[simp] theorem putClu_fstep (k : Cluster) : (s.putClu a k).fstep = s.fstep := rfl
@[simp] theorem putClu_plc (k : Cluster) : (s.putClu a k).plc = s.plc := rfl
@[simp] theorem putClu_elog (k : Cluster) : (s.putClu a k).elog = s.elog := rfl
@[simp] theorem putClu_links (k : Cluster) : (s.putClu a k).links = s.links := rfl
@[simp] theorem putClu_msix (k : Cluster) : (s.putClu a k).msix = s.msix := rfl
@[simp] theorem putClu_fencing (k : Cluster) : (s.putClu a k).fencing = s.fencing := rfl
@[simp] theorem putClu_broken (k : Cluster) : (s.putClu a k).broken = s.broken := rfl
@[simp] theorem putClu_bad (k : Cluster) : (s.putClu a k).bad = s.bad := rfl
@[simp] theorem putClu_badOp (k : Cluster) : (s.putClu a k).badOp = s.badOp := rfl
@[simp] theorem putClu_bup (k : Cluster) : (s.putClu a k).bup = s.bup := rfl
@[simp] theorem putClu_pwr (k : Cluster) : (s.putClu a k).pwr = s.pwr := rfl
@[simp] theorem putClu_dbg (k : Cluster) : (s.putClu a k).dbg = s.dbg := rfl
@[simp] theorem putClu_sec (k : Cluster) : (s.putClu a k).sec = s.sec := rfl
@[simp] theorem putClu_preq (k : Cluster) : (s.putClu a k).preq = s.preq := rfl
@[simp] theorem putClu_meas (k : Cluster) : (s.putClu a k).meas = s.meas := rfl
@[simp] theorem putClu_rotst (k : Cluster) : (s.putClu a k).rotst = s.rotst := rfl
@[simp] theorem putClu_bootc (k : Cluster) : (s.putClu a k).bootc = s.bootc := rfl
@[simp] theorem putClu_quotes (k : Cluster) : (s.putClu a k).quotes = s.quotes := rfl
@[simp] theorem putClu_bootTree (k : Cluster) : (s.putClu a k).bootTree = s.bootTree := rfl
@[simp] theorem putClu_image (k : Cluster) : (s.putClu a k).image = s.image := rfl
@[simp] theorem putClu_svcMap (k : Cluster) : (s.putClu a k).svcMap = s.svcMap := rfl
@[simp] theorem putClu_i3c (k : Cluster) : (s.putClu a k).i3c = s.i3c := rfl
@[simp] theorem putClu_luErr (k : Cluster) : (s.putClu a k).luErr = s.luErr := rfl
@[simp] theorem putClu_bells (k : Cluster) : (s.putClu a k).bells = s.bells := rfl
@[simp] theorem putClu_answer (k : Cluster) : (s.putClu a k).answer = s.answer := rfl

@[simp] theorem modClu_turns (f : Cluster → Cluster) : (s.modClu a f).turns = s.turns := rfl
@[simp] theorem modClu_cur (f : Cluster → Cluster) : (s.modClu a f).cur = s.cur := rfl
@[simp] theorem modClu_pace (f : Cluster → Cluster) : (s.modClu a f).pace = s.pace := rfl
@[simp] theorem modClu_free (f : Cluster → Cluster) : (s.modClu a f).free = s.free := rfl
@[simp] theorem modClu_nextAid (f : Cluster → Cluster) : (s.modClu a f).nextAid = s.nextAid := rfl
@[simp] theorem modClu_order (f : Cluster → Cluster) : (s.modClu a f).order = s.order := rfl
@[simp] theorem modClu_threads (f : Cluster → Cluster) : (s.modClu a f).threads = s.threads := rfl
@[simp] theorem modClu_cores (f : Cluster → Cluster) : (s.modClu a f).cores = s.cores := rfl
@[simp] theorem modClu_clocks (f : Cluster → Cluster) : (s.modClu a f).clocks = s.clocks := rfl
@[simp] theorem modClu_objs (f : Cluster → Cluster) : (s.modClu a f).objs = s.objs := rfl
@[simp] theorem modClu_stamps (f : Cluster → Cluster) : (s.modClu a f).stamps = s.stamps := rfl
@[simp] theorem modClu_wcache (f : Cluster → Cluster) : (s.modClu a f).wcache = s.wcache := rfl
@[simp] theorem modClu_mem (f : Cluster → Cluster) : (s.modClu a f).mem = s.mem := rfl
@[simp] theorem modClu_fwd (f : Cluster → Cluster) : (s.modClu a f).fwd = s.fwd := rfl
@[simp] theorem modClu_launches (f : Cluster → Cluster) : (s.modClu a f).launches = s.launches := rfl
@[simp] theorem modClu_pendingL (f : Cluster → Cluster) : (s.modClu a f).pendingL = s.pendingL := rfl
@[simp] theorem modClu_counts (f : Cluster → Cluster) : (s.modClu a f).counts = s.counts := rfl
@[simp] theorem modClu_asids (f : Cluster → Cluster) : (s.modClu a f).asids = s.asids := rfl
@[simp] theorem modClu_flows (f : Cluster → Cluster) : (s.modClu a f).flows = s.flows := rfl
@[simp] theorem modClu_trapq (f : Cluster → Cluster) : (s.modClu a f).trapq = s.trapq := rfl
@[simp] theorem modClu_ptpb (f : Cluster → Cluster) : (s.modClu a f).ptpb = s.ptpb := rfl
@[simp] theorem modClu_ptps (f : Cluster → Cluster) : (s.modClu a f).ptps = s.ptps := rfl
@[simp] theorem modClu_atb (f : Cluster → Cluster) : (s.modClu a f).atb = s.atb := rfl
@[simp] theorem modClu_atn (f : Cluster → Cluster) : (s.modClu a f).atn = s.atn := rfl
@[simp] theorem modClu_apseq (f : Cluster → Cluster) : (s.modClu a f).apseq = s.apseq := rfl
@[simp] theorem modClu_uq (f : Cluster → Cluster) : (s.modClu a f).uq = s.uq := rfl
@[simp] theorem modClu_seqr (f : Cluster → Cluster) : (s.modClu a f).seqr = s.seqr := rfl
@[simp] theorem modClu_seqn (f : Cluster → Cluster) : (s.modClu a f).seqn = s.seqn := rfl
@[simp] theorem modClu_upds (f : Cluster → Cluster) : (s.modClu a f).upds = s.upds := rfl
@[simp] theorem modClu_mbdue (f : Cluster → Cluster) : (s.modClu a f).mbdue = s.mbdue := rfl
@[simp] theorem modClu_cpart (f : Cluster → Cluster) : (s.modClu a f).cpart = s.cpart := rfl
@[simp] theorem modClu_pqueue (f : Cluster → Cluster) : (s.modClu a f).pqueue = s.pqueue := rfl
@[simp] theorem modClu_ranks (f : Cluster → Cluster) : (s.modClu a f).ranks = s.ranks := rfl
@[simp] theorem modClu_rank (f : Cluster → Cluster) : (s.modClu a f).rank = s.rank := rfl
@[simp] theorem modClu_stepTag (f : Cluster → Cluster) : (s.modClu a f).stepTag = s.stepTag := rfl
@[simp] theorem modClu_fstep (f : Cluster → Cluster) : (s.modClu a f).fstep = s.fstep := rfl
@[simp] theorem modClu_plc (f : Cluster → Cluster) : (s.modClu a f).plc = s.plc := rfl
@[simp] theorem modClu_elog (f : Cluster → Cluster) : (s.modClu a f).elog = s.elog := rfl
@[simp] theorem modClu_links (f : Cluster → Cluster) : (s.modClu a f).links = s.links := rfl
@[simp] theorem modClu_msix (f : Cluster → Cluster) : (s.modClu a f).msix = s.msix := rfl
@[simp] theorem modClu_fencing (f : Cluster → Cluster) : (s.modClu a f).fencing = s.fencing := rfl
@[simp] theorem modClu_broken (f : Cluster → Cluster) : (s.modClu a f).broken = s.broken := rfl
@[simp] theorem modClu_bad (f : Cluster → Cluster) : (s.modClu a f).bad = s.bad := rfl
@[simp] theorem modClu_badOp (f : Cluster → Cluster) : (s.modClu a f).badOp = s.badOp := rfl
@[simp] theorem modClu_bup (f : Cluster → Cluster) : (s.modClu a f).bup = s.bup := rfl
@[simp] theorem modClu_pwr (f : Cluster → Cluster) : (s.modClu a f).pwr = s.pwr := rfl
@[simp] theorem modClu_dbg (f : Cluster → Cluster) : (s.modClu a f).dbg = s.dbg := rfl
@[simp] theorem modClu_sec (f : Cluster → Cluster) : (s.modClu a f).sec = s.sec := rfl
@[simp] theorem modClu_preq (f : Cluster → Cluster) : (s.modClu a f).preq = s.preq := rfl
@[simp] theorem modClu_meas (f : Cluster → Cluster) : (s.modClu a f).meas = s.meas := rfl
@[simp] theorem modClu_rotst (f : Cluster → Cluster) : (s.modClu a f).rotst = s.rotst := rfl
@[simp] theorem modClu_bootc (f : Cluster → Cluster) : (s.modClu a f).bootc = s.bootc := rfl
@[simp] theorem modClu_quotes (f : Cluster → Cluster) : (s.modClu a f).quotes = s.quotes := rfl
@[simp] theorem modClu_bootTree (f : Cluster → Cluster) : (s.modClu a f).bootTree = s.bootTree := rfl
@[simp] theorem modClu_image (f : Cluster → Cluster) : (s.modClu a f).image = s.image := rfl
@[simp] theorem modClu_svcMap (f : Cluster → Cluster) : (s.modClu a f).svcMap = s.svcMap := rfl
@[simp] theorem modClu_i3c (f : Cluster → Cluster) : (s.modClu a f).i3c = s.i3c := rfl
@[simp] theorem modClu_luErr (f : Cluster → Cluster) : (s.modClu a f).luErr = s.luErr := rfl
@[simp] theorem modClu_bells (f : Cluster → Cluster) : (s.modClu a f).bells = s.bells := rfl
@[simp] theorem modClu_answer (f : Cluster → Cluster) : (s.modClu a f).answer = s.answer := rfl

@[simp] theorem modLaunch_turns (g : BitVec 32) (f : Launch → Launch) : (s.modLaunch g f).turns = s.turns := rfl
@[simp] theorem modLaunch_cur (g : BitVec 32) (f : Launch → Launch) : (s.modLaunch g f).cur = s.cur := rfl
@[simp] theorem modLaunch_pace (g : BitVec 32) (f : Launch → Launch) : (s.modLaunch g f).pace = s.pace := rfl
@[simp] theorem modLaunch_free (g : BitVec 32) (f : Launch → Launch) : (s.modLaunch g f).free = s.free := rfl
@[simp] theorem modLaunch_nextAid (g : BitVec 32) (f : Launch → Launch) : (s.modLaunch g f).nextAid = s.nextAid := rfl
@[simp] theorem modLaunch_order (g : BitVec 32) (f : Launch → Launch) : (s.modLaunch g f).order = s.order := rfl
@[simp] theorem modLaunch_threads (g : BitVec 32) (f : Launch → Launch) : (s.modLaunch g f).threads = s.threads := rfl
@[simp] theorem modLaunch_cores (g : BitVec 32) (f : Launch → Launch) : (s.modLaunch g f).cores = s.cores := rfl
@[simp] theorem modLaunch_clus (g : BitVec 32) (f : Launch → Launch) : (s.modLaunch g f).clus = s.clus := rfl
@[simp] theorem modLaunch_clocks (g : BitVec 32) (f : Launch → Launch) : (s.modLaunch g f).clocks = s.clocks := rfl
@[simp] theorem modLaunch_objs (g : BitVec 32) (f : Launch → Launch) : (s.modLaunch g f).objs = s.objs := rfl
@[simp] theorem modLaunch_stamps (g : BitVec 32) (f : Launch → Launch) : (s.modLaunch g f).stamps = s.stamps := rfl
@[simp] theorem modLaunch_wcache (g : BitVec 32) (f : Launch → Launch) : (s.modLaunch g f).wcache = s.wcache := rfl
@[simp] theorem modLaunch_mem (g : BitVec 32) (f : Launch → Launch) : (s.modLaunch g f).mem = s.mem := rfl
@[simp] theorem modLaunch_fwd (g : BitVec 32) (f : Launch → Launch) : (s.modLaunch g f).fwd = s.fwd := rfl
@[simp] theorem modLaunch_pendingL (g : BitVec 32) (f : Launch → Launch) : (s.modLaunch g f).pendingL = s.pendingL := rfl
@[simp] theorem modLaunch_counts (g : BitVec 32) (f : Launch → Launch) : (s.modLaunch g f).counts = s.counts := rfl
@[simp] theorem modLaunch_asids (g : BitVec 32) (f : Launch → Launch) : (s.modLaunch g f).asids = s.asids := rfl
@[simp] theorem modLaunch_flows (g : BitVec 32) (f : Launch → Launch) : (s.modLaunch g f).flows = s.flows := rfl
@[simp] theorem modLaunch_trapq (g : BitVec 32) (f : Launch → Launch) : (s.modLaunch g f).trapq = s.trapq := rfl
@[simp] theorem modLaunch_ptpb (g : BitVec 32) (f : Launch → Launch) : (s.modLaunch g f).ptpb = s.ptpb := rfl
@[simp] theorem modLaunch_ptps (g : BitVec 32) (f : Launch → Launch) : (s.modLaunch g f).ptps = s.ptps := rfl
@[simp] theorem modLaunch_atb (g : BitVec 32) (f : Launch → Launch) : (s.modLaunch g f).atb = s.atb := rfl
@[simp] theorem modLaunch_atn (g : BitVec 32) (f : Launch → Launch) : (s.modLaunch g f).atn = s.atn := rfl
@[simp] theorem modLaunch_apseq (g : BitVec 32) (f : Launch → Launch) : (s.modLaunch g f).apseq = s.apseq := rfl
@[simp] theorem modLaunch_uq (g : BitVec 32) (f : Launch → Launch) : (s.modLaunch g f).uq = s.uq := rfl
@[simp] theorem modLaunch_seqr (g : BitVec 32) (f : Launch → Launch) : (s.modLaunch g f).seqr = s.seqr := rfl
@[simp] theorem modLaunch_seqn (g : BitVec 32) (f : Launch → Launch) : (s.modLaunch g f).seqn = s.seqn := rfl
@[simp] theorem modLaunch_upds (g : BitVec 32) (f : Launch → Launch) : (s.modLaunch g f).upds = s.upds := rfl
@[simp] theorem modLaunch_mbdue (g : BitVec 32) (f : Launch → Launch) : (s.modLaunch g f).mbdue = s.mbdue := rfl
@[simp] theorem modLaunch_cpart (g : BitVec 32) (f : Launch → Launch) : (s.modLaunch g f).cpart = s.cpart := rfl
@[simp] theorem modLaunch_pqueue (g : BitVec 32) (f : Launch → Launch) : (s.modLaunch g f).pqueue = s.pqueue := rfl
@[simp] theorem modLaunch_ranks (g : BitVec 32) (f : Launch → Launch) : (s.modLaunch g f).ranks = s.ranks := rfl
@[simp] theorem modLaunch_rank (g : BitVec 32) (f : Launch → Launch) : (s.modLaunch g f).rank = s.rank := rfl
@[simp] theorem modLaunch_stepTag (g : BitVec 32) (f : Launch → Launch) : (s.modLaunch g f).stepTag = s.stepTag := rfl
@[simp] theorem modLaunch_fstep (g : BitVec 32) (f : Launch → Launch) : (s.modLaunch g f).fstep = s.fstep := rfl
@[simp] theorem modLaunch_plc (g : BitVec 32) (f : Launch → Launch) : (s.modLaunch g f).plc = s.plc := rfl
@[simp] theorem modLaunch_elog (g : BitVec 32) (f : Launch → Launch) : (s.modLaunch g f).elog = s.elog := rfl
@[simp] theorem modLaunch_links (g : BitVec 32) (f : Launch → Launch) : (s.modLaunch g f).links = s.links := rfl
@[simp] theorem modLaunch_msix (g : BitVec 32) (f : Launch → Launch) : (s.modLaunch g f).msix = s.msix := rfl
@[simp] theorem modLaunch_fencing (g : BitVec 32) (f : Launch → Launch) : (s.modLaunch g f).fencing = s.fencing := rfl
@[simp] theorem modLaunch_broken (g : BitVec 32) (f : Launch → Launch) : (s.modLaunch g f).broken = s.broken := rfl
@[simp] theorem modLaunch_bad (g : BitVec 32) (f : Launch → Launch) : (s.modLaunch g f).bad = s.bad := rfl
@[simp] theorem modLaunch_badOp (g : BitVec 32) (f : Launch → Launch) : (s.modLaunch g f).badOp = s.badOp := rfl
@[simp] theorem modLaunch_bup (g : BitVec 32) (f : Launch → Launch) : (s.modLaunch g f).bup = s.bup := rfl
@[simp] theorem modLaunch_pwr (g : BitVec 32) (f : Launch → Launch) : (s.modLaunch g f).pwr = s.pwr := rfl
@[simp] theorem modLaunch_dbg (g : BitVec 32) (f : Launch → Launch) : (s.modLaunch g f).dbg = s.dbg := rfl
@[simp] theorem modLaunch_sec (g : BitVec 32) (f : Launch → Launch) : (s.modLaunch g f).sec = s.sec := rfl
@[simp] theorem modLaunch_preq (g : BitVec 32) (f : Launch → Launch) : (s.modLaunch g f).preq = s.preq := rfl
@[simp] theorem modLaunch_meas (g : BitVec 32) (f : Launch → Launch) : (s.modLaunch g f).meas = s.meas := rfl
@[simp] theorem modLaunch_rotst (g : BitVec 32) (f : Launch → Launch) : (s.modLaunch g f).rotst = s.rotst := rfl
@[simp] theorem modLaunch_bootc (g : BitVec 32) (f : Launch → Launch) : (s.modLaunch g f).bootc = s.bootc := rfl
@[simp] theorem modLaunch_quotes (g : BitVec 32) (f : Launch → Launch) : (s.modLaunch g f).quotes = s.quotes := rfl
@[simp] theorem modLaunch_bootTree (g : BitVec 32) (f : Launch → Launch) : (s.modLaunch g f).bootTree = s.bootTree := rfl
@[simp] theorem modLaunch_image (g : BitVec 32) (f : Launch → Launch) : (s.modLaunch g f).image = s.image := rfl
@[simp] theorem modLaunch_svcMap (g : BitVec 32) (f : Launch → Launch) : (s.modLaunch g f).svcMap = s.svcMap := rfl
@[simp] theorem modLaunch_i3c (g : BitVec 32) (f : Launch → Launch) : (s.modLaunch g f).i3c = s.i3c := rfl
@[simp] theorem modLaunch_luErr (g : BitVec 32) (f : Launch → Launch) : (s.modLaunch g f).luErr = s.luErr := rfl
@[simp] theorem modLaunch_bells (g : BitVec 32) (f : Launch → Launch) : (s.modLaunch g f).bells = s.bells := rfl
@[simp] theorem modLaunch_answer (g : BitVec 32) (f : Launch → Launch) : (s.modLaunch g f).answer = s.answer := rfl

/-! ### Threads, cores and clusters -/

@[simp] theorem putTh_th_same (t : Thread) : (s.putTh a t).th a = t := by
  simp [State.putTh, State.th]
theorem putTh_th_ne (t : Thread) (h : a ≠ b) : (s.putTh a t).th b = s.th b := by
  simp [State.putTh, State.th, amGet?_amSet_ne _ _ _ _ h]
@[simp] theorem modTh_th_same (f : Thread → Thread) : (s.modTh a f).th a = f (s.th a) := by
  simp [State.modTh, State.putTh, State.th]
theorem modTh_th_ne (f : Thread → Thread) (h : a ≠ b) : (s.modTh a f).th b = s.th b := by
  simp [State.modTh, State.putTh, State.th, amGet?_amSet_ne _ _ _ _ h]
@[simp] theorem putCore_core_same (k : Core) : (s.putCore a k).core a = k := by
  simp [State.putCore, State.core]
theorem putCore_core_ne (k : Core) (h : a ≠ b) : (s.putCore a k).core b = s.core b := by
  simp [State.putCore, State.core, amGet?_amSet_ne _ _ _ _ h]
@[simp] theorem modCore_core_same (f : Core → Core) : (s.modCore a f).core a = f (s.core a) := by
  simp [State.modCore, State.putCore, State.core]
theorem modCore_core_ne (f : Core → Core) (h : a ≠ b) : (s.modCore a f).core b = s.core b := by
  simp [State.modCore, State.putCore, State.core, amGet?_amSet_ne _ _ _ _ h]
@[simp] theorem putClu_clu_same (k : Cluster) : (s.putClu a k).clu a = k := by
  simp [State.putClu, State.clu]
theorem putClu_clu_ne (k : Cluster) (h : a ≠ b) : (s.putClu a k).clu b = s.clu b := by
  simp [State.putClu, State.clu, amGet?_amSet_ne _ _ _ _ h]
@[simp] theorem modClu_clu_same (f : Cluster → Cluster) : (s.modClu a f).clu a = f (s.clu a) := by
  simp [State.modClu, State.putClu, State.clu]
theorem modClu_clu_ne (f : Cluster → Cluster) (h : a ≠ b) : (s.modClu a f).clu b = s.clu b := by
  simp [State.modClu, State.putClu, State.clu, amGet?_amSet_ne _ _ _ _ h]

@[simp] theorem putTh_core (t : Thread) : (s.putTh a t).core b = s.core b := rfl
@[simp] theorem putTh_clu (t : Thread) : (s.putTh a t).clu b = s.clu b := rfl
@[simp] theorem putTh_guest (t : Thread) : (s.putTh a t).guest b = s.guest b := rfl
@[simp] theorem putTh_phys (t : Thread) : (s.putTh a t).phys b = s.phys b := rfl
@[simp] theorem putTh_here (t : Thread) : (s.putTh a t).here b = s.here b := rfl
@[simp] theorem putTh_occ (t : Thread) (n : Nat) : (s.putTh a t).occ b n = s.occ b n := rfl
@[simp] theorem putTh_launch? (t : Thread) (g : BitVec 32) : (s.putTh a t).launch? g = s.launch? g := rfl
@[simp] theorem putTh_place (t : Thread) (x : Thread) : (s.putTh a t).place x = s.place x := rfl
@[simp] theorem putTh_port (t : Thread) (x : Thread) : (s.putTh a t).port x = s.port x := rfl
@[simp] theorem putTh_tid (t : Thread) (x : Thread) : (s.putTh a t).tid x = s.tid x := rfl
@[simp] theorem putTh_byte (t : Thread) (p : Place) : (s.putTh a t).byte p = s.byte p := by cases p <;> rfl
@[simp] theorem putTh_bytes (t : Thread) (p : Place) (n : Nat) : (s.putTh a t).bytes p n = s.bytes p n := by cases p <;> rfl
@[simp] theorem putTh_val (t : Thread) (p : Place) (n : Nat) : (s.putTh a t).val p n = s.val p n := by cases p <;> rfl
@[simp] theorem modTh_core (t : Thread → Thread) : (s.modTh a t).core b = s.core b := rfl
@[simp] theorem modTh_clu (t : Thread → Thread) : (s.modTh a t).clu b = s.clu b := rfl
@[simp] theorem modTh_guest (t : Thread → Thread) : (s.modTh a t).guest b = s.guest b := rfl
@[simp] theorem modTh_phys (t : Thread → Thread) : (s.modTh a t).phys b = s.phys b := rfl
@[simp] theorem modTh_here (t : Thread → Thread) : (s.modTh a t).here b = s.here b := rfl
@[simp] theorem modTh_occ (t : Thread → Thread) (n : Nat) : (s.modTh a t).occ b n = s.occ b n := rfl
@[simp] theorem modTh_launch? (t : Thread → Thread) (g : BitVec 32) : (s.modTh a t).launch? g = s.launch? g := rfl
@[simp] theorem modTh_place (t : Thread → Thread) (x : Thread) : (s.modTh a t).place x = s.place x := rfl
@[simp] theorem modTh_port (t : Thread → Thread) (x : Thread) : (s.modTh a t).port x = s.port x := rfl
@[simp] theorem modTh_tid (t : Thread → Thread) (x : Thread) : (s.modTh a t).tid x = s.tid x := rfl
@[simp] theorem modTh_byte (t : Thread → Thread) (p : Place) : (s.modTh a t).byte p = s.byte p := by cases p <;> rfl
@[simp] theorem modTh_bytes (t : Thread → Thread) (p : Place) (n : Nat) : (s.modTh a t).bytes p n = s.bytes p n := by cases p <;> rfl
@[simp] theorem modTh_val (t : Thread → Thread) (p : Place) (n : Nat) : (s.modTh a t).val p n = s.val p n := by cases p <;> rfl
@[simp] theorem putClu_core (k : Cluster) : (s.putClu a k).core b = s.core b := rfl
@[simp] theorem putClu_th (k : Cluster) : (s.putClu a k).th b = s.th b := rfl
@[simp] theorem putClu_occ (k : Cluster) (n : Nat) : (s.putClu a k).occ b n = s.occ b n := rfl
@[simp] theorem putClu_launch? (k : Cluster) (g : BitVec 32) : (s.putClu a k).launch? g = s.launch? g := rfl
@[simp] theorem putClu_byte (k : Cluster) (p : Place) : (s.putClu a k).byte p = s.byte p := by cases p <;> rfl
@[simp] theorem modClu_core (k : Cluster → Cluster) : (s.modClu a k).core b = s.core b := rfl
@[simp] theorem modClu_th (k : Cluster → Cluster) : (s.modClu a k).th b = s.th b := rfl
@[simp] theorem modClu_occ (k : Cluster → Cluster) (n : Nat) : (s.modClu a k).occ b n = s.occ b n := rfl
@[simp] theorem modClu_launch? (k : Cluster → Cluster) (g : BitVec 32) : (s.modClu a k).launch? g = s.launch? g := rfl
@[simp] theorem modClu_byte (k : Cluster → Cluster) (p : Place) : (s.modClu a k).byte p = s.byte p := by cases p <;> rfl
@[simp] theorem putCore_th (k : Core) : (s.putCore a k).th b = s.th b := rfl
@[simp] theorem putCore_clu (k : Core) : (s.putCore a k).clu b = s.clu b := rfl
@[simp] theorem putCore_launch? (k : Core) (g : BitVec 32) : (s.putCore a k).launch? g = s.launch? g := rfl
@[simp] theorem modCore_th (k : Core → Core) : (s.modCore a k).th b = s.th b := rfl
@[simp] theorem modCore_clu (k : Core → Core) : (s.modCore a k).clu b = s.clu b := rfl
@[simp] theorem modCore_launch? (k : Core → Core) (g : BitVec 32) : (s.modCore a k).launch? g = s.launch? g := rfl
theorem amSet_amSet {κ ν : Type} [DecidableEq κ] (m : AMap κ ν) (k : κ) (v w : ν) : amSet (amSet m k v) k w = amSet m k w := by
  induction m with
  | nil => simp [amSet]
  | cons e l ih =>
    obtain ⟨k', v'⟩ := e
    by_cases h : k' = k <;> simp [amSet, h, ih]

@[simp] theorem modTh_modTh (f g : Thread → Thread) : (s.modTh a f).modTh a g = s.modTh a (fun t => g (f t)) := by
  simp [State.modTh, State.putTh, State.th, amSet_amSet]

/-! ### Registers of a thread -/

section

variable (t : Thread)

@[simp] theorem wS_kind (n : SReg) (x : Dword) : (t.wS n x).kind = t.kind := rfl
@[simp] theorem wS_pc (n : SReg) (x : Dword) : (t.wS n x).pc = t.pc := rfl
@[simp] theorem wS_segs (n : SReg) (x : Dword) : (t.wS n x).segs = t.segs := rfl
@[simp] theorem wS_pos (n : SReg) (x : Dword) : (t.wS n x).pos = t.pos := rfl
@[simp] theorem wS_bnd (n : SReg) (x : Dword) : (t.wS n x).bnd = t.bnd := rfl
@[simp] theorem wS_hh (n : SReg) (x : Dword) : (t.wS n x).hh = t.hh := rfl
@[simp] theorem wS_fidx (n : SReg) (x : Dword) : (t.wS n x).fidx = t.fidx := rfl
@[simp] theorem wS_ltag (n : SReg) (x : Dword) : (t.wS n x).ltag = t.ltag := rfl
@[simp] theorem wS_core (n : SReg) (x : Dword) : (t.wS n x).core = t.core := rfl
@[simp] theorem wS_slot (n : SReg) (x : Dword) : (t.wS n x).slot = t.slot := rfl
@[simp] theorem wS_loc (n : SReg) (x : Dword) : (t.wS n x).loc = t.loc := rfl
@[simp] theorem wS_outst (n : SReg) (x : Dword) : (t.wS n x).outst = t.outst := rfl
@[simp] theorem wS_traps (n : SReg) (x : Dword) : (t.wS n x).traps = t.traps := rfl
@[simp] theorem wS_pend (n : SReg) (x : Dword) : (t.wS n x).pend = t.pend := rfl
@[simp] theorem wS_pnpc (n : SReg) (x : Dword) : (t.wS n x).pnpc = t.pnpc := rfl
@[simp] theorem wS_ltack (n : SReg) (x : Dword) : (t.wS n x).ltack = t.ltack := rfl
@[simp] theorem wS_treg (n : SReg) (x : Dword) : (t.wS n x).treg = t.treg := rfl
@[simp] theorem wS_wait (n : SReg) (x : Dword) : (t.wS n x).wait = t.wait := rfl
@[simp] theorem wS_inRot (n : SReg) (x : Dword) : (t.wS n x).inRot = t.inRot := rfl
@[simp] theorem wS_marked (n : SReg) (x : Dword) : (t.wS n x).marked = t.marked := rfl
@[simp] theorem wS_parked (n : SReg) (x : Dword) : (t.wS n x).parked = t.parked := rfl
@[simp] theorem wS_seq (n : SReg) (x : Dword) : (t.wS n x).seq = t.seq := rfl
@[simp] theorem wS_fences (n : SReg) (x : Dword) : (t.wS n x).fences = t.fences := rfl
@[simp] theorem wS_reads (n : SReg) (x : Dword) : (t.wS n x).reads = t.reads := rfl
@[simp] theorem wS_setMask (n : SReg) (x : Dword) : (t.wS n x).setMask = t.setMask := rfl
@[simp] theorem wS_acq (n : SReg) (x : Dword) : (t.wS n x).acq = t.acq := rfl
@[simp] theorem wS_depart (n : SReg) (x : Dword) : (t.wS n x).depart = t.depart := rfl
@[simp] theorem wS_stage (n : SReg) (x : Dword) : (t.wS n x).stage = t.stage := rfl
@[simp] theorem wS_kept (n : SReg) (x : Dword) : (t.wS n x).kept = t.kept := rfl
@[simp] theorem wS_entering (n : SReg) (x : Dword) : (t.wS n x).entering = t.entering := rfl
@[simp] theorem wS_ending (n : SReg) (x : Dword) : (t.wS n x).ending = t.ending := rfl
@[simp] theorem wS_regs_v (n : SReg) (x : Dword) : (t.wS n x).regs.v = t.regs.v := rfl
@[simp] theorem wS_regs_m (n : SReg) (x : Dword) : (t.wS n x).regs.m = t.regs.m := rfl
@[simp] theorem wS_regs_p (n : SReg) (x : Dword) : (t.wS n x).regs.p = t.regs.p := rfl
@[simp] theorem wS_regs_fstat (n : SReg) (x : Dword) : (t.wS n x).regs.fstat = t.regs.fstat := rfl
@[simp] theorem wS_regs_rm (n : SReg) (x : Dword) : (t.wS n x).regs.rm = t.regs.rm := rfl
@[simp] theorem wS_regs_seed (n : SReg) (x : Dword) : (t.wS n x).regs.seed = t.regs.seed := rfl
@[simp] theorem wS_regs_ovwc (n : SReg) (x : Dword) : (t.wS n x).regs.ovwc = t.regs.ovwc := rfl
@[simp] theorem wS_regs_nanc (n : SReg) (x : Dword) : (t.wS n x).regs.nanc = t.regs.nanc := rfl
@[simp] theorem wS_regs_segsel (n : SReg) (x : Dword) : (t.wS n x).regs.segsel = t.regs.segsel := rfl
@[simp] theorem wV_kind (n : VReg) (x : Vec) : (t.wV n x).kind = t.kind := rfl
@[simp] theorem wV_pc (n : VReg) (x : Vec) : (t.wV n x).pc = t.pc := rfl
@[simp] theorem wV_segs (n : VReg) (x : Vec) : (t.wV n x).segs = t.segs := rfl
@[simp] theorem wV_pos (n : VReg) (x : Vec) : (t.wV n x).pos = t.pos := rfl
@[simp] theorem wV_bnd (n : VReg) (x : Vec) : (t.wV n x).bnd = t.bnd := rfl
@[simp] theorem wV_hh (n : VReg) (x : Vec) : (t.wV n x).hh = t.hh := rfl
@[simp] theorem wV_fidx (n : VReg) (x : Vec) : (t.wV n x).fidx = t.fidx := rfl
@[simp] theorem wV_ltag (n : VReg) (x : Vec) : (t.wV n x).ltag = t.ltag := rfl
@[simp] theorem wV_core (n : VReg) (x : Vec) : (t.wV n x).core = t.core := rfl
@[simp] theorem wV_slot (n : VReg) (x : Vec) : (t.wV n x).slot = t.slot := rfl
@[simp] theorem wV_loc (n : VReg) (x : Vec) : (t.wV n x).loc = t.loc := rfl
@[simp] theorem wV_outst (n : VReg) (x : Vec) : (t.wV n x).outst = t.outst := rfl
@[simp] theorem wV_traps (n : VReg) (x : Vec) : (t.wV n x).traps = t.traps := rfl
@[simp] theorem wV_pend (n : VReg) (x : Vec) : (t.wV n x).pend = t.pend := rfl
@[simp] theorem wV_pnpc (n : VReg) (x : Vec) : (t.wV n x).pnpc = t.pnpc := rfl
@[simp] theorem wV_ltack (n : VReg) (x : Vec) : (t.wV n x).ltack = t.ltack := rfl
@[simp] theorem wV_treg (n : VReg) (x : Vec) : (t.wV n x).treg = t.treg := rfl
@[simp] theorem wV_wait (n : VReg) (x : Vec) : (t.wV n x).wait = t.wait := rfl
@[simp] theorem wV_inRot (n : VReg) (x : Vec) : (t.wV n x).inRot = t.inRot := rfl
@[simp] theorem wV_marked (n : VReg) (x : Vec) : (t.wV n x).marked = t.marked := rfl
@[simp] theorem wV_parked (n : VReg) (x : Vec) : (t.wV n x).parked = t.parked := rfl
@[simp] theorem wV_seq (n : VReg) (x : Vec) : (t.wV n x).seq = t.seq := rfl
@[simp] theorem wV_fences (n : VReg) (x : Vec) : (t.wV n x).fences = t.fences := rfl
@[simp] theorem wV_reads (n : VReg) (x : Vec) : (t.wV n x).reads = t.reads := rfl
@[simp] theorem wV_setMask (n : VReg) (x : Vec) : (t.wV n x).setMask = t.setMask := rfl
@[simp] theorem wV_acq (n : VReg) (x : Vec) : (t.wV n x).acq = t.acq := rfl
@[simp] theorem wV_depart (n : VReg) (x : Vec) : (t.wV n x).depart = t.depart := rfl
@[simp] theorem wV_stage (n : VReg) (x : Vec) : (t.wV n x).stage = t.stage := rfl
@[simp] theorem wV_kept (n : VReg) (x : Vec) : (t.wV n x).kept = t.kept := rfl
@[simp] theorem wV_entering (n : VReg) (x : Vec) : (t.wV n x).entering = t.entering := rfl
@[simp] theorem wV_ending (n : VReg) (x : Vec) : (t.wV n x).ending = t.ending := rfl
@[simp] theorem wV_regs_s (n : VReg) (x : Vec) : (t.wV n x).regs.s = t.regs.s := rfl
@[simp] theorem wV_regs_m (n : VReg) (x : Vec) : (t.wV n x).regs.m = t.regs.m := rfl
@[simp] theorem wV_regs_p (n : VReg) (x : Vec) : (t.wV n x).regs.p = t.regs.p := rfl
@[simp] theorem wV_regs_fstat (n : VReg) (x : Vec) : (t.wV n x).regs.fstat = t.regs.fstat := rfl
@[simp] theorem wV_regs_rm (n : VReg) (x : Vec) : (t.wV n x).regs.rm = t.regs.rm := rfl
@[simp] theorem wV_regs_seed (n : VReg) (x : Vec) : (t.wV n x).regs.seed = t.regs.seed := rfl
@[simp] theorem wV_regs_ovwc (n : VReg) (x : Vec) : (t.wV n x).regs.ovwc = t.regs.ovwc := rfl
@[simp] theorem wV_regs_nanc (n : VReg) (x : Vec) : (t.wV n x).regs.nanc = t.regs.nanc := rfl
@[simp] theorem wV_regs_segsel (n : VReg) (x : Vec) : (t.wV n x).regs.segsel = t.regs.segsel := rfl
@[simp] theorem wP_kind (n : PReg) (x : Bool) : (t.wP n x).kind = t.kind := rfl
@[simp] theorem wP_pc (n : PReg) (x : Bool) : (t.wP n x).pc = t.pc := rfl
@[simp] theorem wP_segs (n : PReg) (x : Bool) : (t.wP n x).segs = t.segs := rfl
@[simp] theorem wP_pos (n : PReg) (x : Bool) : (t.wP n x).pos = t.pos := rfl
@[simp] theorem wP_bnd (n : PReg) (x : Bool) : (t.wP n x).bnd = t.bnd := rfl
@[simp] theorem wP_hh (n : PReg) (x : Bool) : (t.wP n x).hh = t.hh := rfl
@[simp] theorem wP_fidx (n : PReg) (x : Bool) : (t.wP n x).fidx = t.fidx := rfl
@[simp] theorem wP_ltag (n : PReg) (x : Bool) : (t.wP n x).ltag = t.ltag := rfl
@[simp] theorem wP_core (n : PReg) (x : Bool) : (t.wP n x).core = t.core := rfl
@[simp] theorem wP_slot (n : PReg) (x : Bool) : (t.wP n x).slot = t.slot := rfl
@[simp] theorem wP_loc (n : PReg) (x : Bool) : (t.wP n x).loc = t.loc := rfl
@[simp] theorem wP_outst (n : PReg) (x : Bool) : (t.wP n x).outst = t.outst := rfl
@[simp] theorem wP_traps (n : PReg) (x : Bool) : (t.wP n x).traps = t.traps := rfl
@[simp] theorem wP_pend (n : PReg) (x : Bool) : (t.wP n x).pend = t.pend := rfl
@[simp] theorem wP_pnpc (n : PReg) (x : Bool) : (t.wP n x).pnpc = t.pnpc := rfl
@[simp] theorem wP_ltack (n : PReg) (x : Bool) : (t.wP n x).ltack = t.ltack := rfl
@[simp] theorem wP_treg (n : PReg) (x : Bool) : (t.wP n x).treg = t.treg := rfl
@[simp] theorem wP_wait (n : PReg) (x : Bool) : (t.wP n x).wait = t.wait := rfl
@[simp] theorem wP_inRot (n : PReg) (x : Bool) : (t.wP n x).inRot = t.inRot := rfl
@[simp] theorem wP_marked (n : PReg) (x : Bool) : (t.wP n x).marked = t.marked := rfl
@[simp] theorem wP_parked (n : PReg) (x : Bool) : (t.wP n x).parked = t.parked := rfl
@[simp] theorem wP_seq (n : PReg) (x : Bool) : (t.wP n x).seq = t.seq := rfl
@[simp] theorem wP_fences (n : PReg) (x : Bool) : (t.wP n x).fences = t.fences := rfl
@[simp] theorem wP_reads (n : PReg) (x : Bool) : (t.wP n x).reads = t.reads := rfl
@[simp] theorem wP_setMask (n : PReg) (x : Bool) : (t.wP n x).setMask = t.setMask := rfl
@[simp] theorem wP_acq (n : PReg) (x : Bool) : (t.wP n x).acq = t.acq := rfl
@[simp] theorem wP_depart (n : PReg) (x : Bool) : (t.wP n x).depart = t.depart := rfl
@[simp] theorem wP_stage (n : PReg) (x : Bool) : (t.wP n x).stage = t.stage := rfl
@[simp] theorem wP_kept (n : PReg) (x : Bool) : (t.wP n x).kept = t.kept := rfl
@[simp] theorem wP_entering (n : PReg) (x : Bool) : (t.wP n x).entering = t.entering := rfl
@[simp] theorem wP_ending (n : PReg) (x : Bool) : (t.wP n x).ending = t.ending := rfl
@[simp] theorem wP_regs_s (n : PReg) (x : Bool) : (t.wP n x).regs.s = t.regs.s := rfl
@[simp] theorem wP_regs_v (n : PReg) (x : Bool) : (t.wP n x).regs.v = t.regs.v := rfl
@[simp] theorem wP_regs_m (n : PReg) (x : Bool) : (t.wP n x).regs.m = t.regs.m := rfl
@[simp] theorem wP_regs_fstat (n : PReg) (x : Bool) : (t.wP n x).regs.fstat = t.regs.fstat := rfl
@[simp] theorem wP_regs_rm (n : PReg) (x : Bool) : (t.wP n x).regs.rm = t.regs.rm := rfl
@[simp] theorem wP_regs_seed (n : PReg) (x : Bool) : (t.wP n x).regs.seed = t.regs.seed := rfl
@[simp] theorem wP_regs_ovwc (n : PReg) (x : Bool) : (t.wP n x).regs.ovwc = t.regs.ovwc := rfl
@[simp] theorem wP_regs_nanc (n : PReg) (x : Bool) : (t.wP n x).regs.nanc = t.regs.nanc := rfl
@[simp] theorem wP_regs_segsel (n : PReg) (x : Bool) : (t.wP n x).regs.segsel = t.regs.segsel := rfl
@[simp] theorem orFlags_kind (x : BitVec 6) : (t.orFlags x).kind = t.kind := rfl
@[simp] theorem orFlags_pc (x : BitVec 6) : (t.orFlags x).pc = t.pc := rfl
@[simp] theorem orFlags_segs (x : BitVec 6) : (t.orFlags x).segs = t.segs := rfl
@[simp] theorem orFlags_pos (x : BitVec 6) : (t.orFlags x).pos = t.pos := rfl
@[simp] theorem orFlags_bnd (x : BitVec 6) : (t.orFlags x).bnd = t.bnd := rfl
@[simp] theorem orFlags_hh (x : BitVec 6) : (t.orFlags x).hh = t.hh := rfl
@[simp] theorem orFlags_fidx (x : BitVec 6) : (t.orFlags x).fidx = t.fidx := rfl
@[simp] theorem orFlags_ltag (x : BitVec 6) : (t.orFlags x).ltag = t.ltag := rfl
@[simp] theorem orFlags_core (x : BitVec 6) : (t.orFlags x).core = t.core := rfl
@[simp] theorem orFlags_slot (x : BitVec 6) : (t.orFlags x).slot = t.slot := rfl
@[simp] theorem orFlags_loc (x : BitVec 6) : (t.orFlags x).loc = t.loc := rfl
@[simp] theorem orFlags_outst (x : BitVec 6) : (t.orFlags x).outst = t.outst := rfl
@[simp] theorem orFlags_traps (x : BitVec 6) : (t.orFlags x).traps = t.traps := rfl
@[simp] theorem orFlags_pend (x : BitVec 6) : (t.orFlags x).pend = t.pend := rfl
@[simp] theorem orFlags_pnpc (x : BitVec 6) : (t.orFlags x).pnpc = t.pnpc := rfl
@[simp] theorem orFlags_ltack (x : BitVec 6) : (t.orFlags x).ltack = t.ltack := rfl
@[simp] theorem orFlags_treg (x : BitVec 6) : (t.orFlags x).treg = t.treg := rfl
@[simp] theorem orFlags_wait (x : BitVec 6) : (t.orFlags x).wait = t.wait := rfl
@[simp] theorem orFlags_inRot (x : BitVec 6) : (t.orFlags x).inRot = t.inRot := rfl
@[simp] theorem orFlags_marked (x : BitVec 6) : (t.orFlags x).marked = t.marked := rfl
@[simp] theorem orFlags_parked (x : BitVec 6) : (t.orFlags x).parked = t.parked := rfl
@[simp] theorem orFlags_seq (x : BitVec 6) : (t.orFlags x).seq = t.seq := rfl
@[simp] theorem orFlags_fences (x : BitVec 6) : (t.orFlags x).fences = t.fences := rfl
@[simp] theorem orFlags_reads (x : BitVec 6) : (t.orFlags x).reads = t.reads := rfl
@[simp] theorem orFlags_setMask (x : BitVec 6) : (t.orFlags x).setMask = t.setMask := rfl
@[simp] theorem orFlags_acq (x : BitVec 6) : (t.orFlags x).acq = t.acq := rfl
@[simp] theorem orFlags_depart (x : BitVec 6) : (t.orFlags x).depart = t.depart := rfl
@[simp] theorem orFlags_stage (x : BitVec 6) : (t.orFlags x).stage = t.stage := rfl
@[simp] theorem orFlags_kept (x : BitVec 6) : (t.orFlags x).kept = t.kept := rfl
@[simp] theorem orFlags_entering (x : BitVec 6) : (t.orFlags x).entering = t.entering := rfl
@[simp] theorem orFlags_ending (x : BitVec 6) : (t.orFlags x).ending = t.ending := rfl
@[simp] theorem orFlags_regs_s (x : BitVec 6) : (t.orFlags x).regs.s = t.regs.s := rfl
@[simp] theorem orFlags_regs_v (x : BitVec 6) : (t.orFlags x).regs.v = t.regs.v := rfl
@[simp] theorem orFlags_regs_m (x : BitVec 6) : (t.orFlags x).regs.m = t.regs.m := rfl
@[simp] theorem orFlags_regs_p (x : BitVec 6) : (t.orFlags x).regs.p = t.regs.p := rfl
@[simp] theorem orFlags_regs_rm (x : BitVec 6) : (t.orFlags x).regs.rm = t.regs.rm := rfl
@[simp] theorem orFlags_regs_seed (x : BitVec 6) : (t.orFlags x).regs.seed = t.regs.seed := rfl
@[simp] theorem orFlags_regs_ovwc (x : BitVec 6) : (t.orFlags x).regs.ovwc = t.regs.ovwc := rfl
@[simp] theorem orFlags_regs_nanc (x : BitVec 6) : (t.orFlags x).regs.nanc = t.regs.nanc := rfl
@[simp] theorem orFlags_regs_segsel (x : BitVec 6) : (t.orFlags x).regs.segsel = t.regs.segsel := rfl
@[simp] theorem wM_kind (n : MReg) (x : BitVec 32) : (t.wM n x).kind = t.kind := by unfold Thread.wM; split <;> rfl
@[simp] theorem wM_pc (n : MReg) (x : BitVec 32) : (t.wM n x).pc = t.pc := by unfold Thread.wM; split <;> rfl
@[simp] theorem wM_segs (n : MReg) (x : BitVec 32) : (t.wM n x).segs = t.segs := by unfold Thread.wM; split <;> rfl
@[simp] theorem wM_pos (n : MReg) (x : BitVec 32) : (t.wM n x).pos = t.pos := by unfold Thread.wM; split <;> rfl
@[simp] theorem wM_bnd (n : MReg) (x : BitVec 32) : (t.wM n x).bnd = t.bnd := by unfold Thread.wM; split <;> rfl
@[simp] theorem wM_hh (n : MReg) (x : BitVec 32) : (t.wM n x).hh = t.hh := by unfold Thread.wM; split <;> rfl
@[simp] theorem wM_fidx (n : MReg) (x : BitVec 32) : (t.wM n x).fidx = t.fidx := by unfold Thread.wM; split <;> rfl
@[simp] theorem wM_ltag (n : MReg) (x : BitVec 32) : (t.wM n x).ltag = t.ltag := by unfold Thread.wM; split <;> rfl
@[simp] theorem wM_core (n : MReg) (x : BitVec 32) : (t.wM n x).core = t.core := by unfold Thread.wM; split <;> rfl
@[simp] theorem wM_slot (n : MReg) (x : BitVec 32) : (t.wM n x).slot = t.slot := by unfold Thread.wM; split <;> rfl
@[simp] theorem wM_loc (n : MReg) (x : BitVec 32) : (t.wM n x).loc = t.loc := by unfold Thread.wM; split <;> rfl
@[simp] theorem wM_outst (n : MReg) (x : BitVec 32) : (t.wM n x).outst = t.outst := by unfold Thread.wM; split <;> rfl
@[simp] theorem wM_traps (n : MReg) (x : BitVec 32) : (t.wM n x).traps = t.traps := by unfold Thread.wM; split <;> rfl
@[simp] theorem wM_pend (n : MReg) (x : BitVec 32) : (t.wM n x).pend = t.pend := by unfold Thread.wM; split <;> rfl
@[simp] theorem wM_pnpc (n : MReg) (x : BitVec 32) : (t.wM n x).pnpc = t.pnpc := by unfold Thread.wM; split <;> rfl
@[simp] theorem wM_ltack (n : MReg) (x : BitVec 32) : (t.wM n x).ltack = t.ltack := by unfold Thread.wM; split <;> rfl
@[simp] theorem wM_treg (n : MReg) (x : BitVec 32) : (t.wM n x).treg = t.treg := by unfold Thread.wM; split <;> rfl
@[simp] theorem wM_wait (n : MReg) (x : BitVec 32) : (t.wM n x).wait = t.wait := by unfold Thread.wM; split <;> rfl
@[simp] theorem wM_inRot (n : MReg) (x : BitVec 32) : (t.wM n x).inRot = t.inRot := by unfold Thread.wM; split <;> rfl
@[simp] theorem wM_marked (n : MReg) (x : BitVec 32) : (t.wM n x).marked = t.marked := by unfold Thread.wM; split <;> rfl
@[simp] theorem wM_parked (n : MReg) (x : BitVec 32) : (t.wM n x).parked = t.parked := by unfold Thread.wM; split <;> rfl
@[simp] theorem wM_seq (n : MReg) (x : BitVec 32) : (t.wM n x).seq = t.seq := by unfold Thread.wM; split <;> rfl
@[simp] theorem wM_fences (n : MReg) (x : BitVec 32) : (t.wM n x).fences = t.fences := by unfold Thread.wM; split <;> rfl
@[simp] theorem wM_reads (n : MReg) (x : BitVec 32) : (t.wM n x).reads = t.reads := by unfold Thread.wM; split <;> rfl
@[simp] theorem wM_setMask (n : MReg) (x : BitVec 32) : (t.wM n x).setMask = t.setMask := by unfold Thread.wM; split <;> rfl
@[simp] theorem wM_acq (n : MReg) (x : BitVec 32) : (t.wM n x).acq = t.acq := by unfold Thread.wM; split <;> rfl
@[simp] theorem wM_depart (n : MReg) (x : BitVec 32) : (t.wM n x).depart = t.depart := by unfold Thread.wM; split <;> rfl
@[simp] theorem wM_stage (n : MReg) (x : BitVec 32) : (t.wM n x).stage = t.stage := by unfold Thread.wM; split <;> rfl
@[simp] theorem wM_kept (n : MReg) (x : BitVec 32) : (t.wM n x).kept = t.kept := by unfold Thread.wM; split <;> rfl
@[simp] theorem wM_entering (n : MReg) (x : BitVec 32) : (t.wM n x).entering = t.entering := by unfold Thread.wM; split <;> rfl
@[simp] theorem wM_ending (n : MReg) (x : BitVec 32) : (t.wM n x).ending = t.ending := by unfold Thread.wM; split <;> rfl
@[simp] theorem wM_regs_s (n : MReg) (x : BitVec 32) : (t.wM n x).regs.s = t.regs.s := by unfold Thread.wM; split <;> rfl
@[simp] theorem wM_regs_v (n : MReg) (x : BitVec 32) : (t.wM n x).regs.v = t.regs.v := by unfold Thread.wM; split <;> rfl
@[simp] theorem wM_regs_p (n : MReg) (x : BitVec 32) : (t.wM n x).regs.p = t.regs.p := by unfold Thread.wM; split <;> rfl
@[simp] theorem wM_regs_fstat (n : MReg) (x : BitVec 32) : (t.wM n x).regs.fstat = t.regs.fstat := by unfold Thread.wM; split <;> rfl
@[simp] theorem wM_regs_rm (n : MReg) (x : BitVec 32) : (t.wM n x).regs.rm = t.regs.rm := by unfold Thread.wM; split <;> rfl
@[simp] theorem wM_regs_seed (n : MReg) (x : BitVec 32) : (t.wM n x).regs.seed = t.regs.seed := by unfold Thread.wM; split <;> rfl
@[simp] theorem wM_regs_ovwc (n : MReg) (x : BitVec 32) : (t.wM n x).regs.ovwc = t.regs.ovwc := by unfold Thread.wM; split <;> rfl
@[simp] theorem wM_regs_nanc (n : MReg) (x : BitVec 32) : (t.wM n x).regs.nanc = t.regs.nanc := by unfold Thread.wM; split <;> rfl
@[simp] theorem wM_regs_segsel (n : MReg) (x : BitVec 32) : (t.wM n x).regs.segsel = t.regs.segsel := by unfold Thread.wM; split <;> rfl

theorem wS_rS (n m : SReg) (x : Dword) : (t.wS n x).rS m = if n = m then x else t.rS m := by
  have hn := n.isLt
  by_cases h : n = m
  · subst h; simp [Thread.wS, Thread.rS, vrd_vwr_same _ _ _ hn]
  · rw [if_neg h]; exact vrd_vwr_ne _ _ _ _ (fun e => h (BitVec.eq_of_toNat_eq e))

theorem wV_rV (n m : VReg) (x : Vec) : (t.wV n x).rV m = if n = m then x else t.rV m := by
  have hn := n.isLt
  by_cases h : n = m
  · subst h; simp [Thread.wV, Thread.rV, vrd_vwr_same _ _ _ hn]
  · rw [if_neg h]; exact vrd_vwr_ne _ _ _ _ (fun e => h (BitVec.eq_of_toNat_eq e))

/-- p0 reads true whatever is written to it (R39). -/
@[simp] theorem rP_zero : t.rP 0 = true := rfl
/-- m0 reads all ones whatever is written to it (R38). -/
@[simp] theorem rM_zero : t.rM 0 = BitVec.allOnes 32 := rfl
@[simp] theorem wP_zero (x : Bool) : t.wP 0 x = t := rfl
@[simp] theorem wM_zero (x : BitVec 32) : t.wM 0 x = t := rfl

end

end Sys2Proof.Machine
end

