-- ==== Sys2Proof/Laws/Ops.lean ====
section
/-!
SUPPORT. What a shared operation can do, said once: which of memory, cores, threads, clusters and launches it leaves, and that
it keeps every memory in its canonical form.
-/

namespace Sys2Proof.Machine

/-! ### Operations on clocks, objects, stamps and counters only -/

/-- The second state differs from the first in no memory, core, thread, cluster or launch. -/
structure Same (s t : State) : Prop where
  mem : t.mem = s.mem
  cores : t.cores = s.cores
  threads : t.threads = s.threads
  clus : t.clus = s.clus
  launches : t.launches = s.launches

theorem Same.rfl {s : State} : Same s s := ⟨Eq.refl _, Eq.refl _, Eq.refl _, Eq.refl _, Eq.refl _⟩

theorem Same.trans {s t u : State} (h : Same s t) (k : Same t u) : Same s u :=
  ⟨k.mem.trans h.mem, k.cores.trans h.cores, k.threads.trans h.threads, k.clus.trans h.clus, k.launches.trans h.launches⟩

theorem Same.foldl {α : Type} {f : State → α → State} (hf : ∀ s x, Same s (f s x)) (l : List α) (s : State) :
    Same s (l.foldl f s) := by
  induction l generalizing s with
  | nil => exact Same.rfl
  | cons x l ih => exact (hf s x).trans (ih _)

section

variable (s : State)

theorem release_same (o : Obj) (ks : List Contrib) : Same s (s.release o ks) := ⟨rfl, rfl, rfl, rfl, rfl⟩
theorem acquire_same (t : Agent) (sc : Scope) (ks : List Contrib) : Same s (s.acquire t sc ks) := ⟨rfl, rfl, rfl, rfl, rfl⟩
theorem endRegion_same (t : Agent) : Same s (s.endRegion t) := ⟨rfl, rfl, rfl, rfl, rfl⟩
theorem invalidate_same (c : Option Nat) : Same s (s.invalidate c) := by cases c <;> exact ⟨rfl, rfl, rfl, rfl, rfl⟩
theorem syncSend_same (t : Agent) : Same s (s.syncSend t).2 := endRegion_same s t
theorem takeFree_same : Same s s.takeFree.2 := ⟨rfl, rfl, rfl, rfl, rfl⟩
theorem takeOrder_same : Same s s.takeOrder.2 := ⟨rfl, rfl, rfl, rfl, rfl⟩
theorem mark_same (t : Agent) (w : WordKey) (wr at_ : Bool) : Same s (s.mark t w wr at_) := ⟨rfl, rfl, rfl, rfl, rfl⟩

/-- A release of an object, without an acquire. -/
theorem sync_same (t : Agent) (o : Obj) (rel : Bool) (sc : Scope) : Same s (s.sync t o rel false sc) := by
  cases rel <;> exact ⟨rfl, rfl, rfl, rfl, rfl⟩

theorem markAll_same (t : Agent) (wr at_ : Bool) (ws : List WordKey) : Same s (s.markAll t wr at_ ws) :=
  Same.foldl (fun s w => mark_same s t w wr at_) ws s

theorem cacheWrite_same (c : Option Nat) (rp : Bool) (w : WordKey) : Same s (s.cacheWrite c rp w) := by
  unfold State.cacheWrite
  split <;> exact ⟨rfl, rfl, rfl, rfl, rfl⟩

theorem cacheRead_same (c : Option Nat) (rp : Bool) (w : WordKey) : Same s (s.cacheRead c rp w) := by
  unfold State.cacheRead
  split
  · exact Same.rfl
  · dsimp only
    split <;> exact ⟨rfl, rfl, rfl, rfl, rfl⟩

theorem cacheAtomic_same (wr : Bool) (w : WordKey) : Same s (s.cacheAtomic wr w) := by
  unfold State.cacheAtomic
  split <;> exact ⟨rfl, rfl, rfl, rfl, rfl⟩

theorem cachePlain_same (c : Option Nat) (wr rp : Bool) (ws : List WordKey) : Same s (s.cachePlain c wr rp ws) :=
  Same.foldl (fun s w => by split <;> first | exact cacheWrite_same s c rp w | exact cacheRead_same s c rp w) ws s

theorem cacheAtom_same (wr : Bool) (ws : List WordKey) : Same s (s.cacheAtom wr ws) :=
  Same.foldl (fun s w => cacheAtomic_same s wr w) ws s

/-- An access that finds no conflict leaves its stamps and changes nothing else (R123). -/
theorem touch_same (ag : Agent) (wr at_ : Bool) (p : Place) (n : Nat) (t : State) (h : s.touch ag wr at_ p n = .ok t) :
    Same s t := by
  unfold State.touch at h
  dsimp only at h
  split at h
  · cases h
  · cases h; exact markAll_same s ag wr at_ _

/-! ### Operations that acquire -/

/-- The second state differs from the first in no memory, core, cluster or launch, and in no thread but for what a fence of it
would still acquire (R117). -/
structure SameSync (s t : State) : Prop where
  mem : t.mem = s.mem
  cores : t.cores = s.cores
  clus : t.clus = s.clus
  launches : t.launches = s.launches
  threads : ∀ a, ∃ r, t.th a = { s.th a with reads := r }

theorem Same.sync {s t : State} (h : Same s t) : SameSync s t :=
  ⟨h.mem, h.cores, h.clus, h.launches, fun a => ⟨(s.th a).reads, by simp only [State.th, h.threads]⟩⟩

theorem SameSync.rfl {s : State} : SameSync s s := Same.rfl.sync

theorem SameSync.trans {s t u : State} (h : SameSync s t) (k : SameSync t u) : SameSync s u :=
  ⟨k.mem.trans h.mem, k.cores.trans h.cores, k.clus.trans h.clus, k.launches.trans h.launches, fun a => by
    obtain ⟨r, hr⟩ := h.threads a
    obtain ⟨q, hq⟩ := k.threads a
    exact ⟨q, by rw [hq, hr]⟩⟩

theorem SameSync.foldl {α : Type} {f : State → α → State} (hf : ∀ s x, SameSync s (f s x)) (l : List α) (s : State) :
    SameSync s (l.foldl f s) := by
  induction l generalizing s with
  | nil => exact SameSync.rfl
  | cons x l ih => exact (hf s x).trans (ih _)

theorem modTh_reads_sync (a : Nat) (r : List Obj) : SameSync s (s.modTh a (fun t => { t with reads := r })) :=
  ⟨rfl, rfl, rfl, rfl, fun b => by
    by_cases h : a = b
    · subst h; exact ⟨r, by simp⟩
    · exact ⟨(s.th b).reads, by rw [modTh_th_ne _ _ _ _ h]⟩⟩

theorem acquired_sync (t : Agent) : SameSync s (s.acquired t) := by
  have h := (invalidate_same s (s.agCore t)).sync
  refine h.trans (t := s.invalidate (s.agCore t)) ?_
  unfold State.acquired State.forgetReads
  split
  · exact modTh_reads_sync _ _ _
  · exact SameSync.rfl

theorem syncFrom_sync (t : Agent) (ks : List Contrib) : SameSync s (s.syncFrom t ks) :=
  (((acquire_same s t .pkg ks).sync).trans (acquired_sync _ t)).trans (endRegion_same _ t).sync

theorem sync_sync (t : Agent) (o : Obj) (rel acq : Bool) (sc : Scope) : SameSync s (s.sync t o rel acq sc) := by
  cases acq
  · exact (sync_same s t o rel sc).sync
  · have h : SameSync s (if rel then s.release o [s.contrib t sc] else s) := by
      split
      · exact (release_same s o _).sync
      · exact SameSync.rfl
    exact ((h.trans (acquire_same _ t sc _).sync).trans (acquired_sync _ t)).trans (endRegion_same _ t).sync

theorem syncAll_sync (ag : Agent) (os : List Obj) (rel acq : Bool) (sc : Scope) : SameSync s (s.syncAll ag os rel acq sc) := by
  unfold State.syncAll
  dsimp only
  have h : SameSync s (if rel then os.foldl (fun s' o => s'.release o [s.contrib ag sc]) s else s) := by
    split
    · exact SameSync.foldl (fun x o => (release_same x o _).sync) os s
    · exact SameSync.rfl
  refine SameSync.trans ?_ (endRegion_same _ ag).sync
  split
  · exact (h.trans (SameSync.foldl (fun x o => (acquire_same x ag sc _).sync) os _)).trans (acquired_sync _ ag)
  · exact h

/-! ### What translation may change -/

/-- The second state differs from the first in no memory, core, thread or launch: clusters hold the translation caches and the
basting entries that count what passes them. -/
structure SameButClusters (s t : State) : Prop where
  mem : t.mem = s.mem
  cores : t.cores = s.cores
  threads : t.threads = s.threads
  launches : t.launches = s.launches

theorem SameButClusters.rfl {s : State} : SameButClusters s s := ⟨Eq.refl _, Eq.refl _, Eq.refl _, Eq.refl _⟩

theorem SameButClusters.trans {s t u : State} (h : SameButClusters s t) (k : SameButClusters t u) : SameButClusters s u :=
  ⟨k.mem.trans h.mem, k.cores.trans h.cores, k.threads.trans h.threads, k.launches.trans h.launches⟩

theorem leafFor_same (cl asid : Nat) (va : Dword) : SameButClusters s (s.leafFor cl asid va).2 := by
  unfold State.leafFor
  dsimp only
  repeat' split
  all_goals exact ⟨rfl, rfl, rfl, rfl⟩

theorem fillTlb_same (cl asid : Nat) (va e : Dword) (lg : Nat) : SameButClusters s (s.fillTlb cl asid va e lg) := by
  unfold State.fillTlb
  dsimp only
  split <;> exact ⟨rfl, rfl, rfl, rfl⟩

theorem xlate_same (cl asid : Nat) (super : Bool) (va : Dword) (n : Need) :
    SameButClusters s (s.xlate cl asid super va n).2 := by
  unfold State.xlate
  split
  · exact SameButClusters.rfl
  · have h := leafFor_same s cl asid va
    split
    · rename_i s1 e; rw [e] at h; exact h
    · rename_i s1 e; rw [e] at h; exact h
    · rename_i s1 e; rw [e] at h; exact h
    · rename_i e lg s1 he
      rw [he] at h
      have hk := h.trans (fillTlb_same s1 cl asid va e lg)
      dsimp only
      split <;> exact hk

theorem passFrom_same (tag : BitVec 32) (p n c : Nat) : SameButClusters s (s.passFrom tag p n c) := by
  induction n generalizing s c with
  | zero => exact SameButClusters.rfl
  | succ n ih =>
    unfold State.passFrom
    split
    · exact SameButClusters.rfl
    · split
      · exact SameButClusters.rfl
      · rename_i b _
        exact SameButClusters.trans (t := s.modClu (clusterOf c) (fun k =>
          { k with bast := k.bast.map (fun x => if x = b then { x with fwd := x.fwd + 1 } else x) }))
          ⟨rfl, rfl, rfl, rfl⟩ (ih _ _)

theorem passed_same (tag : BitVec 32) (src p : Nat) : SameButClusters s (s.passed tag src p) := passFrom_same s tag p 8 _

/-- A count of the free values changes nothing else. -/
theorem SameButClusters.free {s t : State} (n : Nat) (h : SameButClusters s t) : SameButClusters s { t with free := n } :=
  ⟨h.mem, h.cores, h.threads, h.launches⟩

/-- Finding where an access goes changes no memory, core, thread or launch. -/
theorem reach_same (core cl asid : Nat) (super : Bool) (tag : BitVec 32) (va : Dword) (n : Nat) (nd : Need) :
    SameButClusters s (s.reach core cl asid super tag va n nd).2 := by
  unfold State.reach
  split
  · have k := passed_same s tag core (windowOf core va).1
    dsimp only
    repeat' split
    all_goals
      first
      | exact SameButClusters.rfl
      | exact SameButClusters.free _ SameButClusters.rfl
      | exact SameButClusters.free _ k
  · split
    · exact SameButClusters.rfl
    · have h := xlate_same s cl asid super va nd
      split
      · rename_i s1 e; rw [e] at h; exact h
      · rename_i s1 e; rw [e] at h; exact h
      · rename_i s1 e; rw [e] at h; exact h
      · rename_i q s1 e; rw [e] at h; exact h
      · rename_i a s1 e
        rw [e] at h
        dsimp only
        repeat' split
        all_goals first | exact h | exact SameButClusters.free _ h

theorem reachTh_same (aid : Nat) (va : Dword) (n : Nat) (nd : Need) : SameButClusters s (s.reachTh aid va n nd).2 :=
  reach_same s _ _ _ _ _ va n nd

/-! ### Completion -/

/-- The completion of an instruction changes its thread only (R14). -/
theorem finish_eq (aid : Nat) (pc : Dword) (sw : Bool) :
    s.finish aid pc sw = s.putTh aid
      { s.th aid with pc := pc, seq := (s.th aid).seq + 1, marked := sw, parked := false, entering := false } := rfl

@[simp] theorem finish_mem (aid : Nat) (pc : Dword) (sw : Bool) : (s.finish aid pc sw).mem = s.mem := rfl
@[simp] theorem finish_cores (aid : Nat) (pc : Dword) (sw : Bool) : (s.finish aid pc sw).cores = s.cores := rfl
@[simp] theorem finish_clus (aid : Nat) (pc : Dword) (sw : Bool) : (s.finish aid pc sw).clus = s.clus := rfl
@[simp] theorem finish_core (aid c : Nat) (pc : Dword) (sw : Bool) : (s.finish aid pc sw).core c = s.core c := rfl
@[simp] theorem finish_byte (aid : Nat) (pc : Dword) (sw : Bool) (p : Place) : (s.finish aid pc sw).byte p = s.byte p := by
  cases p <;> rfl
@[simp] theorem finish_regs (aid : Nat) (pc : Dword) (sw : Bool) : ((s.finish aid pc sw).th aid).regs = (s.th aid).regs := by
  simp [State.finish]
@[simp] theorem finish_pc (aid : Nat) (pc : Dword) (sw : Bool) : ((s.finish aid pc sw).th aid).pc = pc := by
  simp [State.finish]
theorem finish_th_ne (a b : Nat) (pc : Dword) (sw : Bool) (h : a ≠ b) : (s.finish a pc sw).th b = s.th b := by
  simp [State.finish, modTh_th_ne _ _ _ _ h]

/-- A thread that parks at a wait that nothing but others' progress ends stays as it is. -/
theorem park_false (aid : Nat) : s.park aid false = s.modTh aid (fun t => { t with parked := true }) := rfl

/-- A result to a register that no port is bound to changes that register only (R40). -/
theorem wrS_unbound (aid : Nat) (d : SReg) (x : Dword) (h : s.boundTo aid (.s d) = none) :
    s.wrS aid d x = s.modTh aid (fun t => t.wS d x) := by simp [State.wrS, h]

theorem wrV_unbound (aid : Nat) (d : VReg) (x : Vec) (h : s.boundTo aid (.v d) = none) :
    s.wrV aid d x = s.modTh aid (fun t => t.wV d x) := by simp [State.wrV, h]

/-! ### The canonical form -/

/-- The scratchpad of every core of the form is in it, listed or not. -/
theorem memWf_core (c : Nat) (h : s.memWf = true) : (s.core c).sp.wf = true := by
  simp only [State.memWf, Bool.and_eq_true, List.all_eq_true] at h
  have all : ∀ m : AMap Nat Core, (∀ e ∈ m, e.2.sp.wf = true) → ((amGet? m c).getD (Core.reset c)).sp.wf = true := by
    intro m
    induction m with
    | nil => intro _; rfl
    | cons e m ih =>
      obtain ⟨k, v⟩ := e
      intro hm
      simp only [amGet?]
      split
      · exact hm (k, v) (List.mem_cons_self ..)
      · exact ih (fun e he => hm e (List.mem_cons_of_mem _ he))
  exact all s.cores h.2

theorem memWf_mem (h : s.memWf = true) : s.mem.wf = true := by
  simp only [State.memWf, Bool.and_eq_true] at h; exact h.1

theorem amSet_all {κ ν : Type} [DecidableEq κ] (p : κ × ν → Bool) (m : AMap κ ν) (k : κ) (v : ν) (h : m.all p = true)
    (hv : p (k, v) = true) : (amSet m k v).all p = true := by
  induction m with
  | nil => simp [amSet, hv]
  | cons e m ih =>
    obtain ⟨k', v'⟩ := e
    simp only [List.all_cons, Bool.and_eq_true] at h
    simp only [amSet]
    split
    · rename_i e; subst e; simp only [List.all_cons, Bool.and_eq_true]; exact ⟨hv, h.2⟩
    · simp only [List.all_cons, Bool.and_eq_true]; exact ⟨h.1, ih h.2⟩

variable {s}

/-- A state with the same memories has the same form. -/
theorem memWf_of_eq {t : State} (h : s.memWf = true) (hm : t.mem = s.mem) (hc : t.cores = s.cores) : t.memWf = true := by
  simp only [State.memWf, hm, hc] at *; exact h

theorem memWf_same {t : State} (h : s.memWf = true) (k : Same s t) : t.memWf = true := memWf_of_eq h k.mem k.cores

theorem memWf_putCore (c : Nat) (k : Core) (h : s.memWf = true) (hk : k.sp.wf = true) : (s.putCore c k).memWf = true := by
  simp only [State.memWf, Bool.and_eq_true] at *
  exact ⟨h.1, amSet_all (fun (e : Nat × Core) => e.2.sp.wf) s.cores c k h.2 hk⟩

/-- A change of a core that leaves its scratchpad keeps the form. -/
theorem memWf_modCore (c : Nat) (f : Core → Core) (h : s.memWf = true) (hf : ∀ k, (f k).sp = k.sp) :
    (s.modCore c f).memWf = true :=
  memWf_putCore c _ h (by rw [hf]; exact memWf_core s c h)

theorem memWf_modTh (a : Nat) (f : Thread → Thread) (h : s.memWf = true) : (s.modTh a f).memWf = true := h
theorem memWf_putTh (a : Nat) (t : Thread) (h : s.memWf = true) : (s.putTh a t).memWf = true := h
theorem memWf_modClu (a : Nat) (f : Cluster → Cluster) (h : s.memWf = true) : (s.modClu a f).memWf = true := h
theorem memWf_modLaunch (g : BitVec 32) (f : Launch → Launch) (h : s.memWf = true) : (s.modLaunch g f).memWf = true := h

/-- Every write of bytes at a place keeps the form. -/
theorem memWf_putBytes (p : Place) (bs : List Byte) (h : s.memWf = true) : (s.putBytes p bs).memWf = true := by
  cases p with
  | sp c o => exact memWf_putCore c _ h (Memory.wf_put _ _ _ (memWf_core s c h))
  | phys a =>
    simp only [State.putBytes, State.memWf, Bool.and_eq_true] at *
    exact ⟨Memory.wf_put _ _ _ h.1, h.2⟩

theorem logRelease_same (die a n : Nat) : Same s (s.logRelease die a n) := by
  unfold State.logRelease
  dsimp only
  exact (((markAll_same s _ _ _ _).trans (Same.foldl (fun s w => cacheWrite_same s none false w) _ _)).trans
    (release_same _ _ _)).trans (endRegion_same _ _)

/-- A record of the error log keeps the form. -/
theorem memWf_logErr (die cls cause : Nat) (addr : Dword) (virt : Bool) (agent : Dword) (second : Option Dword)
    (h : s.memWf = true) : (s.logErr die cls cause addr virt agent second).memWf = true := by
  have hc := h
  simp only [State.memWf, Bool.and_eq_true] at hc
  unfold State.logErr
  dsimp only
  generalize (if second.isSome then 2 else 1 : Nat) = k
  split
  · exact h
  · refine memWf_same ?_ (Same.foldl (fun s i => logRelease_same die _ 32) _ _)
    simp only [State.memWf, Bool.and_eq_true]
    refine ⟨?_, hc.2⟩
    split
    · exact Memory.wf_put _ _ _ (Memory.wf_put _ _ _ hc.1)
    · exact Memory.wf_put _ _ _ hc.1

theorem memWf_finish (aid : Nat) (pc : Dword) (sw : Bool) (h : s.memWf = true) : (s.finish aid pc sw).memWf = true := h

theorem memWf_sysMessage (src core : Nat) (a p0 p1 p2 p3 : Dword) (ks : List Contrib) (h : s.memWf = true) :
    (s.sysMessage src core a p0 p1 p2 p3 ks).memWf = true := by
  have hl := memWf_logErr (dieOf core) 5 0 (BitVec.ofNat 64 core) false (BitVec.ofNat 64 (2 * 2 ^ 60 + 0x10000 + a.toNat)) none h
  unfold State.sysMessage
  dsimp only
  split
  · exact hl
  · split
    · exact memWf_modCore core _ h (fun _ => rfl)
    · exact hl
    · exact hl

theorem memWf_setSlot (c n : Nat) (o : Option Nat) (st : SlotSt) (h : s.memWf = true) : (s.setSlot c n o st).memWf = true :=
  memWf_modCore c _ h (fun _ => rfl)

theorem memWf_postEnts (c : Nat) (es : List JEnt) (h : s.memWf = true) : (s.postEnts c es).memWf = true :=
  memWf_modCore c _ h (fun _ => rfl)

/-- The bytes of a place read back after a write. -/
theorem bytes_putBytes (p : Place) (bs : List Byte) (h : s.memWf = true) : (s.putBytes p bs).bytes p bs.length = bs := by
  cases p with
  | sp c o => simp [State.putBytes, State.bytes, Memory.bytes_put _ _ _ (memWf_core s c h)]
  | phys a => simp [State.putBytes, State.bytes, Memory.bytes_put _ _ _ (memWf_mem s h)]

end

end Sys2Proof.Machine
end

