-- ==== Sys2Proof/Laws/PerInstr.lean ====
section
/-!
SUPPORT. The family RoundTrip: the decoder reads from the fields that the encoder writes the instruction they were written for,
one lemma per constructor. No word encodes a move, so of those the lemma is empty.
-/

set_option linter.unusedSimpArgs false
set_option linter.unnecessarySeqFocus false

namespace Sys2Proof.Laws.RoundTrip

/-- Encoding a well-formed instruction and decoding it gives it back. -/
def Statement (i : Instr) : Prop := ∀ r, encode i = some r → i.wf = true → decodeRaw r = .ok i

theorem nop (h : Hdr) : Statement (.nop h) := by
  (intro r he hw; cases he; simp [decodeRaw, decControl, rawOf, rawE, raw2, raw3, rawM, rawG, rawV2, rawV3, rawSh, rawVSh, need, Raw.disp, memOf, gatherOf, dispOf, Raw.hdr, Raw.off34, Raw.imm28, hw])
theorem nop96 (h : Hdr) : Statement (.nop96 h) := by
  (intro r he hw; cases he; simp [decodeRaw, decControl, rawOf, rawE, raw2, raw3, rawM, rawG, rawV2, rawV3, rawSh, rawVSh, need, Raw.disp, memOf, gatherOf, dispOf, Raw.hdr, Raw.off34, Raw.imm28, hw])
theorem nop128 (h : Hdr) : Statement (.nop128 h) := by
  (intro r he hw; cases he; simp [decodeRaw, decControl, rawOf, rawE, raw2, raw3, rawM, rawG, rawV2, rawV3, rawSh, rawVSh, need, Raw.disp, memOf, gatherOf, dispOf, Raw.hdr, Raw.off34, Raw.imm28, hw])
theorem br (h : Hdr) (off : BitVec 34) : Statement (.br h off) := by
  (intro r he hw; cases he; simp [decodeRaw, decControl, rawOf, rawE, raw2, raw3, rawM, rawG, rawV2, rawV3, rawSh, rawVSh, need, Raw.disp, memOf, gatherOf, dispOf, Raw.hdr, Raw.off34, Raw.imm28, hw])
theorem brr (h : Hdr) (a : SReg) : Statement (.brr h a) := by
  (intro r he hw; cases he; simp [decodeRaw, decControl, rawOf, rawE, raw2, raw3, rawM, rawG, rawV2, rawV3, rawSh, rawVSh, need, Raw.disp, memOf, gatherOf, dispOf, Raw.hdr, Raw.off34, Raw.imm28, hw])
theorem call (h : Hdr) (d : SReg) (off : BitVec 34) : Statement (.call h d off) := by
  (intro r he hw; cases he; simp [decodeRaw, decControl, rawOf, rawE, raw2, raw3, rawM, rawG, rawV2, rawV3, rawSh, rawVSh, need, Raw.disp, memOf, gatherOf, dispOf, Raw.hdr, Raw.off34, Raw.imm28, hw])
theorem callr (h : Hdr) (d a : SReg) : Statement (.callr h d a) := by
  (intro r he hw; cases he; simp [decodeRaw, decControl, rawOf, rawE, raw2, raw3, rawM, rawG, rawV2, rawV3, rawSh, rawVSh, need, Raw.disp, memOf, gatherOf, dispOf, Raw.hdr, Raw.off34, Raw.imm28, hw])
theorem ret (h : Hdr) (a : SReg) : Statement (.ret h a) := by
  (intro r he hw; cases he; simp [decodeRaw, decControl, rawOf, rawE, raw2, raw3, rawM, rawG, rawV2, rawV3, rawSh, rawVSh, need, Raw.disp, memOf, gatherOf, dispOf, Raw.hdr, Raw.off34, Raw.imm28, hw])
theorem loop (h : Hdr) (a : SReg) (off : BitVec 34) : Statement (.loop h a off) := by
  (intro r he hw; cases he; simp [decodeRaw, decControl, rawOf, rawE, raw2, raw3, rawM, rawG, rawV2, rawV3, rawSh, rawVSh, need, Raw.disp, memOf, gatherOf, dispOf, Raw.hdr, Raw.off34, Raw.imm28, hw])
theorem callat (h : Hdr) (d a b c : SReg) (nr : Bool) : Statement (.callat h d a b c nr) := by
  cases nr <;>
  (intro r he hw; cases he; simp [decodeRaw, decControl, rawOf, rawE, raw2, raw3, rawM, rawG, rawV2, rawV3, rawSh, rawVSh, need, Raw.disp, memOf, gatherOf, dispOf, Raw.hdr, Raw.off34, Raw.imm28, hw])
theorem spawn (h : Hdr) (d a : SReg) (off : BitVec 34) : Statement (.spawn h d a off) := by
  (intro r he hw; cases he; simp [decodeRaw, decControl, rawOf, rawE, raw2, raw3, rawM, rawG, rawV2, rawV3, rawSh, rawVSh, need, Raw.disp, memOf, gatherOf, dispOf, Raw.hdr, Raw.off34, Raw.imm28, hw])
theorem join (h : Hdr) (a : SReg) : Statement (.join h a) := by
  (intro r he hw; cases he; simp [decodeRaw, decControl, rawOf, rawE, raw2, raw3, rawM, rawG, rawV2, rawV3, rawSh, rawVSh, need, Raw.disp, memOf, gatherOf, dispOf, Raw.hdr, Raw.off34, Raw.imm28, hw])
theorem exit (h : Hdr) (a : Option SReg) : Statement (.exit h a) := by
  (intro r he hw; cases he; simp [decodeRaw, decControl, rawOf, rawE, raw2, raw3, rawM, rawG, rawV2, rawV3, rawSh, rawVSh, need, Raw.disp, memOf, gatherOf, dispOf, Raw.hdr, Raw.off34, Raw.imm28, hw])
theorem exitRep (h : Hdr) (a : Option SReg) (b c : SReg) : Statement (.exitRep h a b c) := by
  (intro r he hw; cases he; simp [decodeRaw, decControl, rawOf, rawE, raw2, raw3, rawM, rawG, rawV2, rawV3, rawSh, rawVSh, need, Raw.disp, memOf, gatherOf, dispOf, Raw.hdr, Raw.off34, Raw.imm28, hw])
theorem yield (h : Hdr) : Statement (.yield h) := by
  (intro r he hw; cases he; simp [decodeRaw, decControl, rawOf, rawE, raw2, raw3, rawM, rawG, rawV2, rawV3, rawSh, rawVSh, need, Raw.disp, memOf, gatherOf, dispOf, Raw.hdr, Raw.off34, Raw.imm28, hw])
theorem waitFull (h : Hdr) (a : SReg) : Statement (.waitFull h a) := by
  (intro r he hw; cases he; simp [decodeRaw, decControl, rawOf, rawE, raw2, raw3, rawM, rawG, rawV2, rawV3, rawSh, rawVSh, need, Raw.disp, memOf, gatherOf, dispOf, Raw.hdr, Raw.off34, Raw.imm28, hw])
theorem waitZero (h : Hdr) (a : SReg) : Statement (.waitZero h a) := by
  (intro r he hw; cases he; simp [decodeRaw, decControl, rawOf, rawE, raw2, raw3, rawM, rawG, rawV2, rawV3, rawSh, rawVSh, need, Raw.disp, memOf, gatherOf, dispOf, Raw.hdr, Raw.off34, Raw.imm28, hw])
theorem waitNe (h : Hdr) (d a b : SReg) : Statement (.waitNe h d a b) := by
  (intro r he hw; cases he; simp [decodeRaw, decControl, rawOf, rawE, raw2, raw3, rawM, rawG, rawV2, rawV3, rawSh, rawVSh, need, Raw.disp, memOf, gatherOf, dispOf, Raw.hdr, Raw.off34, Raw.imm28, hw])
theorem send (h : Hdr) (a b c : SReg) : Statement (.send h a b c) := by
  (intro r he hw; cases he; simp [decodeRaw, decControl, rawOf, rawE, raw2, raw3, rawM, rawG, rawV2, rawV3, rawSh, rawVSh, need, Raw.disp, memOf, gatherOf, dispOf, Raw.hdr, Raw.off34, Raw.imm28, hw])
theorem taskq (h : Hdr) (d a : SReg) (b : VReg) (c : SReg) (cnt : BitVec 16) : Statement (.taskq h d a b c cnt) := by
  (intro r he hw; cases he; simp [decodeRaw, decControl, rawOf, rawE, raw2, raw3, rawM, rawG, rawV2, rawV3, rawSh, rawVSh, need, Raw.disp, memOf, gatherOf, dispOf, Raw.hdr, Raw.off34, Raw.imm28, hw])
theorem taskqDec (h : Hdr) (a : SReg) : Statement (.taskqDec h a) := by
  (intro r he hw; cases he; simp [decodeRaw, decControl, rawOf, rawE, raw2, raw3, rawM, rawG, rawV2, rawV3, rawSh, rawVSh, need, Raw.disp, memOf, gatherOf, dispOf, Raw.hdr, Raw.off34, Raw.imm28, hw])
theorem evset (h : Hdr) (n : BitVec 8) : Statement (.evset h n) := by
  (intro r he hw; cases he; simp [decodeRaw, decControl, rawOf, rawE, raw2, raw3, rawM, rawG, rawV2, rawV3, rawSh, rawVSh, need, Raw.disp, memOf, gatherOf, dispOf, Raw.hdr, Raw.off34, Raw.imm28, hw])
theorem evclr (h : Hdr) (n : BitVec 8) : Statement (.evclr h n) := by
  (intro r he hw; cases he; simp [decodeRaw, decControl, rawOf, rawE, raw2, raw3, rawM, rawG, rawV2, rawV3, rawSh, rawVSh, need, Raw.disp, memOf, gatherOf, dispOf, Raw.hdr, Raw.off34, Raw.imm28, hw])
theorem evwait (h : Hdr) (n : BitVec 8) : Statement (.evwait h n) := by
  (intro r he hw; cases he; simp [decodeRaw, decControl, rawOf, rawE, raw2, raw3, rawM, rawG, rawV2, rawV3, rawSh, rawVSh, need, Raw.disp, memOf, gatherOf, dispOf, Raw.hdr, Raw.off34, Raw.imm28, hw])
theorem cancel (h : Hdr) (a : Option SReg) : Statement (.cancel h a) := by
  (intro r he hw; cases he; simp [decodeRaw, decControl, rawOf, rawE, raw2, raw3, rawM, rawG, rawV2, rawV3, rawSh, rawVSh, need, Raw.disp, memOf, gatherOf, dispOf, Raw.hdr, Raw.off34, Raw.imm28, hw])
theorem cancelSeen (core : Nat) : Statement (.cancelSeen core) := by
  intro r he; simp [encode] at he
theorem cancelMailboxWrite (tag : Nat) : Statement (.cancelMailboxWrite tag) := by
  intro r he; simp [encode] at he
theorem trapu (h : Hdr) (code : BitVec 16) : Statement (.trapu h code) := by
  (intro r he hw; cases he; simp [decodeRaw, decControl, rawOf, rawE, raw2, raw3, rawM, rawG, rawV2, rawV3, rawSh, rawVSh, need, Raw.disp, memOf, gatherOf, dispOf, Raw.hdr, Raw.off34, Raw.imm28, hw])
theorem exretRetry (h : Hdr) (a : SReg) : Statement (.exretRetry h a) := by
  (intro r he hw; cases he; simp [decodeRaw, decControl, rawOf, rawE, raw2, raw3, rawM, rawG, rawV2, rawV3, rawSh, rawVSh, need, Raw.disp, memOf, gatherOf, dispOf, Raw.hdr, Raw.off34, Raw.imm28, hw])
theorem exretNext (h : Hdr) (a : SReg) : Statement (.exretNext h a) := by
  (intro r he hw; cases he; simp [decodeRaw, decControl, rawOf, rawE, raw2, raw3, rawM, rawG, rawV2, rawV3, rawSh, rawVSh, need, Raw.disp, memOf, gatherOf, dispOf, Raw.hdr, Raw.off34, Raw.imm28, hw])
theorem exretTo (h : Hdr) (a b : SReg) : Statement (.exretTo h a b) := by
  (intro r he hw; cases he; simp [decodeRaw, decControl, rawOf, rawE, raw2, raw3, rawM, rawG, rawV2, rawV3, rawSh, rawVSh, need, Raw.disp, memOf, gatherOf, dispOf, Raw.hdr, Raw.off34, Raw.imm28, hw])
theorem tack (h : Hdr) (a : Option SReg) (m : BitVec 28) : Statement (.tack h a m) := by
  (intro r he hw; cases he; simp [decodeRaw, decControl, rawOf, rawE, raw2, raw3, rawM, rawG, rawV2, rawV3, rawSh, rawVSh, need, Raw.disp, memOf, gatherOf, dispOf, Raw.hdr, Raw.off34, Raw.imm28, hw])
theorem tackDone (h : Hdr) : Statement (.tackDone h) := by
  (intro r he hw; cases he; simp [decodeRaw, decControl, rawOf, rawE, raw2, raw3, rawM, rawG, rawV2, rawV3, rawSh, rawVSh, need, Raw.disp, memOf, gatherOf, dispOf, Raw.hdr, Raw.off34, Raw.imm28, hw])
theorem tkwait (h : Hdr) (a : SReg) : Statement (.tkwait h a) := by
  (intro r he hw; cases he; simp [decodeRaw, decControl, rawOf, rawE, raw2, raw3, rawM, rawG, rawV2, rawV3, rawSh, rawVSh, need, Raw.disp, memOf, gatherOf, dispOf, Raw.hdr, Raw.off34, Raw.imm28, hw])
theorem tkwaitFrame (h : Hdr) (a : SReg) : Statement (.tkwaitFrame h a) := by
  (intro r he hw; cases he; simp [decodeRaw, decControl, rawOf, rawE, raw2, raw3, rawM, rawG, rawV2, rawV3, rawSh, rawVSh, need, Raw.disp, memOf, gatherOf, dispOf, Raw.hdr, Raw.off34, Raw.imm28, hw])
theorem tkstat (h : Hdr) (d a : SReg) : Statement (.tkstat h d a) := by
  (intro r he hw; cases he; simp [decodeRaw, decControl, rawOf, rawE, raw2, raw3, rawM, rawG, rawV2, rawV3, rawSh, rawVSh, need, Raw.disp, memOf, gatherOf, dispOf, Raw.hdr, Raw.off34, Raw.imm28, hw])
theorem tkstatProg (h : Hdr) (d : SReg) : Statement (.tkstatProg h d) := by
  (intro r he hw; cases he; simp [decodeRaw, decControl, rawOf, rawE, raw2, raw3, rawM, rawG, rawV2, rawV3, rawSh, rawVSh, need, Raw.disp, memOf, gatherOf, dispOf, Raw.hdr, Raw.off34, Raw.imm28, hw])
theorem add (h : Hdr) (d a b : SReg) : Statement (.add h d a b) := by
  (intro r he hw; cases he; simp [decodeRaw, decScalar, rawOf, rawE, raw2, raw3, rawM, rawG, rawV2, rawV3, rawSh, rawVSh, need, Raw.disp, memOf, gatherOf, dispOf, Raw.hdr, Raw.off34, Raw.imm28, hw])
theorem sub (h : Hdr) (d a b : SReg) : Statement (.sub h d a b) := by
  (intro r he hw; cases he; simp [decodeRaw, decScalar, rawOf, rawE, raw2, raw3, rawM, rawG, rawV2, rawV3, rawSh, rawVSh, need, Raw.disp, memOf, gatherOf, dispOf, Raw.hdr, Raw.off34, Raw.imm28, hw])
theorem addi (h : Hdr) (d a : SReg) (m : BitVec 28) : Statement (.addi h d a m) := by
  (intro r he hw; cases he; simp [decodeRaw, decScalar, rawOf, rawE, raw2, raw3, rawM, rawG, rawV2, rawV3, rawSh, rawVSh, need, Raw.disp, memOf, gatherOf, dispOf, Raw.hdr, Raw.off34, Raw.imm28, hw])
theorem mul (h : Hdr) (d a b : SReg) : Statement (.mul h d a b) := by
  (intro r he hw; cases he; simp [decodeRaw, decScalar, rawOf, rawE, raw2, raw3, rawM, rawG, rawV2, rawV3, rawSh, rawVSh, need, Raw.disp, memOf, gatherOf, dispOf, Raw.hdr, Raw.off34, Raw.imm28, hw])
theorem mulh (h : Hdr) (u : Bool) (d a b : SReg) : Statement (.mulh h u d a b) := by
  cases u <;>
  (intro r he hw; cases he; simp [decodeRaw, decScalar, rawOf, rawE, raw2, raw3, rawM, rawG, rawV2, rawV3, rawSh, rawVSh, need, Raw.disp, memOf, gatherOf, dispOf, Raw.hdr, Raw.off34, Raw.imm28, hw])
theorem div (h : Hdr) (u : Bool) (d a b : SReg) : Statement (.div h u d a b) := by
  cases u <;>
  (intro r he hw; cases he; simp [decodeRaw, decScalar, rawOf, rawE, raw2, raw3, rawM, rawG, rawV2, rawV3, rawSh, rawVSh, need, Raw.disp, memOf, gatherOf, dispOf, Raw.hdr, Raw.off34, Raw.imm28, hw])
theorem rem (h : Hdr) (u : Bool) (d a b : SReg) : Statement (.rem h u d a b) := by
  cases u <;>
  (intro r he hw; cases he; simp [decodeRaw, decScalar, rawOf, rawE, raw2, raw3, rawM, rawG, rawV2, rawV3, rawSh, rawVSh, need, Raw.disp, memOf, gatherOf, dispOf, Raw.hdr, Raw.off34, Raw.imm28, hw])
theorem and (h : Hdr) (d a b : SReg) : Statement (.and h d a b) := by
  (intro r he hw; cases he; simp [decodeRaw, decScalar, rawOf, rawE, raw2, raw3, rawM, rawG, rawV2, rawV3, rawSh, rawVSh, need, Raw.disp, memOf, gatherOf, dispOf, Raw.hdr, Raw.off34, Raw.imm28, hw])
theorem or (h : Hdr) (d a b : SReg) : Statement (.or h d a b) := by
  (intro r he hw; cases he; simp [decodeRaw, decScalar, rawOf, rawE, raw2, raw3, rawM, rawG, rawV2, rawV3, rawSh, rawVSh, need, Raw.disp, memOf, gatherOf, dispOf, Raw.hdr, Raw.off34, Raw.imm28, hw])
theorem xor (h : Hdr) (d a b : SReg) : Statement (.xor h d a b) := by
  (intro r he hw; cases he; simp [decodeRaw, decScalar, rawOf, rawE, raw2, raw3, rawM, rawG, rawV2, rawV3, rawSh, rawVSh, need, Raw.disp, memOf, gatherOf, dispOf, Raw.hdr, Raw.off34, Raw.imm28, hw])
theorem andn (h : Hdr) (d a b : SReg) : Statement (.andn h d a b) := by
  (intro r he hw; cases he; simp [decodeRaw, decScalar, rawOf, rawE, raw2, raw3, rawM, rawG, rawV2, rawV3, rawSh, rawVSh, need, Raw.disp, memOf, gatherOf, dispOf, Raw.hdr, Raw.off34, Raw.imm28, hw])
theorem orn (h : Hdr) (d a b : SReg) : Statement (.orn h d a b) := by
  (intro r he hw; cases he; simp [decodeRaw, decScalar, rawOf, rawE, raw2, raw3, rawM, rawG, rawV2, rawV3, rawSh, rawVSh, need, Raw.disp, memOf, gatherOf, dispOf, Raw.hdr, Raw.off34, Raw.imm28, hw])
theorem shl (h : Hdr) (d a : SReg) (n : Amt) : Statement (.shl h d a n) := by
  cases n <;>
  (intro r he hw; cases he; simp [decodeRaw, decScalar, rawOf, rawE, raw2, raw3, rawM, rawG, rawV2, rawV3, rawSh, rawVSh, need, Raw.disp, memOf, gatherOf, dispOf, Raw.hdr, Raw.off34, Raw.imm28, hw])
theorem shr (h : Hdr) (d a : SReg) (n : Amt) : Statement (.shr h d a n) := by
  cases n <;>
  (intro r he hw; cases he; simp [decodeRaw, decScalar, rawOf, rawE, raw2, raw3, rawM, rawG, rawV2, rawV3, rawSh, rawVSh, need, Raw.disp, memOf, gatherOf, dispOf, Raw.hdr, Raw.off34, Raw.imm28, hw])
theorem sar (h : Hdr) (d a : SReg) (n : Amt) : Statement (.sar h d a n) := by
  cases n <;>
  (intro r he hw; cases he; simp [decodeRaw, decScalar, rawOf, rawE, raw2, raw3, rawM, rawG, rawV2, rawV3, rawSh, rawVSh, need, Raw.disp, memOf, gatherOf, dispOf, Raw.hdr, Raw.off34, Raw.imm28, hw])
theorem rot (h : Hdr) (right : Bool) (d a : SReg) (n : Amt) : Statement (.rot h right d a n) := by
  cases right <;> cases n <;>
  (intro r he hw; cases he; simp [decodeRaw, decScalar, rawOf, rawE, raw2, raw3, rawM, rawG, rawV2, rawV3, rawSh, rawVSh, need, Raw.disp, memOf, gatherOf, dispOf, Raw.hdr, Raw.off34, Raw.imm28, hw])
theorem min (h : Hdr) (u : Bool) (d a b : SReg) : Statement (.min h u d a b) := by
  cases u <;>
  (intro r he hw; cases he; simp [decodeRaw, decScalar, rawOf, rawE, raw2, raw3, rawM, rawG, rawV2, rawV3, rawSh, rawVSh, need, Raw.disp, memOf, gatherOf, dispOf, Raw.hdr, Raw.off34, Raw.imm28, hw])
theorem max (h : Hdr) (u : Bool) (d a b : SReg) : Statement (.max h u d a b) := by
  cases u <;>
  (intro r he hw; cases he; simp [decodeRaw, decScalar, rawOf, rawE, raw2, raw3, rawM, rawG, rawV2, rawV3, rawSh, rawVSh, need, Raw.disp, memOf, gatherOf, dispOf, Raw.hdr, Raw.off34, Raw.imm28, hw])
theorem abs (h : Hdr) (d a : SReg) : Statement (.abs h d a) := by
  (intro r he hw; cases he; simp [decodeRaw, decScalar, rawOf, rawE, raw2, raw3, rawM, rawG, rawV2, rawV3, rawSh, rawVSh, need, Raw.disp, memOf, gatherOf, dispOf, Raw.hdr, Raw.off34, Raw.imm28, hw])
theorem clz (h : Hdr) (d a : SReg) : Statement (.clz h d a) := by
  (intro r he hw; cases he; simp [decodeRaw, decScalar, rawOf, rawE, raw2, raw3, rawM, rawG, rawV2, rawV3, rawSh, rawVSh, need, Raw.disp, memOf, gatherOf, dispOf, Raw.hdr, Raw.off34, Raw.imm28, hw])
theorem ctz (h : Hdr) (d a : SReg) : Statement (.ctz h d a) := by
  (intro r he hw; cases he; simp [decodeRaw, decScalar, rawOf, rawE, raw2, raw3, rawM, rawG, rawV2, rawV3, rawSh, rawVSh, need, Raw.disp, memOf, gatherOf, dispOf, Raw.hdr, Raw.off34, Raw.imm28, hw])
theorem popc (h : Hdr) (d a : SReg) : Statement (.popc h d a) := by
  (intro r he hw; cases he; simp [decodeRaw, decScalar, rawOf, rawE, raw2, raw3, rawM, rawG, rawV2, rawV3, rawSh, rawVSh, need, Raw.disp, memOf, gatherOf, dispOf, Raw.hdr, Raw.off34, Raw.imm28, hw])
theorem brev (h : Hdr) (d a : SReg) : Statement (.brev h d a) := by
  (intro r he hw; cases he; simp [decodeRaw, decScalar, rawOf, rawE, raw2, raw3, rawM, rawG, rawV2, rawV3, rawSh, rawVSh, need, Raw.disp, memOf, gatherOf, dispOf, Raw.hdr, Raw.off34, Raw.imm28, hw])
theorem bswap (h : Hdr) (d a : SReg) : Statement (.bswap h d a) := by
  (intro r he hw; cases he; simp [decodeRaw, decScalar, rawOf, rawE, raw2, raw3, rawM, rawG, rawV2, rawV3, rawSh, rawVSh, need, Raw.disp, memOf, gatherOf, dispOf, Raw.hdr, Raw.off34, Raw.imm28, hw])
theorem ext (h : Hdr) (sgn : Bool) (d a : SReg) (lo w1 : BitVec 6) : Statement (.ext h sgn d a lo w1) := by
  cases sgn <;>
  (intro r he hw; cases he; simp [decodeRaw, decScalar, rawOf, rawE, raw2, raw3, rawM, rawG, rawV2, rawV3, rawSh, rawVSh, need, Raw.disp, memOf, gatherOf, dispOf, Raw.hdr, Raw.off34, Raw.imm28, hw])
theorem ins (h : Hdr) (d a : SReg) (lo w1 : BitVec 6) : Statement (.ins h d a lo w1) := by
  (intro r he hw; cases he; simp [decodeRaw, decScalar, rawOf, rawE, raw2, raw3, rawM, rawG, rawV2, rawV3, rawSh, rawVSh, need, Raw.disp, memOf, gatherOf, dispOf, Raw.hdr, Raw.off34, Raw.imm28, hw])
theorem sel (h : Hdr) (d a b : SReg) (p : PReg) : Statement (.sel h d a b p) := by
  (intro r he hw; cases he; simp [decodeRaw, decScalar, rawOf, rawE, raw2, raw3, rawM, rawG, rawV2, rawV3, rawSh, rawVSh, need, Raw.disp, memOf, gatherOf, dispOf, Raw.hdr, Raw.off34, Raw.imm28, hw])
theorem mov (h : Hdr) (d a : SReg) : Statement (.mov h d a) := by
  (intro r he hw; cases he; simp [decodeRaw, decScalar, rawOf, rawE, raw2, raw3, rawM, rawG, rawV2, rawV3, rawSh, rawVSh, need, Raw.disp, memOf, gatherOf, dispOf, Raw.hdr, Raw.off34, Raw.imm28, hw])
theorem movi (h : Hdr) (d : SReg) (m : BitVec 28) : Statement (.movi h d m) := by
  (intro r he hw; cases he; simp [decodeRaw, decScalar, rawOf, rawE, raw2, raw3, rawM, rawG, rawV2, rawV3, rawSh, rawVSh, need, Raw.disp, memOf, gatherOf, dispOf, Raw.hdr, Raw.off34, Raw.imm28, hw])
theorem movwF96 (h : Hdr) (sx : Bool) (d : SReg) (m : BitVec 32) : Statement (.movwF96 h sx d m) := by
  cases sx <;>
  (intro r he hw; cases he; simp [decodeRaw, decScalar, rawOf, rawE, raw2, raw3, rawM, rawG, rawV2, rawV3, rawSh, rawVSh, need, Raw.disp, memOf, gatherOf, dispOf, Raw.hdr, Raw.off34, Raw.imm28, hw])
theorem movwF128 (h : Hdr) (d : SReg) (m : BitVec 64) : Statement (.movwF128 h d m) := by
  (intro r he hw; cases he; simp [decodeRaw, decScalar, rawOf, rawE, raw2, raw3, rawM, rawG, rawV2, rawV3, rawSh, rawVSh, need, Raw.disp, memOf, gatherOf, dispOf, Raw.hdr, Raw.off34, Raw.imm28, hw])
theorem lea (h : Hdr) (d : SReg) (m : MemOp) : Statement (.lea h d m) := by
  obtain ⟨mg, ma, mb, mk, mi⟩ := m <;> cases mi <;>
  (intro r he hw; cases he; simp [decodeRaw, decScalar, rawOf, rawE, raw2, raw3, rawM, rawG, rawV2, rawV3, rawSh, rawVSh, need, Raw.disp, memOf, gatherOf, dispOf, Raw.hdr, Raw.off34, Raw.imm28, hw])
theorem hash (h : Hdr) (d a b : SReg) : Statement (.hash h d a b) := by
  (intro r he hw; cases he; simp [decodeRaw, decScalar, rawOf, rawE, raw2, raw3, rawM, rawG, rawV2, rawV3, rawSh, rawVSh, need, Raw.disp, memOf, gatherOf, dispOf, Raw.hdr, Raw.off34, Raw.imm28, hw])
theorem cmp (h : Hdr) (c : Cond) (p : PReg) (a b : SReg) : Statement (.cmp h c p a b) := by
  (intro r he hw; cases he; simp [decodeRaw, decScalar, rawOf, rawE, raw2, raw3, rawM, rawG, rawV2, rawV3, rawSh, rawVSh, need, Raw.disp, memOf, gatherOf, dispOf, Raw.hdr, Raw.off34, Raw.imm28, hw])
theorem cmpi (h : Hdr) (c : Cond) (p : PReg) (a : SReg) (m : BitVec 28) : Statement (.cmpi h c p a m) := by
  (intro r he hw; cases he; simp [decodeRaw, decScalar, rawOf, rawE, raw2, raw3, rawM, rawG, rawV2, rawV3, rawSh, rawVSh, need, Raw.disp, memOf, gatherOf, dispOf, Raw.hdr, Raw.off34, Raw.imm28, hw])
theorem pand (h : Hdr) (ia ib : Bool) (d a b : PReg) : Statement (.pand h ia ib d a b) := by
  cases ia <;> cases ib <;>
  (intro r he hw; cases he; simp [decodeRaw, decScalar, rawOf, rawE, raw2, raw3, rawM, rawG, rawV2, rawV3, rawSh, rawVSh, need, Raw.disp, memOf, gatherOf, dispOf, Raw.hdr, Raw.off34, Raw.imm28, hw])
theorem por (h : Hdr) (ia ib : Bool) (d a b : PReg) : Statement (.por h ia ib d a b) := by
  cases ia <;> cases ib <;>
  (intro r he hw; cases he; simp [decodeRaw, decScalar, rawOf, rawE, raw2, raw3, rawM, rawG, rawV2, rawV3, rawSh, rawVSh, need, Raw.disp, memOf, gatherOf, dispOf, Raw.hdr, Raw.off34, Raw.imm28, hw])
theorem pxor (h : Hdr) (ia ib : Bool) (d a b : PReg) : Statement (.pxor h ia ib d a b) := by
  cases ia <;> cases ib <;>
  (intro r he hw; cases he; simp [decodeRaw, decScalar, rawOf, rawE, raw2, raw3, rawM, rawG, rawV2, rawV3, rawSh, rawVSh, need, Raw.disp, memOf, gatherOf, dispOf, Raw.hdr, Raw.off34, Raw.imm28, hw])
theorem pnot (h : Hdr) (d a : PReg) : Statement (.pnot h d a) := by
  (intro r he hw; cases he; simp [decodeRaw, decScalar, rawOf, rawE, raw2, raw3, rawM, rawG, rawV2, rawV3, rawSh, rawVSh, need, Raw.disp, memOf, gatherOf, dispOf, Raw.hdr, Raw.off34, Raw.imm28, hw])
theorem prd (h : Hdr) (d : SReg) : Statement (.prd h d) := by
  (intro r he hw; cases he; simp [decodeRaw, decScalar, rawOf, rawE, raw2, raw3, rawM, rawG, rawV2, rawV3, rawSh, rawVSh, need, Raw.disp, memOf, gatherOf, dispOf, Raw.hdr, Raw.off34, Raw.imm28, hw])
theorem pwr (h : Hdr) (a : SReg) : Statement (.pwr h a) := by
  (intro r he hw; cases he; simp [decodeRaw, decScalar, rawOf, rawE, raw2, raw3, rawM, rawG, rawV2, rawV3, rawSh, rawVSh, need, Raw.disp, memOf, gatherOf, dispOf, Raw.hdr, Raw.off34, Raw.imm28, hw])
theorem mfu (h : Hdr) (d : SReg) (num : BitVec 12) : Statement (.mfu h d num) := by
  (intro r he hw; cases he; simp [decodeRaw, decScalar, rawOf, rawE, raw2, raw3, rawM, rawG, rawV2, rawV3, rawSh, rawVSh, need, Raw.disp, memOf, gatherOf, dispOf, Raw.hdr, Raw.off34, Raw.imm28, hw])
theorem mtu (h : Hdr) (num : BitVec 12) (a : SReg) : Statement (.mtu h num a) := by
  (intro r he hw; cases he; simp [decodeRaw, decScalar, rawOf, rawE, raw2, raw3, rawM, rawG, rawV2, rawV3, rawSh, rawVSh, need, Raw.disp, memOf, gatherOf, dispOf, Raw.hdr, Raw.off34, Raw.imm28, hw])
theorem ld (h : Hdr) (sx : Bool) (d : SReg) (m : MemOp) (k : MKind) (sz : BitVec 2) : Statement (.ld h sx d m k sz) := by
  cases sx <;> obtain ⟨mg, ma, mb, mk, mi⟩ := m <;> cases mi <;> rcases k with _ | _ | ⟨mo, ms⟩ <;>
  (intro r he hw; cases he; simp [decodeRaw, decMemory, rawOf, rawE, raw2, raw3, rawM, rawG, rawV2, rawV3, rawSh, rawVSh, need, Raw.disp, memOf, gatherOf, dispOf, Raw.hdr, Raw.off34, Raw.imm28, hw])
theorem ldFe (h : Hdr) (sx : Bool) (d : SReg) (m : MemOp) (sz : BitVec 2) : Statement (.ldFe h sx d m sz) := by
  cases sx <;> obtain ⟨mg, ma, mb, mk, mi⟩ := m <;> cases mi <;>
  (intro r he hw; cases he; simp [decodeRaw, decMemory, rawOf, rawE, raw2, raw3, rawM, rawG, rawV2, rawV3, rawSh, rawVSh, need, Raw.disp, memOf, gatherOf, dispOf, Raw.hdr, Raw.off34, Raw.imm28, hw])
theorem ldFec (h : Hdr) (sx : Bool) (d : SReg) (m : MemOp) (sz : BitVec 2) : Statement (.ldFec h sx d m sz) := by
  cases sx <;> obtain ⟨mg, ma, mb, mk, mi⟩ := m <;> cases mi <;>
  (intro r he hw; cases he; simp [decodeRaw, decMemory, rawOf, rawE, raw2, raw3, rawM, rawG, rawV2, rawV3, rawSh, rawVSh, need, Raw.disp, memOf, gatherOf, dispOf, Raw.hdr, Raw.off34, Raw.imm28, hw])
theorem st (h : Hdr) (m : MemOp) (c : SReg) (k : MKind) (ftag : Option SReg) (sz : BitVec 2) : Statement (.st h m c k ftag sz) := by
  intro r he hw
  obtain ⟨mg, ma, mb, mk, mi⟩ := m
  cases ftag with
  | none => cases mi <;> rcases k with _ | _ | ⟨mo, ms⟩ <;> cases he <;> simp [decodeRaw, decMemory, rawOf, rawE, raw2, raw3, rawM, rawG, rawV2, rawV3, rawSh, rawVSh, need, Raw.disp, memOf, gatherOf, dispOf, Raw.hdr, Raw.off34, Raw.imm28, hw]
  | some t =>
    have hk : k = .plain := by cases k <;> simp_all [Instr.wf, MKind.stOk]
    subst hk
    cases mi <;> cases he <;> simp [decodeRaw, decMemory, rawOf, rawE, raw2, raw3, rawM, rawG, rawV2, rawV3, rawSh, rawVSh, need, Raw.disp, memOf, gatherOf, dispOf, Raw.hdr, Raw.off34, Raw.imm28, hw]
theorem ldv (h : Hdr) (d : VReg) (m : MemOp) (rp : Bool) (mk : MReg) : Statement (.ldv h d m rp mk) := by
  obtain ⟨mg, ma, mb, mk, mi⟩ := m <;> cases mi <;> cases rp <;>
  (intro r he hw; cases he; simp [decodeRaw, decMemory, rawOf, rawE, raw2, raw3, rawM, rawG, rawV2, rawV3, rawSh, rawVSh, need, Raw.disp, memOf, gatherOf, dispOf, Raw.hdr, Raw.off34, Raw.imm28, hw])
theorem stv (h : Hdr) (m : MemOp) (c : VReg) (rp : Bool) (ftag : Option SReg) (mk : MReg) : Statement (.stv h m c rp ftag mk) := by
  intro r he hw
  obtain ⟨mg, ma, mb, mk, mi⟩ := m
  cases ftag with
  | none => cases mi <;> cases rp <;> cases he <;> simp [decodeRaw, decMemory, rawOf, rawE, raw2, raw3, rawM, rawG, rawV2, rawV3, rawSh, rawVSh, need, Raw.disp, memOf, gatherOf, dispOf, Raw.hdr, Raw.off34, Raw.imm28, hw]
  | some t =>
    have hk : rp = false := by cases rp <;> simp_all [Instr.wf]
    subst hk
    cases mi <;> cases he <;> simp [decodeRaw, decMemory, rawOf, rawE, raw2, raw3, rawM, rawG, rawV2, rawV3, rawSh, rawVSh, need, Raw.disp, memOf, gatherOf, dispOf, Raw.hdr, Raw.off34, Raw.imm28, hw]
theorem vgath (h : Hdr) (d : VReg) (g : GatherOp) (rp dw : Bool) (mk : MReg) : Statement (.vgath h d g rp dw mk) := by
  obtain ⟨mg, ma, mb, mk, mi⟩ := g <;> cases mi <;> cases rp <;> cases dw <;>
  (intro r he hw; cases he; simp [decodeRaw, decMemory, rawOf, rawE, raw2, raw3, rawM, rawG, rawV2, rawV3, rawSh, rawVSh, need, Raw.disp, memOf, gatherOf, dispOf, Raw.hdr, Raw.off34, Raw.imm28, hw])
theorem vscat (h : Hdr) (g : GatherOp) (c : VReg) (rp dw : Bool) (mk : MReg) : Statement (.vscat h g c rp dw mk) := by
  obtain ⟨mg, ma, mb, mk, mi⟩ := g <;> cases mi <;> cases rp <;> cases dw <;>
  (intro r he hw; cases he; simp [decodeRaw, decMemory, rawOf, rawE, raw2, raw3, rawM, rawG, rawV2, rawV3, rawSh, rawVSh, need, Raw.disp, memOf, gatherOf, dispOf, Raw.hdr, Raw.off34, Raw.imm28, hw])
theorem amo (h : Hdr) (op : AmoOp) (d : Option SReg) (m : MemOp) (c : SReg) (o : Ord) (sc : Scope) (dw : Bool) : Statement (.amo h op d m c o sc dw) := by
  obtain ⟨mg, ma, mb, mk, mi⟩ := m <;> cases mi <;> cases dw <;>
  (intro r he hw; cases he; simp [decodeRaw, decMemory, rawOf, rawE, raw2, raw3, rawM, rawG, rawV2, rawV3, rawSh, rawVSh, need, Raw.disp, memOf, gatherOf, dispOf, Raw.hdr, Raw.off34, Raw.imm28, hw])
theorem cas (h : Hdr) (d : SReg) (m : MemOp) (c : SReg) (o : Ord) (sc : Scope) (dw : Bool) : Statement (.cas h d m c o sc dw) := by
  obtain ⟨mg, ma, mb, mk, mi⟩ := m <;> cases mi <;> cases dw <;>
  (intro r he hw; cases he; simp [decodeRaw, decMemory, rawOf, rawE, raw2, raw3, rawM, rawG, rawV2, rawV3, rawSh, rawVSh, need, Raw.disp, memOf, gatherOf, dispOf, Raw.hdr, Raw.off34, Raw.imm28, hw])
theorem fence (h : Hdr) (o : Ord) (sc : Scope) : Statement (.fence h o sc) := by
  (intro r he hw; cases he; simp [decodeRaw, decMemory, rawOf, rawE, raw2, raw3, rawM, rawG, rawV2, rawV3, rawSh, rawVSh, need, Raw.disp, memOf, gatherOf, dispOf, Raw.hdr, Raw.off34, Raw.imm28, hw])
theorem pref (h : Hdr) (m : MemOp) (slice : Bool) : Statement (.pref h m slice) := by
  obtain ⟨mg, ma, mb, mk, mi⟩ := m <;> cases mi <;> cases slice <;>
  (intro r he hw; cases he; simp [decodeRaw, decMemory, rawOf, rawE, raw2, raw3, rawM, rawG, rawV2, rawV3, rawSh, rawVSh, need, Raw.disp, memOf, gatherOf, dispOf, Raw.hdr, Raw.off34, Raw.imm28, hw])
theorem stpair (h : Hdr) (a b c : SReg) (seg segT : BitVec 3) (pp pt : BitVec 16) (w : Bool) : Statement (.stpair h a b c seg segT pp pt w) := by
  cases w <;>
  (intro r he hw; cases he; simp [decodeRaw, decMemory, rawOf, rawE, raw2, raw3, rawM, rawG, rawV2, rawV3, rawSh, rawVSh, need, Raw.disp, memOf, gatherOf, dispOf, Raw.hdr, Raw.off34, Raw.imm28, hw])
theorem feset (h : Hdr) (m : MemOp) : Statement (.feset h m) := by
  obtain ⟨mg, ma, mb, mk, mi⟩ := m <;> cases mi <;>
  (intro r he hw; cases he; simp [decodeRaw, decMemory, rawOf, rawE, raw2, raw3, rawM, rawG, rawV2, rawV3, rawSh, rawVSh, need, Raw.disp, memOf, gatherOf, dispOf, Raw.hdr, Raw.off34, Raw.imm28, hw])
theorem feclr (h : Hdr) (m : MemOp) : Statement (.feclr h m) := by
  obtain ⟨mg, ma, mb, mk, mi⟩ := m <;> cases mi <;>
  (intro r he hw; cases he; simp [decodeRaw, decMemory, rawOf, rawE, raw2, raw3, rawM, rawG, rawV2, rawV3, rawSh, rawVSh, need, Raw.disp, memOf, gatherOf, dispOf, Raw.hdr, Raw.off34, Raw.imm28, hw])
theorem vadd (h : Hdr) (ty : Ty) (r : Rnd) (d a b : VReg) (mk : MReg) : Statement (.vadd h ty r d a b mk) := by
  (intro r he hw; cases he; simp [decodeRaw, decVector, rawOf, rawE, raw2, raw3, rawM, rawG, rawV2, rawV3, rawSh, rawVSh, need, Raw.disp, memOf, gatherOf, dispOf, Raw.hdr, Raw.off34, Raw.imm28, hw])
theorem vsub (h : Hdr) (ty : Ty) (r : Rnd) (d a b : VReg) (mk : MReg) : Statement (.vsub h ty r d a b mk) := by
  (intro r he hw; cases he; simp [decodeRaw, decVector, rawOf, rawE, raw2, raw3, rawM, rawG, rawV2, rawV3, rawSh, rawVSh, need, Raw.disp, memOf, gatherOf, dispOf, Raw.hdr, Raw.off34, Raw.imm28, hw])
theorem vmul (h : Hdr) (ty : Ty) (r : Rnd) (d a b : VReg) (mk : MReg) : Statement (.vmul h ty r d a b mk) := by
  (intro r he hw; cases he; simp [decodeRaw, decVector, rawOf, rawE, raw2, raw3, rawM, rawG, rawV2, rawV3, rawSh, rawVSh, need, Raw.disp, memOf, gatherOf, dispOf, Raw.hdr, Raw.off34, Raw.imm28, hw])
theorem vdiv (h : Hdr) (ty : Ty) (r : Rnd) (d a b : VReg) (mk : MReg) : Statement (.vdiv h ty r d a b mk) := by
  (intro r he hw; cases he; simp [decodeRaw, decVector, rawOf, rawE, raw2, raw3, rawM, rawG, rawV2, rawV3, rawSh, rawVSh, need, Raw.disp, memOf, gatherOf, dispOf, Raw.hdr, Raw.off34, Raw.imm28, hw])
theorem vfma (h : Hdr) (ty : Ty) (r : Rnd) (d a b c : VReg) (mk : MReg) : Statement (.vfma h ty r d a b c mk) := by
  (intro r he hw; cases he; simp [decodeRaw, decVector, rawOf, rawE, raw2, raw3, rawM, rawG, rawV2, rawV3, rawSh, rawVSh, need, Raw.disp, memOf, gatherOf, dispOf, Raw.hdr, Raw.off34, Raw.imm28, hw])
theorem vfms (h : Hdr) (ty : Ty) (r : Rnd) (d a b c : VReg) (mk : MReg) : Statement (.vfms h ty r d a b c mk) := by
  (intro r he hw; cases he; simp [decodeRaw, decVector, rawOf, rawE, raw2, raw3, rawM, rawG, rawV2, rawV3, rawSh, rawVSh, need, Raw.disp, memOf, gatherOf, dispOf, Raw.hdr, Raw.off34, Raw.imm28, hw])
theorem vfnma (h : Hdr) (ty : Ty) (r : Rnd) (d a b c : VReg) (mk : MReg) : Statement (.vfnma h ty r d a b c mk) := by
  (intro r he hw; cases he; simp [decodeRaw, decVector, rawOf, rawE, raw2, raw3, rawM, rawG, rawV2, rawV3, rawSh, rawVSh, need, Raw.disp, memOf, gatherOf, dispOf, Raw.hdr, Raw.off34, Raw.imm28, hw])
theorem vsqrt (h : Hdr) (ty : Ty) (r : Rnd) (d a : VReg) (mk : MReg) : Statement (.vsqrt h ty r d a mk) := by
  (intro r he hw; cases he; simp [decodeRaw, decVector, rawOf, rawE, raw2, raw3, rawM, rawG, rawV2, rawV3, rawSh, rawVSh, need, Raw.disp, memOf, gatherOf, dispOf, Raw.hdr, Raw.off34, Raw.imm28, hw])
theorem vmin (h : Hdr) (ty : Ty) (d a b : VReg) (mk : MReg) : Statement (.vmin h ty d a b mk) := by
  (intro r he hw; cases he; simp [decodeRaw, decVector, rawOf, rawE, raw2, raw3, rawM, rawG, rawV2, rawV3, rawSh, rawVSh, need, Raw.disp, memOf, gatherOf, dispOf, Raw.hdr, Raw.off34, Raw.imm28, hw])
theorem vmax (h : Hdr) (ty : Ty) (d a b : VReg) (mk : MReg) : Statement (.vmax h ty d a b mk) := by
  (intro r he hw; cases he; simp [decodeRaw, decVector, rawOf, rawE, raw2, raw3, rawM, rawG, rawV2, rawV3, rawSh, rawVSh, need, Raw.disp, memOf, gatherOf, dispOf, Raw.hdr, Raw.off34, Raw.imm28, hw])
theorem vabs (h : Hdr) (ty : Ty) (d a : VReg) (mk : MReg) : Statement (.vabs h ty d a mk) := by
  (intro r he hw; cases he; simp [decodeRaw, decVector, rawOf, rawE, raw2, raw3, rawM, rawG, rawV2, rawV3, rawSh, rawVSh, need, Raw.disp, memOf, gatherOf, dispOf, Raw.hdr, Raw.off34, Raw.imm28, hw])
theorem vneg (h : Hdr) (ty : Ty) (d a : VReg) (mk : MReg) : Statement (.vneg h ty d a mk) := by
  (intro r he hw; cases he; simp [decodeRaw, decVector, rawOf, rawE, raw2, raw3, rawM, rawG, rawV2, rawV3, rawSh, rawVSh, need, Raw.disp, memOf, gatherOf, dispOf, Raw.hdr, Raw.off34, Raw.imm28, hw])
theorem vcmp (h : Hdr) (c : VCond) (ty : Ty) (d : MReg) (a b : VReg) (mk : MReg) : Statement (.vcmp h c ty d a b mk) := by
  (intro r he hw; cases he; simp [decodeRaw, decVector, rawOf, rawE, raw2, raw3, rawM, rawG, rawV2, rawV3, rawSh, rawVSh, need, Raw.disp, memOf, gatherOf, dispOf, Raw.hdr, Raw.off34, Raw.imm28, hw])
theorem vcvt (h : Hdr) (dty sty : Ty) (r : Rnd) (d a : VReg) (mk : MReg) : Statement (.vcvt h dty sty r d a mk) := by
  (intro r he hw; cases he; simp [decodeRaw, decVector, rawOf, rawE, raw2, raw3, rawM, rawG, rawV2, rawV3, rawSh, rawVSh, need, Raw.disp, memOf, gatherOf, dispOf, Raw.hdr, Raw.off34, Raw.imm28, hw])
theorem vpack (h : Hdr) (dty sty : Ty) (r : Rnd) (d a b : VReg) (mk : MReg) : Statement (.vpack h dty sty r d a b mk) := by
  (intro r he hw; cases he; simp [decodeRaw, decVector, rawOf, rawE, raw2, raw3, rawM, rawG, rawV2, rawV3, rawSh, rawVSh, need, Raw.disp, memOf, gatherOf, dispOf, Raw.hdr, Raw.off34, Raw.imm28, hw])
theorem vunpk (h : Hdr) (dty sty : Ty) (r : Rnd) (d a : VReg) (part : BitVec 6) (mk : MReg) : Statement (.vunpk h dty sty r d a part mk) := by
  (intro r he hw; cases he; simp [decodeRaw, decVector, rawOf, rawE, raw2, raw3, rawM, rawG, rawV2, rawV3, rawSh, rawVSh, need, Raw.disp, memOf, gatherOf, dispOf, Raw.hdr, Raw.off34, Raw.imm28, hw])
theorem vbxq (h : Hdr) (bx4 : Bool) (d a : VReg) (blk : BitVec 6) (c : VReg) : Statement (.vbxq h bx4 d a blk c) := by
  cases bx4 <;>
  (intro r he hw; cases he; simp [decodeRaw, decVector, rawOf, rawE, raw2, raw3, rawM, rawG, rawV2, rawV3, rawSh, rawVSh, need, Raw.disp, memOf, gatherOf, dispOf, Raw.hdr, Raw.off34, Raw.imm28, hw, x3])
theorem vbxd (h : Hdr) (dty : Ty) (bx4 : Bool) (r : Rnd) (d a : VReg) (blk : BitVec 6) (c : VReg) (mk : MReg) : Statement (.vbxd h dty bx4 r d a blk c mk) := by
  cases bx4 <;>
  (intro r he hw; cases he; simp [decodeRaw, decVector, rawOf, rawE, raw2, raw3, rawM, rawG, rawV2, rawV3, rawSh, rawVSh, need, Raw.disp, memOf, gatherOf, dispOf, Raw.hdr, Raw.off34, Raw.imm28, hw])
theorem vscale (h : Hdr) (ty : Ty) (r : Rnd) (d a b : VReg) (mk : MReg) : Statement (.vscale h ty r d a b mk) := by
  (intro r he hw; cases he; simp [decodeRaw, decVector, rawOf, rawE, raw2, raw3, rawM, rawG, rawV2, rawV3, rawSh, rawVSh, need, Raw.disp, memOf, gatherOf, dispOf, Raw.hdr, Raw.off34, Raw.imm28, hw])
theorem vred (h : Hdr) (op : RedOp) (ty : Ty) (r : Rnd) (d a : VReg) (mk : MReg) : Statement (.vred h op ty r d a mk) := by
  (intro r he hw; cases he; simp [decodeRaw, decVector, rawOf, rawE, raw2, raw3, rawM, rawG, rawV2, rawV3, rawSh, rawVSh, need, Raw.disp, memOf, gatherOf, dispOf, Raw.hdr, Raw.off34, Raw.imm28, hw])
theorem vsacc (h : Hdr) (dbl : Bool) (r : Rnd) (d : VReg) (a : SReg) (b c : VReg) (n1 : BitVec 2) (mk : MReg) : Statement (.vsacc h dbl r d a b c n1 mk) := by
  cases dbl <;>
  (intro r he hw; cases he; simp [decodeRaw, decVector, rawOf, rawE, raw2, raw3, rawM, rawG, rawV2, rawV3, rawSh, rawVSh, need, Raw.disp, memOf, gatherOf, dispOf, Raw.hdr, Raw.off34, Raw.imm28, hw])
theorem vbdot (h : Hdr) (ty : Ty) (r : Rnd) (bs : BlockSize) (st : ScaleTy) (d a b c : VReg) (mk : MReg) : Statement (.vbdot h ty r bs st d a b c mk) := by
  cases bs <;> cases st <;>
  (intro r he hw; cases he; simp [decodeRaw, decVector, rawOf, rawE, raw2, raw3, rawM, rawG, rawV2, rawV3, rawSh, rawVSh, need, Raw.disp, memOf, gatherOf, dispOf, Raw.hdr, Raw.off34, Raw.imm28, hw, bsOf, stOf, ScaleTy.code, BlockSize.code])
theorem viadd (h : Hdr) (sat : Bool) (ty : Ty) (d a b : VReg) (mk : MReg) : Statement (.viadd h sat ty d a b mk) := by
  cases sat <;>
  (intro r he hw; cases he; simp [decodeRaw, decVecInt, rawOf, rawE, raw2, raw3, rawM, rawG, rawV2, rawV3, rawSh, rawVSh, need, Raw.disp, memOf, gatherOf, dispOf, Raw.hdr, Raw.off34, Raw.imm28, hw])
theorem visub (h : Hdr) (sat : Bool) (ty : Ty) (d a b : VReg) (mk : MReg) : Statement (.visub h sat ty d a b mk) := by
  cases sat <;>
  (intro r he hw; cases he; simp [decodeRaw, decVecInt, rawOf, rawE, raw2, raw3, rawM, rawG, rawV2, rawV3, rawSh, rawVSh, need, Raw.disp, memOf, gatherOf, dispOf, Raw.hdr, Raw.off34, Raw.imm28, hw])
theorem vimul (h : Hdr) (hi : Bool) (ty : Ty) (d a b : VReg) (mk : MReg) : Statement (.vimul h hi ty d a b mk) := by
  cases hi <;>
  (intro r he hw; cases he; simp [decodeRaw, decVecInt, rawOf, rawE, raw2, raw3, rawM, rawG, rawV2, rawV3, rawSh, rawVSh, need, Raw.disp, memOf, gatherOf, dispOf, Raw.hdr, Raw.off34, Raw.imm28, hw])
theorem vand (h : Hdr) (ty : Ty) (d a b : VReg) (mk : MReg) : Statement (.vand h ty d a b mk) := by
  (intro r he hw; cases he; simp [decodeRaw, decVecInt, rawOf, rawE, raw2, raw3, rawM, rawG, rawV2, rawV3, rawSh, rawVSh, need, Raw.disp, memOf, gatherOf, dispOf, Raw.hdr, Raw.off34, Raw.imm28, hw])
theorem vor (h : Hdr) (ty : Ty) (d a b : VReg) (mk : MReg) : Statement (.vor h ty d a b mk) := by
  (intro r he hw; cases he; simp [decodeRaw, decVecInt, rawOf, rawE, raw2, raw3, rawM, rawG, rawV2, rawV3, rawSh, rawVSh, need, Raw.disp, memOf, gatherOf, dispOf, Raw.hdr, Raw.off34, Raw.imm28, hw])
theorem vxor (h : Hdr) (ty : Ty) (d a b : VReg) (mk : MReg) : Statement (.vxor h ty d a b mk) := by
  (intro r he hw; cases he; simp [decodeRaw, decVecInt, rawOf, rawE, raw2, raw3, rawM, rawG, rawV2, rawV3, rawSh, rawVSh, need, Raw.disp, memOf, gatherOf, dispOf, Raw.hdr, Raw.off34, Raw.imm28, hw])
theorem vshl (h : Hdr) (ty : Ty) (d a : VReg) (n : VAmt) (mk : MReg) : Statement (.vshl h ty d a n mk) := by
  cases n <;>
  (intro r he hw; cases he; simp [decodeRaw, decVecInt, rawOf, rawE, raw2, raw3, rawM, rawG, rawV2, rawV3, rawSh, rawVSh, need, Raw.disp, memOf, gatherOf, dispOf, Raw.hdr, Raw.off34, Raw.imm28, hw])
theorem vshr (h : Hdr) (ty : Ty) (d a : VReg) (n : VAmt) (mk : MReg) : Statement (.vshr h ty d a n mk) := by
  cases n <;>
  (intro r he hw; cases he; simp [decodeRaw, decVecInt, rawOf, rawE, raw2, raw3, rawM, rawG, rawV2, rawV3, rawSh, rawVSh, need, Raw.disp, memOf, gatherOf, dispOf, Raw.hdr, Raw.off34, Raw.imm28, hw])
theorem vsar (h : Hdr) (ty : Ty) (d a : VReg) (n : VAmt) (mk : MReg) : Statement (.vsar h ty d a n mk) := by
  cases n <;>
  (intro r he hw; cases he; simp [decodeRaw, decVecInt, rawOf, rawE, raw2, raw3, rawM, rawG, rawV2, rawV3, rawSh, rawVSh, need, Raw.disp, memOf, gatherOf, dispOf, Raw.hdr, Raw.off34, Raw.imm28, hw])
theorem vimin (h : Hdr) (ty : Ty) (d a b : VReg) (mk : MReg) : Statement (.vimin h ty d a b mk) := by
  (intro r he hw; cases he; simp [decodeRaw, decVecInt, rawOf, rawE, raw2, raw3, rawM, rawG, rawV2, rawV3, rawSh, rawVSh, need, Raw.disp, memOf, gatherOf, dispOf, Raw.hdr, Raw.off34, Raw.imm28, hw])
theorem vimax (h : Hdr) (ty : Ty) (d a b : VReg) (mk : MReg) : Statement (.vimax h ty d a b mk) := by
  (intro r he hw; cases he; simp [decodeRaw, decVecInt, rawOf, rawE, raw2, raw3, rawM, rawG, rawV2, rawV3, rawSh, rawVSh, need, Raw.disp, memOf, gatherOf, dispOf, Raw.hdr, Raw.off34, Raw.imm28, hw])
theorem vperm (h : Hdr) (ty : Ty) (d a b : VReg) (mk : MReg) : Statement (.vperm h ty d a b mk) := by
  (intro r he hw; cases he; simp [decodeRaw, decVecInt, rawOf, rawE, raw2, raw3, rawM, rawG, rawV2, rawV3, rawSh, rawVSh, need, Raw.disp, memOf, gatherOf, dispOf, Raw.hdr, Raw.off34, Raw.imm28, hw])
theorem vbcast (h : Hdr) (ty : Ty) (d : VReg) (a : SReg) (mk : MReg) : Statement (.vbcast h ty d a mk) := by
  (intro r he hw; cases he; simp [decodeRaw, decVecInt, rawOf, rawE, raw2, raw3, rawM, rawG, rawV2, rawV3, rawSh, rawVSh, need, Raw.disp, memOf, gatherOf, dispOf, Raw.hdr, Raw.off34, Raw.imm28, hw])
theorem vsel (h : Hdr) (ty : Ty) (d a b : VReg) (mk : MReg) : Statement (.vsel h ty d a b mk) := by
  (intro r he hw; cases he; simp [decodeRaw, decVecInt, rawOf, rawE, raw2, raw3, rawM, rawG, rawV2, rawV3, rawSh, rawVSh, need, Raw.disp, memOf, gatherOf, dispOf, Raw.hdr, Raw.off34, Raw.imm28, hw])
theorem vmov (h : Hdr) (ty : Ty) (d a : VReg) (mk : MReg) : Statement (.vmov h ty d a mk) := by
  (intro r he hw; cases he; simp [decodeRaw, decVecInt, rawOf, rawE, raw2, raw3, rawM, rawG, rawV2, rawV3, rawSh, rawVSh, need, Raw.disp, memOf, gatherOf, dispOf, Raw.hdr, Raw.off34, Raw.imm28, hw])
theorem vmovTos (h : Hdr) (ty : Ty) (d : SReg) (a : VReg) (e : BitVec 6) : Statement (.vmovTos h ty d a e) := by
  (intro r he hw; cases he; simp [decodeRaw, decVecInt, rawOf, rawE, raw2, raw3, rawM, rawG, rawV2, rawV3, rawSh, rawVSh, need, Raw.disp, memOf, gatherOf, dispOf, Raw.hdr, Raw.off34, Raw.imm28, hw])
theorem vmovTov (h : Hdr) (ty : Ty) (d : VReg) (a : SReg) (e : BitVec 6) : Statement (.vmovTov h ty d a e) := by
  (intro r he hw; cases he; simp [decodeRaw, decVecInt, rawOf, rawE, raw2, raw3, rawM, rawG, rawV2, rawV3, rawSh, rawVSh, need, Raw.disp, memOf, gatherOf, dispOf, Raw.hdr, Raw.off34, Raw.imm28, hw])
theorem vidx (h : Hdr) (ty : Ty) (d : VReg) (mk : MReg) : Statement (.vidx h ty d mk) := by
  (intro r he hw; cases he; simp [decodeRaw, decVecInt, rawOf, rawE, raw2, raw3, rawM, rawG, rawV2, rawV3, rawSh, rawVSh, need, Raw.disp, memOf, gatherOf, dispOf, Raw.hdr, Raw.off34, Raw.imm28, hw])
theorem mand (h : Hdr) (d a b : MReg) : Statement (.mand h d a b) := by
  (intro r he hw; cases he; simp [decodeRaw, decVecInt, rawOf, rawE, raw2, raw3, rawM, rawG, rawV2, rawV3, rawSh, rawVSh, need, Raw.disp, memOf, gatherOf, dispOf, Raw.hdr, Raw.off34, Raw.imm28, hw])
theorem mor (h : Hdr) (d a b : MReg) : Statement (.mor h d a b) := by
  (intro r he hw; cases he; simp [decodeRaw, decVecInt, rawOf, rawE, raw2, raw3, rawM, rawG, rawV2, rawV3, rawSh, rawVSh, need, Raw.disp, memOf, gatherOf, dispOf, Raw.hdr, Raw.off34, Raw.imm28, hw])
theorem morFs (h : Hdr) (d : MReg) (a : SReg) : Statement (.morFs h d a) := by
  (intro r he hw; cases he; simp [decodeRaw, decVecInt, rawOf, rawE, raw2, raw3, rawM, rawG, rawV2, rawV3, rawSh, rawVSh, need, Raw.disp, memOf, gatherOf, dispOf, Raw.hdr, Raw.off34, Raw.imm28, hw])
theorem mnot (h : Hdr) (d a : MReg) : Statement (.mnot h d a) := by
  (intro r he hw; cases he; simp [decodeRaw, decVecInt, rawOf, rawE, raw2, raw3, rawM, rawG, rawV2, rawV3, rawSh, rawVSh, need, Raw.disp, memOf, gatherOf, dispOf, Raw.hdr, Raw.off34, Raw.imm28, hw])
theorem mpopc (h : Hdr) (d : SReg) (a : MReg) : Statement (.mpopc h d a) := by
  (intro r he hw; cases he; simp [decodeRaw, decVecInt, rawOf, rawE, raw2, raw3, rawM, rawG, rawV2, rawV3, rawSh, rawVSh, need, Raw.disp, memOf, gatherOf, dispOf, Raw.hdr, Raw.off34, Raw.imm28, hw])
theorem mpopcRaw (h : Hdr) (d : SReg) (a : MReg) : Statement (.mpopcRaw h d a) := by
  (intro r he hw; cases he; simp [decodeRaw, decVecInt, rawOf, rawE, raw2, raw3, rawM, rawG, rawV2, rawV3, rawSh, rawVSh, need, Raw.disp, memOf, gatherOf, dispOf, Raw.hdr, Raw.off34, Raw.imm28, hw])
theorem embpool (h : Hdr) (ty : Ty) (r : Rnd) (d : VReg) (seg : BitVec 3) (a : Option SReg) (b c : SReg) (lg : BitVec 6) : Statement (.embpool h ty r d seg a b c lg) := by
  (intro r he hw; cases he; simp [decodeRaw, decVecInt, rawOf, rawE, raw2, raw3, rawM, rawG, rawV2, rawV3, rawSh, rawVSh, need, Raw.disp, memOf, gatherOf, dispOf, Raw.hdr, Raw.off34, Raw.imm28, hw])
theorem embupd (h : Hdr) (ty : Ty) (r : Rnd) (d : SReg) (seg : BitVec 3) (a : Option SReg) (b : SReg) (c : VReg) (lg : BitVec 6) : Statement (.embupd h ty r d seg a b c lg) := by
  (intro r he hw; cases he; simp [decodeRaw, decVecInt, rawOf, rawE, raw2, raw3, rawM, rawG, rawV2, rawV3, rawSh, rawVSh, need, Raw.disp, memOf, gatherOf, dispOf, Raw.hdr, Raw.off34, Raw.imm28, hw])
theorem oclaim (h : Hdr) (d : SReg) (n1 : BitVec 5) : Statement (.oclaim h d n1) := by
  (intro r he hw; cases he; simp [decodeRaw, decMatrix, rawOf, rawE, raw2, raw3, rawM, rawG, rawV2, rawV3, rawSh, rawVSh, need, Raw.disp, memOf, gatherOf, dispOf, Raw.hdr, Raw.off34, Raw.imm28, hw])
theorem oclaimM (h : Hdr) (d a : SReg) : Statement (.oclaimM h d a) := by
  (intro r he hw; cases he; simp [decodeRaw, decMatrix, rawOf, rawE, raw2, raw3, rawM, rawG, rawV2, rawV3, rawSh, rawVSh, need, Raw.disp, memOf, gatherOf, dispOf, Raw.hdr, Raw.off34, Raw.imm28, hw])
theorem oclaimServe (core : Nat) : Statement (.oclaimServe core) := by
  intro r he; simp [encode] at he
theorem orelease (h : Hdr) (a : SReg) : Statement (.orelease h a) := by
  (intro r he hw; cases he; simp [decodeRaw, decMatrix, rawOf, rawE, raw2, raw3, rawM, rawG, rawV2, rawV3, rawSh, rawVSh, need, Raw.disp, memOf, gatherOf, dispOf, Raw.hdr, Raw.off34, Raw.imm28, hw])
theorem ofill (h : Hdr) (d c : SReg) (m : MemOp) : Statement (.ofill h d c m) := by
  obtain ⟨mg, ma, mb, mk, mi⟩ := m <;> cases mi <;>
  (intro r he hw; cases he; simp [decodeRaw, decMatrix, rawOf, rawE, raw2, raw3, rawM, rawG, rawV2, rawV3, rawSh, rawVSh, need, Raw.disp, memOf, gatherOf, dispOf, Raw.hdr, Raw.off34, Raw.imm28, hw])
theorem ofillS (h : Hdr) (d c : SReg) (b : BitVec 3) : Statement (.ofillS h d c b) := by
  (intro r he hw; cases he; simp [decodeRaw, decMatrix, rawOf, rawE, raw2, raw3, rawM, rawG, rawV2, rawV3, rawSh, rawVSh, need, Raw.disp, memOf, gatherOf, dispOf, Raw.hdr, Raw.off34, Raw.imm28, hw])
theorem wlatch (h : Hdr) (ty : Ty) (slot : BitVec 5) : Statement (.wlatch h ty slot) := by
  (intro r he hw; cases he; simp [decodeRaw, decMatrix, rawOf, rawE, raw2, raw3, rawM, rawG, rawV2, rawV3, rawSh, rawVSh, need, Raw.disp, memOf, gatherOf, dispOf, Raw.hdr, Raw.off34, Raw.imm28, hw])
theorem mma (h : Hdr) (ty : Ty) (mode : MmaMode) (a b : SReg) (slot : BitVec 5) (cnt1 : BitVec 9) : Statement (.mma h ty mode a b slot cnt1) := by
  cases mode <;>
  (intro r he hw; cases he; simp [decodeRaw, decMatrix, rawOf, rawE, raw2, raw3, rawM, rawG, rawV2, rawV3, rawSh, rawVSh, need, Raw.disp, memOf, gatherOf, dispOf, Raw.hdr, Raw.off34, Raw.imm28, hw, mmaModeOf, MmaMode.code])
theorem arrayPerform (core : Nat) : Statement (.arrayPerform core) := by
  intro r he; simp [encode] at he
theorem accz (h : Hdr) (a b : SReg) : Statement (.accz h a b) := by
  (intro r he hw; cases he; simp [decodeRaw, decMatrix, rawOf, rawE, raw2, raw3, rawM, rawG, rawV2, rawV3, rawSh, rawVSh, need, Raw.disp, memOf, gatherOf, dispOf, Raw.hdr, Raw.off34, Raw.imm28, hw])
theorem accrd (h : Hdr) (half : Option Bool) (d : VReg) (a : SReg) (mk : MReg) : Statement (.accrd h half d a mk) := by
  rcases half with _ | _ | _ <;>
  (intro r he hw; cases he; simp [decodeRaw, decMatrix, rawOf, rawE, raw2, raw3, rawM, rawG, rawV2, rawV3, rawSh, rawVSh, need, Raw.disp, memOf, gatherOf, dispOf, Raw.hdr, Raw.off34, Raw.imm28, hw])
theorem accwr (h : Hdr) (half : Option Bool) (a : SReg) (c : VReg) (mk : MReg) : Statement (.accwr h half a c mk) := by
  rcases half with _ | _ | _ <;>
  (intro r he hw; cases he; simp [decodeRaw, decMatrix, rawOf, rawE, raw2, raw3, rawM, rawG, rawV2, rawV3, rawSh, rawVSh, need, Raw.disp, memOf, gatherOf, dispOf, Raw.hdr, Raw.off34, Raw.imm28, hw])
theorem mstat (h : Hdr) (d : SReg) : Statement (.mstat h d) := by
  (intro r he hw; cases he; simp [decodeRaw, decMatrix, rawOf, rawE, raw2, raw3, rawM, rawG, rawV2, rawV3, rawSh, rawVSh, need, Raw.disp, memOf, gatherOf, dispOf, Raw.hdr, Raw.off34, Raw.imm28, hw])
theorem mstatPeek (h : Hdr) (d : SReg) : Statement (.mstatPeek h d) := by
  (intro r he hw; cases he; simp [decodeRaw, decMatrix, rawOf, rawE, raw2, raw3, rawM, rawG, rawV2, rawV3, rawSh, rawVSh, need, Raw.disp, memOf, gatherOf, dispOf, Raw.hdr, Raw.off34, Raw.imm28, hw])
theorem pbind (h : Hdr) (name : PName) (out fwd : Bool) (p : PortSel) : Statement (.pbind h name out fwd p) := by
  cases out <;> cases fwd <;> rcases p with ⟨pg, pa, _ | pi⟩ | ⟨_ | _, _ | _⟩ | ⟨pq, _ | _⟩ | ⟨pn, _ | _⟩ <;>
  (intro r he hw; cases he; simp [decodeRaw, decMatrix, rawOf, rawE, raw2, raw3, rawM, rawG, rawV2, rawV3, rawSh, rawVSh, need, Raw.disp, memOf, gatherOf, dispOf, Raw.hdr, Raw.off34, Raw.imm28, hw])
theorem punbind (h : Hdr) (name : PName) : Statement (.punbind h name) := by
  (intro r he hw; cases he; simp [decodeRaw, decMatrix, rawOf, rawE, raw2, raw3, rawM, rawG, rawV2, rawV3, rawSh, rawVSh, need, Raw.disp, memOf, gatherOf, dispOf, Raw.hdr, Raw.off34, Raw.imm28, hw])
theorem pdrain (h : Hdr) (d : SReg) (name : PName) : Statement (.pdrain h d name) := by
  (intro r he hw; cases he; simp [decodeRaw, decMatrix, rawOf, rawE, raw2, raw3, rawM, rawG, rawV2, rawV3, rawSh, rawVSh, need, Raw.disp, memOf, gatherOf, dispOf, Raw.hdr, Raw.off34, Raw.imm28, hw])
theorem streamElementRead (core name : Nat) : Statement (.streamElementRead core name) := by
  intro r he; simp [encode] at he
theorem streamElementWrite (core name : Nat) : Statement (.streamElementWrite core name) := by
  intro r he; simp [encode] at he
theorem spopenIn (h : Hdr) (port : BitVec 2) : Statement (.spopenIn h port) := by
  (intro r he hw; cases he; simp [decodeRaw, decMatrix, rawOf, rawE, raw2, raw3, rawM, rawG, rawV2, rawV3, rawSh, rawVSh, need, Raw.disp, memOf, gatherOf, dispOf, Raw.hdr, Raw.off34, Raw.imm28, hw])
theorem spopenOut (h : Hdr) (d a b : SReg) (port : BitVec 2) : Statement (.spopenOut h d a b port) := by
  (intro r he hw; cases he; simp [decodeRaw, decMatrix, rawOf, rawE, raw2, raw3, rawM, rawG, rawV2, rawV3, rawSh, rawVSh, need, Raw.disp, memOf, gatherOf, dispOf, Raw.hdr, Raw.off34, Raw.imm28, hw])
theorem spopenLand (h : Hdr) (a b : SReg) (port : BitVec 2) : Statement (.spopenLand h a b port) := by
  (intro r he hw; cases he; simp [decodeRaw, decMatrix, rawOf, rawE, raw2, raw3, rawM, rawG, rawV2, rawV3, rawSh, rawVSh, need, Raw.disp, memOf, gatherOf, dispOf, Raw.hdr, Raw.off34, Raw.imm28, hw])
theorem spclose (h : Hdr) (port : BitVec 2) : Statement (.spclose h port) := by
  (intro r he hw; cases he; simp [decodeRaw, decMatrix, rawOf, rawE, raw2, raw3, rawM, rawG, rawV2, rawV3, rawSh, rawVSh, need, Raw.disp, memOf, gatherOf, dispOf, Raw.hdr, Raw.off34, Raw.imm28, hw])
theorem networkElementLand (core port : Nat) : Statement (.networkElementLand core port) := by
  intro r he; simp [encode] at he
theorem closingFlit (core port : Nat) : Statement (.closingFlit core port) := by
  intro r he; simp [encode] at he
theorem trset (h : Hdr) (tr : BitVec 2) (m : MemOp) : Statement (.trset h tr m) := by
  obtain ⟨mg, ma, mb, mk, mi⟩ := m <;> cases mi <;>
  (intro r he hw; cases he; simp [decodeRaw, decKeys, rawOf, rawE, raw2, raw3, rawM, rawG, rawV2, rawV3, rawSh, rawVSh, need, Raw.disp, memOf, gatherOf, dispOf, Raw.hdr, Raw.off34, Raw.imm28, hw])
theorem kacc (h : Hdr) (ty : Ty) (r : Rnd) (a : SReg) (c : VReg) (tree : BitVec 2) (node : BitVec 4) (e0 e1 : BitVec 16) (mk : MReg) : Statement (.kacc h ty r a c tree node e0 e1 mk) := by
  (intro r he hw; cases he; simp [decodeRaw, decKeys, rawOf, rawE, raw2, raw3, rawM, rawG, rawV2, rawV3, rawSh, rawVSh, need, Raw.disp, memOf, gatherOf, dispOf, Raw.hdr, Raw.off34, Raw.imm28, hw])
theorem keyTableApply (core idx : Nat) : Statement (.keyTableApply core idx) := by
  intro r he; simp [encode] at he
theorem kget (h : Hdr) (ty : Ty) (r : Rnd) (d : VReg) (a : SReg) (p : PReg) (c : Option SReg) (tree : BitVec 2) (node : BitVec 4) : Statement (.kget h ty r d a p c tree node) := by
  (intro r he hw; cases he; simp [decodeRaw, decKeys, rawOf, rawE, raw2, raw3, rawM, rawG, rawV2, rawV3, rawSh, rawVSh, need, Raw.disp, memOf, gatherOf, dispOf, Raw.hdr, Raw.off34, Raw.imm28, hw])
theorem kprobe (h : Hdr) (p : PReg) (a : SReg) (tree : BitVec 2) (node : BitVec 4) : Statement (.kprobe h p a tree node) := by
  (intro r he hw; cases he; simp [decodeRaw, decKeys, rawOf, rawE, raw2, raw3, rawM, rawG, rawV2, rawV3, rawSh, rawVSh, need, Raw.disp, memOf, gatherOf, dispOf, Raw.hdr, Raw.off34, Raw.imm28, hw])
theorem kput (h : Hdr) (ty : Ty) (r : Rnd) (a : SReg) (b : Option SReg) (c : VReg) (tree : BitVec 2) (node : BitVec 4) : Statement (.kput h ty r a b c tree node) := by
  (intro r he hw; cases he; simp [decodeRaw, decKeys, rawOf, rawE, raw2, raw3, rawM, rawG, rawV2, rawV3, rawSh, rawVSh, need, Raw.disp, memOf, gatherOf, dispOf, Raw.hdr, Raw.off34, Raw.imm28, hw])
theorem kdel (h : Hdr) (a : SReg) (tree : BitVec 2) (node : BitVec 4) : Statement (.kdel h a tree node) := by
  (intro r he hw; cases he; simp [decodeRaw, decKeys, rawOf, rawE, raw2, raw3, rawM, rawG, rawV2, rawV3, rawSh, rawVSh, need, Raw.disp, memOf, gatherOf, dispOf, Raw.hdr, Raw.off34, Raw.imm28, hw])
theorem kmerge (h : Hdr) (a : SReg) (tree : BitVec 2) (node : BitVec 4) : Statement (.kmerge h a tree node) := by
  (intro r he hw; cases he; simp [decodeRaw, decKeys, rawOf, rawE, raw2, raw3, rawM, rawG, rawV2, rawV3, rawSh, rawVSh, need, Raw.disp, memOf, gatherOf, dispOf, Raw.hdr, Raw.off34, Raw.imm28, hw])
theorem kscan (h : Hdr) (d a c : SReg) (tree : BitVec 2) (node : BitVec 4) : Statement (.kscan h d a c tree node) := by
  (intro r he hw; cases he; simp [decodeRaw, decKeys, rawOf, rawE, raw2, raw3, rawM, rawG, rawV2, rawV3, rawSh, rawVSh, need, Raw.disp, memOf, gatherOf, dispOf, Raw.hdr, Raw.off34, Raw.imm28, hw])
theorem hpos (h : Hdr) (d a : SReg) (sp : BitVec 4) : Statement (.hpos h d a sp) := by
  (intro r he hw; cases he; simp [decodeRaw, decKeys, rawOf, rawE, raw2, raw3, rawM, rawG, rawV2, rawV3, rawSh, rawVSh, need, Raw.disp, memOf, gatherOf, dispOf, Raw.hdr, Raw.off34, Raw.imm28, hw])
theorem bindpos (h : Hdr) (a b : SReg) : Statement (.bindpos h a b) := by
  (intro r he hw; cases he; simp [decodeRaw, decKeys, rawOf, rawE, raw2, raw3, rawM, rawG, rawV2, rawV3, rawSh, rawVSh, need, Raw.disp, memOf, gatherOf, dispOf, Raw.hdr, Raw.off34, Raw.imm28, hw])
theorem posset (h : Hdr) (a : SReg) : Statement (.posset h a) := by
  (intro r he hw; cases he; simp [decodeRaw, decKeys, rawOf, rawE, raw2, raw3, rawM, rawG, rawV2, rawV3, rawSh, rawVSh, need, Raw.disp, memOf, gatherOf, dispOf, Raw.hdr, Raw.off34, Raw.imm28, hw])
theorem handOver (record : Nat) : Statement (.handOver record) := by
  intro r he; simp [encode] at he
theorem migrCore (h : Hdr) (a : SReg) : Statement (.migrCore h a) := by
  (intro r he hw; cases he; simp [decodeRaw, decKeys, rawOf, rawE, raw2, raw3, rawM, rawG, rawV2, rawV3, rawSh, rawVSh, need, Raw.disp, memOf, gatherOf, dispOf, Raw.hdr, Raw.off34, Raw.imm28, hw])
theorem migrAddr (h : Hdr) (a : SReg) : Statement (.migrAddr h a) := by
  (intro r he hw; cases he; simp [decodeRaw, decKeys, rawOf, rawE, raw2, raw3, rawM, rawG, rawV2, rawV3, rawSh, rawVSh, need, Raw.disp, memOf, gatherOf, dispOf, Raw.hdr, Raw.off34, Raw.imm28, hw])
theorem unbind (h : Hdr) : Statement (.unbind h) := by
  (intro r he hw; cases he; simp [decodeRaw, decKeys, rawOf, rawE, raw2, raw3, rawM, rawG, rawV2, rawV3, rawSh, rawVSh, need, Raw.disp, memOf, gatherOf, dispOf, Raw.hdr, Raw.off34, Raw.imm28, hw])
theorem nbrS (h : Hdr) (d : PName) (a b c : SReg) (l2 xself : Bool) : Statement (.nbrS h d a b c l2 xself) := by
  cases l2 <;> cases xself <;>
  (intro r he hw; cases he
   have hv : d.vec = false := by have h2 := hw; simp only [Instr.wf, Bool.and_eq_true, Bool.not_eq_true'] at h2; exact h2.2
   simp [decodeRaw, decKeys, rawOf, rawE, raw2, raw3, rawM, rawG, rawV2, rawV3, rawSh, rawVSh, need, Raw.disp, memOf, gatherOf, dispOf, Raw.hdr, Raw.off34, Raw.imm28, hw, hv])
theorem nbrBuf (h : Hdr) (d a b c : SReg) (l2 xself : Bool) (cap : BitVec 16) : Statement (.nbrBuf h d a b c l2 xself cap) := by
  cases l2 <;> cases xself <;>
  (intro r he hw; cases he; simp [decodeRaw, decKeys, rawOf, rawE, raw2, raw3, rawM, rawG, rawV2, rawV3, rawSh, rawVSh, need, Raw.disp, memOf, gatherOf, dispOf, Raw.hdr, Raw.off34, Raw.imm28, hw])
theorem cqput (h : Hdr) (d a : SReg) (c : VReg) (seg : BitVec 3) (nk : Bool) : Statement (.cqput h d a c seg nk) := by
  cases nk <;>
  (intro r he hw; cases he; simp [decodeRaw, decKeys, rawOf, rawE, raw2, raw3, rawM, rawG, rawV2, rawV3, rawSh, rawVSh, need, Raw.disp, memOf, gatherOf, dispOf, Raw.hdr, Raw.off34, Raw.imm28, hw])
theorem hwaitFree (h : Hdr) (n : BitVec 8) : Statement (.hwaitFree h n) := by
  (intro r he hw; cases he; simp [decodeRaw, decKeys, rawOf, rawE, raw2, raw3, rawM, rawG, rawV2, rawV3, rawSh, rawVSh, need, Raw.disp, memOf, gatherOf, dispOf, Raw.hdr, Raw.off34, Raw.imm28, hw])
theorem hwaitFull (h : Hdr) (n : BitVec 8) : Statement (.hwaitFull h n) := by
  (intro r he hw; cases he; simp [decodeRaw, decKeys, rawOf, rawE, raw2, raw3, rawM, rawG, rawV2, rawV3, rawSh, rawVSh, need, Raw.disp, memOf, gatherOf, dispOf, Raw.hdr, Raw.off34, Raw.imm28, hw])
theorem hwaitTake (h : Hdr) (n : BitVec 8) : Statement (.hwaitTake h n) := by
  (intro r he hw; cases he; simp [decodeRaw, decKeys, rawOf, rawE, raw2, raw3, rawM, rawG, rawV2, rawV3, rawSh, rawVSh, need, Raw.disp, memOf, gatherOf, dispOf, Raw.hdr, Raw.off34, Raw.imm28, hw])
theorem hstate (h : Hdr) (d : SReg) (n : BitVec 8) : Statement (.hstate h d n) := by
  (intro r he hw; cases he; simp [decodeRaw, decKeys, rawOf, rawE, raw2, raw3, rawM, rawG, rawV2, rawV3, rawSh, rawVSh, need, Raw.disp, memOf, gatherOf, dispOf, Raw.hdr, Raw.off34, Raw.imm28, hw])
theorem hfree (h : Hdr) (n : BitVec 8) : Statement (.hfree h n) := by
  (intro r he hw; cases he; simp [decodeRaw, decKeys, rawOf, rawE, raw2, raw3, rawM, rawG, rawV2, rawV3, rawSh, rawVSh, need, Raw.disp, memOf, gatherOf, dispOf, Raw.hdr, Raw.off34, Raw.imm28, hw])
theorem copyPacketTake (cluster binding : Nat) : Statement (.copyPacketTake cluster binding) := by
  intro r he; simp [encode] at he
theorem copyGranuleWrite (cluster copy : Nat) : Statement (.copyGranuleWrite cluster copy) := by
  intro r he; simp [encode] at he
theorem copyCompletion (cluster copy : Nat) : Statement (.copyCompletion cluster copy) := by
  intro r he; simp [encode] at he
theorem tierEntryIssue (tag id : Nat) : Statement (.tierEntryIssue tag id) := by
  intro r he; simp [encode] at he
theorem tierEntryComplete (tag id : Nat) : Statement (.tierEntryComplete tag id) := by
  intro r he; simp [encode] at he
theorem sretRetry (h : Hdr) (a : SReg) (en : Bool) : Statement (.sretRetry h a en) := by
  cases en <;>
  (intro r he hw; cases he; simp [decodeRaw, decSystem, rawOf, rawE, raw2, raw3, rawM, rawG, rawV2, rawV3, rawSh, rawVSh, need, Raw.disp, memOf, gatherOf, dispOf, Raw.hdr, Raw.off34, Raw.imm28, hw])
theorem sretNext (h : Hdr) (a : SReg) (en : Bool) : Statement (.sretNext h a en) := by
  cases en <;>
  (intro r he hw; cases he; simp [decodeRaw, decSystem, rawOf, rawE, raw2, raw3, rawM, rawG, rawV2, rawV3, rawSh, rawVSh, need, Raw.disp, memOf, gatherOf, dispOf, Raw.hdr, Raw.off34, Raw.imm28, hw])
theorem sretTo (h : Hdr) (a b : SReg) (en : Bool) : Statement (.sretTo h a b en) := by
  cases en <;>
  (intro r he hw; cases he; simp [decodeRaw, decSystem, rawOf, rawE, raw2, raw3, rawM, rawG, rawV2, rawV3, rawSh, rawVSh, need, Raw.disp, memOf, gatherOf, dispOf, Raw.hdr, Raw.off34, Raw.imm28, hw])
theorem sretKill (h : Hdr) (a : SReg) (en : Bool) : Statement (.sretKill h a en) := by
  cases en <;>
  (intro r he hw; cases he; simp [decodeRaw, decSystem, rawOf, rawE, raw2, raw3, rawM, rawG, rawV2, rawV3, rawSh, rawVSh, need, Raw.disp, memOf, gatherOf, dispOf, Raw.hdr, Raw.off34, Raw.imm28, hw])
theorem mfs (h : Hdr) (d : SReg) (num : BitVec 12) : Statement (.mfs h d num) := by
  (intro r he hw; cases he; simp [decodeRaw, decSystem, rawOf, rawE, raw2, raw3, rawM, rawG, rawV2, rawV3, rawSh, rawVSh, need, Raw.disp, memOf, gatherOf, dispOf, Raw.hdr, Raw.off34, Raw.imm28, hw])
theorem mts (h : Hdr) (num : BitVec 12) (a : SReg) : Statement (.mts h num a) := by
  (intro r he hw; cases he; simp [decodeRaw, decSystem, rawOf, rawE, raw2, raw3, rawM, rawG, rawV2, rawV3, rawSh, rawVSh, need, Raw.disp, memOf, gatherOf, dispOf, Raw.hdr, Raw.off34, Raw.imm28, hw])
theorem segld (h : Hdr) (g : BitVec 3) (m : MemOp) : Statement (.segld h g m) := by
  obtain ⟨mg, ma, mb, mk, mi⟩ := m <;> cases mi <;>
  (intro r he hw; cases he; simp [decodeRaw, decSystem, rawOf, rawE, raw2, raw3, rawM, rawG, rawV2, rawV3, rawSh, rawVSh, need, Raw.disp, memOf, gatherOf, dispOf, Raw.hdr, Raw.off34, Raw.imm28, hw])
theorem accsave (h : Hdr) (d c : SReg) (m : MemOp) : Statement (.accsave h d c m) := by
  obtain ⟨mg, ma, mb, mk, mi⟩ := m <;> cases mi <;>
  (intro r he hw; cases he; simp [decodeRaw, decSystem, rawOf, rawE, raw2, raw3, rawM, rawG, rawV2, rawV3, rawSh, rawVSh, need, Raw.disp, memOf, gatherOf, dispOf, Raw.hdr, Raw.off34, Raw.imm28, hw])
theorem accload (h : Hdr) (d c : SReg) (m : MemOp) : Statement (.accload h d c m) := by
  obtain ⟨mg, ma, mb, mk, mi⟩ := m <;> cases mi <;>
  (intro r he hw; cases he; simp [decodeRaw, decSystem, rawOf, rawE, raw2, raw3, rawM, rawG, rawV2, rawV3, rawSh, rawVSh, need, Raw.disp, memOf, gatherOf, dispOf, Raw.hdr, Raw.off34, Raw.imm28, hw])
theorem ctxoutCore (h : Hdr) (d a b : SReg) : Statement (.ctxoutCore h d a b) := by
  (intro r he hw; cases he; simp [decodeRaw, decSystem, rawOf, rawE, raw2, raw3, rawM, rawG, rawV2, rawV3, rawSh, rawVSh, need, Raw.disp, memOf, gatherOf, dispOf, Raw.hdr, Raw.off34, Raw.imm28, hw])
theorem ctxoutMem (h : Hdr) (d a b : SReg) : Statement (.ctxoutMem h d a b) := by
  (intro r he hw; cases he; simp [decodeRaw, decSystem, rawOf, rawE, raw2, raw3, rawM, rawG, rawV2, rawV3, rawSh, rawVSh, need, Raw.disp, memOf, gatherOf, dispOf, Raw.hdr, Raw.off34, Raw.imm28, hw])
theorem ctxin (h : Hdr) (d a b : SReg) : Statement (.ctxin h d a b) := by
  (intro r he hw; cases he; simp [decodeRaw, decSystem, rawOf, rawE, raw2, raw3, rawM, rawG, rawV2, rawV3, rawSh, rawVSh, need, Raw.disp, memOf, gatherOf, dispOf, Raw.hdr, Raw.off34, Raw.imm28, hw])
theorem xlinvVa (h : Hdr) (a b : SReg) (pkg : Bool) : Statement (.xlinvVa h a b pkg) := by
  cases pkg <;>
  (intro r he hw; cases he; simp [decodeRaw, decSystem, rawOf, rawE, raw2, raw3, rawM, rawG, rawV2, rawV3, rawSh, rawVSh, need, Raw.disp, memOf, gatherOf, dispOf, Raw.hdr, Raw.off34, Raw.imm28, hw])
theorem xlinvTag (h : Hdr) (a b : SReg) (pkg : Bool) : Statement (.xlinvTag h a b pkg) := by
  cases pkg <;>
  (intro r he hw; cases he; simp [decodeRaw, decSystem, rawOf, rawE, raw2, raw3, rawM, rawG, rawV2, rawV3, rawSh, rawVSh, need, Raw.disp, memOf, gatherOf, dispOf, Raw.hdr, Raw.off34, Raw.imm28, hw])
theorem xlinvAll (h : Hdr) (a b : SReg) (pkg : Bool) : Statement (.xlinvAll h a b pkg) := by
  cases pkg <;>
  (intro r he hw; cases he; simp [decodeRaw, decSystem, rawOf, rawE, raw2, raw3, rawM, rawG, rawV2, rawV3, rawSh, rawVSh, need, Raw.disp, memOf, gatherOf, dispOf, Raw.hdr, Raw.off34, Raw.imm28, hw])
theorem rtswap (h : Hdr) (d a b : SReg) : Statement (.rtswap h d a b) := by
  (intro r he hw; cases he; simp [decodeRaw, decSystem, rawOf, rawE, raw2, raw3, rawM, rawG, rawV2, rawV3, rawSh, rawVSh, need, Raw.disp, memOf, gatherOf, dispOf, Raw.hdr, Raw.off34, Raw.imm28, hw])
theorem haltWait (h : Hdr) : Statement (.haltWait h) := by
  (intro r he hw; cases he; simp [decodeRaw, decSystem, rawOf, rawE, raw2, raw3, rawM, rawG, rawV2, rawV3, rawSh, rawVSh, need, Raw.disp, memOf, gatherOf, dispOf, Raw.hdr, Raw.off34, Raw.imm28, hw])
theorem haltStop (h : Hdr) : Statement (.haltStop h) := by
  (intro r he hw; cases he; simp [decodeRaw, decSystem, rawOf, rawE, raw2, raw3, rawM, rawG, rawV2, rawV3, rawSh, rawVSh, need, Raw.disp, memOf, gatherOf, dispOf, Raw.hdr, Raw.off34, Raw.imm28, hw])
theorem rdstate (h : Hdr) (d a b : SReg) : Statement (.rdstate h d a b) := by
  (intro r he hw; cases he; simp [decodeRaw, decSystem, rawOf, rawE, raw2, raw3, rawM, rawG, rawV2, rawV3, rawSh, rawVSh, need, Raw.disp, memOf, gatherOf, dispOf, Raw.hdr, Raw.off34, Raw.imm28, hw])
theorem sysmsg (h : Hdr) (a c : SReg) : Statement (.sysmsg h a c) := by
  (intro r he hw; cases he; simp [decodeRaw, decSystem, rawOf, rawE, raw2, raw3, rawM, rawG, rawV2, rawV3, rawSh, rawVSh, need, Raw.disp, memOf, gatherOf, dispOf, Raw.hdr, Raw.off34, Raw.imm28, hw])
theorem longResultReturn (core slot idx : Nat) : Statement (.longResultReturn core slot idx) := by
  intro r he; simp [encode] at he
theorem journalEntrySend (core idx : Nat) : Statement (.journalEntrySend core idx) := by
  intro r he; simp [encode] at he
theorem postedWritePerform (core idx : Nat) : Statement (.postedWritePerform core idx) := by
  intro r he; simp [encode] at he
theorem journalAck (core idx : Nat) : Statement (.journalAck core idx) := by
  intro r he; simp [encode] at he
theorem trapEntry (core slot : Nat) : Statement (.trapEntry core slot) := by
  intro r he; simp [encode] at he
theorem supervisorRequestTake (core : Nat) : Statement (.supervisorRequestTake core) := by
  intro r he; simp [encode] at he
theorem systemMessageTake (core : Nat) : Statement (.systemMessageTake core) := by
  intro r he; simp [encode] at he
theorem wakeMove (core aid : Nat) : Statement (.wakeMove core aid) := by
  intro r he; simp [encode] at he
theorem lightSlotTake (core slot : Nat) : Statement (.lightSlotTake core slot) := by
  intro r he; simp [encode] at he
theorem stealServe (core slot : Nat) : Statement (.stealServe core slot) := by
  intro r he; simp [encode] at he
theorem stealRetry (core slot : Nat) : Statement (.stealRetry core slot) := by
  intro r he; simp [encode] at he
theorem lightDeparture (core aid : Nat) : Statement (.lightDeparture core aid) := by
  intro r he; simp [encode] at he
theorem lightArrival (aid : Nat) : Statement (.lightArrival aid) := by
  intro r he; simp [encode] at he
theorem messageHandlerStart (core : Nat) : Statement (.messageHandlerStart core) := by
  intro r he; simp [encode] at he
theorem launchRequest (part : Nat) : Statement (.launchRequest part) := by
  intro r he; simp [encode] at he
theorem launchStart (part : Nat) : Statement (.launchStart part) := by
  intro r he; simp [encode] at he
theorem launchCompletion (tag : Nat) : Statement (.launchCompletion tag) := by
  intro r he; simp [encode] at he
theorem faultEntryWait (cluster : Nat) : Statement (.faultEntryWait cluster) := by
  intro r he; simp [encode] at he
theorem updateSequence (remote : Option RemoteUpd) : Statement (.updateSequence remote) := by
  intro r he; simp [encode] at he
theorem updateMailboxWrite (n : Nat) : Statement (.updateMailboxWrite n) := by
  intro r he; simp [encode] at he
theorem bastingForward (core idx : Nat) : Statement (.bastingForward core idx) := by
  intro r he; simp [encode] at he
theorem bounceAppend (core idx : Nat) : Statement (.bounceAppend core idx) := by
  intro r he; simp [encode] at he
theorem memoryTraining (ok : Bool) : Statement (.memoryTraining ok) := by
  intro r he; simp [encode] at he
theorem clusterResetDone (cluster : Nat) : Statement (.clusterResetDone cluster) := by
  intro r he; simp [encode] at he
theorem updateApply  : Statement (.updateApply) := by
  intro r he; simp [encode] at he
theorem packageResetRelease  : Statement (.packageResetRelease) := by
  intro r he; simp [encode] at he
theorem firmwareStart  : Statement (.firmwareStart) := by
  intro r he; simp [encode] at he
theorem bupReady  : Statement (.bupReady) := by
  intro r he; simp [encode] at he
theorem powerTransition  : Statement (.powerTransition) := by
  intro r he; simp [encode] at he
theorem extend  : Statement (.extend) := by
  intro r he; simp [encode] at he
theorem token  : Statement (.token) := by
  intro r he; simp [encode] at he
theorem quote  : Statement (.quote) := by
  intro r he; simp [encode] at he
theorem readKeys  : Statement (.readKeys) := by
  intro r he; simp [encode] at he
theorem readMeasurements  : Statement (.readMeasurements) := by
  intro r he; simp [encode] at he
theorem faultReply (cluster n : Nat) (value : Dword) : Statement (.faultReply cluster n value) := by
  intro r he; simp [encode] at he
theorem migrationMarker (sender old : Nat) : Statement (.migrationMarker sender old) := by
  intro r he; simp [encode] at he
theorem crst (cluster : Nat) (value : Dword) : Statement (.crst cluster value) := by
  intro r he; simp [encode] at he
theorem partitionTableWrite (off : Nat) (value : Dword) : Statement (.partitionTableWrite off value) := by
  intro r he; simp [encode] at he
theorem translationBlockWrite (off : Nat) (value : Dword) : Statement (.translationBlockWrite off value) := by
  intro r he; simp [encode] at he
theorem linkFailure (dieA dieB : Nat) : Statement (.linkFailure dieA dieB) := by
  intro r he; simp [encode] at he
theorem packageLostFence (rank : Nat) : Statement (.packageLostFence rank) := by
  intro r he; simp [encode] at he
theorem hostAccess (wr : Bool) (addr size : Nat) (value : Dword) : Statement (.hostAccess wr addr size value) := by
  intro r he; simp [encode] at he
theorem hint (value : Dword) : Statement (.hint value) := by
  intro r he; simp [encode] at he
theorem nvmeMsix (port addr : Nat) (data : Dword) : Statement (.nvmeMsix port addr data) := by
  intro r he; simp [encode] at he
theorem errorLogConfigWrite (die off : Nat) (value : Dword) : Statement (.errorLogConfigWrite die off value) := by
  intro r he; simp [encode] at he
theorem coreReset (core : Nat) : Statement (.coreReset core) := by
  intro r he; simp [encode] at he
theorem dbgWrite (value : Dword) : Statement (.dbgWrite value) := by
  intro r he; simp [encode] at he
theorem preqWrite (value : Dword) : Statement (.preqWrite value) := by
  intro r he; simp [encode] at he
theorem mgmtRead (off : Nat) : Statement (.mgmtRead off) := by
  intro r he; simp [encode] at he
theorem mgmtWrite (off : Nat) (value : Dword) : Statement (.mgmtWrite off value) := by
  intro r he; simp [encode] at he
theorem mgmtReadback (sel idx : Dword) : Statement (.mgmtReadback sel idx) := by
  intro r he; simp [encode] at he
theorem registerWrite (addr : Nat) (value : Dword) : Statement (.registerWrite addr value) := by
  intro r he; simp [encode] at he
theorem bastingEntryRetire (cluster idx : Nat) : Statement (.bastingEntryRetire cluster idx) := by
  intro r he; simp [encode] at he
theorem nvmeControllerDma (port : Nat) (wr : Bool) (addr size : Nat) (data : Dword) : Statement (.nvmeControllerDma port wr addr size data) := by
  intro r he; simp [encode] at he
theorem peerPackageAccess (rank : Nat) (op : PeerOp) (addr size : Nat) (data : Dword) :
    Statement (.peerPackageAccess rank op addr size data) := by
  intro r he; simp [encode] at he
theorem lamvanBlockWrite (off : Nat) (value : Dword) : Statement (.lamvanBlockWrite off value) := by
  intro r he; simp [encode] at he
theorem entdaa (addr : BitVec 7) : Statement (.entdaa addr) := by
  intro r he; simp [encode] at he

end Sys2Proof.Laws.RoundTrip
end

