-- ==== Sys2Proof/Laws/Run.lean ====
section
/-!
SUPPORT. The course of an instruction, said once: what `runS` answers when the instruction of the current slot issues, that popping
sources issues nothing, and that the operations of an instruction that posts at most pushes perform without an exception.
-/

namespace Sys2Proof.Machine

variable {s s1 : State} {c : Cx} {o : Op} {aid : Nat}

/-! ### Issue -/

/-- What `State.takes` has checked. -/
theorem takes_cases (h : s.takes o = some c) :
    s.occ s.cur.1 s.cur.2 = some c.aid ∧ (o.first && !(s.th c.aid).outst.isEmpty) = false ∧
      (s.th c.aid).isOut (.p o.h.grd) = false ∧ (s.th c.aid).guardHolds o.h = true ∧ s.opExc c.aid s.cur.2 o = none ∧
      s.mustWait c.aid o = false ∧ s.roomFor c.aid o.wr = true ∧ s.pushFaults c.aid o.wr = none ∧
      (∀ x ∈ (s.th c.aid).outst, x.seq ≠ (s.th c.aid).seq) ∧ s.prefetch c.aid [] o.srcs = .ok () c.s0 ∧
      ∃ us, c.s0.sources c.aid o.rd = .got c.vals us c.s ∧
        c = ⟨c.s0, c.s, s.cur.1, s.cur.2, c.aid, (s.th c.aid).pc, (s.th c.aid).pc + BitVec.ofNat 64 o.len, c.vals,
          { c.s0.save c.aid with undo := us }⟩ := by
  unfold State.takes at h
  split at h
  · simp at h
  · rename_i aid hocc
    dsimp only at h
    split at h
    · simp at h
    · rename_i hn
      simp only [Bool.or_eq_true, not_or, Bool.not_eq_true, Option.isSome_eq_false_iff,
        Option.isNone_iff_eq_none, List.any_eq_false, beq_iff_eq, Bool.not_eq_eq_eq_not] at hn
      obtain ⟨⟨⟨⟨⟨⟨⟨h1, h2⟩, h3⟩, h4⟩, h5⟩, h6⟩, h7⟩, h8⟩ := hn
      split at h
      · rename_i s0 hp
        split at h
        · rename_i vs us s2 hs
          simp only [Option.some.injEq] at h
          subst h
          exact ⟨hocc, h1, h2, by simpa using h3, h4, h5, by simpa using h6, h7, h8, hp, us, hs, rfl⟩
        · simp at h
      · simp at h

/-- An instruction that issues ends as its body does. -/
theorem runS_taken (body : Cx → R) (h : s.takes o = some c) :
    runS o body s = .next ((body c).close c.s0 c.aid c.npc o.h.sw) := by
  obtain ⟨h0, h1, h2, h3, h4, h5, h6, h7, -, hp, us, hs, hc⟩ := takes_cases h
  have hn : c.npc = (s.th c.aid).pc + BitVec.ofNat 64 o.len := congrArg Cx.npc hc
  simp only [runS, h0, runAt, h1, h2, h3, h4, runBody, h5, h6, h7, hp, hs, ← hc, hn]
  simp

/-- What an instruction posted has performed, as the course of the instruction runs it. -/
theorem posted_ok {c : Cx} {t u : State} (h : c.posted t = some u) : t.runPosts c.aid (c.s0.th c.aid).seq 64 = .ok u := by
  unfold Cx.posted at h
  generalize t.runPosts c.aid (c.s0.th c.aid).seq 64 = r at h
  cases r with
  | ok v => rw [Option.some.inj h]
  | error e => cases h

/-- An instruction whose body completes ends with what it posted performed. -/
theorem completes_of {i : Instr} {p : Cx → Bool} {f : Cx → State} {body : Cx → R} (he : exec i = runS o body)
    (hb : ∀ c, p c = true → body c = .ok (f c)) (hp : ∀ (s : State) c, s.takes o = some c → p c = true → ∃ t, c.posted (f c) = some t) :
    Completes i o p f := by
  intro s c h k
  obtain ⟨t, ht⟩ := hp s c h k
  refine ⟨t, ht, ?_⟩
  rw [he, runS_taken body h, hb c k]
  simp only [R.close, State.complete, posted_ok ht]

/-- An instruction whose body raises leaves nothing of itself. -/
theorem raises_of {i : Instr} {p : Cx → Bool} {e : Cx → Exc} {body : Cx → R} (he : exec i = runS o body)
    (hb : ∀ c, p c = true → body c = .exc (e c)) : Raises i o p e := by
  intro s c h k
  rw [he, runS_taken body h, hb c k]
  rfl

/-! ### What an operation issues -/

/-- Places in issue order and operations of a thread's pending set. -/
def Thread.issued (t : Thread) : List (Nat × Nat × LongOp) := t.outst.map (fun o => (o.seq, o.sub, o.op))

/-- The second state differs from the first in what no thread has issued: every thread keeps its place in issue order and the
operations of its pending set. -/
def Issues0 (s t : State) : Prop := ∀ a, (t.th a).issued = (s.th a).issued ∧ (t.th a).seq = (s.th a).seq

theorem Issues0.rfl : Issues0 s s := fun _ => ⟨Eq.refl _, Eq.refl _⟩

theorem Issues0.trans {s t u : State} (h : Issues0 s t) (k : Issues0 t u) : Issues0 s u :=
  fun a => ⟨(k a).1.trans (h a).1, (k a).2.trans (h a).2⟩

theorem issues0_of_threads {s t : State} (h : t.threads = s.threads) : Issues0 s t := fun a => by
  simp only [State.th, h, and_self]

theorem SameSync.issues0 {s t : State} (h : SameSync s t) : Issues0 s t := fun a => by
  obtain ⟨r, hr⟩ := h.threads a
  rw [hr]; exact ⟨Eq.refl _, Eq.refl _⟩

theorem modCore_issues0 (k : Nat) (f : Core → Core) : Issues0 s (s.modCore k f) := issues0_of_threads rfl

/-- A change of a thread that leaves its place and its pending set. -/
theorem modTh_issues0 (a : Nat) (f : Thread → Thread) (hf : ∀ t, (f t).issued = t.issued ∧ (f t).seq = t.seq) :
    Issues0 s (s.modTh a f) := fun b => by
  by_cases h : a = b
  · subst h; rw [modTh_th_same]; exact hf _
  · rw [modTh_th_ne _ _ _ _ h]; exact ⟨Eq.refl _, Eq.refl _⟩

theorem record_issues0 (a q : Nat) (u : Undo) : Issues0 s (s.record a q u) := by
  unfold State.record
  split
  · exact Issues0.rfl
  · refine modTh_issues0 _ _ (fun t => ⟨?_, Eq.refl _⟩)
    simp only [Thread.issued, List.map_map]
    refine List.map_congr_left (fun x _ => ?_)
    simp only [Function.comp]
    split <;> exact Eq.refl _

theorem placeFor_issues0 {p : Place} (a : Nat) (va : Dword) (n : Nat) (nd : Need) (at_ : Bool)
    (h : s.placeFor a va n nd at_ = .ok p s1) : Issues0 s s1 := by
  have k := issues0_of_threads (reachTh_same s a va n nd).threads
  unfold State.placeFor at h
  dsimp only at h
  split at h
  · rename_i e
    rw [e] at k
    split at h <;> cases h; exact k
  · rename_i e
    rw [e] at k
    split at h <;> cases h; exact k
  all_goals cases h

theorem forwardRead_issues0 (k : Nat) (p : Place) (n : Nat) : Issues0 s (s.forwardRead k p n) := by
  unfold State.forwardRead
  split
  · exact Issues0.rfl
  · refine issues0_of_threads ?_
    generalize List.range _ = l
    induction l generalizing s with
    | nil => rfl
    | cons x l ih =>
      rw [List.foldl_cons, ih]
      dsimp only
      split
      · rfl
      · split <;> rfl

theorem plainRead_issues0 {v : Nat} (a k : Nat) (rp : Bool) (p : Place) (n : Nat)
    (h : s.plainRead a k rp p n = .ok (v, s1)) : Issues0 s s1 := by
  have base : ∀ (x : State) (v : Nat) (y : State),
      (match x.touch (.thread a) false false p n with
        | .error e => .error e
        | .ok s1 => .ok (s1.readVal (some k) rp p n, (s1.cachePlain (some k) false rp (p.words n)).forwardRead k p n) :
          Except (WordKey × Stamp) (Nat × State)) = .ok (v, y) → Issues0 x y := by
    intro x v y h
    split at h
    · cases h
    · rename_i z hz
      cases h
      exact (touch_same x _ _ _ _ _ z hz).sync.issues0.trans
        ((cachePlain_same z _ _ _ _).sync.issues0.trans (forwardRead_issues0 _ _ _))
  unfold State.plainRead State.load at h
  dsimp only at h
  split at h
  · exact base s v s1 h
  · simp only [Except.map] at h
    split at h
    · cases h
    · rename_i e he
      cases h
      exact ((acquire_same s _ _ _).sync.issues0.trans (base _ e.1 e.2 he)).trans
        ((acquired_sync _ _).issues0.trans (endRegion_same _ _).sync.issues0)

theorem consume_issues0 : Issues0 s s.consume := by
  refine issues0_of_threads ?_
  unfold State.consume
  generalize s.fwd.filter _ = l
  induction l generalizing s with
  | nil => rfl
  | cons x l ih => rw [List.foldl_cons, ih]

/-- Reading ahead issues nothing (R102). -/
theorem fillAhead_issues0 (a : Nat) (n : PName) (m k : Nat) (h : s.fillAhead a n m k = .ok () s1) : Issues0 s s1 := by
  induction k generalizing s s1 with
  | zero => unfold State.fillAhead at h; cases h; exact Issues0.rfl
  | succ k ih =>
    unfold State.fillAhead at h
    split at h
    · cases h; exact Issues0.rfl
    · split at h
      · dsimp only at h
        split at h
        · cases h; exact Issues0.rfl
        · split at h
          · cases h
          · split at h
            · cases h
            · cases h
            · cases h
            · rename_i e
              refine Issues0.trans (Issues0.trans (Issues0.trans ?_ (modCore_issues0 _ _)) consume_issues0) (ih h)
              unfold State.elemRead at e
              dsimp only at e
              split at e
              · cases e
              · cases e
              · cases e
              · rename_i p s3 ep
                split at e
                · cases e
                · rename_i v s4 er
                  cases e
                  exact (placeFor_issues0 _ _ _ _ _ ep).trans (plainRead_issues0 _ _ _ _ _ er)
      · cases h; exact Issues0.rfl

theorem prefetch_issues0 (a : Nat) (past ns : List Nm) (h : s.prefetch a past ns = .ok () s1) : Issues0 s s1 := by
  induction ns generalizing s s1 past with
  | nil => unfold State.prefetch at h; cases h; exact Issues0.rfl
  | cons n ns ih =>
    unfold State.prefetch at h
    split at h
    · split at h
      · exact ih _ h
      · split at h
        · cases h
        · dsimp only at h
          split at h
          · rename_i e; exact (fillAhead_issues0 _ _ _ _ e).trans (ih _ h)
          · rename_i x; exact absurd h (by intro hx; exact x _ _ hx)
    · exact ih _ h

/-- A state in which every thread stands at its place in issue order, and has issued besides nothing but what forwarding pops push on,
after everything else of the instruction (R105). -/
def Forwards (s t : State) : Prop := ∀ a, (t.th a).seq = (s.th a).seq ∧ ∀ x ∈ (t.th a).issued, x ∈ (s.th a).issued ∨
  (x.1 = (s.th a).seq ∧ lateSub < x.2.1 ∧ ∃ p w v, x.2.2 = .post (.push p w v))

theorem Issues0.forwards {s t : State} (h : Issues0 s t) : Forwards s t :=
  fun a => ⟨(h a).2, fun x hx => .inl (by rw [← (h a).1]; exact hx)⟩

theorem Forwards.trans {s t u : State} (h : Forwards s t) (k : Forwards t u) : Forwards s u := fun a =>
  ⟨(k a).1.trans (h a).1, fun x hx => by
    rcases (k a).2 x hx with h1 | h1
    · exact (h a).2 x h1
    · exact .inr ⟨h1.1.trans (h a).1, h1.2⟩⟩

/-- What a forwarding pop pushes on. -/
theorem postFwd_forwards (a : Nat) (p : PortKind) (w : Bool) (v : Vec) : Forwards s (s.postFwd a p w v) := fun b => by
  by_cases h : a = b
  · subst h
    simp only [State.postFwd, modTh_th_same, Thread.issued, List.map_append, List.mem_append, List.map_cons, List.map_nil,
      List.mem_singleton]
    refine ⟨True.intro, fun x hx => hx.imp id (fun hx => ?_)⟩
    subst hx
    exact ⟨rfl, by dsimp only; omega, _, _, _, rfl⟩
  · rw [State.postFwd, modTh_th_ne _ _ _ _ h]
    exact ⟨rfl, fun x hx => .inl hx⟩

theorem popEntry_issues0 (a q : Nat) (w : Bool) (l : List QEnt) (u : QEnt → Undo) (f : List QEnt → State → State) {v : Vec}
    (hf : ∀ r x, Issues0 x (f r x)) (h : s.popEntry a q w l u f = .got v s1) : Issues0 s s1 := by
  unfold State.popEntry at h
  split at h
  · cases h
  · split at h
    · cases h
    · cases h
      exact ((hf _ _).trans (record_issues0 _ _ _)).trans (syncFrom_sync _ _ _).issues0

/-- A pop issues nothing but what it pushes on. -/
theorem pop_forwards (b : Binding) (q : Nat) {v : Vec} (h : s.pop b q = .got v s1) : Forwards s s1 := by
  have mc : ∀ (k : Nat) (f : Core → Core) (x : State), Issues0 x (x.modCore k f) := fun _ _ _ => modCore_issues0 _ _
  unfold State.pop at h
  dsimp only at h
  split at h
  · split at h
    · cases h
    · split at h
      · cases h
      · cases h; exact (mc _ _ _).forwards
  · split at h
    · cases h
    · split at h
      · rename_i v1 s2 e
        have k : Issues0 s s2 := popEntry_issues0 _ _ _ _ _ _ (fun _ _ => mc _ _ _) e
        cases h
        split
        · exact k.forwards.trans (postFwd_forwards _ _ _ _)
        · exact k.forwards
      · rename_i x; exact absurd h (by intro hx; exact x _ _ hx)
  · exact (popEntry_issues0 _ _ _ _ _ _ (fun _ _ => mc _ _ _) h).forwards
  · split at h
    · exact (popEntry_issues0 _ _ _ _ _ _ (fun _ _ => mc _ _ _) h).forwards
    · cases h

/-- Reading the sources issues nothing but what forwarding pops push on (R40, R105). -/
theorem sources_forwards (a : Nat) (ns : List Nm) {vs : List Src} {us : List Undo}
    (h : s.sources a ns = .got vs us s1) : Forwards s s1 := by
  induction ns generalizing s s1 vs us with
  | nil => unfold State.sources at h; cases h; exact Issues0.rfl.forwards
  | cons n ns ih =>
    unfold State.sources at h
    split at h
    · split at h
      · rename_i e; cases h; exact ih e
      · rename_i x; exact absurd h (by intro hx; exact x _ _ _ hx)
    · split at h
      · cases h
      · cases h
      · cases h
      · rename_i e
        split at h
        · rename_i e2; cases h; exact (pop_forwards _ _ e).trans (ih e2)
        · rename_i x; exact absurd h (by intro hx; exact x _ _ _ hx)

/-! ### What an instruction posted -/

/-- With no operation of place `q` in the pending set, nothing is left to perform. -/
theorem runPosts_none (q n : Nat) (h : ∀ x ∈ (s.th aid).outst, x.seq ≠ q) : s.runPosts aid q n = .ok s := by
  cases n with
  | zero => rfl
  | succ n =>
    have hf : (s.th aid).outst.filter (fun o => o.seq == q && o.op.isPost) = [] := by
      rw [List.filter_eq_nil_iff]
      intro x hx
      simp [h x hx]
    unfold State.runPosts Thread.nextPost
    rw [hf]
    rfl

/-- With no operation of the instruction in the pending set, nothing is left to perform. -/
theorem posted_of_none {t : State} (h : ∀ x ∈ (t.th c.aid).outst, x.seq ≠ (c.s0.th c.aid).seq) : c.posted t = some t := by
  unfold Cx.posted
  rw [runPosts_none _ _ h]

/-- What stands in a sorted list was in the list. -/
theorem mem_sortBy {α : Type} (key : α → Nat) (l : List α) (x : α) (h : x ∈ sortBy key l) : x ∈ l := by
  have ins : ∀ (l : List α) (y : α), x ∈ insertBy key y l → x = y ∨ x ∈ l := by
    intro l
    induction l with
    | nil => intro y h; simpa [insertBy] using h
    | cons z l ih =>
      intro y h
      unfold insertBy at h
      split at h
      · simpa using h
      · rcases List.mem_cons.mp h with h | h
        · exact .inr (h ▸ List.mem_cons_self ..)
        · exact (ih y h).imp id (List.mem_cons_of_mem _)
  have go : ∀ (l acc : List α), x ∈ l.foldl (fun a y => insertBy key y a) acc → x ∈ acc ∨ x ∈ l := by
    intro l
    induction l with
    | nil => intro acc h; exact .inl h
    | cons y l ih =>
      intro acc h
      rcases ih _ h with h | h
      · rcases ins acc y h with h | h
        · exact .inr (h ▸ List.mem_cons_self ..)
        · exact .inl h
      · exact .inr (List.mem_cons_of_mem _ h)
  exact (go l [] h).elim (fun h => absurd h (List.not_mem_nil)) id

/-- An element with a smaller key than all before it stands first. -/
theorem sortBy_head {α : Type} (key : α → Nat) (l : List α) (x : α) (h : ∀ y ∈ l, key x < key y) :
    (sortBy key (l ++ [x])).head? = some x := by
  have hs : sortBy key (l ++ [x]) = insertBy key x (sortBy key l) := by simp [sortBy]
  rw [hs]
  cases e : sortBy key l with
  | nil => rfl
  | cons y r =>
    have hy := h y (mem_sortBy key l y (by rw [e]; exact List.mem_cons_self ..))
    simp [insertBy, hy]

/-- The operation of an instruction that performs next is one that it issued. -/
theorem nextPost_mem {t : Thread} {q : Nat} {x : Outst} (h : t.nextPost q = some x) :
    x ∈ t.outst ∧ x.seq = q ∧ x.op.isPost = true := by
  have k := List.mem_filter.mp (mem_sortBy _ _ _ (List.mem_of_head? h))
  simpa using k

theorem pushOp_threads (q : Nat) (p : PortKind) (w : Bool) (v : Vec) : (s.pushOp aid q p w v).threads = s.threads := by
  unfold State.pushOp
  cases p <;> dsimp only
  · rfl
  · unfold State.linkPush; split <;> rfl
  · rfl
  · split <;> rfl

/-- Operations of an instruction that are all pushes perform without an exception (R107). -/
theorem runPosts_pushes (q n : Nat)
    (h : ∀ x ∈ (s.th aid).outst, x.seq = q → x.op.isPost = true → ∃ p w v, x.op = .post (.push p w v)) :
    ∃ t, s.runPosts aid q n = .ok t := by
  induction n generalizing s with
  | zero => exact ⟨s, by unfold State.runPosts; rfl⟩
  | succ n ih =>
    unfold State.runPosts
    split
    · exact ⟨s, rfl⟩
    · rename_i x hx
      obtain ⟨hm, hq, hp⟩ := nextPost_mem hx
      obtain ⟨p, w, v, ho⟩ := h x hm hq hp
      split
      · exact ⟨s, rfl⟩
      · have hv : s.longVal aid x.seq x.op = .ok ⟨[], 0⟩ (s.pushOp aid x.seq p w v) := by rw [ho]; rfl
        rw [hv]
        refine ih (fun y hy hs hq => ?_)
        have ht : (s.pushOp aid x.seq p w v).th aid = s.th aid := by simp only [State.th, pushOp_threads]
        simp only [State.accept, modTh_th_same, ht] at hy
        obtain ⟨z, hz, e⟩ := List.mem_map.mp hy
        have hz' := (List.mem_filter.mp hz).1
        have hop : z.op = y.op ∧ z.seq = y.seq := by
          rw [← e]; split <;> exact ⟨rfl, rfl⟩
        rw [← hop.1]
        exact h z hz' (hop.2.trans hs) (by rw [hop.1]; exact hq)

/-- Every operation of an instruction that is under way is a push. -/
def Pushes (s : State) (aid q : Nat) : Prop := ∀ x ∈ (s.th aid).outst, x.seq = q → ∃ p w v, x.op = .post (.push p w v)

/-- What a push adds to the pending set is a push. -/
theorem push_posts (b : Binding) (x : Vec) (q : Nat) (h : Pushes s aid q) (hb : b.aid = aid) : Pushes (s.push b x) aid q := by
  intro y hy hq
  unfold State.push at hy
  dsimp only at hy
  split at hy
  · exact h y hy hq
  · subst hb
    simp only [State.postPush, State.postOp, modTh_th_same, List.mem_append, List.mem_singleton] at hy
    rcases hy with hy | hy
    · exact h y hy hq
    · exact ⟨_, _, _, by rw [hy]⟩

theorem boundTo_aid {n : Nm} {b : Binding} (h : s.boundTo aid n = some b) : b.aid = aid := by
  unfold State.boundTo at h
  split at h
  · have := List.find?_some h
    simp only [Bool.and_eq_true, beq_iff_eq] at this
    exact this.1
  · cases h

/-- Of an instruction that issues, nothing is under way but what its forwarding pops push on. -/
theorem takes_fresh (h : s.takes o = some c) : ∀ x ∈ (c.s.th c.aid).outst, x.seq = (c.s0.th c.aid).seq →
    lateSub < x.sub ∧ ∃ p w v, x.op = .post (.push p w v) := by
  obtain ⟨-, -, -, -, -, -, -, -, hf, hp, us, hs, -⟩ := takes_cases h
  have k0 := prefetch_issues0 _ _ _ hp c.aid
  intro x hx hq
  have hm : (x.seq, x.sub, x.op) ∈ (c.s.th c.aid).issued := List.mem_map.mpr ⟨x, hx, rfl⟩
  rcases (sources_forwards c.aid o.rd hs c.aid).2 _ hm with k | k
  · rw [k0.1] at k
    obtain ⟨y, hy, e⟩ := List.mem_map.mp k
    have := hf y hy
    rw [(Prod.mk.inj e).1, hq, k0.2] at this
    exact absurd rfl this
  · exact k.2

theorem takes_pushes (h : s.takes o = some c) : Pushes c.s c.aid (c.s0.th c.aid).seq := fun x hx hq => (takes_fresh h x hx hq).2

/-- What an instruction of which only pushes are under way has posted performs without an exception. -/
theorem posted_pushes {t : State} (h : Pushes t c.aid (c.s0.th c.aid).seq) : ∃ u, c.posted t = some u := by
  obtain ⟨u, hu⟩ := runPosts_pushes (s := t) (aid := c.aid) (c.s0.th c.aid).seq 64 (fun y hy hq _ => h y hy hq)
  exact ⟨u, by unfold Cx.posted; rw [hu]⟩

/-- A state that has the pending set of what the instruction works with has only pushes of it to perform. -/
theorem posted_same (h : s.takes o = some c) {t : State} (ht : (t.th c.aid).outst = (c.s.th c.aid).outst) :
    ∃ u, c.posted t = some u := posted_pushes (fun x hx => takes_pushes h x (by rw [← ht]; exact hx))

/-- A result to a scalar destination, a port's name included, leaves only pushes to perform. -/
theorem posted_setS (h : s.takes o = some c) (d : SReg) (x : Dword) : ∃ t, c.posted (c.setS d x) = some t := by
  unfold Cx.setS State.wrS
  split
  · rename_i b hb
    exact posted_pushes (push_posts b _ _ (takes_pushes h) (boundTo_aid hb))
  · exact posted_same h (by rw [modTh_th_same]; rfl)

/-- The same for a vector destination. -/
theorem posted_setV (h : s.takes o = some c) (d : VReg) (x : Vec) : ∃ t, c.posted (c.setV d x) = some t := by
  unfold Cx.setV State.wrV
  split
  · rename_i b hb
    exact posted_pushes (t := { c.s.push b x with free := c.s.free + 1 }) (push_posts b _ _ (takes_pushes h) (boundTo_aid hb))
  · exact posted_same h (by rw [modTh_th_same]; rfl)

/-- What the thread of an instruction has in its pending set once the instruction has posted `op` after `t`. -/
def Cx.pending (c : Cx) (t : State) (op : JOp) : Outst :=
  ⟨(t.th c.aid).seq, t.nextSub c.aid, (t.th c.aid).pc, c.npc, .post op, [], c.saved, none, 0⟩

theorem send_outst (c : Cx) (t : State) (op : JOp) :
    ((c.send t op).th c.aid).outst = (t.th c.aid).outst ++ [c.pending t op] := by
  simp [Cx.send, State.postOp, Cx.pending]

/-- A new operation of an instruction comes before what its forwarding pops push on. -/
theorem nextSub_le (t : State) (aid : Nat) : t.nextSub aid ≤ lateSub := by
  have fold1 : ∀ (l : List Outst) (m : Nat), m < lateSub → (∀ x ∈ l, x.sub < lateSub) →
      l.foldl (fun m o => Nat.max m o.sub) m < lateSub := by
    intro l
    induction l with
    | nil => intro m h _; exact h
    | cons x l ih =>
      intro m h k
      exact ih _ (Nat.max_lt.mpr ⟨h, k x (List.mem_cons_self ..)⟩) (fun y hy => k y (List.mem_cons_of_mem _ hy))
  have fold2 : ∀ (l : List (Option JEnt)) (q m : Nat), m < lateSub → l.foldl (fun m j => match j with
      | some e => if e.aid = aid ∧ e.seq = q ∧ e.sub < lateSub then Nat.max m e.sub else m
      | none => m) m < lateSub := by
    intro l q
    induction l with
    | nil => intro m h; exact h
    | cons x l ih =>
      intro m h
      refine ih _ ?_
      dsimp only
      split
      · split
        · rename_i k; exact Nat.max_lt.mpr ⟨h, k.2.2⟩
        · exact h
      · exact h
  unfold State.nextSub
  exact fold2 _ _ _ (fold1 _ 0 (by decide) (fun x hx => by
    have k := (List.mem_filter.mp hx).2
    simp only [Bool.and_eq_true, decide_eq_true_eq] at k
    exact k.2))

/-- The operation that an instruction has posted is the first of it to perform. -/
theorem nextPost_send (h : s.takes o = some c) {t : State} {op : JOp} (ht : (t.th c.aid).outst = (c.s.th c.aid).outst)
    (hq : (t.th c.aid).seq = (c.s0.th c.aid).seq) :
    ((c.send t op).th c.aid).nextPost (c.s0.th c.aid).seq = some (c.pending t op) := by
  unfold Thread.nextPost
  have hp : [c.pending t op].filter (fun o => o.seq == (c.s0.th c.aid).seq && o.op.isPost) = [c.pending t op] := by
    simp [Cx.pending, LongOp.isPost, hq]
  rw [send_outst, List.filter_append, hp]
  refine sortBy_head _ _ _ (fun y hy => ?_)
  have k := List.mem_filter.mp hy
  rw [ht] at k
  simp only [Bool.and_eq_true, beq_iff_eq] at k
  exact Nat.lt_of_le_of_lt (nextSub_le t c.aid) (takes_fresh h y k.1 k.2.1).1

/-- An operation that is left in the pending set waits there. -/
theorem posted_held (h : s.takes o = some c) {t : State} {op : JOp} (ht : (t.th c.aid).outst = (c.s.th c.aid).outst)
    (hq : (t.th c.aid).seq = (c.s0.th c.aid).seq) (hn : c.now t op = false) : c.posted (c.send t op) = some (c.send t op) := by
  unfold Cx.posted State.runPosts
  rw [nextPost_send h ht hq]
  unfold Cx.now at hn
  dsimp only [Cx.pending]
  rw [if_pos hn]

/-- The operation that an instruction posted performs at once where it may, and then what its forwarding pops push on. -/
theorem posted_now (h : s.takes o = some c) {t u : State} {op : JOp} {x : LongVal}
    (ht : (t.th c.aid).outst = (c.s.th c.aid).outst) (hq : (t.th c.aid).seq = (c.s0.th c.aid).seq) (hn : c.now t op = true)
    (hv : (c.send t op).postVal c.aid (t.th c.aid).seq op = .ok x u) (hu : Issues0 (c.send t op) u) :
    ∃ v, c.later (u.accept c.aid (c.pending t op) x) = some v ∧ c.posted (c.send t op) = some v := by
  have hv' : (c.send t op).longVal c.aid (c.pending t op).seq (c.pending t op).op = .ok x u := hv
  have hg : (c.send t op).canGo c.aid (c.pending t op).seq (c.pending t op).sub (c.pending t op).op = true := hn
  obtain ⟨v, hz⟩ := runPosts_pushes (s := u.accept c.aid (c.pending t op) x) (aid := c.aid) (c.s0.th c.aid).seq 63 (by
    intro y hy hs _
    simp only [State.accept, modTh_th_same] at hy
    obtain ⟨z, hz, e⟩ := List.mem_map.mp hy
    have hz1 := List.mem_filter.mp hz
    have hop : z.seq = y.seq ∧ z.op = y.op := by rw [← e]; split <;> exact ⟨rfl, rfl⟩
    have hm : (z.seq, z.sub, z.op) ∈ (u.th c.aid).issued := List.mem_map.mpr ⟨z, hz1.1, rfl⟩
    rw [(hu c.aid).1] at hm
    obtain ⟨w, hw, ew⟩ := List.mem_map.mp hm
    have e1 := (Prod.mk.inj ew).1
    have e2 := (Prod.mk.inj (Prod.mk.inj ew).2).1
    have e3 := (Prod.mk.inj (Prod.mk.inj ew).2).2
    rw [send_outst] at hw
    rcases List.mem_append.mp hw with hw | hw
    · rw [ht] at hw
      rw [← hop.2, ← e3]
      exact takes_pushes h w hw (e1.trans (hop.1.trans hs))
    · rw [List.mem_singleton] at hw
      subst hw
      rcases of_decide_eq_true hz1.2 with h2 | h2
      · exact absurd e1.symm h2
      · exact absurd e2.symm h2)
  refine ⟨v, by unfold Cx.later; rw [hz], ?_⟩
  unfold Cx.posted State.runPosts
  rw [nextPost_send h ht hq]
  dsimp only
  rw [hg, hv']
  simp only [Bool.true_eq_false, if_false]
  rw [hz]

/-- Reading its sources leaves the thread at its place in issue order. -/
theorem takes_seq (h : s.takes o = some c) : (c.s.th c.aid).seq = (c.s0.th c.aid).seq := by
  obtain ⟨-, -, -, -, -, -, -, -, -, -, us, hs, -⟩ := takes_cases h
  exact (sources_forwards c.aid o.rd hs c.aid).1

/-- An instruction whose body posts one operation. -/
theorem sends_of {i : Instr} {p : Cx → Bool} {f : Cx → State} {op : Cx → JOp} {q : Cx → State → Prop} {body : Cx → R}
    (he : exec i = runS o body) (hb : ∀ c, p c = true → body c = .ok (c.send (f c) (op c)))
    (hf : ∀ c, ((f c).th c.aid).outst = (c.s.th c.aid).outst ∧ ((f c).th c.aid).seq = (c.s.th c.aid).seq)
    (hv : ∀ (s : State) c, s.takes o = some c → p c = true → c.now (f c) (op c) = true →
      ∃ x u, (c.send (f c) (op c)).postVal c.aid ((f c).th c.aid).seq (op c) = .ok x u ∧ Issues0 (c.send (f c) (op c)) u ∧
        q c (u.accept c.aid (c.pending (f c) (op c)) x)) :
    Sends i o p f op q := by
  intro s c h k
  have hq := (hf c).2.trans (takes_seq h)
  have key : ∀ t, c.posted (c.send (f c) (op c)) = some t → exec i s = .next (t.finish c.aid c.npc o.h.sw) := by
    intro t ht
    rw [he, runS_taken body h, hb c k]
    simp only [R.close, State.complete, posted_ok ht]
  refine ⟨fun hn => ?_, fun hn => key _ (posted_held h (hf c).1 hq hn)⟩
  obtain ⟨x, u, hx, hu, hq'⟩ := hv s c h k hn
  obtain ⟨v, h1, h2⟩ := posted_now h (hf c).1 hq hn hx hu
  exact ⟨_, v, hq', h1, key v h2⟩

/-- An instruction whose body posts journal entries. -/
theorem entries_of {i : Instr} {p : Cx → Bool} {f : Cx → State} {ops : Cx → List JOp} {body : Cx → R}
    (he : exec i = runS o body) (hb : ∀ c, p c = true → body c = c.post (f c) (ops c))
    (hf : ∀ c, ((f c).th c.aid).outst = (c.s.th c.aid).outst) :
    Entries i o p f ops := by
  intro s c h k hn
  obtain ⟨t, ht⟩ := posted_same h (t := (f c).postEnts c.core (((List.range (ops c).length).zip (ops c)).map (fun e =>
      ⟨c.num, c.aid, c.t.seq, (f c).nextSub c.aid + e.1, c.pc, e.2, .waiting, none⟩))) (hf c)
  refine ⟨t, ht, ?_⟩
  rw [he, runS_taken body h, hb c k]
  unfold Cx.post
  rw [if_neg (by omega)]
  simp only [R.close, State.complete, posted_ok ht]

end Sys2Proof.Machine
end

