-- ==== Sys2Proof/Tests/Slice0.lean ====
section
/-!
SUPPORT. Tests: terms that are not well formed, worked words of the manual, single steps with the results that the manual
gives, and witnesses that the statements have hypotheses that some state meets.
-/

namespace Sys2Proof.Tests

open Sys2Proof Sys2Proof.Machine

set_option Elab.async false

/-! ### Terms that are not well formed -/

/-- [s1], [s1] through a scale of 5, and a scale without an index. -/
def m1 : MemOp := ⟨0, some 1, none, 0, none⟩
/-- A scale of 5 (R141). -/
def mBad : MemOp := ⟨0, some 1, some 2, 5, none⟩
/-- A vector index with a scale of 5 (R141). -/
def gBad : GatherOp := ⟨0, some 1, 2, 5, none⟩
/-- [s1 + v2]. -/
def g1 : GatherOp := ⟨0, some 1, 2, 0, none⟩
/-- Unconditional, without a marker. -/
abbrev H : Hdr := Hdr.plain

theorem test_illformed_operands :
    [Instr.nop ⟨true, 0, false⟩, .lea H 0 mBad, .lea H 0 ⟨0, some 1, none, 1, none⟩, .vgath H 0 gBad false false 0,
     .callat H 0 0 0 29 false, .send H 0 0 29, .taskq H 0 0 0 29 0, .sysmsg H 0 29, .mfu H 0 0x00B, .mtu H 0x000 0, .mfs H 0 0x008,
     .mts H 0x000 0].all (fun i => i.wf == false) = true := by decide +kernel

theorem test_illformed_memory :
    [Instr.ld H false 0 m1 (.atomic .rel .pkg) 2, .ld H false 0 m1 (.atomic .rlx .pkg) 1, .st H m1 0 .rp (some 1) 2,
     .st H m1 0 (.atomic .acq .pkg) none 2, .st H m1 0 (.atomic .rlx .pkg) (some 1) 2, .stv H m1 0 true (some 1) 0,
     .amo H .add none m1 0 .acq .pkg false, .fence H .rlx .pkg, .pbind H ⟨false, 0⟩ true true (.link true false),
     .pbind H ⟨false, 0⟩ false true (.queue 0 false)].all (fun i => i.wf == false) = true := by decide +kernel

theorem test_illformed_vectors :
    [Instr.vadd H .e4m3 .rne 0 0 0 0, .vcmp H .un .s32 0 0 0 0, .vcvt H .e8m0 .f32 .rne 0 0 0, .vcvt H .f32 .bx8 .rne 0 0 0,
     .vpack H .f32 .f32 .rne 0 0 0 0, .vunpk H .f32 .f16 .rne 0 0 2 0, .vbxq H false 0 0 4 0, .vbxq H true 0 0 8 0,
     .vbxd H .f64 false .rne 0 0 0 0 0, .vsacc H false .rne 31 0 0 0 1 0, .vsacc H true .rne 0 0 31 0 0 0, .vsacc H true .rne 0 0 0 0 2 0,
     .vbdot H .f16 .rne .b8 .e8m0 0 0 0 0 0, .viadd H false .f32 0 0 0 0, .vshl H .s8 0 0 (.imm 8) 0, .vmovTos H .s64 0 0 16].all
      (fun i => i.wf == false) = true := by decide +kernel

theorem test_illformed_units :
    [Instr.embpool H .f64 .rne 0 0 none 0 0 7, .embpool H .f32 .rne 0 0 none 0 0 6, .embpool H .f32 .rne 0 0 none 0 0 41,
     .embupd H .f32 .rst 0 0 none 0 0 7, .wlatch H .f32 0, .mma H .s8 .once 0 0 0 0, .kacc H .f16 .rne 0 0 0 0 0 0 0,
     .kget H .f32 .rst 0 0 0 none 0 0, .kput H .f64 .rne 0 none 31 0 0].all (fun i => i.wf == false) = true := by decide +kernel

/-- The bounds themselves are well formed. -/
theorem test_wellformed_bounds :
    [Instr.callat H 0 0 0 28 false, .mfu H 0 0x00A, .mfs H 0 0x007, .vbxq H true 0 0 7 0, .vsacc H true .rne 28 0 30 0 1 0,
     .vshl H .s8 0 0 (.imm 7) 0, .vmovTos H .s64 0 0 15, .embpool H .f32 .rne 0 0 none 0 0 40, .kput H .f64 .rne 0 none 30 0 0].all
      (fun i => i.wf) = true := by decide +kernel

/-! ### Words that the manual works to the bit -/

/-- R138, R141, and the worked words of chapters 02, 07 and 08. -/
theorem test_words_scalar :
    decodeTableWord 64 0x0000080006180224 = some (.addi ⟨false, 0, true⟩ 6 6 128) ∧
    decodeTableWord 64 0xFFFFFFFD80023020 = some (.br ⟨true, 3, false⟩ (-10)) ∧
    decodeTableWord 64 0x00004000C60C0410 = some (.cmpi H .ltu 3 6 1024) ∧
    decodeTableWord 96 0x4200000000000000000C03D1 = some (.movwF96 H false 3 0x42000000) := by decide +kernel

/-- Chapters 09, 17, 18 and 19. -/
theorem test_words_control :
    decodeTableWord 64 0xFFFFFFFE05000070 = some (.loop H 5 (-8)) ∧
    decodeTableWord 128 0x00000000000000010000003081180082 = some (.callat H 6 1 2 3 true) ∧
    decodeTableWord 64 0x00000805005420D0 = some (.waitNe ⟨false, 2, false⟩ 21 0 20) ∧
    decodeTableWord 64 0x0000000000024120 = some (.evwait ⟨true, 4, false⟩ 0) ∧
    decodeTableWord 64 0x000000403F024160 = some (.tack ⟨true, 4, false⟩ none 4) ∧
    decodeTableWord 64 0x0000040000000170 = some (.tkwaitFrame H 0) := by decide +kernel

/-- Chapters 07, 10, 16, 18 and 19. -/
theorem test_words_memory :
    decodeTableWord 96 0x000000041102000043140505 =
      some (.ld ⟨false, 0, true⟩ false 5 ⟨1, some 3, some 1, 2, some 4⟩ .plain 2) ∧
    decodeTableWord 64 0x0100028FCA000530 = some (.stv H ⟨1, some 10, none, 0, none⟩ 8 false none 0) ∧
    decodeTableWord 64 0x0122105FC3080564 =
      some (.amo ⟨false, 0, true⟩ .min (some 2) ⟨1, some 3, none, 0, none⟩ 5 .rlx .pkg false) ∧
    decodeTableWord 64 0x11220112BF205574 = some (.cas ⟨false, 5, true⟩ 8 ⟨1, none, some 10, 2, none⟩ 17 .rlx .pkg false) ∧
    decodeTableWord 64 0x006C000000000580 = some (.fence H .rel .cl) ∧
    decodeTableWord 96 0x000000080263016FC8000511 =
      some (.st H ⟨2, some 8, none, 0, some 8⟩ 22 (.atomic .rel .pkg) none 3) ∧
    decodeTableWord 128 0x00000000000100010101_01961A0005A2 = some (.stpair H 26 24 25 1 0 1 1 false) := by decide +kernel

/-- Chapters 07, 11, 17 and 19. -/
theorem test_words_vector :
    decodeTableWord 64 0x00084800218407D0 = some (.vcvt H .f32 .s32 .rne 1 1 0) ∧
    decodeTableWord 64 0x00080289E6A00730 = some (.vfma H .f32 .rne 8 6 7 8 0) ∧
    decodeTableWord 64 0x00B00000039009C0 = some (.vbcast H .u32 4 3 0) ∧
    decodeTableWord 64 0x01081D9602A00A40 = some (.embpool H .f32 .rne 8 1 (some 2) 24 25 7) ∧
    decodeTableWord 64 0x01302248A18C0850 = some (.vbdot H .e2m1 .rne .b8 .e5m2 3 1 2 4 1) ∧
    decodeTableWord 64 0x00A50000CA9009E0 = some (.vmovTov H .u8 4 10 3) ∧
    decodeTableWord 64 0x0040069023A00800 = some (.vbxq H false 8 3 0 9) := by decide +kernel

/-- Chapters 12, 14, 15 and 16. -/
theorem test_words_units :
    decodeTableWord 64 0x0100000FC6600B90 = some (.pbind H ⟨false, 0⟩ false false (.affine 1 (some 6) none)) ∧
    decodeTableWord 96 0x0000000000000C0000FC0B91 = some (.pbind H ⟨true, 7⟩ false false (.net 0 true)) ∧
    decodeTableWord 128 0x00000000000F00030018000144000B42 = some (.mma H .bf16 .once 4 5 3 15) ∧
    decodeTableWord 64 0x0000014FCE540B24 = some (.ofill ⟨false, 0, true⟩ 21 20 ⟨0, some 14, none, 0, none⟩) ∧
    decodeTableWord 64 0x0000000005200C90 = some (.hpos H 8 5 0) ∧
    decodeTableWord 64 0x0000000148000CC0 = some (.bindpos H 8 5) ∧
    decodeTableWord 128 0x00000000000000000008025007023C12 = some (.kacc ⟨true, 3, false⟩ .f32 .rne 7 5 0 0 0 0 0) ∧
    decodeTableWord 128 0x000000000008000100000460810C1CA2 = some (.nbrBuf ⟨false, 1, false⟩ 3 1 2 6 true false 8) := by
  decide +kernel

/-- A set reserved bit, an unassigned opcode, LEN 3, and a guard 0b100000 (R135, R139, R140). -/
theorem test_words_refused :
    [decodeTableWord 64 0x0000000000000018, decodeTableWord 64 0x00000000000001F0, decodeTableWord 64 0x0000000000000013,
      decodeTableWord 64 0x0000000000020010].all (fun x => x == none) = true := by decide +kernel

/-! ### A small state -/

/-- The partition word KTG 1, H 4, RFG 22, ACCG 2, SPG 32, L1G 8 (R86). -/
def word : Dword := 0x0000001416022008

/-- A segment that grants everything. -/
def all : Seg := ⟨0, BitVec.allOnes 64, 0xF⟩

/-- A coordinate space of 4 by 4 cells of 4 by 4 points, all owned by core 0, with a selvage of 5 (R288). -/
def space : Space := { (default : Space) with hdr := [0x580420220, 3, 0, 0], owners := List.replicate 16 0 }

/-- A launch of tag 1 on the clusters (0, 0) and (1, 0). -/
def launch : Launch :=
  { (default : Launch) with
    tag := 1, asid := 1, w := 2, ph := 1, stages := [2], pw := word, ktu := 2, sets := [List.replicate 8 all]
    hentry := 0x1000, lentry := 0x2000 }

/-- Agent number of the running thread. -/
def me : ThKind → Nat
  | .super => 15
  | _ => 18432

/-- Its slot. -/
def mySlot : ThKind → Nat
  | .heavy => 0
  | .light => 5
  | .handler => 14
  | .super => 15

/-- The running thread, its registers as given. -/
def thread (k : ThKind) (rs : List (Nat × Dword)) : Thread :=
  { Thread.fresh k 0 (mySlot k) 0x1000 with
    segs := Vector.replicate 8 all
    ltag := if k = .super then 0 else 1
    regs := { Regs.zero with s := rs.foldl (fun v e => vwr v e.1 e.2) Regs.zero.s } }

/-- Core 0, which holds the running thread. -/
def core0 (k : ThKind) : Core :=
  { Core.reset 0 with
    ltag := 1, part := word, fb := 0xFFFFC00000010000
    occ := vwr (Core.reset 0).occ (mySlot k) (some (me k)), sst := vwr (Core.reset 0).sst (mySlot k) .running }

/-- The machine in which the thread runs in slot `mySlot` of core 0; core 4 belongs to the launch too. -/
def demo (k : ThKind) (rs : List (Nat × Dword)) : State :=
  { State.reset with
    cur := (0, mySlot k), bup := 4, nextAid := 18440, threads := [(me k, thread k rs)]
    cores := [(0, core0 k), (4, { Core.reset 4 with ltag := 1, part := word })], launches := [launch] }

/-- The same machine with the thread and its core changed. -/
def demo' (k : ThKind) (rs : List (Nat × Dword)) (f : Thread → Thread) (g : Core → Core) : State :=
  ((demo k rs).modTh (me k) f).modCore 0 g

/-- The thread after one instruction. -/
def run (i : Instr) (s : State) : Option Thread :=
  match exec i s, s.occ s.cur.1 s.cur.2 with
  | .next t, some a => some (t.th a)
  | _, _ => none

/-- S[d] after one instruction of a heavy thread whose registers are as given. -/
def gives (i : Instr) (rs : List (Nat × Dword)) (d : SReg) : Option Dword := (run i (demo .heavy rs)).map (·.rS d)

/-- V[d] and the flags after one instruction on vector registers as given. -/
def givesV (i : Instr) (vs : List (Nat × Vec)) (d : VReg) : Option (Vec × BitVec 6) :=
  (run i (demo' .heavy [] (fun t => { t with regs := { t.regs with v := vs.foldl (fun v e => vwr v e.1 e.2) t.regs.v } }) id)).map
    (fun t => (t.rV d, t.regs.fstat))

/-! ### Single steps with the results of the manual -/

/-- The table of R171. -/
theorem test_div_rem :
    gives (.div H false 3 1 2) [(1, -7), (2, 2)] 3 = some (-3) ∧ gives (.rem H false 3 1 2) [(1, -7), (2, 2)] 3 = some (-1) ∧
    gives (.div H true 3 1 2) [(1, -7), (2, 2)] 3 = some 0x7FFFFFFFFFFFFFFC ∧ gives (.rem H true 3 1 2) [(1, -7), (2, 2)] 3 = some 1 ∧
    gives (.div H false 3 1 2) [(1, 42)] 3 = some (-1) ∧ gives (.rem H false 3 1 2) [(1, 42)] 3 = some 42 ∧
    gives (.div H false 3 1 2) [(1, 0x8000000000000000), (2, -1)] 3 = some 0x8000000000000000 ∧
    gives (.rem H false 3 1 2) [(1, 0x8000000000000000), (2, -1)] 3 = some 0 := by decide +kernel

/-- R170, R172: wrapping, the high product, and ABS of the least value. -/
theorem test_add_mulh_abs :
    gives (.add H 3 1 2) [(1, -1), (2, 2)] 3 = some 1 ∧ gives (.sub H 3 1 2) [(1, 0), (2, 1)] 3 = some (-1) ∧
    gives (.addi H 3 1 0xFFFFFFF) [(1, 5)] 3 = some 4 ∧ gives (.mulh H true 3 1 2) [(1, -1), (2, -1)] 3 = some (-2) ∧
    gives (.mulh H false 3 1 2) [(1, -1), (2, -1)] 3 = some 0 ∧ gives (.max H true 3 1 2) [(1, -1), (2, 1)] 3 = some (-1) ∧
    gives (.min H false 3 1 2) [(1, -1), (2, 1)] 3 = some (-1) ∧
    gives (.abs H 3 1) [(1, 0x8000000000000000)] 3 = some 0x8000000000000000 := by decide +kernel

/-- The examples of R176. -/
theorem test_ext_ins :
    gives (.ext H false 1 2 8 7) [(2, 0xF0A5)] 1 = some 0xF0 ∧ gives (.ext H true 1 2 8 7) [(2, 0xF0A5)] 1 = some 0xFFFFFFFFFFFFFFF0 ∧
    gives (.ext H true 1 2 4 7) [(2, 0xF0A5)] 1 = some 0x0A ∧
    gives (.ins H 1 2 16 7) [(1, 0x1111111111111111), (2, 0xABCD)] 1 = some 0x1111111111CD1111 := by decide +kernel

/-- R174, R175: shifts use bits [5:0] of the amount. -/
theorem test_shift_count :
    gives (.shl H 3 1 (.reg 2)) [(1, 1), (2, 65)] 3 = some 2 ∧ gives (.sar H 3 1 (.imm 63)) [(1, -2)] 3 = some (-1) ∧
    gives (.rot H true 3 1 (.imm 4)) [(1, 0x1F)] 3 = some 0xF000000000000001 ∧ gives (.clz H 3 1) [] 3 = some 64 ∧
    gives (.ctz H 3 1) [(1, 8)] 3 = some 3 ∧ gives (.popc H 3 1) [(1, 0xFF00)] 3 = some 8 ∧
    gives (.brev H 3 1) [(1, 1)] 3 = some 0x8000000000000000 ∧
    gives (.bswap H 3 1) [(1, 0x0102030405060708)] 3 = some 0x0807060504030201 := by decide +kernel

/-- R177 to R179: hash64(0, 0) is 0; MOVW sign-extends with FN 1. -/
theorem test_mov_lea_hash :
    gives (.hash H 3 1 2) [] 3 = some 0 ∧ gives (.movwF96 H true 3 0x80000000) [] 3 = some 0xFFFFFFFF80000000 ∧
    gives (.lea H 3 ⟨0, some 1, some 2, 3, some 0xFFFFFFFF⟩) [(1, 0x100), (2, 2)] 3 = some 0x10F ∧
    gives (.sel H 3 1 2 1) [(1, 7), (2, 9)] 3 = some 9 := by decide +kernel

/-- R180, R39: CMPI.ltu sign-extends its immediate, and a write to p0 is ignored. -/
theorem test_compare :
    (run (.cmpi H .ltu 2 1 0xFFFFFFF) (demo .heavy [(1, 5)])).map (·.rP 2) = some true ∧
    (run (.cmpi H .ltu 2 1 0xFFFFFFF) (demo .heavy [(1, -1)])).map (·.rP 2) = some false ∧
    (run (.cmp H .lt 0 1 2) (demo .heavy [(1, 5)])).map (·.rP 0) = some true := by decide +kernel

/-- The thread of the worked example of chapter 01 (R10 to R12): core 726, slot 5. -/
theorem test_numbers :
    clusterOf 726 = 7 * 24 + 13 ∧ dieOf 726 = 6 ∧ gridX 726 = 26 ∧ gridY 726 = 15 ∧ 16 * 726 + 5 = 11621 ∧
    stageOf [3, 5] 1 0 = 0 := by decide +kernel

/-- R186: `loop` with a count of 1 goes on, with another one branches. -/
theorem test_loop :
    (run (.loop H 1 (-8)) (demo .heavy [(1, 1)])).map (fun t => (t.pc, t.rS 1)) = some (0x1008, 0) ∧
    (run (.loop H 1 (-8)) (demo .heavy [])).map (fun t => (t.pc, t.rS 1)) = some (0x0FE0, -1) ∧
    (run (.callr H 5 5) (demo .heavy [(5, 0x2000)])).map (fun t => (t.pc, t.rS 5)) = some (0x2000, 0x1008) := by decide +kernel

/-- R30: under a guard that is false only the program counter moves on. -/
theorem test_false_guard :
    run (.add ⟨false, 3, false⟩ 1 1 1) (demo .heavy [(1, 5)]) =
      some { thread .heavy [(1, 5)] with pc := 0x1008, seq := 1 } := by decide +kernel

/-- R73: the first two draws from SEED 1. -/
theorem test_draws : nextDraw 1 = 0x00042021 ∧ nextDraw 0x00042021 = 0x04080601 := by decide +kernel

/-- The block of R76, and the conversion of 1 + 3 × 2^-9 to BF16 with the first draw. -/
theorem test_quantise :
    bxQuant false ([0x40400000, 0x3E400000, 0x3E99999A, 0xC039999A].map f32.decode ++ List.replicate 28 (Val.zero false)) =
      (0x80, 0x7D, [0x30, 0x03, 0xA6, 0x6E] ++ List.replicate 28 0, fNX) ∧
    bf16.encode .st 0x00042021 (.num false 515 (-9)) = (0x3F80, fNX) ∧
    bf16.encode .st 0x40000000 (.num false 515 (-9)) = (0x3F81, fNX) := by decide +kernel

/-- The worked block of R250, and its signalling scale. -/
theorem test_vbdot :
    (let i : Instr := .vbdot H .e2m1 .rne .b8 .e5m2 3 1 2 4 1
     let s (b64 : Nat) : State := demo' .heavy [] (fun t => { (((t.wV 1 0x940A7132).wV 2 0x2C351624).wV 3 0x3F000000).wV 4
       (BitVec.ofNat 1024 (0x40 + b64 * 2 ^ 512)) with regs := { (((t.wV 1 0x940A7132).wV 2 0x2C351624).wV 3 0x3F000000).wV 4
         (BitVec.ofNat 1024 (0x40 + b64 * 2 ^ 512)) |>.regs with m := vwr t.regs.m 1 1 } }) id
     (run i (s 0x3E)).map (fun t => (t.rV 3, t.regs.fstat)) = some (0x40600000, 0) ∧
     (run i (s 0x7D)).map (fun t => (t.rV 3, t.regs.fstat)) = some (0x7FC00000, fNV)) := by decide +kernel

/-- The window worked in chapter 12: 1.0 and 63 products of 2^-24 deliver 0x3F80_0020; 1.5 and 6.0 deliver 7.5 (chapter 04). -/
theorem test_window :
    (cell32.deliver ((List.replicate 63 (f16.decode 1)).foldl (fun c a => cell32.align c a (f16.decode 0x3C00))
      (cell32.align (cell32.unpack 0) (f16.decode 0x3C00) (f16.decode 0x3C00)))).1 = 0x3F800020 ∧
    (cell32.deliver (cell32.align (cell32.align (cell32.unpack 0) (f32.decode 0x3FC00000) (f32.decode 0x3F800000))
      (f32.decode 0x40C00000) (f32.decode 0x3F800000))).1 = 0x40F00000 := by decide +kernel

/-- R66 at scale 16: 0.1 gives 6,554 and NX, 0.25 gives 16,384. -/
theorem test_fx64 :
    toFx64 (f32.decode 0x3DCCCCCD) 16 = (6554, fNX) ∧ toFx64 (f32.decode 0x3E800000) 16 = (16384, 0) := by decide +kernel

/-- R241, R242, R244: 1/0 sets DZ; VMIN of zeros of different signs is −0; a quiet NaN is unordered. -/
theorem test_vector_float :
    (givesV (.vdiv H .f64 .rne 3 1 2 0) [(1, 0x3FF0000000000000)] 3).map (fun x => (elem x.1 64 0, x.2 &&& fDZ)) =
      some (0x7FF0000000000000, fDZ) ∧
    (givesV (.vmin H .f32 3 1 2 0) [(1, 0x80000000)] 3).map (fun x => elem x.1 32 0) = some 0x80000000 ∧
    (run (.vcmp H .un .f32 2 1 1 0) (demo' .heavy [] (fun t => t.wV 1 0x7FC00000) id)).map (·.rM 2) = some 1 := by decide +kernel

/-- R251, R252: a saturating sum, a shift amount modulo the width, a permutation past the end. -/
theorem test_vector_int :
    (givesV (.viadd H true .s8 3 1 1 0) [(1, 0x7F)] 3).map (fun x => elem x.1 8 0) = some 0x7F ∧
    (givesV (.vsar H .s16 3 1 (.imm 4) 0) [(1, 0x8000)] 3).map (fun x => elem x.1 16 0) = some 0xF800 ∧
    (givesV (.vshl H .u8 3 1 (.reg 2) 0) [(1, 1), (2, 9)] 3).map (fun x => elem x.1 8 0) = some 2 ∧
    (givesV (.vperm H .u8 3 1 2 0) [(1, 0x0B0A), (2, 0x8001)] 3).map (fun x => (elem x.1 8 0, elem x.1 8 1)) = some (0x0B, 0) := by
  decide +kernel

/-- R187, R206 to R209: a misaligned target raises alignment (12) with the target as ADDR, whose frame names the transfer; with
an installed entry the handler runs. -/
theorem test_alignment_frame :
    (match exec (.brr H 1) (demo' .heavy [(1, 0x2002)] id (fun k => { k with uxt := vwr k.uxt 12 0x3001 })) with
     | .next t => decide ((t.th 18432).pc = 0x3000 ∧ (t.th 18432).hh = true ∧ (t.th 18432).rS 0 = 0xFFFFC00000010000) &&
       decide (t.bytes (.sp 0 0x10000) 32 = leBytes 8 (2 ^ 31 + 12) ++ leBytes 8 0x1000 ++ leBytes 8 0x1008 ++ leBytes 8 0x2002)
     | _ => false) = true := by decide +kernel

/-- R331: without one, the slot is held and its latch is armed. -/
theorem test_alignment_latch :
    (match exec (.brr H 1) (demo .heavy [(1, 0x2002)]) with
     | .next t => decide ((t.latch 0 0).cause = 0x8000000C ∧ (t.latch 0 0).pc = 0x1000 ∧ (t.latch 0 0).addr = 0x2002 ∧
         vrd (t.core 0).sst 0 = .held ∧ (t.core 0).reqs = [.slot 0])
     | _ => false) = true := by decide +kernel

/-- R222, R220: a dword stored in the issuer's own scratchpad reads back when its load returns. -/
theorem test_store_load :
    (match exec (.st H ⟨0, some 1, none, 0, none⟩ 2 .plain none 3) (demo .heavy [(1, 0xFFFFC00000000040), (2, 0x1122334455667788)]) with
     | .next t => (match exec (.ld H false 4 ⟨0, some 1, none, 0, none⟩ .plain 3) t with
       | .next t => (match exec (.longResultReturn 0 0 0) t with
         | .next t => decide ((t.th 18432).rS 4 = 0x1122334455667788 ∧ (t.core 0).sp.get 0x40 = 0x88)
         | _ => false)
       | _ => false)
     | _ => false) = true := by decide +kernel

/-- R329: MFS in a user thread raises privileged-instruction (4). -/
theorem test_privileged :
    (match exec (.mfs H 1 0x010) (demo .heavy []) with
     | .next t => decide ((t.latch 0 0).cause = 0x80000004)
     | _ => false) = true := by decide +kernel

/-- R20, R21: a light thread that names s10 raises heavy-only (6). -/
theorem test_light_register :
    (match exec (.add H 1 10 1) (demo .light []) with
     | .next t => decide ((t.latch 0 5).cause = 0x80000006)
     | _ => false) = true := by decide +kernel

/-- R114: the step fetches, decodes and runs the placed word (`movi s7, 5`, by R138 and R142). -/
theorem test_step :
    (match step (State.reset.withFetchWord 64 0x00000050001C03C0) with
     | .next t => decide ((t.th 15).rS 7 = 5 ∧ (t.th 15).pc = 0x10008)
     | _ => false) = true := by decide +kernel

/-! ### Witnesses: the hypotheses of the statements are met -/

/-- The result of an access that succeeds. -/
def got {α : Type} : Met α → Option (α × State)
  | .ok x s => some (x, s)
  | _ => none

/-- The result of an outcome without an error. -/
def good {ε α : Type} : Except ε α → Option α
  | .ok x => some x
  | _ => none

/-- What an instruction works with when it issues. -/
def cx (s : State) (o : Op) : Option Cx := s.takes o

/-- An operation issued at place 0, with the state as it stands. -/
def issued (aid : Nat) (op : LongOp) (ns : List Nm) (s : State) : State :=
  s.modTh aid (fun t => { t with seq := 1, outst := [⟨0, 0, 0xFF8, 0x1000, op, ns, s.save aid, none, 0⟩] })

/-- An acquiring load of s9 has not returned. -/
def held (s : State) (aid : Nat) : State := issued aid (.ld false 9 ⟨0xFFFFC00000000200, 8⟩ (.atomic .acq .pkg)) [.s 9] s

/-- An operation that performs at once, and waits where an acquire is outstanding. -/
def sends (k : ThKind) (s : State) (o : Op) (p : Cx → Bool) (op : Cx → JOp) (f : Cx → State := (·.s)) : Bool :=
  s.meets o (fun c => p c && c.now (f c) (op c)) && (held s (me k)).meets o (fun c => p c && !c.now (f c) (op c))

/-- [s1] in the issuer's own scratchpad. -/
def own : Dword := 0xFFFFC00000000040
/-- A word of core 4's scratchpad. -/
def far : Dword := 0xFFFF800001000040

theorem witness_NoEffectInstructions :
    (demo .heavy []).meets { h := H } always ∧ (demo .light []).meets { h := H, len := 12 } always ∧
    (demo .super []).meets { h := H, len := 16 } always ∧
    (demo .heavy []).meets { h := H, len := memLen m1, rd := memNames m1 } always := by decide +kernel

theorem witness_scalar_results :
    (demo .heavy []).meets (opSSS H 31 30 29) always ∧ (demo .light []).meets (opSSS H 9 0 9) always ∧
    (demo .heavy []).meets (opSS H 0 31) always ∧ (demo .heavy []).meets (opShift H 1 2 (.reg 3)) always ∧
    (demo .heavy []).meets (opShift H 1 2 (.imm 63)) always ∧ (demo .heavy []).meets { h := H, wr := [.s 3] } always ∧
    (demo .heavy []).meets { h := H, len := 12, wr := [.s 3] } always ∧
    (demo .heavy []).meets { h := H, len := 16, wr := [.s 3] } always ∧
    (demo .heavy []).meets { h := H, rd := [.s 1, .s 2], own := [.p 31], wr := [.s 3] } always ∧
    (demo .heavy []).meets { h := H, len := memLen m1, rd := memNames m1, wr := [.s 3] } always ∧
    (demo .heavy []).meets { h := H, rd := [.s 1, .s 3], wr := [.s 3] } always := by decide +kernel

theorem witness_PredicateResults :
    (demo .heavy []).meets { h := H, rd := [.s 1, .s 2], wr := [.p 31] } always ∧
    (demo .heavy []).meets { h := H, own := [.p 1, .p 2], wr := [.p 0] } always ∧
    (demo .heavy []).meets { h := H, own := allPreds, wr := [.s 1] } always ∧
    (demo .heavy []).meets { h := H, rd := [.s 1], own := allPreds } always := by decide +kernel

theorem witness_UserRegisterResults :
    let rdOp (n : BitVec 12) : Op := { h := H, wr := [.s 3], first := isFlagReg n }
    let wrOp (n : BitVec 12) : Op := { h := H, rd := [.s 1], first := isFlagReg n }
    let quiet (n : BitVec 12) (c : Cx) : Bool := !(isFlagReg n && c.s.flagsPending c.aid)
    (demo .heavy []).meets (rdOp 0x010) (quiet 0x010) ∧ (demo .heavy []).meets (rdOp 0x011) (quiet 0x011) ∧
    (demo .heavy []).meets (rdOp 0x012) (fun c => quiet 0x012 c && c.t.kind != .light) ∧
    (demo .light []).meets (rdOp 0x037) (quiet 0x037) ∧
    (demo .heavy []).meets (rdOp 0x003) (fun c => (c.s.launchOf c.t).isSome) ∧
    (demo .heavy []).meets (rdOp 0x00A) (fun c => (c.s.launchOf c.t).isSome) ∧
    (demo .heavy [(1, 63)]).meets (wrOp 0x010) (fun c => quiet 0x010 c && (c.x 0).ult 64) ∧
    (demo .heavy [(1, 64)]).meets (wrOp 0x010) (fun c => quiet 0x010 c && !(c.x 0).ult 64) ∧
    (demo .heavy [(1, 4)]).meets (wrOp 0x011) (fun c => quiet 0x011 c && decide ((c.x 0).toNat % 8 < 5)) ∧
    (demo .heavy [(1, 5)]).meets (wrOp 0x011) (fun c => quiet 0x011 c && decide (5 ≤ (c.x 0).toNat % 8)) ∧
    (demo .light []).meets (wrOp 0x015) (fun c => c.t.kind == .light && (match c.s.launch? c.t.ltag with
      | some l => decide ((c.x 0).toNat < l.sets.length)
      | none => false)) := by decide +kernel

theorem witness_TransfersOfControl :
    (demo .heavy [(1, 2)]).meets { h := H, rd := [.s 1], wr := [.s 1] } (fun c => c.x 0 != 1) ∧
    (demo .heavy [(1, 1)]).meets { h := H, rd := [.s 1], wr := [.s 1] } (fun c => c.x 0 == 1) ∧
    (demo .heavy [(1, 4)]).meets (opA H 1) (fun c => decide ((c.x 0).toNat % 4 = 0)) ∧
    (demo .heavy [(1, 3)]).meets (opA H 1) (fun c => !decide ((c.x 0).toNat % 4 = 0)) ∧
    (demo .heavy [(1, 4)]).meets (opSS H 1 1) (fun c => decide ((c.x 0).toNat % 4 = 0)) ∧
    (demo .heavy [(1, 5)]).meets (opSS H 1 1) (fun c => !decide ((c.x 0).toNat % 4 = 0)) := by decide +kernel

/-- A task that waits for event 0 and for one decrement. -/
def task : Task := { (default : Task) with waitM := 1, count := 1, index := 5, ltag := 1 }

theorem witness_MessagesAndTasks :
    let aligned (c : Cx) : Bool := decide ((c.x 0).toNat % 4 = 0)
    let rs : List (Nat × Dword) := [(1, 0x3000), (2, 4), (3, own)]
    let tq : Op := { h := H, len := 16, rd := [.s 1, .v 1] ++ quad 4, wr := [.s 3], mem := true }
    let dec : Op := { h := H, len := 16, rd := [.s 1], mem := true }
    let queued : State := demo' .heavy [(1, 5)] id (fun k => { k with taskq := [task] })
    ([[], [4]].all (fun full => sends .heavy (demo' .heavy rs id (fun k => { k with full := full }))
      { h := H, len := 16, rd := [.s 1, .s 2] ++ quad 4 ++ [.s 3], mem := true }
      (fun c => aligned c && c.s.inPanel c.t.ltag (c.x 1).toNat &&
        (decide ((c.x 6).toNat % 16 = 0) && c.s.isOwn c.t (c.x 6) && c.s.ownOk c.t (c.x 6) 16) &&
        (c.s.isFull c.core ((windowOf c.core (c.x 6)).2 / 16) == !full.isEmpty))
      (fun c => .send 4 (.task task) (if c.s.wordBusy c.aid (c.x 6) 16 then some ((windowOf c.core (c.x 6)).2 / 16) else none))) = true) ∧
    sends .heavy (demo .heavy rs) { h := H, len := 16, rd := [.s 1, .s 2] ++ quad 4, mem := true }
      (fun c => aligned c && c.s.inPanel c.t.ltag (c.x 1).toNat) (fun _ => .send 4 (.task task) none) ∧
    (demo' .heavy rs id (fun k => { k with seen := true })).meets tq
      (fun c => aligned c && ((c.s.core c.core).seen && c.t.kind != .super)) ∧
    (demo .heavy rs).meets tq (fun c => aligned c && !((c.s.core c.core).seen && c.t.kind != .super) &&
      (good (c.s.pushTask c.core task)).isSome) ∧
    sends .heavy queued dec
      (fun c => c.s.inPanel c.t.ltag ((c.x 0).toNat / 65536) && decide ((c.x 0).toNat / 65536 = c.core) &&
        (c.s.taskDec c.t.core ((c.x 0).toNat % 65536) []).isSome) (fun c => .taskOwn (c.x 0)) ∧
    (demo .heavy [(1, 0x40005)]).meets dec
      (fun c => c.s.inPanel c.t.ltag ((c.x 0).toNat / 65536) && decide ((c.x 0).toNat / 65536 ≠ c.core) &&
        decide (1 ≤ c.s.journalFree c.core)) ∧
    (demo' .heavy [] id (fun k => { k with taskIx := 5, taskq := [task] })).freeIndex 0 = 6 ∧
    ((demo .heavy []).core 0).seen = false ∧ (good ((demo .heavy []).pushTask 0 { task with num := 0 })).isSome = true := by
  decide +kernel

theorem witness_SpawnExitAndYield :
    let sp : Op := { h := H, rd := [.s 1], wr := [.s 3], first := true, mem := true }
    let counted (c : Cx) : Option State := do
      let (p, s1) ← got (c.counter (c.x 0) .both)
      let (_, s2) ← good (s1.atomUpdate c.aid false false .pkg p 8 (fun v => some (v + 1)))
      pure s2
    let ex : Op := { h := H, rd := [.s 1], blk := true, first := true, mem := true }
    let exr : Op := { ex with rd := [.s 1, .s 2, .s 3] }
    let quiet (c : Cx) : Bool := c.s.journalClear c.aid && c.t.traps.isEmpty
    let lit : State := demo .light [(1, own)]
    (demo' .heavy [] id (fun k => { k with seen := true })).meets sp (fun c => (c.s.core c.core).seen && c.t.kind != .super) ∧
    (demo .heavy [(1, own)]).meets sp (fun c => !(c.s.core c.core).seen && c.relReady && (do
      let s2 ← counted c
      let s4 := (s2.endRegion c.ag).newThread (childOf c.t c.core 0 (relTarget c.pc 4) 3 [s2.contrib c.ag .pkg])
      good (s4.2.pushDeque c.core s4.1)).isSome) ∧
    lit.meets sp (fun c => !(c.s.core c.core).seen && c.relReady && c.t.kind == .light && (do
      let s2 ← counted c
      match good (spawnLight c s2 3 (relTarget c.pc 4) false) with
      | some (.raw s3) => some s3
      | _ => none).isSome) ∧
    (demo .heavy []).meets { h := H, blk := true, first := true, mem := true } quiet ∧
    (demo' .heavy [(1, own), (3, far)] id (fun k => { k with sp := [(0x40, 1)] })).meets exr
      (fun c => quiet c && (c.replyCell (c.x 2)).isSome && c.s.isOwn c.t (c.x 0) && (c.s.chkSeg c.t 0 (c.x 0) 8 8 false true).isNone &&
        (c.s.chkSp c.t (c.x 0) 8).isNone && (match got (c.s.placeFor c.aid (c.x 0) 8 .both true) with
          | some (p, s1) => s1.val p 8 != 0 && (good (s1.atomUpdate c.aid true false .pkg p 8 (fun v => some (v - 1)))).isSome
          | none => false)) ∧
    (demo .heavy [(1, far), (3, far)]).meets exr
      (fun c => quiet c && (c.replyCell (c.x 2)).isSome && !c.s.isOwn c.t (c.x 0) &&
        (c.s.chkSeg c.t 0 (c.x 0) 8 8 false true).isNone && decide (1 ≤ c.s.journalFree c.core)) ∧
    (demo' .heavy [(1, own)] id (fun k => { k with sp := [(0x40, 1)] })).meets ex
      (fun c => quiet c && c.s.isOwn c.t (c.x 0) && (c.s.chkSeg c.t 0 (c.x 0) 8 8 false true).isNone &&
        (c.s.chkSp c.t (c.x 0) 8).isNone && (match got (c.s.placeFor c.aid (c.x 0) 8 .both true) with
          | some (p, s1) => s1.val p 8 != 0 && (good (s1.atomUpdate c.aid true false .pkg p 8 (fun v => some (v - 1)))).isSome
          | none => false)) ∧
    (demo .heavy [(1, far)]).meets ex
      (fun c => quiet c && !c.s.isOwn c.t (c.x 0) && (c.s.chkSeg c.t 0 (c.x 0) 8 8 false true).isNone &&
        decide (1 ≤ c.s.journalFree c.core)) ∧
    (demo .heavy [(2, far)]).meets { h := H, rd := [.s 1, .s 2], blk := true, first := true, mem := true }
      (fun c => quiet c && (c.replyCell (c.x 1)).isSome) ∧
    (demo .heavy []).meets { h := H, noHandler := true, blk := true, first := true, mem := true } (fun c => c.t.kind != .light) ∧
    (demo .light []).meets { h := H, noHandler := true, blk := true, first := true, mem := true }
      (fun c => c.t.kind == .light && (good (((c.s.leaveSlot c.aid .runq).modTh c.aid (fun t =>
        { t with pc := c.npc, seq := t.seq + 1, entering := false })).pushRun c.core c.aid)).isSome) := by decide +kernel

theorem witness_WaitsWhoseConditionHolds :
    let done (c : Cx) (s1 : State) (obj : WaitObj) : Bool :=
      match ({ s1 with order := s1.order + 1 } : State).waitReady c.aid ⟨obj, s1.order, c.npc, none, if c.t.kind = .light then none else some c.saved⟩ with
      | some x => (x.2.th c.aid).pend.isNone
      | none => false
    let ho : Op := { h := H, blk := true, first := true, mem := true }
    let wo : Op := { h := H, rd := [.s 1], noHandler := true, blk := true, first := true, mem := true }
    let clu (f : Cluster → Cluster) : State := (demo .heavy []).modClu 0 f
    let at_ (n : Nat) (c : Cx) (k : Nat → Nat → State → Bool) : Bool :=
      (c.s.chkSeg c.t 0 (c.x 0) n n true false).isNone && inWindow (c.x 0) && !c.s.wordBusy c.aid (c.x 0) n &&
        (match got (c.s.placeFor c.aid (c.x 0) n .read false) with
         | some (.sp q o, s1) => k q o s1
         | _ => false)
    let sp (k : Core) : Core := { k with sp := [(0x40, 1)], full := [4] }
    (clu (fun k => { k with event := 1 })).meets { h := H, noHandler := true, blk := true, first := true, mem := true }
      (fun c => done c c.s (.event (clusterOf c.core) 0)) ∧
    (clu id).meets ho (fun c => done c c.s (.handle (clusterOf c.core) 255 0)) ∧
    (clu (fun k => { k with handles := [(255, ⟨2, false, 0⟩)] })).meets ho
      (fun c => done c c.s (.handle (clusterOf c.core) 255 1) && done c c.s (.handle (clusterOf c.core) 255 2)) ∧
    (demo .heavy [(1, own)]).meets wo (fun c => !c.s.wordBusy c.aid (c.x 0) 8 && (match got (c.counter (c.x 0) .read) with
      | some (p, s1) => done c s1 (.join p (c.x 0))
      | none => false)) ∧
    (demo' .heavy [(1, own)] id sp).meets wo (fun c => at_ 16 c (fun q o s1 => done c s1 (.full q (o / 16)))) ∧
    (demo .heavy [(1, own)]).meets wo (fun c => at_ 8 c (fun q o s1 => done c s1 (.zero (.sp q o)))) ∧
    (demo' .heavy [(1, own)] id sp).meets
      { h := H, rd := [.s 1, .s 2], wr := [.s 3], noHandler := true, blk := true, first := true, mem := true }
      (fun c => at_ 8 c (fun q o s1 => done c s1 (.ne (.sp q o) (c.x 1) 3))) ∧
    (demo' .heavy [(1, own)] id sp).meets { h := H, len := 8, rd := memNames m1, wr := [.s 3], blk := true, first := true, mem := true }
      (fun c => at_ 8 c (fun q o s1 => (c.s.chkSp c.t (c.x 0) 8).isNone && s1.isFull q (o / 16) &&
        done c s1 (.load q o 8 false false 3) && done c s1 (.load q o 8 false true 3))) := by decide +kernel

/-- The launch is cancelled, with a mailbox to write. -/
def cancelled : State :=
  ((demo .heavy []).modLaunch 1 (fun l => { l with cancel := true, cbox := [(own, 18432)] })).modTh 18432 (fun t =>
    { t with loc := .exited })

theorem witness_EventsAndCancellation :
    let o : Op := { h := H, mem := true }
    let up (c : Cx) : Bool := c.s.eventUp c.aid (clusterOf c.core)
    let apart : State := demo' .heavy [] id (fun k => { k with site := .on 8 })
    ([true, false].all (fun set => sends .heavy (demo .heavy []) o up (fun _ => .event 0 0 set) &&
      apart.meets o (fun c => !up c)) = true) ∧
    sends .heavy (demo .heavy []) o always (fun _ => .cancel none) ∧
    sends .heavy (demo .heavy [(1, own)]) { h := H, rd := [.s 1], mem := true } (fun c => (got (c.counter (c.x 0) .write)).isSome)
      (fun c => .cancel (some (c.x 0))) (fun c => ((got (c.counter (c.x 0) .write)).map (·.2)).getD c.s) ∧
    (let s : State := { cancelled with flows := [⟨0, 18432, 1, 4, .cancel 1 0⟩] }
     s.cancelFlow 4 = some 0 ∧ (s.nextFlow 0).isSome = true ∧
       (({ s with flows := [] } : State).deliver 0 18432 1 4 (.cancel 1 0)).isSome = true) ∧
    (let s1 := ((cancelled.modCore 0 (fun k => { k with seen := true })).modCore 4 (fun k => { k with seen := true })).modLaunch 1
      (fun l => { l with engSeen := [1152, 1153, 1440] })
     (match s1.launch? 1 with
      | some l => s1.cancelDone l && (s1.th 18432).wait.isNone && (s1.th 18432).pend.isNone &&
        (match got (s1.placeFor 18432 own 8 .write true) with
         | some (p, s2) => (good (s2.atomWrite 18432 true .pkg p (leBytes 8 1))).isSome
         | none => false)
      | none => false) = true) := by decide +kernel

theorem witness_UserTrapEntersHandler :
    (demo .heavy []).meets { h := H } always ∧
    (let s := demo' .heavy [] id (fun k => { k with uxt := vwr k.uxt 27 1 })
     let t := s.th 18432
     t.outst = [] ∧ t.kind ≠ .super ∧ t.hh = false ∧ (s.uxtEntry t.core 27).getLsbD 0 = true ∧
       (match s.reachTh 18432 (frameAddr (s.core t.core).fb (s.tid t)) 64 .both with
        | (.mem p, s1) => !(s1.val p 8).testBit 31 && !s1.inPool p 64
        | _ => false) = true) := by decide +kernel

theorem witness_SupervisorEntry :
    ((demo .super []).core 0).ew = false ∧ ((demo .super []).latch 0 15).armed = false ∧
    ((demo .heavy []).th 18432).slot < 15 ∧ ((demo .super []).th 15).slot = 15 ∧
    ((demo' .super [] id (fun k => { k with ew := true })).core 0).ew = true ∧
    ((demo' .super [] id (fun k => { k with lat := vwr k.lat 15 { Latch.zero with cause := 0x80000000 } })).latch 0 15).armed = true := by
  decide +kernel

/-- A thread in a handler whose frame at FB is busy; its PC and NPC are 0x1000 and 0x1008. -/
def handling : State :=
  (demo' .heavy [(1, 0xFFFFC00000010000), (2, 0x3000)] (fun t => { t with hh := true }) id).putBytes (.sp 0 0x10000)
    (leBytes 8 0x8000001B ++ leBytes 8 0x1000 ++ leBytes 8 0x1008)

theorem witness_ExceptionReturn :
    [[Nm.s 1], [.s 1, .s 2]].all (fun rd => handling.meets { h := H, rd := rd, mem := true } (fun c =>
      c.s.holdsFrame c.aid (c.x 0) && (match got (c.s.placeFor c.aid (c.x 0) 64 .both false) with
        | some (p, s1) => s1.memWf && (s1.val p 8).testBit 31 && decide (s1.val (p.plus 8) 8 % 4 = 0 ∧
            s1.val (p.plus 16) 8 % 4 = 0 ∧ (c.x 1).toNat % 4 = 0)
        | none => false))) = true := by decide +kernel

/-- A plan of one entry, due at tack 4, in a state. -/
def planned (st : Nat) (s : State) : State :=
  s.modLaunch 1 (fun l => { l with plan := [{ (default : PlanEnt) with id := 7, due := 4, rel := 5, st := st }] })

theorem witness_Tacks :
    (planned 2 (demo .heavy [(1, 3)])).meets { h := H, rd := [.s 1], blk := true, first := true, mem := true } (fun c =>
      let tk : Nat := (c.x 0).toNat + 1
      c.s.journalClear c.aid && decide (c.t.lastTack < (tk : Int)) && (match (c.s.tackStart c.aid).launch? c.t.ltag with
        | some l => ((l.due c.t.lastTack tk) ++ l.lost c.t.lastTack).all (fun e => e.st == 2 || e.st == 3) &&
          decide ((l.due c.t.lastTack tk).length = 1)
        | none => false)) ∧
    (planned 2 (demo' .heavy [] (fun t => { t with ltack := some 4 }) id)).meets { h := H, blk := true, first := true, mem := true }
      (fun c => c.s.journalClear c.aid && decide ((4 : Int) ≤ c.t.lastTack)) ∧
    (demo .heavy []).meets { h := H, first := true, mem := true } always ∧ (demo .heavy []).meets (opSS H 1 2) always ∧
    ([2, 4].all (fun st => (planned st (demo .heavy [(1, 7)])).meets
      { h := H, rd := [.s 1], noHandler := true, blk := true, first := true, mem := true } (fun c =>
        ((c.s.planEnt? c.t.ltag.toNat 7).map (·.st)) == some st && c.t.pend.isNone)) = true) ∧
    (planned 3 (handling.putBytes (.sp 0 0x10018) [7])).meets
      { h := H, rd := [.s 1], noHandler := true, blk := true, first := true, mem := true } (fun c =>
        c.s.holdsFrame c.aid (c.x 0) && (match got (c.s.placeFor c.aid (c.x 0) 64 .both false) with
          | some (p, s1) => (s1.val p 8).testBit 31 && ((s1.planEnt? c.t.ltag.toNat (s1.val (p.plus 24) 8 % 2 ^ 32)).map (·.st)) == some 3 &&
            (s1.th c.aid).pend.isNone
          | none => false)) := by decide +kernel


/-- Core 0 with slot 1 of operand memory claimed by the running thread, and rows 7 and 8 open, of that thread and of another. -/
def claimed (k : Core) : Core :=
  { k with opm := vwr k.opm 1 ⟨some 18432, []⟩, acc := [(7, { zeroRow with opn := true, owner := some 18432 }),
    (8, { zeroRow with opn := true, owner := some 18433 })] }

/-- A stream of `n` dwords from offset 0x40 of the own scratchpad on. -/
def stream (n : Nat) : Stream := ⟨3, [n], [8], own, 0, 0, [], [], 0, none⟩

/-- Streams bound to s24, to v24 and to s25, all inputs unless `out` makes the first an output. -/
def streaming (n : Nat) (out : Bool) (k : Core) : Core :=
  { k with binds := [⟨18432, ⟨false, 0⟩, out, false, .affine (stream n)⟩, ⟨18432, ⟨true, 0⟩, false, false, .affine (stream n)⟩,
      ⟨18432, ⟨false, 1⟩, false, false, .affine (stream n)⟩] }

/-- A tree type with a node of FP32 lanes, installed at index 0 (R279). -/
def treed (k : Core) : Core := { k with trees := vwr k.trees 0 (some ⟨0, [⟨0, 0, 2, false, 0⟩]⟩) }

theorem witness_LongClassInstructions :
    let lo (l : Nat) (rd wr : List Nm) : Op := { h := H, len := l, rd := rd, wr := wr, long := true, mem := true }
    let ok (c : Cx) (n : Nat) (rd wr : Bool) : Bool :=
      (c.s.chkSeg c.t 0 (c.ea m1 0) n n rd wr).isNone && (c.s.chkSp c.t (c.ea m1 0) n).isNone
    let s (m : BitVec 32) : State := demo' .heavy [(1, own)] (fun t => { t with regs := { t.regs with m := vwr t.regs.m 1 m } }) id
    let emb : Op := { h := H, rd := [.s 1], own := [.s 24, .s 25], aff := [.s 24, .s 25], wr := [.v 1], heavy := true, long := true
                      mem := true }
    (demo .heavy [(1, own)]).meets (lo 8 [.s 1] [.s 3]) (fun c => ok c 1 true false && ok c 8 true false) ∧
    (demo .heavy [(1, own)]).meets (lo 8 [.s 1, .s 2] [.s 3]) (fun c => ok c 8 true true && ok c 4 true true) ∧
    (demo .heavy [(1, own)]).meets (lo 8 [.s 1, .s 2, .s 3] [.s 3]) (fun c => ok c 8 true true) ∧
    ([0, 0x80000001].all (fun m => (s m).meets { lo 8 [.s 1] [.v 1] with masks := [1] } (fun c =>
      let ls := laneAddrs (c.t.rM 1) (c.ea m1 0)
      decide ((c.ea m1 0).toNat % 4 = 0) && (c.chkEach 0 4 4 true false ls).isNone && ls.all (fun x => (c.s.chkSp c.t x.2 4).isNone) &&
        (ls.isEmpty == (m == 0)))) = true) ∧
    ([0, 3].all (fun m => (s m).meets { lo (gatherLen g1) (gatherNames g1) [.v 1] with masks := [1] } (fun c =>
      let es := c.gather g1 true 1
      (c.chkEach 0 8 8 true false es).isNone && (es.isEmpty == (m == 0)) && es.all (fun x => (c.s.chkSp c.t x.2 8).isNone))) = true) ∧
    (demo' .heavy [] id treed).meets (lo 8 [.s 1] [.p 1]) (fun c => (c.node 0 0 true none).isSome) ∧
    (demo' .heavy [] id treed).meets (lo 8 [.s 1] (keyRegs .f32 1 ++ predNames 1 ++ optS (some 2)))
      (fun c => (c.node 0 0 true (some .f32)).isSome) ∧
    (demo' .heavy [(1, own), (2, 0x8000001)] id claimed).meets
      { lo 8 [.s 1, .s 2] [.s 3] with heavy := true, noHandler := true } (fun c =>
        c.descOk (c.x 1) 16 && (c.s.chkSeg c.t 0 (c.ea m1 0) (slotDesc (c.x 1)).2.2 16 true false).isNone &&
          c.s.isOwn c.t (c.ea m1 0) && c.s.ownOk c.t (c.ea m1 0) (slotDesc (c.x 1)).2.2) ∧
    (demo' .heavy [(2, 0x40000001)] id (fun k => claimed (streaming 2 false k))).meets
      { h := H, rd := [.s 2], own := [.v 24], wr := [.s 3], heavy := true, noHandler := true, long := true, mem := true }
      (fun c => c.descOk (c.x 0) 128 && c.s.affineIn c.aid (.v (vport 0))) ∧
    ([0, 2].all (fun n => (demo' .heavy [] id (streaming n false)).meets emb (fun c => c.t.mode .rne != .st && c.t.mode .rst == .st)) = true) ∧
    (demo .super []).meets { h := H, rd := [.s 1, .s 2], wr := [.s 3], priv := true, long := true } always := by decide +kernel

/-- A thread with an outstanding load of its own scratchpad. -/
def loading : State := issued 18432 (.ld false 3 ⟨own, 8⟩ .plain) [.s 3] (demo .heavy [])

/-- What a read at `own` or in device memory meets: a place, and no conflict. -/
def reads (s : State) (a : Dword) (n : Nat) : Bool :=
  match s.reachTh 18432 a n .read with
  | (.mem p, s1) => (good (s1.plainRead 18432 0 false p n)).isSome && (good (s1.plainRead 18432 0 true p n)).isSome &&
    (good (s1.atomRead 18432 true .pkg p n)).isSome
  | _ => false

/-- A word of the own scratchpad that another agent wrote after what the running thread knows of. -/
def raced (s : State) : State := { s with stamps := [(.sp 0 16, ⟨some ⟨.host, 9, false, 0⟩, []⟩)] }

theorem witness_results_of_accesses :
    (∀ n ∈ [1, 2, 4, 8], reads loading own n = true) ∧
    ((raced loading).conflicts? (.thread 18432) false false (Place.words (.sp 0 0x40) 8)).isSome = true ∧
    (match (raced loading).reachTh 18432 own 8 .read with
     | (.mem p, s1) => decide (p = .sp 0 0x40) && (s1.boxContribs p 8).isEmpty
     | _ => false) = true ∧
    ([4, 8].all (fun n => loading.memWf && !loading.toAbsent 18432 own n && (match got (loading.placeFor 18432 own n .both true) with
     | some (p, s1) => (s1.conflicts? (.thread 18432) true true (p.words n)).isNone &&
       (s1.conflicts? (.thread 18432) false true (p.words n)).isNone && s1.val p n == 0
     | none => false)) = true) ∧
    ([4, 8].all (fun w => (got (loading.readEach 18432 w .plain [(0, own), (31, own + 8)])).isSome) = true) ∧
    ([0, 3].map (fun i => i) : List Nat).Nodup ∧ (got (loading.readAt 18432 own 4 .rp)).isSome = true ∧
    ((got (loading.readEach 18432 4 .plain [(7, own)])).map (·.1) = some [(7, 0)]) := by decide +kernel

theorem witness_results_of_fills :
    (let s := issued 18432 (.ofill 9 1 0 ⟨own, 16⟩ []) [.s 9] (demo' .heavy [(1, 2)] id claimed)
     ((got (s.readWord4 18432 (own + BitVec.ofNat 64 ([] : List Byte).length))).map (·.1) = some [0, 0, 0, 0]) ∧
     ((got (s.readWord4 18432 (own + BitVec.ofNat 64 (List.replicate 12 (5 : Byte)).length))).isSome = true)) := by decide +kernel

theorem witness_results_of_pops :
    ([128, 256].all (fun left =>
      let s := issued 18432 (.ofillS 9 1 0 256 left ⟨true, 0⟩) [.s 9] (demo' .heavy [] id (fun k => claimed { k with
        binds := [⟨18432, ⟨true, 0⟩, false, false, .affine { stream 16 with ahead := List.replicate 16 (5, []) }⟩] }))
      (got (s.fillPop 18432 0 1 (256 - left) ⟨true, 0⟩)).isSome) = true) := by decide +kernel

theorem witness_results_of_rows :
    (let s := demo' .heavy [] id (streaming 1 false)
     s.left 18432 ⟨false, 0⟩ = 1 ∧ (match got (s.peekElem 18432 ⟨false, 0⟩ 0) with
      | some (x, s1) => (match got (s1.peekElem 18432 ⟨false, 1⟩ 0) with
        | some (_, s2) =>
          let va := own + (x <<< 7)
          (s2.chkSeg (s2.th 18432) 0 va 128 128 true false).isSome && (s2.chkSeg (s2.th 18432) 0 (own + 0x40) 128 128 true false).isNone &&
            (s2.chkSp (s2.th 18432) (own + 0x40) 128).isNone && (got (s2.readAt 18432 (own + 0x40) 128 .plain)).isSome
        | none => false)
      | none => false) = true) := by decide +kernel

theorem witness_results_of_keys :
    let s (ks : List (Nat × KeyEnt)) : State := (demo' .heavy [] id (fun k => { treed k with keys := ks })).modLaunch 1 (fun l =>
      { l with spaces := [(0, space)] })
    let found (s : State) : Option (List (Nat × KeyEnt)) := (s.launch? 1).bind (fun l =>
      let cs := s.keyGoes 18432 l 0 5
      if cs.any (s.absent 1) || !cs.all (s.meetsCore 18432) then none else some (cs.eraseDups.filterMap (fun c => (s.core c).findKey 0 0 5)))
    (found (s [])).map List.length = some 0 ∧ (found (s [(0, ⟨5, 0, 0, false, 1, [0x3F800000, 0]⟩)])).map List.length = some 1 ∧
    ((demo .super []).occ ((demo .super []).slotHome 0 15) 15 = some 15) ∧ (0x000100000000000F : Dword).toNat = 2 ^ 48 + 15 := by
  decide +kernel

theorem witness_LongResultReturns :
    (decide (loading.occ 0 0 = some 18432) && loading.journalClear 18432 && (loading.unwrOf 18432).isEmpty &&
      (match (loading.th 18432).outst with
       | [o] => o.fault.isNone && loading.canGo 18432 o.seq o.sub o.op && (got (loading.longStep 18432 o)).isSome &&
         (match loading.reachTh 18432 own 8 .read with
          | (.mem p, s1) => (good (s1.plainRead 18432 0 false p 8)).isSome
          | _ => false)
       | _ => false)) = true := by decide +kernel

theorem witness_StoresPerformOrArePosted :
    let op (l : Nat) (rd : List Nm) : Op := { h := H, len := l, rd := rd, mem := true }
    let rds : List Nm := [.s 1, .s 2]
    let stv : Op := { op 8 [.s 1, .v 1] with masks := [1] }
    let sc : Op := { op 8 (gatherNames g1 ++ [.v 1]) with masks := [1] }
    let grant (c : Cx) (n al : Nat) (rd : Bool) : Bool := (c.s.chkSeg c.t 0 (c.ea m1 0) n al rd true).isNone
    let far_ (c : Cx) (ps : List StPart) : Bool := ps.all (fun p => !c.s.isOwn c.t p.at) && !ps.isEmpty &&
      decide (ps.length ≤ c.s.journalFree c.core)
    let near (c : Cx) (ps : List StPart) : Bool := ps.all (fun p => c.s.isOwn c.t p.at && p.bs.all (fun b =>
      (c.s.chkSp c.t (p.a + BitVec.ofNat 64 b.1) 1).isNone)) && !ps.isEmpty &&
      (match (c.send c.s (.own .plain (ps.map (fun x => (x.a, x.bs))))).ownParts c.aid .plain (ps.map (fun x => (x.a, x.bs))) with
       | .done _ _ => true
       | _ => false)
    let own_ (_ : Cx) (ps : List StPart) : JOp := .own .plain (ps.map (fun x => (x.a, x.bs)))
    let st (c : Cx) : List StPart := [⟨c.ea m1 0, offBytes 0 (leBytes 8 (c.x 1).toNat)⟩]
    let stvP (c : Cx) : List StPart := blockParts (c.ea m1 0) (laneAddrs (c.t.rM 1) (c.ea m1 0)) (c.v 1)
    let stvOk (c : Cx) : Bool := decide ((c.ea m1 0).toNat % 4 = 0) && (c.chkEach 0 4 4 false true (laneAddrs (c.t.rM 1) (c.ea m1 0))).isNone
    let scP (c : Cx) : List StPart := (c.gather g1 true 1).map (fun a => ⟨a.2, offBytes 0 (leBytes 8 (elem (c.v 2) 64 a.1))⟩)
    let scOk (c : Cx) : Bool := (c.chkEach 0 8 8 false true (c.gather g1 true 1)).isNone
    let s (a : Dword) (m : BitVec 32) : State :=
      demo' .heavy [(1, a)] (fun t => { t with regs := { t.regs with m := vwr t.regs.m 1 m } }) id
    (demo .heavy [(1, far)]).meets (op 8 rds) (fun c => grant c 8 8 false && far_ c (st c)) ∧
    sends .heavy (demo .heavy [(1, own)]) (op 8 rds) (fun c => grant c 8 8 false && near c (st c)) (fun c => own_ c (st c)) ∧
    (s far 0).meets stv (fun c => stvOk c && (stvP c).isEmpty) ∧ (s far 5).meets stv (fun c => stvOk c && far_ c (stvP c)) ∧
    sends .heavy (s own 5) stv (fun c => stvOk c && near c (stvP c)) (fun c => own_ c (stvP c)) ∧
    (s far 0).meets sc (fun c => scOk c && (scP c).isEmpty) ∧ (s far 5).meets sc (fun c => scOk c && far_ c (scP c)) ∧
    sends .heavy (s own 1) sc (fun c => scOk c && near c (scP c)) (fun c => own_ c (scP c)) ∧
    (demo .heavy [(1, far)]).meets (op 8 rds) (fun c => grant c 8 8 true && !c.s.isOwn c.t (c.ea m1 0)) ∧
    sends .heavy (demo .heavy [(1, own)]) (op 8 rds) (fun c => grant c 8 8 true && c.s.isOwn c.t (c.ea m1 0) &&
      (c.s.chkSp c.t (c.ea m1 0) 8).isNone &&
      (got ((c.send c.s (.amo .add (c.ea m1 0) 8 (c.x 1) .rlx .pkg)).amoAt c.aid (c.ea m1 0) 8 .rlx .pkg none .add (c.x 1).toNat)).isSome)
      (fun c => .amo .add (c.ea m1 0) 8 (c.x 1) .rlx .pkg) ∧
    (demo .heavy [(1, far)]).meets (op 8 [.s 1]) (fun c => grant c 16 16 false && inWindow (c.ea m1 0) && !c.s.isOwn c.t (c.ea m1 0)) ∧
    sends .heavy (demo .heavy [(1, own)]) (op 8 [.s 1]) (fun c => grant c 16 16 false && inWindow (c.ea m1 0) &&
      c.s.isOwn c.t (c.ea m1 0) && (c.s.chkSp c.t (c.ea m1 0) 16).isNone) (fun c => .fe c.core ((windowOf c.core (c.ea m1 0)).2 / 16) true) ∧
    sends .heavy (demo .heavy []) { h := H, mem := true } always (fun _ => .fence .seq .pkg) := by decide +kernel

/-- The source of STPAIR at `own`, its areas in device memory. -/
def pairing : State := demo .heavy [(1, own), (2, 0x100000), (3, 0x200000)]

theorem witness_PairedStoresAndEmbeddingUpdates :
    let emb : Op := { h := H, own := [.s 24], aff := [.s 24], peek := [.s 1, .v 1, .s 2], heavy := true, mem := true }
    let next (c : Cx) (s : State) : Option (Option Vec × State) := do
      let (_, s1) ← got (s.fillAhead c.aid ⟨false, 0⟩ 1 1)
      let q ← s1.bindOf c.aid ⟨false, 0⟩
      match s1.pop q c.t.seq with
      | .got v s2 => some (some v, s2)
      | .empty => some (none, s1)
      | _ => none
    let ends (c : Cx) (s : State) : Bool := match next c s with
      | some (none, s4) => (match c.peeks s4 [.s 1, .v 1, .s 2] with
        | .got _ _ _ => true
        | _ => false)
      | _ => false
    let start (c : Cx) : Bool := !c.t.kept.any (fun e => e.1 == c.pc) && (match c.peeks c.s [.s 1, .v 1, .s 2] with
      | .got _ _ _ => true
      | _ => false)
    let one (c : Cx) (f : Dword → State → State → Bool) : Bool := start c && (match got (c.s.fillAhead c.aid ⟨false, 0⟩ 1 1), next c c.s with
      | some (_, s3), some (some n, s4) =>
        let va := c.t.rS 1 + (n.setWidth 64 <<< 7)
        decide (1 ≤ c.s.left c.aid ⟨false, 0⟩) && (s3.chkSeg c.t 0 va 128 128 true true).isNone && f va s3 s4
      | _, _ => false)
    let op (c : Cx) (va : Dword) : JOp := .emb .f32 .rne va (c.t.rS 2) (c.t.rV 1)
    let post (c : Cx) (va : Dword) (s4 : State) : Outst :=
      ⟨c.t.seq, s4.nextSub c.aid, c.pc, c.npc, .post (op c va), [], s4.save c.aid, none, 0⟩
    pairing.meets { h := H, len := 16, rd := [.s 1, .s 2, .s 3], mem := true } (fun c =>
      let sb := c.x 0
      let rows := (List.range 32).map (fun i => (i, c.x 1 + BitVec.ofNat 64 (64 * i))) ++
        (List.range 32).map (fun i => (i, c.x 2 + BitVec.ofNat 64 (64 * i)))
      decide (sb.toNat % 64 = 0 ∧ (c.x 1).toNat % 64 = 0 ∧ (c.x 2).toNat % 64 = 0) &&
        (c.s.chkSeg c.t 0 sb 2048 64 true false).isNone && (c.chkEach 0 64 64 false true rows).isNone &&
        rows.all (fun r => !inWindow r.2) && !areasMeet (c.x 1).toNat (c.x 2).toNat 64 64 64 && c.s.isOwn c.t sb &&
        c.s.ownOk c.t sb 2048 && !c.s.wordBusy c.aid sb 2048 && !c.s.acqPending c.aid &&
        (match got (c.s.placeFor c.aid sb 2048 .read false) with
         | some (p, s1) => (match good (s1.plainRead c.aid c.core false p 2048) with
           | some (_, s2) => decide (1 ≤ s2.journalFree c.core)
           | none => false)
         | none => false)) ∧
    (demo' .heavy [] id (streaming 0 false)).meets emb (fun c => start c && ends c c.s) ∧
    (demo' .heavy [(1, 0x100000)] id (streaming 1 false)).meets emb (fun c => one c (fun va s3 s4 =>
      !s3.isOwn c.t va && decide (1 ≤ s4.journalFree c.core) && ends c (s4.postEnts c.core
        [⟨c.num, c.aid, c.t.seq, s4.nextSub c.aid, c.pc, op c va, .waiting, none⟩]))) ∧
    (demo' .heavy [(1, own + 0x40)] id (streaming 1 false)).meets emb (fun c => one c (fun va s3 s4 =>
      s3.isOwn c.t va && (s3.chkSp c.t va 128).isNone && s4.canGo c.aid c.t.seq (s4.nextSub c.aid) (.post (op c va)) &&
        (match s4.embUpdate c.aid .f32 ((s4.th c.aid).modeNoSt .rne) va (c.t.rS 2) (c.t.rV 1) with
         | .done fl s5 => ends c (s5.modTh c.aid (fun t => { t with stage := t.stage ||| fl }))
         | _ => false))) ∧
    (held (demo' .heavy [(1, own + 0x40)] id (streaming 1 false)) 18432).meets { emb with own := [.s 24] } (fun c => one c (fun va s3 s4 =>
      s3.isOwn c.t va && (s3.chkSp c.t va 128).isNone && !s4.canGo c.aid c.t.seq (s4.nextSub c.aid) (.post (op c va)) &&
        ends c (s4.modTh c.aid (fun t => { t with outst := t.outst ++ [post c va s4] })))) := by decide +kernel

theorem witness_updated_row :
    (match got (pairing.placeFor 18432 own 128 .both true) with
     | some (p, s1) => s1.memWf && (s1.conflicts? (.thread 18432) true false (p.words 128)).isNone
     | none => false) = true := by decide +kernel

/-- A word of device memory read and written by the running thread, and one that another agent wrote unseen. -/
theorem witness_conflicts_and_caches :
    let s := loading
    let x : State := { s with stamps := [(.phys 64, ⟨some ⟨.host, 9, false, 0⟩, []⟩)] }
    (x.conflict? (.thread 18432) (.phys 64) true false).isSome = true ∧ s.conflict? (.thread 18432) (.phys 64) true false = none ∧
    (match s.touch (.thread 18432) true false (.phys 256) 8 with
     | .ok _ => true
     | _ => false) = true ∧ s.memWf = true ∧ (s.boxContribs (.phys 256) 4).isEmpty = true ∧
    (good (s.plainRead 18432 0 false (.phys 256) 4)).isSome = true ∧
    (good (s.plainWrite (.thread 18432) (some 0) false (.phys 256) [1, 2, 3, 4])).isSome = true ∧
    (good (s.atomRead 18432 false .pkg (.phys 256) 4)).isSome = true ∧
    (good (s.atomWrite 18432 true .pkg (.phys 256) [1, 2, 3, 4])).isSome = true := by decide +kernel

theorem witness_OperandsOfRegisters :
    let s := demo .heavy [(1, 5)]
    let o := opSSS H 3 1 2
    s.occ s.cur.1 s.cur.2 = some 18432 ∧ (s.th 18432).outst = [] ∧ (s.th 18432).isOut (.p 0) = false ∧
      (s.th 18432).guardHolds H = true ∧ s.opExc 18432 s.cur.2 o = none ∧ s.mustWait 18432 o = false ∧
      s.unbound 18432 (o.rd ++ o.wr) = true := by decide +kernel

theorem witness_FalseGuardHasNoEffect :
    let s := demo .heavy []
    s.occ s.cur.1 s.cur.2 = some 18432 ∧ (s.th 18432).isOut (.p 31) = false ∧
      (s.th 18432).guardHolds ⟨false, 31, true⟩ = false := by decide +kernel

theorem witness_frames :
    (demo .heavy []).meets (opSSS H 31 30 29) (fun c => c.s.unbound c.aid [.s 30, .s 29, .s 31]) ∧
    (demo .light []).meets (vecOp H [.v 7, .v 6] 5 0) (fun c => c.s.unbound c.aid [.v 7, .v 6, .v 5]) ∧
    (let s := demo .heavy []
     s.memWf = true ∧ (match s.writeRuns 18432 own [(0, 1), (1, 2)] .plain none true with
       | .done _ _ => true
       | _ => false) = true ∧
     (match s.destOf 18432 ((byteRuns [(0, 1), (1, 2)]).map (fun r => (own + BitVec.ofNat 64 r.1, r.2))) with
       | .places ps _ => decide (ps.length = 1)
       | _ => false) = true) := by decide +kernel

theorem witness_frame_operands :
    scalarOp (.add H 31 30 29) = some (opSSS H 31 30 29, 31) ∧
    vectorOp (.vadd H .f32 .rne 5 7 6 0) = some (vecOp H [.v 7, .v 6] 5 0, 5) := ⟨rfl, rfl⟩

theorem witness_vector_results :
    (demo .heavy []).meets (vecOp H [.v 1, .v 2] 31 7) always ∧ (demo .light []).meets (vecOp H [.v 1, .v 2, .v 3] 4 0) always ∧
    (demo .heavy []).meets (vecOp H [.v 1] 3 0) always ∧ (demo .heavy []).meets (vecOp H [] 3 0) always ∧
    (demo .heavy []).meets (vecOp H [.s 1] 3 0) always ∧ (demo .heavy []).meets (vecOp H [.v 1, .v 2, .v 3, .v 4] 4 0) always ∧
    (demo .heavy []).meets { h := H, rd := [.v 1, .v 2], masks := [2, 1] } always ∧
    (demo .heavy []).meets { h := H, rd := [.v 1, .v 2, .v 3], wr := [.v 3, .v 2] } always ∧
    (demo .heavy []).meets { h := H, rd := [.v 1], wr := [.s 3] } always ∧
    (demo .heavy []).meets { h := H, rd := [.s 1, .v 3], wr := [.v 3] } always ∧ 8 * (127 : BitVec 7).toNat + 8 ≤ 1024 ∧
    (demo .heavy []).meets { h := H, masks := [1, 2, 0] } always ∧ (demo .heavy []).meets { h := H, rd := [.s 1], masks := [1] } always ∧
    (demo .heavy []).meets { h := H, wr := [.s 1], masks := [7] } always := by decide +kernel

theorem witness_VectorReductionsAndRowAccumulation :
    let o (dbl : Bool) : Op := { h := H, rd := [.s 1, .v 2], nob := (vsaccDests dbl 4 1).map Nm.v ++
      (if dbl then [.v 6, .v 7] else [.v 6]), masks := [1], heavy := true }
    let bad (dbl : Bool) (c : Cx) : Bool :=
      decide ((c.s.core c.core).accRows < (c.x 0).toNat + (vsaccDests dbl 4 1).length ∨ (dbl = true ∧ (c.x 0).toNat % 2 = 1))
    let opn (dbl : Bool) (c : Cx) : Bool :=
      (List.range (vsaccDests dbl 4 1).length).any (fun i => ((c.s.core c.core).row ((c.x 0).toNat + i)).opn)
    (demo .heavy [(1, 510)]).meets (o false) (fun c => !bad false c && !opn false c) ∧
    (demo .heavy [(1, 508)]).meets (o true) (fun c => !bad true c && !opn true c) ∧
    (demo .heavy [(1, 511)]).meets (o false) (bad false) ∧ (demo .heavy [(1, 1)]).meets (o true) (bad true) ∧
    (demo' .heavy [(1, 7)] id claimed).meets (o false) (fun c => !bad false c && opn false c) := by decide +kernel


/-! ### Witnesses of the array, the ports and the key tables -/

theorem witness_OperandSlotsClaimedAndReleased :
    let owns (c : Cx) (i : Nat) : Bool := (c.s.core c.core).slotOwner i == some c.aid
    let named (c : Cx) : List Nat := slotsOf ((c.x 0).setWidth 32)
    let o (rd wr : List Nm) (l : Bool) : Op := { h := H, rd := rd, wr := wr, heavy := true, noHandler := true, long := l }
    (demo .heavy []).meets (o [] [.s 3] true) always ∧
    (demo' .heavy [(1, 0x8000000C)] id claimed).meets (o [.s 1] [.s 3] true) (fun c =>
      decide ((c.x 0).toNat < 2 ^ 32) && c.x 0 != 0 && !(named c).any (owns c)) ∧
    (demo' .heavy [(1, 2)] id claimed).meets (o [.s 1] [] false) (fun c =>
      decide ((c.x 0).toNat < 2 ^ 32) && (named c).all (owns c) && !(named c).any c.t.filling) ∧
    (demo' .heavy [(1, 6)] id claimed).meets (o [.s 1] [] false) (fun c =>
      decide ((c.x 0).toNat < 2 ^ 32) && !(named c).all (owns c)) ∧
    (issued 18432 (.ofill 9 1 0 ⟨own, 16⟩ []) [.s 9] (demo' .heavy [(1, 2)] id claimed)).meets (o [.s 1] [] false) (fun c =>
      decide ((c.x 0).toNat < 2 ^ 32) && (named c).all (owns c) && (named c).any c.t.filling) ∧
    (let c : Claim := ⟨18432, 0, 3, none⟩
     let s := demo' .heavy [] id (fun k => { claimed k with claims := [c] })
     s.here 0 = true ∧ (s.core 0).claims = [c] ∧ ((s.th 18432).before 0 0).all (fun o => o.op.quiet) = true ∧
       s.claimSlots 0 c = some [0, 2, 3] ∧ s.claimSlots 0 ⟨18432, 0, 0, some 0x8000000C⟩ = some [2, 3, 31]) := by
  decide +kernel

/-- Core 0 with an array instruction at the head of its queue. -/
def arrayed (o : Instr) (opened : Bool) (l : Option ArrLatch) : State :=
  let s := demo .heavy []
  s.modCore 0 (fun k => { claimed k with arrq := [⟨s.save 18432, 18432, 0x1000, 0x1010, o, 0, 0, opened⟩], latch := l })

theorem witness_ArrayInstructions :
    let o (rd : List Nm) : Op := { h := H, len := 16, rd := rd, heavy := true, noHandler := true, first := true }
    let l : ArrLatch := ⟨18432, .f16, []⟩
    (demo .heavy []).meets (o []) always ∧ (demo .heavy []).meets (o [.s 1, .s 2]) always ∧
    (let x := arrayed (.wlatch H .f16 1) false none
     x.here 0 = true ∧ (x.core 0).slotOwner 1 = some 18432 ∧ (x.th 18432).filling 1 = false ∧ (x.core 0).arrq.length = 1) ∧
    (let x := arrayed (.mma H .f16 .once 1 2 1 3) false (some l)
     (x.core 0).mmaCheck (x.th 18432) 18432 .f16 .once 1 0 0 4 = 0 ∧ x.slotBad 0 1 = false) ∧
    ({ arrayed (.wlatch H .f16 1) false none with badOp := [(0, 1)] } : State).slotBad 0 1 = true ∧
    (let x := arrayed (.mma H .f16 .once 1 2 1 3) true (some l)
     x.here 0 = true ∧ (x.core 0).latch = some l ∧ (x.core 0).arrq.length = 1) := by decide +kernel

theorem witness_AccumulatorRows :
    let k (c : Cx) : Core := c.s.core c.core
    let row (c : Cx) : AccRow := (k c).row (c.x 0).toNat
    let o (rd wr : List Nm) (ms : List MReg) : Op := { h := H, rd := rd, wr := wr, masks := ms, heavy := true, noHandler := true }
    let out (c : Cx) : Bool := decide ((k c).accRows ≤ (c.x 0).toNat)
    let rows (c : Cx) : List Nat := (List.range (c.x 1).toNat).map (fun i => (c.x 0).toNat + i)
    let z (a n : Dword) : State := demo' .heavy [(1, a), (2, n)] id claimed
    let at_ (n : Dword) : State := z n 1
    (z 510 2).meets (o [.s 1, .s 2] [] []) (fun c =>
      decide ((c.x 0).toNat + (c.x 1).toNat ≤ (k c).accRows) && decide (0 < (c.x 1).toNat) &&
        (rows c).all (fun x => !((k c).row x).opn || ((k c).row x).owner == some c.aid)) ∧
    (z 600 0).meets (o [.s 1, .s 2] [] []) (fun c => c.x 1 == 0) ∧
    (z 511 2).meets (o [.s 1, .s 2] [] []) (fun c =>
      decide (0 < (c.x 1).toNat) && decide ((k c).accRows < (c.x 0).toNat + (c.x 1).toNat)) ∧
    (z 7 2).meets (o [.s 1, .s 2] [] []) (fun c =>
      decide ((c.x 0).toNat + (c.x 1).toNat ≤ (k c).accRows) && decide (0 < (c.x 1).toNat) &&
        (rows c).any (fun x => ((k c).row x).opn && ((k c).row x).owner != some c.aid)) ∧
    (at_ 511).meets (o [.s 1] [.v 1] [1]) (fun c => !out c && !(row c).opn) ∧
    (at_ 7).meets (o [.s 1] [.v 1] [1]) (fun c => !out c && (row c).owner == some c.aid) ∧
    (at_ 512).meets (o [.s 1] [.v 1] [1]) out ∧
    (at_ 7).meets (o [.s 1] [.v 1] [1]) (fun c => !out c && (row c).opn) ∧
    (at_ 8).meets (o [.s 1] [.v 1] [1]) (fun c => !out c && (row c).opn && (row c).owner != some c.aid) ∧
    (at_ 7).meets (o [.s 1, .v 1] [] [1]) (fun c => !out c && (!(row c).opn || (row c).owner == some c.aid)) ∧
    (at_ 512).meets (o [.s 1, .v 1] [] [1]) out ∧
    (at_ 8).meets (o [.s 1, .v 1] [] [1]) (fun c => !out c && (row c).opn && (row c).owner != some c.aid) ∧
    (demo .heavy []).meets { o [] [.s 3] [] with first := true } (fun c => !c.s.flagsPending c.aid) := by decide +kernel

/-- Core 0 with a binding of s24. -/
def bound (out : Bool) (p : PortKind) (k : Core) : Core := { k with binds := [⟨18432, ⟨false, 0⟩, out, false, p⟩] }

/-- A descriptor of four dwords of segment 0, at `own` (R98). -/
def described : State :=
  (demo .heavy [(1, own)]).putBytes (.sp 0 0x40) (leBytes 8 0x0030FFFF00000000 ++ leBytes 8 4 ++ leBytes 8 8)

theorem witness_BindingsMadeAndEnded :
    let free (out fwd : Bool) (p : PortSel) (c : Cx) : Bool := (c.s.bindOf c.aid ⟨false, 0⟩).isNone &&
      !(portEnds out fwd p).any ((c.s.core c.core).binds.flatMap Binding.ends).contains
    let pb (rd : List Nm) : Op := { h := H, rd := rd, heavy := true, noHandler := true, first := true, mem := true }
    let plain : Op := { h := H, heavy := true, noHandler := true, mem := true }
    let drain : Op := { h := H, wr := [.s 3], heavy := true, noHandler := true, long := true, mem := true }
    let has (out : Bool) (p : PortKind → Bool) (c : Cx) : Bool := match c.s.bindOf c.aid ⟨false, 0⟩ with
      | some b => b.out == out && p b.port
      | none => false
    let isAff (p : PortKind) : Bool := match p with
      | .affine st => st.unwr.isEmpty
      | _ => false
    let inner : State := { demo .heavy [] with cores := [(0, core0 .heavy), (1, { Core.reset 1 with ltag := 1, part := word })] }
    inner.meets (pb []) (fun c => free true false (.link true false) c && (c.s.linkPeer c.core true).isSome) ∧
    (demo .heavy []).meets (pb []) (free true false (.queue 7 false)) ∧
    (demo' .heavy [] id (fun k => { k with net := vwr k.net 3 ⟨.listening, some 18432, [], 0, 0, 0, 0, []⟩ })).meets (pb []) (fun c =>
      let q := vrd (c.s.core c.core).net 3
      free false false (.net 3 false) c && q.opens false && !q.lands && q.opener == some c.aid) ∧
    described.meets (pb [.s 1])
      (fun c =>
        let va := c.ea ⟨0, some 1, none, 0, none⟩ 0
        free false false (.affine 0 (some 1) none) c && (c.s.chkSeg c.t 0 va 32 32 true false).isNone &&
          (c.s.chkSp c.t va 32).isNone && !c.s.wordBusy c.aid va 32 && (do
            let (q, s1) ← got (c.s.placeFor c.aid va 32 .read false)
            let (_, s2) ← good (s1.plainRead c.aid c.core false q 32)
            let st ← readDesc false (descDwords (s1.bytes q 32)) (fun g => (s2.seg c.t g).base)
            pure (st.misaligned.isNone && s2.streamOk c.t false st && decide ((s2.core c.core).affines < 8))) == some true) ∧
    (demo' .heavy [] id (bound false (.queue 7))).meets (pb []) (fun c => !free false false (.queue 7 false) c) ∧
    (demo' .heavy [] id (bound false (.queue 7))).meets plain (has false (· == .queue 7)) ∧
    (demo' .heavy [] id (streaming 2 true)).meets plain (has true isAff) ∧
    (demo .heavy []).meets plain (fun c => (c.s.bindOf c.aid ⟨false, 0⟩).isNone) ∧
    (demo .heavy []).meets drain (fun c => (c.s.bindOf c.aid ⟨false, 0⟩).isNone) ∧
    (demo' .heavy [] id (streaming 2 true)).meets drain (has true isAff) ∧
    (demo' .heavy [] id (streaming 2 false)).meets drain (has false isAff) ∧
    (demo' .heavy [] id (bound false (.queue 7))).meets drain (has false (· == .queue 7)) ∧
    (demo' .heavy [] id (bound false (.link true))).meets drain (has false (· == .link true)) ∧
    (demo' .heavy [] id (bound false (.net 3))).meets drain (has false (· == .net 3)) := by decide +kernel

theorem witness_stream_moves :
    (let s := demo' .heavy [] id (streaming 2 false)
     let st := stream 2
     decide ((s.core 0).binds[0]? = some ⟨18432, ⟨false, 0⟩, false, false, .affine st⟩) && decide (st.taken + st.ahead.length < st.total) &&
       s.here 0 && !s.elemBusy 18432 st.since (st.addr 0) 8 && !s.elemHeld 18432 st.since (st.addr 0) 8 &&
       (got (s.elemRead 18432 st 0)).isSome) = true ∧
    (let st : Stream := { stream 2 with taken := 1, unwr := [(0, own, 0x1000, 9)] }
     let b : Binding := ⟨18432, ⟨false, 0⟩, true, false, .affine st⟩
     let s := demo' .heavy [] id (bound true (.affine st))
     s.elemGoes 18432 0 own 8 && (match got (s.elemWrite b) with
      | some (_, s1) => decide (s1.val (.sp 0 0x40) 8 = 9)
      | none => false)) = true := by decide +kernel

/-- Routes between the clusters (0, 0) and (1, 0), and to the I/O die at their end (R380). -/
def wired (s : State) : State :=
  { s with clus := [(0, { s.clu 0 with route := [(0, 0x8020), (1, 0x8082), (288, 0x8041)] }),
      (1, { s.clu 1 with route := [(0, 0x8041), (1, 0x8020), (288, 0x8041)] })] }

/-- Core 0 with its network port 0 as given. -/
def netted (p : NetPort) (k : Core) : Core := { k with net := vwr k.net 0 p }

theorem witness_NetworkPorts :
    let o (rd wr : List Nm) (l : Bool) : Op := { h := H, rd := rd, wr := wr, heavy := true, noHandler := true, long := l }
    let p (c : Cx) : NetPort := vrd (c.s.core c.core).net 0
    let idle (c : Cx) : Bool := !c.t.porting 0
    let shut (c : Cx) : Bool := idle c && (p c).st == .closed
    let s : State := demo .heavy [(1, 4), (2, 3), (3, own + 0x40), (4, 128)]
    sends .heavy s (o [] [] false) shut (fun _ => .listen 0 none) ∧
    (demo' .heavy [] id (netted ⟨.listening, some 18432, [], 0, 0, 0, 0, []⟩)).meets (o [] [] false)
      (fun c => idle c && !((p c).st == .closed)) ∧
    s.meets (o [.s 1, .s 2] [.s 3] true) (fun c => shut c && decide ((c.x 1).toNat < 4) && c.s.inPanel c.t.ltag (c.x 0).toNat) ∧
    sends .heavy s (o [.s 3, .s 4] [] false) (fun c => shut c &&
      decide ((c.x 0).toNat % 128 = 0 ∧ (c.x 1).toNat ≠ 0 ∧ (c.x 1).toNat % 128 = 0) &&
      (c.s.chkSeg c.t 0 (c.x 0) (c.x 1).toNat 128 false true).isNone && c.s.isOwn c.t (c.x 0) &&
      c.s.ownOk c.t (c.x 0) (c.x 1).toNat) (fun c => .listen 0 (some ((windowOf c.core (c.x 0)).2, (c.x 1).toNat))) ∧
    ([NetSt.listening, .sending 4 1, .landing none].all (fun st =>
      sends .heavy (demo' .heavy [] id (netted ⟨st, some 18432, [], 0, 0, 0, 0, []⟩)) (o [] [] false) (fun c =>
        idle c && (p c).opener == some c.aid && !(c.s.core c.core).netBound 0) (fun _ => .close 0)) = true) ∧
    s.meets (o [] [] false) shut ∧
    (let e : NetEl := ⟨false, false, 5, [], 0, [], 0⟩
     let x := demo' .heavy [] id (netted ⟨.landing (some (4, 1)), some 18432, [e], 0x80, 128, 0, 0, []⟩)
     x.here 0 = true ∧ ((vrd (x.core 0).net 0).slotsFor e).all (fun g => !x.isFull 0 (g.1 / 16)) = true ∧
       (vrd (x.core 0).net 0).q = [e]) ∧
    (let e : NetEl := ⟨true, false, 0, [], 0, [], 0⟩
     (vrd ((demo' .heavy [] id (netted ⟨.receiving 4 1, some 18432, [e], 0, 0, 0, 0, []⟩)).core 0).net 0).q = [e]) ∧
    ((s.modCore 4 (fun k => { k with ltag := 2 })).core 4).ltag ≠ (s.th 18432).ltag ∧
    ([NetSt.closed, .receiving 4 1, .listening].all (fun st =>
      let x := s.modCore 4 (fun k => { k with net := vwr k.net 3 ⟨st, none, [], 0, 0, 0, 0, []⟩ })
      let x := wired x
      (x.core 4).ltag == (x.th 18432).ltag && !x.absent 1 4 &&
        (match x.way true false (x.port (x.th 18432)) (clusterOf (x.phys 4)) with
         | .through => true
         | _ => false)) = true) := by decide +kernel

/-- An entry of node 0 in way 0. -/
def keyed (k : Core) : Core := { treed k with keys := [(0, ⟨5, 0, 0, false, 1, [0x3F800000, 0]⟩)] }

theorem witness_KeyTableInstructions :
    let o (l : Nat) (rd wr : List Nm) : Op := { h := H, len := l, rd := rd, wr := wr, mem := true }
    let room (c : Cx) : Bool := decide (1 ≤ c.s.journalFree c.core)
    let lim (c : Cx) : Nat := match c.s.launch? c.t.ltag with
      | some l => 8 * l.buckets
      | none => 0
    let acc : Op := { o 16 (.s 1 :: keyRegs .f32 1) [] with masks := [1] }
    let put (b : Option SReg) : Op := o 8 ([.s 1] ++ optS b ++ keyRegs .f32 1) []
    let scan : Op := { o 8 [.s 1] [.s 3, .s 4] with sync := true }
    let s : State := demo' .heavy [(1, own)] id keyed
    s.meets acc (fun c => room c && (c.node 0 0 false (some .f32)).isSome) ∧
    s.meets acc (fun c => (c.node 0 1 false (some .f32)).isNone) ∧
    ([some 2, none].all (fun b => s.meets (put b) (fun c => room c && (c.node 0 0 true (some .f32)).isSome) &&
      s.meets (put b) (fun c => (c.node 3 15 true (some .f32)).isNone)) = true) ∧
    s.meets (o 8 [.s 1] []) (fun c => room c && (c.node 0 0 true none).isSome) ∧
    s.meets (o 8 [.s 1] []) (fun c => (c.node 1 0 true none).isNone) ∧
    (demo' .heavy [(1, 1)] id keyed).meets scan (fun c => (c.node 0 0 true none).isSome && !c.s.keyBusy c.aid &&
      ((c.s.core c.core).scan 0 0 (c.x 0).toNat (lim c)).isNone) ∧
    (demo' .heavy [] id keyed).meets scan (fun c => (c.node 0 0 true none).isSome && !c.s.keyBusy c.aid &&
      (((c.s.core c.core).scan 0 0 (c.x 0).toNat (lim c)).map (·.1) == some 0)) ∧
    (demo .heavy []).meets (opSS H 3 1) (fun c => ((c.s.launch? c.t.ltag).bind (fun l => l.space? 1)).isNone) ∧
    ((demo .heavy []).modLaunch 1 (fun l => { l with spaces := [(1, space)] })).meets (opSS H 3 1)
      (fun c => ((c.s.launch? c.t.ltag).bind (fun l => l.space? 1)).isSome) ∧
    (let e : JEnt := ⟨0, 18432, 0, 0, 0x1000, .key 2 0 0 5 [] 0 .rne 0, .sent, none⟩
     let x := demo' .heavy [] id (fun k => { keyed k with jrn := vwr k.jrn 2 (some e) })
     (match vrd (x.core 0).jrn 2 with
      | some j => decide (j = e) && x.wordsFree j.aid j.seq j.sub (.post j.op) && (match x.perform j with
        | .done _ _ => true
        | _ => false)
      | none => false) = true) := by decide +kernel

/-! ### Witnesses of positions, copies and plans -/

/-- The demo with the space on number 1 and a launch as changed. -/
def spaced (k : ThKind) (rs : List (Nat × Dword)) (f : Thread → Thread) : State :=
  (demo' k rs f id).modLaunch 1 (fun l => { l with spaces := [(1, space)] })

/-- The point (3, 4, 0) of space 1. -/
def pt : Dword := mkPoint 1 3 4 0

theorem witness_tree_type :
    let o : Op := { h := H, len := 8, rd := [.s 1], first := true, mem := true }
    ((spaced .heavy [(1, own)] id).putBytes (.sp 0 0x40) (leBytes 8 0x101 ++ leBytes 8 0 ++ leBytes 8 0x200)).meets o (fun c =>
      (c.s.chkSeg c.t 0 (c.ea m1 0) 272 16 true false).isNone && (c.s.chkSp c.t (c.ea m1 0) 272).isNone && c.relReady && (do
        let (ps, s1) ← got (c.s.piecesFor c.aid (c.ea m1 0) .read 2 272)
        let (bs, s2) ← good (s1.readPieces c.aid (c.ea m1 0) ps)
        let l ← s2.launch? c.t.ltag
        let ty ← readTree l.ktu (fun i => (dwordAt bs i).toNat)
        pure ((vrd (s2.core c.core).trees 0).isNone && s2.hasSpace l.tag ty.ksp)) == some true) := by decide +kernel

theorem witness_PositionInstructions :
    let lo (rd : List Nm) : Op := { h := H, rd := rd, light := true, first := true, mem := true }
    let s (x : Dword) (b : Option Nat) : State := spaced .light [(1, x), (2, pt)] (fun t => { t with bnd := b, pos := pt })
    let go (c : Cx) (d : Nat) : Bool := c.t.bnd.isNone && c.s.inPanel c.t.ltag d && c.s.journalClear c.aid && decide (d ≠ c.core)
    let valid (c : Cx) : Bool := (c.s.launch? c.t.ltag).any (fun l => l.validPoint (c.x 0) && (l.space? (ptSpace (c.x 0))).isSome)
    [[Nm.s 1, .s 2], [.s 1], []].all (fun rd => (s pt (some 9)).meets (lo rd) (fun c => c.t.bnd.isSome && c.relReady) &&
      (s pt none).meets (lo rd) (fun c => c.t.bnd.isNone)) = true ∧
    (s 0 none).meets (lo [.s 1]) (fun c => decide ((c.x 0).toNat = c.core) && c.s.inPanel c.t.ltag c.core && c.t.bnd.isNone) ∧
    (s 4 none).meets (lo [.s 1]) (fun c => go c (c.x 0).toNat) ∧
    (s (BitVec.ofNat 64 (apertureBase + 0x40)) none).meets (lo [.s 1]) (fun c => c.t.bnd.isNone && c.s.inPanel c.t.ltag c.core &&
      decide (apertureBase ≤ (c.x 0).toNat ∧ (c.x 0).toNat < aliasBase ∧ ((c.x 0).toNat - apertureBase) / apertureStep = c.core)) ∧
    (s far none).meets (lo [.s 1]) (fun c => decide (apertureBase ≤ (c.x 0).toNat ∧ (c.x 0).toNat < aliasBase) &&
      go c (((c.x 0).toNat - apertureBase) / apertureStep)) ∧
    (s pt none).meets (lo [.s 1, .s 2]) (fun c => valid c && decide ((c.s.core c.core).bindCtr < 65536) && c.relReady) ∧
    (s (mkPoint 1 15 15 0) (some 9)).meets (lo [.s 1]) (fun c => valid c && decide (ptSpace (c.x 0) = ptSpace c.t.pos) && c.relReady) := by
  decide +kernel

theorem witness_position_moves :
    (let s := (demo .heavy []).modLaunch 1 (fun l => { l with recs := [(1, [⟨9, 18432, pt, 0, some (mkPoint 1 4 4 0)⟩])] })
     (s.launch? 1).bind (fun l => l.recs.findSome? (fun e => e.2.findSome? (fun r =>
       if r.num = (2 ^ 32 + 9) % 2 ^ 32 then r.hand.map (fun p => (e.1, p)) else none))) = some (1, mkPoint 1 4 4 0)) ∧
    (let s := demo' .light [] (fun t => { t with loc := .runq, depart := some 4 }) (fun k => { k with runq := [18432] })
     let t := s.th 18432
     t.loc = .runq ∧ t.core = 0 ∧ t.kind = .light ∧ s.journalClear 18432 = true ∧ t.traps = [] ∧ t.pend = none ∧ t.depart = some 4) ∧
    (let s := wired (demo' .light [] (fun t => { t with loc := .transit 4 }) id)
     let t := s.th 18432
     t.loc = .transit 4 ∧ s.absent t.ltag 4 = false ∧ (s.core 4).ltag = t.ltag ∧ s.finds t.ltag t.core 4 = true ∧
       s.reaches false (s.port t) (clusterOf (s.phys 4)) = true ∧ t.bnd = none ∧ t.wait = none ∧
       (good ((s.passed t.ltag t.core 4).arrive 4 18432)).isSome = true) := by decide +kernel

theorem witness_NeighbourEnumeration :
    let o (rd : List Nm) (hv : Bool) : Op := { h := H, len := 16, rd := rd, wr := [.s 4], heavy := hv, first := true, mem := true }
    let s (p r : Dword) : State := ((spaced .heavy [(1, p), (2, r), (3, own)] id).modLaunch 1 (fun l =>
      { l with recs := [(1, [⟨9, 18432, pt, 7, none⟩])] }))
    let near (c : Cx) (l : Launch) : List PosRec := l.nearby (c.x 0) true (c.x 1).toNat none
    let ok (c : Cx) (f : Launch → Bool) : Bool := (c.s.launch? c.t.ltag).any (fun l =>
      l.nbrCheck (c.x 0) true (c.x 1).toNat == 0 && !c.s.nbrAway l (c.x 0) && !c.s.nbrLost c.aid l (c.x 0) && f l)
    let fits (c : Cx) : Bool := decide ((c.x 2).toNat % 32 = 0) && (c.s.seg c.t 0).grants (c.x 2).toNat 32 false true &&
      c.s.isOwn c.t (c.x 2) && c.s.ownOk c.t (c.x 2) 32 && !c.s.wordBusy c.aid (c.x 2) 32
    let e (c : Cx) : Nat := (c.s.launch? c.t.ltag).elim 0 (fun l => l.nbrCheck (c.x 0) true (c.x 1).toNat)
    (s (mkPoint 1 0 0 0) 0).meets (o [.s 1, .s 2] true) (fun c => ok c (fun _ => (c.s.bindOf c.aid ⟨false, 0⟩).isNone &&
      decide ((c.s.core c.core).affines < 8))) ∧
    (s (mkPoint 1 0 0 0) 0).meets (o [.s 1, .s 2, .s 3] false) (fun c => ok c (fun l => fits c && ((near c l).take 1).isEmpty)) ∧
    (s (mkPoint 1 0 0 0) 25).meets (o [.s 1, .s 2, .s 3] false) (fun c => ok c (fun l =>
      fits c && !((near c l).take 1).isEmpty && (do
          let bs := nbrBytes ((near c l).take 1)
          let (p, s2) ← got (((c.s.nbrPassed c.aid l (c.x 0)).acquirePos c.aid l.tag 1 ((near c l).take 1)).placeFor c.aid (c.x 2)
            bs.length .write false)
          pure (s2.memWf && (s2.conflicts? c.ag true false (p.words bs.length)).isNone)) == some true)) ∧
    (s (mkPoint 1 16 0 0) 0).meets (o [.s 1, .s 2, .s 3] false) (fun c => e c == 40) ∧
    (s (mkPoint 1 16 0 0) 0).meets (o [.s 1, .s 2] true) (fun c => e c == 40) ∧
    (s (mkPoint 1 0 0 0) 26).meets (o [.s 1, .s 2] true) (fun c => e c == 39) ∧
    (s (mkPoint 2 0 0 0) 0).meets (o [.s 1, .s 2] true) (fun c => e c == 40) := by decide +kernel

/-- A copy queue of two slots at [0x40, 0x80) of core 0's scratchpad, its slots from 0x80 on. -/
def queued (rs : List (Nat × Dword)) : State :=
  (demo .heavy rs).putBytes (.sp 0 0x40)
    (leBytes 8 0 ++ leBytes 8 0 ++ leBytes 8 0x101 ++ leBytes 8 0 ++ leBytes 8 (apertureBase + 0x80))

theorem witness_CopyQueueAndHandles :
    let cq : Op := { h := H, len := 16, rd := [.s 1, .v 1], wr := [.s 3], blk := true, first := true, mem := true }
    let o : Op := { h := H, mem := true }
    let hdl (n : Nat) : State := (demo .heavy []).modClu 0 (fun k => { k with handles := [(255, ⟨n, true, 3⟩)] })
    let st (c : Cx) : Nat := (c.s.handle c.clu 255).st
    let form (c : Cx) : Option (Place × Option (Nat × Dword) × State) :=
      let q := (c.s.seg c.t 0).base + c.x 0
      if (c.s.chkSeg c.t 0 q 64 64 true true).isNone && (c.s.chkSp c.t q 64).isNone && !c.s.wordBusy c.aid q 64 &&
          decide (3 ≤ c.s.journalFree c.core) then do
        let (p, s1) ← got (c.s.placeFor c.aid q 64 .both true)
        let (f, s2) ← good (s1.cqForm c.aid p)
        pure (p, f, s2)
      else none
    (queued [(1, own)]).meets cq (fun c => (do
      let (p, f, s2) ← form c
      let (lg, _) ← f
      let (w, s3) ← good (s2.atomUpdate c.aid false false .pkg p 8 (fun v => some ((v + 1) % 2 ^ 64)))
      let (_, s4) ← good (s3.atomRead c.aid true .pkg (p.plus 8) 8)
      pure (s3.cqRoom p (BitVec.ofNat 64 w) lg && decide (3 ≤ s4.journalFree c.core))) == some true) ∧
    (demo .heavy [(1, own)]).meets cq (fun c => (form c).map (fun x => x.2.1.isNone) == some true) ∧
    (demo .heavy []).meets { o with wr := [.s 3], sync := true } (fun c => !c.t.freeing c.clu 255) ∧
    ([2, 3].all (fun n => sends .heavy (hdl n) o (fun c => decide (2 ≤ st c)) (fun c => .free c.clu 255)) = true) ∧
    (hdl 1).meets o (fun c => decide (st c = 1) && c.now c.s (.free c.clu 255)) := by decide +kernel

/-- A packet that copies 16 bytes with handle 7 (R297). -/
def packet : List Byte := leBytes 8 0x100000701 ++ leBytes 8 0 ++ leBytes 8 0 ++ leBytes 8 16 ++ List.replicate 32 0

/-- The same packet without a handle, and with a mailbox besides (R297). -/
def plainPacket (mb : Bool) : List Byte := leBytes 8 (if mb then 0x200000001 else 1) ++ packet.drop 8

/-- A copy of 16 bytes from 0x100 to 0x200 of core 0's scratchpad. -/
def copying (pkt : List Byte) (going : Bool) (done : Nat) (f : Cluster → Cluster) (got : List (Nat × List Byte) := []) : State :=
  let c : Copy := { (default : Copy) with
    pkt := pkt, tag := 1, got := got, src := BitVec.ofNat 64 (apertureBase + 0x100), dst := BitVec.ofNat 64 (apertureBase + 0x200)
    len := 16, done := done, left := if got.isEmpty then [(0, 16)] else [], going := going }
  (demo .heavy []).modClu 0 (fun k => f { k with copies := [(5, c)] })

theorem witness_copy_moves :
    (let b : QBind := { (default : QBind) with q := BitVec.ofNat 64 (apertureBase + 0x40), weight := 1, kick := some (0, .thread 18432), kicks := [(0, 1, .thread 18432)], tag := 1 }
     let s := ((queued []).putBytes (.sp 0 0x80) (packet.take 56 ++ leBytes 8 1)).modClu 0 (fun k => { k with qbinds := [b] })
     ((s.nextPacket 0 2).1.isSome && ((s.nextPacket 0 2).2.clu 0).qnext == 0) = true) ∧
    (let s := copying packet false 0 id
     (match s.copy? 0 5 with
      | some c => !c.going && pktH c.pkt && decide ((s.handle 0 (pktHandle c.pkt)).st = 0)
      | none => false) = true) ∧
    (let s := copying packet true 0 id
     (match s.copy? 0 5 with
      | some c => c.going && !c.err && decide (c.done < c.len) && !s.atFault 0 (.copy 5) &&
        (match s.nextMove c.left c.got with
         | (some none, s0) => (match s0.nextPiece c.dst.toNat c.left with
           | (g, s1) => decide (g = (0, 16)) && (match s1.engLoad (copyEng s1 0 5 c.tag) (c.src + BitVec.ofNat 64 g.1) g.2 with
             | .ok (_, none) _ => true
             | _ => false))
         | _ => false)
      | none => false) = true) ∧
    ([false, true].all (fun raced =>
      let bs := List.replicate 16 (7 : Byte)
      let s : State := { copying packet true 0 id [(0, bs)] with
        stamps := if raced then [(.sp 0 0x80, ⟨some ⟨.host, 9, false, 0⟩, []⟩)] else [] }
      (match s.copy? 0 5 with
       | some c => c.going && !c.err && decide (c.done < c.len) && !s.atFault 0 (.copy 5) &&
         (match s.nextMove c.left c.got with
          | (some (some g), s0) => (match s0.engPlace (copyEng s0 0 5 c.tag) (c.dst + BitVec.ofNat 64 g.1) g.2.length .write with
            | .ok (some p) s1 => (s1.engWrite (copyEng s0 0 5 c.tag) p g.2).1.isSome == raced
            | _ => false)
          | _ => false)
       | none => false)) = true) ∧
    (let s := copying packet true 16 id
     (match s.copy? 0 5 with
      | some c => c.going && decide (c.out = 0 ∧ c.len ≤ c.done) && !c.err && !s.atFault 0 (.copy 5) && pktH c.pkt && !c.filled
      | none => false) = true) ∧
    ([true, false].all (fun mb =>
      let s := copying (plainPacket mb) true 16 id
      (match s.copy? 0 5, (copying (plainPacket mb) false 0 id).copy? 0 5 with
       | some c, some d => c.going && decide (c.out = 0 ∧ c.len ≤ c.done) && !s.atFault 0 (.copy 5) && !pktH c.pkt &&
         (pktMb c.pkt == mb) && !d.going
       | _, _ => false)) = true) := by decide +kernel

theorem witness_plan_moves :
    let s (e : PlanEnt) : State := (demo .heavy []).modLaunch 1 (fun l => { l with plan := [{ e with id := 7 }], taken := some 18432 })
    let has (e : PlanEnt) (f : State → Launch → PlanEnt → Bool) : Bool := match (s e).launch? 1 with
      | some l => (match l.plan.find? (fun e => e.id == 7) with
        | some e => f (s e) l e
        | none => false)
      | none => false
    has default (fun s l e => s.issueDue l e) ∧
    has { (default : PlanEnt) with st := 1, svc := 2, dst := 1 } (fun _ _ e => e.st == 1 && e.out == 0 && e.svc == 2 && !e.copies) ∧
    has { (default : PlanEnt) with st := 1, action := 3, src := 1, dst := 2 } (fun s l e => (s.tierAsk l e).isNone &&
      !s.atFault (dieCluster e.die) (.tier 1 7) && (s.tierProbe (tierEng l e) e.pages).isNone && e.st == 1 && e.out == 0 &&
      e.svc == 0 && !e.copies) ∧
    has { (default : PlanEnt) with st := 1, action := 3, src := 1, dst := 3 } (fun s l e => s.tierAsk l e == some 3 && e.st == 1 && e.out == 0 &&
      e.svc == 0) := by decide +kernel

/-! ### Witnesses of the supervisor and of migration -/

/-- The supervisor of core 0 with slot 0 held after an exception, the thread of slot 0 beside it. -/
def serving (rs : List (Nat × Dword)) (f : Core → Core) : State :=
  let s := demo .super rs
  ({ s with threads := (18432, thread .heavy []) :: s.threads }).modCore 0 (fun k => f { k with
    occ := vwr k.occ 0 (some 18432), sst := vwr k.sst 0 .held, sit := true
    lat := vwr k.lat 0 { Latch.zero with cause := 0x80000004, pc := 0x1000, npc := 0x1008 } })

theorem witness_SupervisorReturnsAndRegisters :
    let o (rd wr : List Nm) (m : Bool) : Op := { h := H, rd := rd, wr := wr, priv := true, mem := m }
    let lat (c : Cx) : Latch := c.s.latch (c.s.slotHome c.core (c.x 0).toNat) (c.x 0).toNat
    let armed (c : Cx) (l : Nat → Bool) : Bool := l (c.x 0).toNat && (lat c).armed && (c.s.core c.core).sit &&
      decide ((c.x 1).toNat % 4 = 0)
    let odd (c : Cx) : Bool := decide ((c.x 0).toNat < 16) && (lat c).armed && decide ((c.x 1).toNat % 4 ≠ 0)
    let arm (n : Nat) (k : Core) : Core := { k with lat := vwr k.lat n { Latch.zero with cause := 0x80000004 } }
    [[Nm.s 1], [.s 1, .s 2]].all (fun rd => (serving [(2, 8)] id).meets (o rd [] true) (fun c => armed c (fun n => decide (n < 15))) &&
      (serving [(1, 15)] (arm 15)).meets (o rd [] true) (fun c => armed c (· == 15)) &&
      (serving [(1, 16)] (arm 16)).meets (o rd [] true) (fun c => armed c (· == 16)) &&
      (serving [(1, 17)] id).meets (o rd [] true) (fun c => decide (16 < (c.x 0).toNat)) &&
      (demo .super []).meets (o rd [] true) (fun c => !(lat c).armed && !(c.s.core c.core).sit)) = true ∧
    (serving [(1, 0), (2, 2)] id).meets (o [.s 1, .s 2] [] true) odd ∧ (serving [(1, 15), (2, 1)] (arm 15)).meets (o [.s 1, .s 2] [] true) odd ∧
    (demo .super []).meets (o [] [.s 3] false) always ∧ (demo .super []).meets (o [.s 1] [] false) always ∧
    (demo .super [(1, 16)]).meets (o [.s 1] [] false) (fun c => decide ((c.x 0).toNat ≤ 16) && decide ((c.x 0).toNat % 4 = 0)) ∧
    (demo .super [(1, 17)]).meets (o [.s 1] [] false) (fun c => decide (16 < (c.x 0).toNat) && decide ((c.x 0).toNat % 4 ≠ 0)) ∧
    (let sg (c : Cx) (ok : SlotSt → Nat → Bool) (v : Nat → State → Bool) : Bool :=
       let sel := (c.s.core c.core).ssel
       let va := c.ea m1 0
       (c.s.chkSeg c.t 0 va 24 8 true false).isNone && decide (sel < 16) &&
         ok (vrd (c.s.core (c.s.slotHome c.core sel)).sst sel) sel && !c.s.wordBusy c.aid va 24 &&
         !c.s.acqPending c.aid && (match c.s.readEach c.aid 8 .plain [(0, va), (1, va + 8), (2, va + 16)] with
           | .ok vs s1 => decide ((s1.th c.aid).outst = c.t.outst) && v (vs.foldr (fun e r => e.2 + 2 ^ 64 * r) 0) s1
           | _ => false)
     (serving [(1, own)] id).meets (o [.s 1] [] true) (fun c => sg c (fun st _ => st == .held) (fun v s1 =>
       decide (v / 2 ^ 132 = 0) && (s1.occ 0 0).isSome)) ∧
     (serving [(1, own)] (fun k => { k with ssel := 15 })).meets (o [.s 1] [] true) (fun c => sg c
       (fun st sel => st == .running && sel == c.slot) (fun v s1 => decide (v / 2 ^ 132 = 0) && (s1.occ 0 15).isSome)) ∧
     (serving [(1, own)] (fun k => { k with ssel := 3 })).meets (o [.s 1] [] true) (fun c => sg c (fun st _ => st == .empty)
       (fun v _ => decide (v / 2 ^ 132 = 0))) ∧
     ((serving [(1, own)] id).putBytes (.sp 0 0x50) (leBytes 8 16)).meets (o [.s 1] [] true) (fun c => sg c (fun st _ => st == .held)
       (fun v _ => decide (v / 2 ^ 132 ≠ 0)))) := by decide +kernel

/-- Memory from dwords at addresses. -/
def dwords (m : Memory) (l : List (Nat × Nat)) : Memory := l.foldl (fun m e => m.put e.1 (leBytes 8 e.2)) m

/-- A machine whose ASID 0 maps the first GiB to a storage window that its clusters reach, so that what a supervisor reads there is
free (log 10): the table that RTSWAP reads is valid or not. -/
def storing (s : State) : State :=
  { s with ptpb := 0x100000, ptps := 0x10000, atn := 1
           clus := (List.range 24).map (fun i => (i, { Cluster.reset with route := [(289, 0x8082)] }))
           mem := dwords [] [(0x100000, 0x1001), (0x101000, 0x2001), (0x102000, 0x01020000001F)] }

theorem witness_TranslationRoutingHaltsAndMessages :
    let o (rd wr : List Nm) (f : Bool) : Op := { h := H, rd := rd, wr := wr, priv := true, first := f, mem := true }
    let rt (c : Cx) : Bool := (c.s.chkSeg c.t 0 (c.x 0) 4640 64 true false).isNone
    let inside (c : Cx) : Bool := decide ((c.x 1).toNat < 288 ∧ c.s.partOf (c.x 1).toNat = c.s.partOf (clusterOf c.num))
    let reads (c : Cx) : Bool := match c.s.loadAll c.aid (c.x 0) 4640 73 with
      | .ok _ s1 => decide ((s1.th c.aid).outst = [])
      | _ => false
    let s (n : Dword) : State := demo .super [(1, own), (2, n)]
    let sizes (c : Cx) : Bool := decide ((c.x 1).toNat = 16 ∨ (c.x 1).toNat = 21 ∨ (c.x 1).toNat = 30)
    [16, 21, 30].all (fun n => (s n).meets (o [.s 1, .s 2] [] true) sizes) = true ∧
    (s 17).meets (o [.s 1, .s 2] [] true) (fun c => !sizes c) ∧
    ({ demo .super [(1, 1)] with asids := [(1, 7)] } : State).meets (o [.s 1, .s 2] [] true) (fun c =>
      amGet? c.s.asids (c.x 0).toNat == some 7) ∧
    (demo .super [(1, 1)]).meets (o [.s 1, .s 2] [] true) (fun c => (amGet? c.s.asids (c.x 0).toNat).isNone) ∧
    (s 288).meets (o [.s 1, .s 2] [.s 3] true) (fun c => rt c && !inside c) ∧
    (storing (demo .super [(2, 287)])).meets (o [.s 1, .s 2] [.s 3] true) (fun c => rt c && inside c && !c.s.wordBusy c.aid (c.x 0) 4640 &&
      reads c) ∧
    (demo .super []).meets (o [] [] true) (fun c => c.slot == 15) ∧
    (demo' .super [] (fun t => { t with slot := 3 }) id).meets (o [] [] true) always ∧
    (({ demo .super [] with cur := (0, 3), threads := [(3, { thread .super [] with slot := 3 })] } : State).modCore 0 (fun k =>
      { k with occ := vwr k.occ 3 (some 3), sst := vwr k.sst 3 .running })).meets (o [] [] true) (fun c => c.slot != 15) ∧
    sends .super (wired (demo .super [(1, 4), (2, 2 ^ 48 - 1)])) (o ([.s 1] ++ quad 2) [] false) (fun c =>
      decide ((c.x 1).toNat < 2 ^ 48 ∧ (c.x 0).toNat ≤ 1151) &&
        !c.s.broken.contains (2 ^ 16 + clusterOf c.num * 2 ^ 20 + (c.num * 16 + c.t.slot) % 2 ^ 16, (c.x 0).toNat) &&
        c.s.wayFrom true true (clusterOf c.num) (clusterOf (c.x 0).toNat) == .through) (fun c => .sysmsg 4 (c.x 1) 0 0 0) ∧
    (demo .super [(1, 1152)]).meets (o ([.s 1] ++ quad 2) [] false) (fun c => decide ((c.x 1).toNat < 2 ^ 48 ∧ 1151 < (c.x 0).toNat)) ∧
    (demo .super [(2, 2 ^ 48)]).meets (o ([.s 1] ++ quad 2) [] false) (fun c => decide (2 ^ 48 ≤ (c.x 1).toNat)) := by decide +kernel

/-- A table in which every destination takes port E leaves routing valid for a destination other than the cluster itself, and
none for the cluster: the entry of R381 that `routeOk` admits for another cluster, and the port L for the own one. -/
theorem witness_route_table :
    ((List.range 2320).zip ((List.range 2320).map (fun j => if j % 290 = 0 then (0x20 : BitVec 16) else 0x41))).all
      (fun x => routeOk 0 (x.1 % 290) x.2) = true := by decide +kernel

/-- A copy of the demo launch in which core 0 holds the context and slot 15 of core 4, outside every panel, runs. -/
def moving (rs : List (Nat × Dword)) : State :=
  let s := demo .super rs
  { s with launches := [{ launch with w := 1 }], cores := s.cores.filter (fun e => decide (e.1 = 0)) }

/-- Nothing of a thread is outstanding. -/
def idle (aid : Nat) (s : State) : Bool := decide ((s.th aid).outst = [])

/-- ACCSAVE and ACCLOAD of one row at the address in s1. -/
def rowArea (c : Cx) (rd : Bool) : Bool :=
  (c.s.chkSeg c.t 0 (c.ea m1 0) 257 64 rd (!rd)).isNone && decide (4 + 1 ≤ (c.s.core 0).accRows) &&
    !c.s.wordBusy c.aid (c.ea m1 0) 257 && (c.s.core 0).arrq.all (fun q => !q.opened)

/-- Their operands. -/
def rowOp : Op := { h := H, rd := [.s 1, .s 2, .s 3], priv := true, first := true, mem := true }

theorem witness_row_saved :
    (moving [(1, own), (2, 4), (3, 1)]).meets rowOp (fun c => rowArea c false &&
      (match c.storeAll (pieces (c.ea m1 0) (List.replicate 257 0)) c.s with
       | .ok s1 => idle c.aid s1
       | _ => false)) = true := by decide +kernel

theorem witness_row_loaded :
    (moving [(1, own), (2, 4), (3, 1)]).meets rowOp (fun c => rowArea c true && (match c.s.loadAll c.aid (c.ea m1 0) 257 5 with
      | .ok bs s1 => idle c.aid s1 && (bs.drop 256).all (fun x => decide (x.toNat < 32))
      | _ => false)) = true := by decide +kernel

theorem witness_no_row : (moving [(1, own)]).meets rowOp (fun c => decide ((c.x 2).toNat = 0)) = true := by decide +kernel

/-- The image of a context is taken here as 128 bytes long: its size is free (log 9). -/
theorem witness_ContextsThatMove :
    let o : Op := { h := H, rd := [.s 1, .s 2], wr := [.s 3], priv := true, first := true, mem := true }
    let some_ (c : Cx) : Bool := decide ((c.x 0).toNat < 1152 ∧ (c.s.core (c.s.guest (c.x 0).toNat)).ltag ≠ 0)
    let image : Dword := BitVec.ofNat 64 (apertureBase + 0x1000)
    (moving [(1, 1152)]).meets o (fun c => !some_ c) ∧
    (moving [(2, 1152)]).meets o (fun c => some_ c && !c.s.coreFree (c.x 1).toNat) ∧
    (moving [(2, 1151)]).meets o (fun c => some_ c && c.s.coreFree (c.x 1).toNat &&
      (findIx (fun (x : Basting) => !x.v) (c.s.clu 0).bast.toList 0).isSome && c.s.settled 0) ∧
    (moving [(1, image), (2, 1151)]).meets o (fun c => decide ((c.x 0).toNat % 4096 = 0) &&
      (c.s.chkSeg c.t 0 (c.x 0) 128 1 true false).isNone && c.s.coreFree (c.x 1).toNat && (match c.s.loadAll c.aid (c.x 0) 128 3 with
       | .ok bs s1 => idle c.aid s1 && (s1.imageOf bs).isNone
       | _ => false)) := by decide +kernel

/-- The machine in which the context of core 0 has a receive translation entry and may be written out. -/
def leaving : State :=
  (moving [(2, BitVec.ofNat 64 (apertureBase + 0x1000))]).modClu 0 (fun k =>
    { k with recv := vwr k.recv 0 { vrd k.recv 0 with v := true, ltag := 1, core := 0 } })

theorem witness_image_written :
    leaving.meets { h := H, rd := [.s 1, .s 2], wr := [.s 3], priv := true, first := true, mem := true } (fun c =>
      decide ((c.x 1).toNat % 4096 = 0) && c.s.settled 0 && (c.s.chkSeg c.t 0 (c.x 1) 128 1 false true).isNone &&
        (c.s.clu 0).recv.toList.any (fun x => x.v && !x.fwdn && x.ltag == (c.s.core 0).ltag && x.core == 0) &&
        (match c.storeAll (pieces (c.x 1) (imageHeader 0 1 ++ List.replicate 64 0)) { c.s with free := c.s.free + 64 } with
         | .ok s2 => idle c.aid s2
         | _ => false)) := by decide +kernel

/-- The context of position 0 is in an image, which names it. -/
def imaged : State := (moving []).modCore 0 (fun k => { k with site := .away 0, img := 7 })

theorem witness_image : imaged.imageOf (imageHeader 0 1 ++ imageBody 7 128) = some 0 := by
  have hc : imaged.cores = [(0, imaged.core 0)] := by decide +kernel
  have hs : (imaged.core 0).site = .away 0 := by decide +kernel
  have hl : (imaged.core 0).ltag = 1 := by decide +kernel
  have hi : (imaged.core 0).img = 7 := by decide +kernel
  have h : (imageHeader 0 1 ++ imageBody 7 128).length = 128 := by simp [imageHeader, imageBody, leBytes]
  simp only [State.imageOf, hc, hs, hl, hi, h, List.find?_cons]
  simp

theorem witness_replay :
    let s := imaged.occupy 0 1151
    decide (((s.replayAll 0 (s.phys 0) 1151).th 15).outst = []) = true := by decide +kernel

/-- The traffic of core 4 for the context of position 0, which moved to core 8 and left a basting entry at core 0. -/
def forwarding : State :=
  ((wired (demo .super [])).modCore 0 (fun k => { k with site := .on 8, fwdq := [⟨0, 4, 0, .cancel 1 4⟩] })).modClu 0
    (fun k => { k with bast := vwr k.bast 3 ⟨true, 1, 8, 0, 0, 0⟩ })

theorem witness_forwarding_moves :
    (forwarding.core 0).fwdq.length = 1 ∧ forwarding.basting? (forwarding.core 0).ltag 0 0 = some ⟨true, 1, 8, 0, 0, 0⟩ ∧
    forwarding.arrives (forwarding.core 0).ltag 0 3 8 = forwarding.phys 0 ∧
    (let s1 := forwarding.modCore 0 (fun k => { k with fwdq := [] })
     let counted (q : Cluster) : Cluster := { q with bast := q.bast.map (fun z => if z = ⟨true, 1, 8, 0, 0, 0⟩ then { z with fwd := 1 } else z) }
     ((s1.modClu 0 counted).land 0 (forwarding.core 0).ltag 0 (.cancel 1 4)).isSome) = true ∧
    forwarding.way true false (clusterOf (forwarding.phys 4)) 0 = .through ∧
    (forwarding.clu (clusterOf 0)).bast.toList.find? (fun z => z.v && z.ltag == (forwarding.core 4).ltag && z.old == 0) =
      some ⟨true, 1, 8, 0, 0, 0⟩ ∧
    (forwarding.core 4).ltag ≠ 0 ∧ forwarding.here 4 = true ∧ forwarding.firstStop 1 4 0 = 0 ∧ forwarding.flows = [] ∧
    ((forwarding.modCore 0 (fun k => { k with fwdq := [] })).core 0).fwdq.any (fun z => z.src == 4) = false := by decide +kernel

/-- A message waits for a ring of 4 KiB at 0x400000, which has room for it. -/
def bouncing : State :=
  (demo .super []).modClu 0 (fun k => { k with recv := vwr k.recv 2 { vrd k.recv 2 with
    v := true, ltag := 1, base := 0x400000, size := 4096, wait := [.message ⟨0x3000, [], 0, 1, []⟩] } })

theorem witness_bounce_moves :
    (match (vrd (bouncing.clu 0).recv 2).wait with
     | [tr] => !tr.isCancel && ((bouncing.putRecv 0 2 { (vrd (bouncing.clu 0).recv 2) with wait := [] }).appendRec 0 2 tr).isSome
     | _ => false) = true := by decide +kernel

/-! ### Witnesses of the moves -/

/-- The journal of core 0 with one entry. -/
def journal (st : JState) (f : Thread → Thread) (a : Dword := own) : State :=
  demo' .heavy [] f (fun k => { k with
    jrn := vwr k.jrn 0 (some ⟨0, 18432, 0, 0, 0x1000, .write a ((List.range 8).zip (leBytes 8 5)) .plain none, st, none⟩) })

theorem witness_JournalMoves :
    let j (s : State) : JEnt := ((vrd (s.core 0).jrn 0).getD default)
    let opens (s : State) : Bool := (j s).st == .sent && (j s).fault.isNone && s.wordsFree (j s).aid (j s).seq (j s).sub (.post (j s).op)
    let acked (s : State) : Thread := ((s.ackPass 0 (j s)).modCore 0 (fun k => { k with jrn := vwr k.jrn 0 none })).th 18432
    let away (s : State) : State := s.modCore 0 (fun k => { k with site := .away 0 })
    (let s := journal .waiting id
     s.here 0 = true ∧ (j s).st = .waiting ∧ s.canSend (j s) = true) ∧
    (let s := journal .sent id
     opens s = true ∧ (match s.perform (j s) with
       | .done _ s1 => decide (s1.val (.sp 0 0x40) 8 = 5)
       | _ => false) = true) ∧
    (let s := journal .sent id (own + 0x200000)
     opens s = true ∧ (match s.perform (j s) with
       | .refuse _ _ => true
       | _ => false) = true) ∧
    (let s := (journal .sent id far).modCore 4 (fun k => { k with site := .away 4 })
     opens s = true ∧ (match s.perform (j s) with
       | .absent _ => true
       | _ => false) = true) ∧
    (away (journal (.performed none 0 false) id)).here 0 = false ∧
    (acked (journal (.performed none 0 false) id)).loc = .slot ∧ (acked (journal (.performed none 0 false) id)).wait = none ∧
    (acked (journal (.performed none 0 false) (fun t => { t with loc := .exited }))).loc = .exited ∧
    (let s := journal (.performed (some { cause := 13 }) 0 false) (fun t => { t with wait := some ⟨.exiting none, 0, 0, none, none⟩ })
     (acked s).wait.map (·.obj) = some (.exiting none) ∧ (acked s).loc = .slot) := by decide +kernel

theorem witness_SlotMoves :
    (let s := demo' .heavy [] (fun t => { t with pend := some { cause := 11 } }) id
     s.ready 0 0 = true ∧ (s.th 18432).outst = [] ∧ (s.th 18432).entering = false) ∧
    (let x : ATrap := ⟨{ cause := 13 }, 0, false⟩
     let s := demo' .heavy [] (fun t => { t with traps := [x] }) id
     s.ready 0 0 = true ∧ firstTrap (s.th 18432).traps = some x ∧ ((s.enterTrap 18432 x.exc true false 0x1000 0x1008).th 18432).wait = none) ∧
    (let x : ATrap := ⟨{ cause := 13 }, 0, false⟩
     let s := demo' .heavy [] (fun t => { t with traps := [x] }) (fun k => { k with fb := 0x10000, uxt := vwr k.uxt 13 0x3001 })
     let s : State := { s with ptpb := 0x100000, ptps := 0x10000, atn := 2, mem := dwords [] [(0x100008, 0x1001)] }
     s.ready 0 0 = true ∧ ((s.enterTrap 18432 x.exc true false 0x1000 0x1008).th 18432).wait.isSome = true) ∧
    (let s := (serving [] (fun k => { k with sit := false, reqs := [.slot 0] })).modTh 15 (fun t => { t with marked := true })
     s.canTake 0 = true ∧ (s.th (superAid 0 15)).pend = none ∧ (s.th (superAid 0 15)).wait = none ∧
       (s.th (superAid 0 15)).marked = true ∧ (s.th (superAid 0 15)).outst = []) ∧
    (let s := (serving [] (fun k => { k with sit := false, reqs := [.msg 7 1 2 3 4 []] })).modTh 15
       (fun t => { t with wait := some ⟨.halt, 0, 0x1008, none, none⟩ })
     s.canTake 0 = true ∧ (s.th (superAid 0 15)).pend = none ∧
       ((s.th (superAid 0 15)).wait.map (fun w => (w.obj, w.fired))) = some (.halt, none)) ∧
    (let s := demo' .heavy [] (fun t => { t with wait := some ⟨.event 0 3, 0, 0x1008, some 0, none⟩ }) id
     s.here 0 = true ∧ (s.th 18432).loc = .slot ∧ (s.th 18432).pend = none ∧
       (s.th 18432).wait = some ⟨.event 0 3, 0, 0x1008, some 0, none⟩ ∧ (WaitObj.event 0 3).dest = none) ∧
    (let w : Wait := ⟨.event 0 3, 0, 0x1008, some 0, none⟩
     let s := demo' .light [] (fun t => { t with wait := some w, loc := .blocked }) (fun k => { k with occ := vwr k.occ 5 none })
     s.here 0 = true ∧ (s.th 18432).loc = .blocked ∧ (good ((s.wakeDone 18432 w 0).pushRun 0 18432)).isSome = true) ∧
    (let s := wired (demo' .light [] (fun t => { t with loc := .deque }) (fun k =>
       { k with occ := vwr k.occ 5 none, sst := vwr k.sst 5 .empty }))
     let s1 := s.modCore 0 (fun k => { k with deque := [18432] })
     let s2 := (s.modTh 18432 (fun t => { t with core := 4 })).modCore 4 (fun k => { k with deque := [18432] })
     let s3 := (s2.modCore 0 (fun k => { k with steal := vwr k.steal 5 (.asking 3) }))
     let s4 := s.modCore 0 (fun k => { k with steal := vwr k.steal 5 (.asking 3) })
     s.slotFree 0 5 = true ∧ (s.core 0).deque = [] ∧ (s.core 0).dqRing = [] ∧ (s.core 0).runq = [] ∧ (s.core 0).runRing = [] ∧
       vrd (s.core 0).steal 5 = .calm ∧
       ((s.modCore 0 (fun k => { k with dqRing := [(18432, 0)] })).slotFree 0 5 = true) ∧
       ((s.modCore 0 (fun k => { k with runRing := [(18432, 0)] })).slotFree 0 5 = true) ∧
       s1.slotFree 0 5 = true ∧ (s1.core 0).deque.getLast? = some 18432 ∧ (s1.th 18432).depart = none ∧
       s3.slotFree 0 5 = true ∧ vrd (s3.core 0).steal 5 = .asking 3 ∧ s3.stealPick 4 = some 18432 ∧ s3.absent 1 4 = false ∧
       (s3.core 4).ltag = (s3.core 0).ltag ∧ s3.reaches false (clusterOf (s3.phys 0)) (clusterOf (s3.phys 4)) = true ∧
       (good (s3.ringContext 4 18432)).isSome = true ∧ s3.firstStop 1 0 4 = s3.phys 4 ∧ launch.victims 0 = [1, 2, 3, 4, 5, 6, 7] ∧
       s4.stealPick 4 = none ∧ s4.firstStop 1 0 4 = s4.phys 4 ∧
       (s.modCore 0 (fun k => { k with steal := vwr k.steal 5 .resting })).slotFree 0 5 = true) ∧
    (let s := demo' .heavy [] id (fun k => { k with mgRing := [(0, ⟨0x3000, [1, 2], 9, 1, []⟩)] })
     (s.core 0).msgq = [] ∧ (s.core 0).mgRing ≠ []) ∧
    (let m : Msg := ⟨0x3000, [1, 2], 9, 1, []⟩
     let s := demo' .heavy [] id (fun k => { k with msgq := [m] })
     (s.core 0).msgq = [m] ∧ (s.launch? 1).isSome = true ∧ s.here 0 = true ∧ (s.core 0).seen = false ∧ s.occ 0 14 = none ∧
       vrd (s.core 0).sst 14 = .empty) := by decide +kernel

/-- A launch queue of partition 0 at 0x4000 with one request, whose record at 0x5000 is mapped for ASID 1 by a leaf of 1 GiB; its
doorbell was rung. -/
def requesting : State :=
  { State.reset with
    bup := 4, ptpb := 0x100000, ptps := 0x10000, atn := 2, pqueue := [(0, 0x4000)], bells := [(0, ⟨none, [([0], .host)]⟩), (8, ⟨none, [([0], .host)]⟩)]
    uq := 0x4000
    mem := dwords [] [(0x100008, 0x1001), (0x101000, 0x2001), (0x102000, 0x1F),
      (0x4000, 1), (0x4010, 0x201), (0x4020, 0x4040), (0x4040, 0x5000), (0x4050, 1), (0x4078, 1),
      (0x5000, 0x0001000101020001), (0x5008, 2), (0x5010, word.toNat), (0x5018, 0x1000)] }

/-- The places of the areas of a STPAIR in mapped memory are 64 runs without a conflict. -/
def pairPlaced (s : State) (rows : List (Dword × List Byte)) : Bool :=
  match s.pairPlaces 18432 rows with
  | .places rs s1 => rs.length == 64 && (s1.runsConflict 18432 false rs).isNone
  | _ => false

/-- The machine of a STPAIR with its areas mapped. -/
def pairMapped : State := { pairing with ptpb := 0x100000, ptps := 0x10000, atn := 2, mem := requesting.mem }

theorem witness_paired_rows :
    pairPlaced pairMapped (pairRows 0x300000 0x400000 64 64 2 (List.replicate 2048 7)) = true := by
  simp only [pairRows, List.drop_replicate, List.take_replicate]
  decide +kernel

theorem witness_paired_lines :
    ((List.range 32).all (fun i => decide (((0x300000 : Dword) + BitVec.ofNat 64 (64 * i)).toNat % 65536 + 64 ≤ 65536)) = true) := by
  decide +kernel

/-- What the launch unit makes of the request: the launch, or the code with which it is refused. -/
def requested (s : State) (asid : Nat) : Option (Sum Launch Nat) :=
  match s.bellNext 0 (amGet s.pqueue 0 0) with
  | some (h, r, kick) =>
    let e := (launchEng 0 r.toNat 0 0 kick).physical
    (match s.unitSlot e h r 2 with
    | (some z, s1) =>
      let k := s1.unitTake e z
      let u : Req1 := ⟨0, r.toNat, asid, kick⟩
      (match k.2.luRead u 1 (fieldA k.1 0) 288 with
      | .ok bs s3 =>
        (match s3.readLaunch u { launchOf 0 u.asid (field k.1 8 1) (field k.1 9 1) bs with request := r.toNat, kicker := kick } bs
            (decide (field k.1 10 6 ≠ 0 ∨ field k.1 20 4 ≠ 0 ∨ field k.1 24 32 ≠ 0)) with
        | .ok l _ => some (.inl l)
        | .refuse code _ => some (.inr (code + 256 * field bs 136 8))
        | .fault _ => none)
      | .refuse code _ => some (.inr (code + 2 ^ 16))
      | .fault _ => none)
    | _ => none)
  | none => none

/-- The launch that the request names. -/
def asked : Option Launch :=
  match requested requesting 1 with
  | some (.inl l) => some l
  | _ => none

theorem witness_launch_request :
    asked.map (fun l => (l.w, l.stages, l.asid, l.sets.length)) = some (2, [2], 1, 1) ∧
    asked.map (fun l => (requesting.panelFree l, (demo .heavy []).panelFree l)) = some (true, false) ∧
    requesting.atFault 0 (.launchUnit 0 0) = false ∧ amGet? requesting.pendingL 0 = none ∧
    (match requested { requesting with mem := dwords requesting.mem [(0x5008, 3)] } 1 with
     | some (.inr code) => decide (code = 3)
     | _ => false) = true ∧
    (match requested { requesting with mem := dwords requesting.mem [(0x102000, 0x04000000001F)] } 1 with
     | some (.inr code) => decide (2 ^ 16 ≤ code)
     | _ => false) = true := by decide +kernel

/-- The demo launch with every thread gone; its mailbox at 0x6000 is mapped. -/
def ending (mbox : Dword) : State :=
  { requesting with
    launches := [{ launch with mbox := mbox }], cores := [(0, { Core.reset 0 with ltag := 1, part := word })] }

theorem witness_LaunchMoves :
    (ending 0).launchOver { launch with mbox := 0 } = true ∧ (ending 0x6000).launchOver { launch with mbox := 0x6000 } = true ∧
    (ending 0x6000).atFault 0 { launch with mbox := 0x6000 }.eng.w = false ∧
    (let l : Launch := { launch with mbox := 0x6000 }
     let s := ending 0x6000
     let ovs := ((List.range 288).filter l.hasClu).map (fun i => s.contrib (.overflow i) .pkg)
     (good ((s.syncFrom l.eng.ag ovs).luStore l.eng l.part l.mbox 1)).isSome = true) := by decide +kernel

theorem witness_FaultsAndUpdates :
    (let s := (demo .heavy []).modClu 0 (fun k => { k with fwait := [⟨1, 0x10000, 1, 1, 1, 5, 0, .thread 18432⟩] })
     (s.clu 0).fwait.length = 1 ∧ (s.clu 0).faults.toList.any (fun e => e.isNone) = true) ∧
    (let f : FaultEnt := ⟨1, 0x10000, [(.thread 18432, 0x10040)]⟩
     let s := (demo .heavy []).modClu 287 (fun k => { k with faults := vwr k.faults 15 (some f) })
     vrd (s.clu 287).faults 15 = some f) ∧
    (let s : State := { requesting with ranks := [(5, ⟨true, true, 1, 0⟩)] }
     s.rankFenced 5 = true ∧ s.rankFenced 6 = false) ∧
    (let s := { requesting with mem := dwords requesting.mem [(0x4010, 0x301)] }
     (match s.bellNext 8 s.uq, requesting.bellNext 8 s.uq with
      | some (h, i, kick), some (h', i', kick') => (s.unitSlot (tableEng kick) h i 3).1.isSome &&
        (requesting.unitSlot (tableEng kick') h' i' 3).1.isNone
      | _, _ => false) = true) ∧
    (let r : UpdRec := ⟨0x2000, 0, 1, 30, false, 3, 0, 0x6000, false, true⟩
     let e : PlanEnt := { (default : PlanEnt) with id := 7, action := 2, addr := 0x5000, len := 16 }
     let s : State := { requesting with upds := [⟨1, r, true, .host⟩] }
     let s1 := { s with launches := [{ launch with plan := [e] }] }
     s.badUpd r = false ∧ s.badUpd { r with lg := 17 } = true ∧ s.ptpb.toNat + r.off.toNat + 8 ≤ hbmBytes ∧ s.memWf = true ∧ s.covered r = [] ∧ s1.covered r ≠ [] ∧ r.force = false ∧
       (s.conflicts? .tableUnit true false ((Place.phys (s.ptpb.toNat + r.off.toNat)).words 8)) = none) ∧
    (let e : MailDue := ⟨1, 0x6000, 1, .host⟩
     let s := { State.reset with mbdue := [e] }
     s.mbdue.find? (fun e => e.n == 1) = some e ∧ e.mba.toNat % 8 = 0 ∧ s.physPlace 0x6000 = some (.phys 0x6000)) := by decide +kernel

/-- A signature whose first word is not 1 verifies under no key (R400). -/
theorem unsigned (m sig key : List Byte) (h : beAt sig 0 ≠ 1) : hssVerify m sig key = false := by
  unfold hssVerify
  split
  · rfl
  · simp [h]

/-- Of an image without a signature verification says no; of which image it says yes rests on the keys, which are constants without a
body (log 7). -/
theorem witness_BringUp :
    let f : Firmware := ⟨[], [], [], 0, 0, 0, 0, [], none⟩
    let s := { State.reset with image := some f }
    s.image = some f ∧ (s.byOwner f.code f.sig || byVendor f.code f.sig) = false := by
  refine ⟨rfl, ?_⟩
  simp [State.byOwner, byVendor, byKey, unsigned _ [] _ (by decide)]

theorem witness_ResetAndPower :
    (let s := { State.reset with bup := 4, preq := 1 }
     s.pwr = 0 ∧ s.launchAt 0 = none ∧ s.gateOpen false = true) ∧
    (let s := wired (demo .heavy [])
     s.gateOpen false = true ∧ (s.clu 1).crst = false ∧ s.wayFrom false true 288 1 = .through) ∧
    (State.reset.modClu 5 (fun k => { k with crst := true })).quiet = true ∧
    (State.reset.modClu 5 (fun k => { k with crst := true })).resetDue 5 = true ∧ State.reset.guest 20 = 20 ∧
    (1 : Dword).getLsbD 0 = true := by decide +kernel

/-- A request of the root of trust, its block at 0x8000. -/
def asking (cmd : Byte) (q : Nat) : State :=
  { State.reset with bup := 4, rotst := ⟨leBytes 8 0x8000, cmd, 0, 0, true, []⟩, mem := dwords [] [(0x8000, q)] }

theorem witness_RootOfTrustCommands :
    [1, 2, 3, 4, 5].all (fun c => (asking c 2).rotst.busy && ((asking c 2).rotBlock c.toNat 0x8000).isNone && (asking c 2).rotst.cmd == c &&
      leVal (asking c 2).rotst.blk == 0x8000 && ((asking c 2).rotBlock c.toNat (hbmBytes - 32)).isSome) = true ∧
    State.reset.dbg = 0 ∧ ({ State.reset with dbg := 1 } : State).dbg ≠ 0 ∧
    [0, 1, 2, 7, 8].map (fun q => field ((asking 1 q).rotRead 0x8000 64).1 0 1) = [0, 1, 2, 7, 8] ∧
    (asking 3 0).quotes < 1024 ∧ (asking 3 0).bootc < 32767 ∧
    ({ asking 3 0 with quotes := 1024 } : State).quotes = 1024 := by decide +kernel

/-- A token of the owner for a serial number and this boot, which sets state 1 and debug level 2 (R396): its fields are as the statement
takes them. Whether its signature verifies rests on a constant without a body (log 7). -/
theorem witness_token :
    let b (n : Dword) : List Byte := (leBytes 2 2 ++ leBytes 1 1 ++ leBytes 1 2 ++ leBytes 2 0 ++ leBytes 2 0) ++ (leBytes 8 n.toNat ++
      List.replicate 48 0)
    (∀ n : Dword, field (b n) 8 8 = n.toNat) ∧ (b 9).length = 64 ∧ tokenForm (b 9) = true ∧
      field (b 9) 4 2 = State.reset.bootc ∧ field (b 9) 2 1 < 2 ∧ dbgAllowed (field (b 9) 2 1) (field (b 9) 3 1) = true := by
  refine ⟨fun n => ?_, by decide +kernel⟩
  have h : ((leBytes 8 n.toNat ++ List.replicate 48 (0 : Byte)).take 8) = leBytes 8 n.toNat := List.take_left' (leBytes_length 8 _)
  simp only [field]
  rw [List.drop_left' (by decide), h, leVal_leBytes]
  exact Nat.mod_eq_of_lt n.isLt

theorem witness_RegistersFromOutside :
    ({ State.reset with bup := 4 } : State).gateOpen false = true ∧ ({ State.reset with bup := 4 } : State).running = false ∧
    (demo .heavy []).gateOpen false = true ∧ (demo .heavy []).gateOpen true = true ∧ (demo .heavy []).running = true ∧
    (let s := wired (demo .heavy [])
     s.wayFrom true true 288 (clusterOf (s.plc.toNat % 2048)) = .through ∧
       s.broken.contains (messageFlow 288 (s.plc.toNat % 2048)) = false ∧ s.dbg.toNat < 2) ∧
    2 ≤ ({ demo .heavy [] with dbg := 2 } : State).dbg.toNat ∧
    readbackOk 0 0x18 = false ∧ readbackOk 2 0x18 = true ∧ (demo .heavy []).itemGated 0x18 = false ∧
    (State.reset.links.contains (1, 2)) = false := by decide +kernel

theorem witness_AccessesFromOutside :
    let s := { State.reset with bup := 4, mem := dwords [] [(0x7000, 5)] }
    s.gateOpen false = true ∧ s.memWf = true ∧ s.meetsBad (.phys 0x7000) 8 = false ∧ s.inPool (.phys 0x7000) 8 = false ∧
    [Agent.host, .nvme 3, .peer 5].all (fun a => (s.conflicts? a true false ((Place.phys 0x7000).words 8)).isNone &&
      (s.conflicts? a true true ((Place.phys 0x7000).words 8)).isNone &&
      (s.conflicts? a false false ((Place.phys 0x7000).words 8)).isNone) = true ∧
    s.rankFenced 5 = false ∧ ({ s with ranks := [(5, ⟨true, true, 1, 0⟩)] } : State).rankFenced 5 = true ∧
    (let row : State := { demo .heavy [] with
       clus := (List.range 24).map (fun i => (i, { Cluster.reset with route := [(1, if i = 1 then 0x8020 else 0x8041)] })) }
     row.wayFrom true true 289 (clusterOf 4) = .through ∧ row.broken.contains (messageFlow 289 4) = false) := by
  decide +kernel

theorem witness_no_conflict_after_acquire (ks : List Contrib) :
    let s := { State.reset with bup := 4, mem := dwords [] [(0x7000, 5)] }
    [Agent.host, .nvme 3, .peer 5].map (fun a => (s.syncFrom a ks).conflicts? a false false ((Place.phys 0x7000).words 8)) =
      [none, none, none] := by rfl

theorem witness_ChecksInOrder :
    let s := demo .light []
    let out := issued 18432 (.known 3 0) [.s 3, .p 3] (demo .heavy [])
    (privOp (.haltWait H)).map (·.priv) = some true ∧
    s.occ s.cur.1 s.cur.2 = some 18432 ∧ (s.th 18432).outst = [] ∧ (s.th 18432).guardHolds H = true ∧ (s.th 18432).kind = .light ∧
    Nm.lightOk (.s 10) = false ∧ (out.th 18432).isOut (.p 3) = true ∧ (out.th 18432).isOut (.s 3) = true ∧
    out.unbound 18432 [.s 3] = true ∧
    (demo' .heavy [] id (bound true (.queue 7))).boundTo 18432 (.s 24) = some ⟨18432, ⟨false, 0⟩, true, false, .queue 7⟩ := by decide +kernel

theorem witness_Decode :
    (Instr.sub H 1 2 3).wf = true ∧ (encodeBytes (.sub H 1 2 3)).map List.length = some 8 ∧
    ((encodeBytes (.sub H 1 2 3)).map (fun bs => decide (decode (bs ++ [1, 2]) = .ok (.sub H 1 2 3)))) = some true := by decide +kernel

theorem witness_StepRuns :
    let s := State.reset.withFetchWord 64 0x00000050001C03C0
    let s0 : State := { s with turns := [], cur := (0, 15) }
    s.turns = [.issue 0 15] ∧ s.occ 0 15 = some 15 ∧ s0.ready 0 15 = true ∧ s0.trapDue 15 = false ∧ (s0.th 15).marked = false ∧
    s0.fetchOk (s0.th 15) 1 = true ∧ s.memWf = true ∧ (match s0.reachTh 15 (s0.th 15).pc 1 .fetch with
      | (.mem p, s1) => s1.fetchOk (s1.th 15) (lenBytes (((s1.bytes p 32).headD 0).setWidth 2))
      | _ => false) = true ∧ (match s0.fetch 15 with
      | .instr i _ => decide (i = .movi H 7 5) && (markerFirst i == false)
      | _ => false) = true := by decide +kernel

/-- With nothing listed a slot that may go on with its run is the turn taken; in a machine in which nothing may move none is. -/
theorem witness_pick :
    (({ demo .heavy [] with pace := (3, 0) } : State).pick.map (·.1)) = some (.issue 0 0) ∧ (demo .heavy []).turns = [] := by
  decide +kernel

end Sys2Proof.Tests
end

section
/-!
SUPPORT. How the scalar and predicate instructions complete: an instruction whose body writes one scalar destination, or changes its
thread's registers, completes with that change.
-/

namespace Sys2Proof.Machine

section

variable {i : Instr} {o : Op} {h : Hdr} {d a b : SReg}

/-- An instruction whose body writes a scalar destination and nothing more completes with that write. -/
theorem completes_setS {v : Cx → Dword} (he : exec i = runS o (fun c => .ok (c.setS d (v c)))) :
    Completes i o always (fun c => c.setS d (v c)) :=
  completes_of he (fun _ _ => rfl) (fun _ c ht _ => posted_setS ht d (v c))

/-- An instruction whose body changes the registers of its thread, and nothing of its pending set, completes with that change. -/
theorem completes_modTh {g : Cx → Thread → Thread} (hg : ∀ c t, (g c t).outst = t.outst)
    (he : exec i = runS o (fun c => .ok (c.s.modTh c.aid (g c)))) :
    Completes i o always (fun c => c.s.modTh c.aid (g c)) :=
  completes_of he (fun _ _ => rfl) (fun _ c ht _ => posted_same ht (by rw [modTh_th_same, hg]))

/-- An instruction of two scalar sources (R170 to R173) writes any value that agrees with the one it computes. -/
theorem completes_bin {f : Dword → Dword → Dword} (g : Dword → Dword → Dword) (hfg : ∀ x y, f x y = g x y)
    (he : exec i = bin f h d a b) : Completes i (opSSS h d a b) always (fun c => c.setS d (g (c.x 0) (c.x 1))) := by
  obtain rfl : f = g := funext₂ hfg
  exact completes_setS he

/-- The same for an instruction of one scalar source. -/
theorem completes_una {f : Dword → Dword} (g : Dword → Dword) (hfg : ∀ x, f x = g x) (he : exec i = una f h d a) :
    Completes i (opSS h d a) always (fun c => c.setS d (g (c.x 0))) := by
  obtain rfl : f = g := funext hfg
  exact completes_setS he

/-- A shift (R174) writes what its function gives for its amount. -/
theorem completes_shift {f : Dword → Nat → Dword} {n : Amt} (he : exec i = shift f h d a n) :
    Completes i (opShift h d a n) always (fun c => c.setS d (f (c.x 0) (c.amt n))) :=
  completes_setS he

/-- An instruction whose body writes a scalar destination and nothing more yields a result with every property of what it writes. -/
theorem yields_setS {v : Cx → Dword} {q : Cx → Dword → Prop} (hq : ∀ c, q c (v c))
    (he : exec i = runS o (fun c => .ok (c.setS d (v c)))) : Yields i o q (fun c x => c.setS d x) := fun s c ht _ => by
  obtain ⟨t, hp, hx⟩ := completes_setS he s c ht rfl
  exact ⟨v c, t, hq c, hp, hx⟩

end

end Sys2Proof.Machine
end

section
/-!
SUPPORT. The values of the scalar instructions, in the terms of bit vectors or bit by bit (R170 to R176), and what a predicate write
leaves (R39).
-/

namespace Sys2Proof.Machine

/-! ### Integer arithmetic (R170 to R172) -/

/-- The high half of a product is that of the product of the operands extended to 128 bits (R170). -/
theorem mulhVal_eq (u : Bool) (x y : Dword) : mulhVal u x y =
    if u then ((x.setWidth 128 * y.setWidth 128) >>> 64).setWidth 64
    else ((x.signExtend 128 * y.signExtend 128) >>> 64).setWidth 64 := by
  cases u
  · have hp : x.signExtend 128 * y.signExtend 128 = BitVec.ofInt 128 (x.toInt * y.toInt) := (BitVec.ofInt_mul _ _).symm
    refine BitVec.eq_of_toNat_eq ?_
    simp only [mulhVal, Bool.false_eq_true, if_false, hp, BitVec.toNat_ofInt, BitVec.toNat_setWidth, BitVec.toNat_ushiftRight,
      Nat.shiftRight_eq_div_pow]
    generalize x.toInt * y.toInt = z
    omega
  · have hx := x.isLt
    have hy := y.isLt
    have hp : x.toNat * y.toNat < 2 ^ 128 :=
      lt_of_lt_of_eq (Nat.mul_lt_mul'' hx hy) (by norm_num)
    refine BitVec.eq_of_toNat_eq ?_
    simp only [mulhVal, if_true, BitVec.toNat_ofNat, BitVec.toNat_setWidth, BitVec.toNat_ushiftRight, BitVec.toNat_mul,
      Nat.shiftRight_eq_div_pow]
    rw [Nat.mod_eq_of_lt (a := x.toNat) (by omega), Nat.mod_eq_of_lt (a := y.toNat) (by omega), Nat.mod_eq_of_lt hp]

theorem divVal_eq (u : Bool) (x y : Dword) :
    divVal u x y = if y = 0 then BitVec.allOnes 64 else if u then x / y else x.sdiv y := by
  have hs : BitVec.ofInt 64 (x.toInt.tdiv y.toInt) = x.sdiv y :=
    BitVec.eq_of_toInt_eq (by rw [BitVec.toInt_ofInt, BitVec.toInt_sdiv])
  have hu : BitVec.ofNat 64 (x.toNat / y.toNat) = x / y := by
    rw [← BitVec.toNat_udiv, BitVec.ofNat_toNat, BitVec.setWidth_eq]
  rw [divVal, hs, hu]

theorem remVal_eq (u : Bool) (x y : Dword) : remVal u x y = if y = 0 then x else if u then x % y else x.srem y := by
  rw [remVal, ← BitVec.toInt_srem, BitVec.ofInt_toInt, ← BitVec.toNat_umod, BitVec.ofNat_toNat, BitVec.setWidth_eq]

theorem minVal_eq (u : Bool) (x y : Dword) :
    minVal u x y = if (if u then x.ule y else x.sle y) then x else y := by
  cases u <;> simp [minVal, BitVec.ule_iff_toNat_le, BitVec.sle_iff_toInt_le]

theorem maxVal_eq (u : Bool) (x y : Dword) :
    maxVal u x y = if (if u then x.ule y else x.sle y) then y else x := by
  cases u <;> simp [maxVal, BitVec.ule_iff_toNat_le, BitVec.sle_iff_toInt_le]

theorem absVal_eq (x : Dword) : absVal x = if x.slt 0 then -x else x := by
  simp [absVal, BitVec.slt_iff_toInt_lt]

/-! ### Shifts (R174) -/

/-- A rotation to the left by `n` moves bit `i − n` to bit `i`, one to the right bit `i + n`, both modulo 64 (R174). -/
theorem rotVal_getLsbD (r : Bool) (x : Dword) {n i : Nat} (hn : n < 64) (hi : i < 64) :
    (rotVal r x n).getLsbD i = x.getLsbD ((if r then i + n else i + 64 - n) % 64) := by
  cases r
  · simp only [rotVal, Bool.false_eq_true, if_false, BitVec.getLsbD_rotateLeft, Nat.mod_eq_of_lt hn, hi, decide_true,
      Bool.true_and, Bool.cond_decide]
    split <;> congr 1 <;> omega
  · simp only [rotVal, if_true, BitVec.getLsbD_rotateRight, Nat.mod_eq_of_lt hn, hi, decide_true, Bool.true_and, Bool.cond_decide]
    split <;> congr 1 <;> omega

theorem Cx.amt_lt (c : Cx) (n : Amt) : c.amt n < 64 := by
  cases n with
  | reg b => exact Nat.mod_lt _ (by decide)
  | imm k => exact k.isLt

/-! ### Counts (R175) -/

/-- The length of the longest run of `p` from 0 on, up to `n`: `p` holds below it, and fails at it where it is not `n`. -/
theorem takeWhile_range_spec (p : Nat → Bool) (n : Nat) :
    ((List.range n).takeWhile p).length ≤ n ∧ (∀ i < ((List.range n).takeWhile p).length, p i = true) ∧
      (((List.range n).takeWhile p).length < n → p ((List.range n).takeWhile p).length = false) := by
  have hle : (List.range n).findIdx (fun i => !p i) ≤ n := by simpa using List.findIdx_le_length (xs := List.range n)
  rw [List.takeWhile_eq_take_findIdx_not, List.length_take, List.length_range, Nat.min_eq_left hle]
  refine ⟨hle, fun i hi => ?_, fun hlt => ?_⟩
  · simpa using List.not_of_lt_findIdx hi
  · have hf := List.findIdx_getElem (xs := List.range n) (p := fun i => !p i) (w := by simpa using hlt)
    simpa only [List.getElem_range, Bool.not_eq_true'] using hf

theorem length_filter_eq_sum {α : Type} (p : α → Bool) (l : List α) :
    (l.filter p).length = (l.map (fun x => (p x).toNat)).sum := by
  induction l with
  | nil => rfl
  | cons x l ih => cases h : p x <;> simp [h, ih, Nat.add_comm]

/-- A count of at most 64 keeps its value in a register. -/
theorem toNat_ofNat_count {k : Nat} (hk : k ≤ 64) : (BitVec.ofNat 64 k).toNat = k := by
  rw [BitVec.toNat_ofNat]; omega

theorem clzVal_spec (x : Dword) : (clzVal x).toNat ≤ 64 ∧ (∀ i < (clzVal x).toNat, x.getLsbD (63 - i) = false) ∧
    ((clzVal x).toNat < 64 → x.getLsbD (63 - (clzVal x).toNat) = true) := by
  have hs := takeWhile_range_spec (fun i => !x.getLsbD (63 - i)) 64
  rw [clzVal, toNat_ofNat_count hs.1]
  simpa using hs

theorem ctzVal_spec (x : Dword) : (ctzVal x).toNat ≤ 64 ∧ (∀ i < (ctzVal x).toNat, x.getLsbD i = false) ∧
    ((ctzVal x).toNat < 64 → x.getLsbD (ctzVal x).toNat = true) := by
  have hs := takeWhile_range_spec (fun i => !x.getLsbD i) 64
  rw [ctzVal, toNat_ofNat_count hs.1]
  simpa using hs

theorem popcVal_toNat (x : Dword) : (popcVal x).toNat = ((List.range 64).map (fun i => (x.getLsbD i).toNat)).sum := by
  rw [popcVal, toNat_ofNat_count (by simpa using List.length_filter_le (fun i => x.getLsbD i) (List.range 64)), length_filter_eq_sum]

/-! ### Reversals (R175) -/

/-- Bits shifted in from the right, the first of `n` last to the left. -/
theorem testBit_foldl_bits (f : Nat → Bool) (n j : Nat) :
    ((List.range n).foldl (fun acc i => 2 * acc + (f i).toNat) 0).testBit j = (decide (j < n) && f (n - 1 - j)) := by
  induction n generalizing j with
  | zero => simp
  | succ n ih =>
    rw [List.range_succ, List.foldl_append]
    have hb : (f n).toNat < 2 ^ 1 := by cases f n <;> decide
    simp only [List.foldl_cons, List.foldl_nil]
    rw [← Nat.pow_one 2, Nat.testBit_two_pow_mul_add _ hb, Nat.pow_one]
    cases j with
    | zero => cases h : f n <;> simp [h]
    | succ j => simp [ih, Nat.add_comm 1 j, Nat.sub_sub]

theorem brevVal_getLsbD (x : Dword) {i : Nat} (hi : i < 64) : (brevVal x).getLsbD i = x.getLsbD (63 - i) := by
  rw [brevVal, BitVec.getLsbD_ofNat, testBit_foldl_bits]
  simp [hi]

/-- Bit `i` of a little-endian value is a bit of its byte `i / 8` (R7). -/
theorem testBit_leVal (bs : List Byte) (i : Nat) : (leVal bs).testBit i = (bs.getD (i / 8) 0).getLsbD (i % 8) := by
  induction bs generalizing i with
  | nil => simp [leVal]
  | cons b bs ih =>
    rw [leVal, Nat.add_comm, show 256 = 2 ^ 8 from rfl, Nat.testBit_two_pow_mul_add _ b.isLt]
    split
    · rename_i h
      rw [Nat.div_eq_of_lt h, Nat.mod_eq_of_lt h]
      rfl
    · rename_i h
      obtain ⟨k, rfl⟩ := Nat.exists_eq_add_of_le (Nat.le_of_not_lt h)
      rw [ih, Nat.add_sub_cancel_left, Nat.add_div_left _ (by decide), Nat.add_mod_left]
      rfl

/-- Byte `j` of a value (R7). -/
theorem leBytes_getD {n j : Nat} (v : Nat) (hj : j < n) : (leBytes n v).getD j 0 = BitVec.ofNat 8 (v / 256 ^ j) := by
  induction n generalizing v j with
  | zero => omega
  | succ n ih =>
    cases j with
    | zero => simp [leBytes]
    | succ j =>
      rw [leBytes, List.getD_cons_succ, ih _ (by omega), Nat.div_div_eq_div_mul, Nat.pow_succ, Nat.mul_comm]

theorem bswapVal_getLsbD (x : Dword) {i : Nat} (hi : i < 64) :
    (bswapVal x).getLsbD i = x.getLsbD (8 * (7 - i / 8) + i % 8) := by
  have hr : ((leBytes 8 x.toNat).reverse).getD (i / 8) 0 = BitVec.ofNat 8 (x.toNat / 256 ^ (7 - i / 8)) := by
    rw [List.getD_eq_getElem?_getD, List.getElem?_reverse (by rw [leBytes_length]; omega), leBytes_length,
      ← List.getD_eq_getElem?_getD, show 8 - 1 - i / 8 = 7 - i / 8 by omega, leBytes_getD _ (by omega)]
  rw [bswapVal, BitVec.getLsbD_ofNat, testBit_leVal, hr, BitVec.getLsbD_ofNat, show 256 = 2 ^ 8 from rfl, ← Nat.pow_mul,
    Nat.testBit_div_two_pow, BitVec.testBit_toNat]
  simp [hi, Nat.mod_lt, Nat.add_comm]

/-! ### Bit fields (R176) -/

/-- Where the cut leaves the highest bit of a field (R176). -/
theorem fieldTop_eq (lo w1 : BitVec 6) : fieldTop lo w1 = Nat.min (lo.toNat + w1.toNat) 63 := by
  simp only [fieldTop, Nat.min_def]
  split <;> split <;> omega

theorem lo_le_fieldTop (lo w1 : BitVec 6) : lo.toNat ≤ fieldTop lo w1 := by
  rw [fieldTop_eq]
  exact Nat.le_min.mpr ⟨Nat.le_add_right _ _, Nat.le_of_lt_succ lo.isLt⟩

theorem lt_fieldLen_iff (lo w1 : BitVec 6) (i : Nat) : i < fieldLen lo w1 ↔ lo.toNat + i ≤ fieldTop lo w1 := by
  have := lo_le_fieldTop lo w1
  unfold fieldLen
  omega

/-- The bits of a field, before it is extended. -/
theorem field_getLsbD (lo : BitVec 6) (n : Nat) (x : Dword) (i : Nat) :
    (BitVec.ofNat n (x.toNat / 2 ^ lo.toNat)).getLsbD i = (decide (i < n) && x.getLsbD (lo.toNat + i)) := by
  rw [BitVec.getLsbD_ofNat, Nat.testBit_div_two_pow, BitVec.testBit_toNat, Nat.add_comm]

theorem extVal_getLsbD (sgn : Bool) (lo w1 : BitVec 6) (x : Dword) {i : Nat} (hi : i < 64) :
    (extVal sgn lo w1 x).getLsbD i =
      if lo.toNat + i ≤ fieldTop lo w1 then x.getLsbD (lo.toNat + i) else sgn && x.getLsbD (fieldTop lo w1) := by
  have hmsb : (BitVec.ofNat (fieldLen lo w1) (x.toNat / 2 ^ lo.toNat)).msb = x.getLsbD (fieldTop lo w1) := by
    have := lo_le_fieldTop lo w1
    rw [BitVec.msb_eq_getLsbD_last, field_getLsbD, decide_eq_true ((lt_fieldLen_iff ..).mpr (by unfold fieldLen; omega)),
      Bool.true_and, show lo.toNat + (fieldLen lo w1 - 1) = fieldTop lo w1 by unfold fieldLen; omega]
  cases sgn
  · simp [extVal, hi, field_getLsbD, lt_fieldLen_iff]
  · simp only [extVal, if_true, BitVec.getLsbD_signExtend, hi, decide_true, Bool.true_and, lt_fieldLen_iff, hmsb, field_getLsbD]
    by_cases hl : lo.toNat + i ≤ fieldTop lo w1 <;> simp [hl]

theorem insVal_getLsbD (lo w1 : BitVec 6) (y x : Dword) {i : Nat} (hi : i < 64) :
    (insVal lo w1 y x).getLsbD i =
      if lo.toNat ≤ i ∧ i ≤ fieldTop lo w1 then x.getLsbD (i - lo.toNat) else y.getLsbD i := by
  have hm : (BitVec.ofNat 64 ((2 ^ fieldLen lo w1 - 1) * 2 ^ lo.toNat)).getLsbD i =
      decide (lo.toNat ≤ i ∧ i ≤ fieldTop lo w1) := by
    rw [BitVec.getLsbD_ofNat, Nat.testBit_mul_two_pow, Nat.testBit_two_pow_sub_one]
    simp only [hi, decide_true, Bool.true_and, lt_fieldLen_iff, ← Bool.decide_and]
    congr 1
    rw [eq_iff_iff]
    omega
  simp only [insVal, BitVec.getLsbD_or, BitVec.getLsbD_and, BitVec.getLsbD_not, hm, BitVec.getLsbD_shiftLeft, hi]
  by_cases h : lo.toNat ≤ i ∧ i ≤ fieldTop lo w1
  · simp [h, Nat.not_lt.mpr h.1]
  · simp [h]

/-! ### Predicates (R39) -/

theorem getLsbD_one_shiftLeft (m n : PReg) : (1#32 <<< m.toNat).getLsbD n.toNat = decide (n = m) := by
  have hn := n.isLt
  simp only [BitVec.getLsbD_shiftLeft, BitVec.getLsbD_one, BitVec.toNat_eq]
  grind

/-- A write to a predicate other than p0 replaces its bit of the predicate word and leaves the other bits (R39). -/
theorem setPred_getLsbD (w : BitVec 32) {p : PReg} (n : PReg) (x : Bool) (hp : p ≠ 0) :
    (setPred w p x).getLsbD n.toNat = if n = p then x else w.getLsbD n.toNat := by
  have hn : n.toNat < 32 := n.isLt
  rw [setPred, if_neg hp]
  cases x
  · simp only [Bool.false_eq_true, if_false, BitVec.getLsbD_and, BitVec.getLsbD_not, getLsbD_one_shiftLeft, hn]
    by_cases h : n = p <;> simp [h]
  · simp only [if_true, BitVec.getLsbD_or, getLsbD_one_shiftLeft]
    by_cases h : n = p <;> simp [h]

/-- A predicate reads what was written to it, p0 excepted, and every other keeps its value (R39). -/
theorem wP_rP (t : Thread) (x : Bool) (n p : PReg) : (t.wP p x).rP n = if n = p ∧ p ≠ 0 then x else t.rP n := by
  by_cases hp : p = 0
  · rw [hp, wP_zero, if_neg (fun h => h.2 rfl)]
  · rw [Thread.rP, Thread.wP, setPred_getLsbD _ _ _ hp, Thread.rP]
    by_cases hn : n = p
    · subst hn
      rw [if_pos rfl, if_pos ⟨rfl, hp⟩, beq_false_of_ne hp, Bool.false_or]
    · simp [hn]

end Sys2Proof.Machine
end

section
/-!
PROOFS. The statements about the scalar, compare and predicate instructions (R170 to R182).
-/

namespace Sys2Proof.Machine

/-- Settles O2: the shape of two scalar sources, and the values of MULH, DIV, REM, MIN and MAX in the terms of bit vectors. -/
theorem scalarTwoOperandResults : Obligations.ScalarTwoOperandResults := by
  unfold Obligations.ScalarTwoOperandResults
  intro h d a b u
  have same (f : Dword → Dword → Dword) (x y : Dword) : f x y = f x y := rfl
  have mulh := completes_bin (i := .mulh h u d a b) _ (mulhVal_eq u) rfl
  have div := completes_bin (i := .div h u d a b) _ (divVal_eq u) rfl
  have rem := completes_bin (i := .rem h u d a b) _ (remVal_eq u) rfl
  have min := completes_bin (i := .min h u d a b) _ (minVal_eq u) rfl
  have max := completes_bin (i := .max h u d a b) _ (maxVal_eq u) rfl
  exact ⟨completes_bin (· + ·) (same _) rfl, completes_bin (· - ·) (same _) rfl, completes_bin (· * ·) (same _) rfl,
    mulh, div, rem,
    completes_bin (· &&& ·) (same _) rfl, completes_bin (· ||| ·) (same _) rfl, completes_bin (· ^^^ ·) (same _) rfl,
    completes_bin (fun x y => x &&& ~~~y) (same _) rfl, completes_bin (fun x y => x ||| ~~~y) (same _) rfl, min, max⟩

/-- Settles O3: every instruction of it writes its value and nothing more; the rotation's bits are those of `rotVal_getLsbD`. -/
theorem scalarMoveShiftAndHashResults : Obligations.ScalarMoveShiftAndHashResults := by
  unfold Obligations.ScalarMoveShiftAndHashResults
  intro h d a b n amt
  have hamt : amt = fun c => c.amt n := by cases n <;> rfl
  clear_value amt
  subst hamt
  have abs := completes_una (i := .abs h d a) _ absVal_eq rfl
  exact ⟨fun m => completes_una (· + m.signExtend 64) (fun _ => rfl) rfl, abs, completes_una (fun x => x) (fun _ => rfl) rfl,
    fun _ => completes_setS rfl, fun _ _ => completes_setS rfl, fun _ => completes_setS rfl, fun _ => completes_setS rfl,
    completes_shift (f := (· <<< ·)) rfl, completes_shift (f := (· >>> ·)) rfl, completes_shift (f := BitVec.sshiftRight) rfl,
    fun r => yields_setS (fun c _ hi => rotVal_getLsbD r (c.x 0) (c.amt_lt n) hi) rfl,
    fun _ => completes_setS rfl, completes_bin hash64 (fun _ _ => rfl) rfl⟩

/-- Settles O4, each value by its own lemma about its bits; the highest bit that the statement names is `fieldTop`. -/
theorem scalarBitOperationResults : Obligations.ScalarBitOperationResults := by
  unfold Obligations.ScalarBitOperationResults
  intro h d a lo w1 top
  have htop : top = fieldTop lo w1 := (fieldTop_eq lo w1).symm
  clear_value top
  subst htop
  exact ⟨yields_setS (fun c => clzVal_spec (c.x 0)) rfl, yields_setS (fun c => ctzVal_spec (c.x 0)) rfl,
    yields_setS (fun c => popcVal_toNat (c.x 0)) rfl, yields_setS (fun c _ => brevVal_getLsbD (c.x 0)) rfl,
    yields_setS (fun c _ => bswapVal_getLsbD (c.x 0)) rfl,
    fun sgn => yields_setS (fun c _ => extVal_getLsbD sgn lo w1 (c.x 0)) rfl,
    yields_setS (fun c _ => insVal_getLsbD lo w1 (c.x 1) (c.x 0)) rfl⟩

/-- Settles O5: the conditions are those of `condHolds`, and a predicate write leaves the pending set of its thread. -/
theorem predicateResults : Obligations.PredicateResults := by
  unfold Obligations.PredicateResults
  intro h p q r a b ia ib cond put
  have hcond : cond = condHolds := by funext k x y; cases k <;> rfl
  clear_value cond
  subst hcond
  have writes {i : Instr} {o : Op} {f : Cx → Bool} (he : exec i = runS o (fun c => .ok (c.setP p (f c)))) :
      Completes i o always (put f) := completes_modTh (fun _ _ => rfl) he
  exact ⟨fun _ => writes rfl, fun _ _ => writes rfl, writes rfl, writes rfl, writes rfl, writes rfl,
    completes_setS rfl, completes_modTh (fun _ _ => rfl) rfl, fun t x n => wP_rP t x n p⟩

end Sys2Proof.Machine
end

section
/-!
PROOFS. The instructions that have no effect (R152, R233).
-/

namespace Sys2Proof.Machine

/-- An instruction whose body leaves the state as its sources left it completes with no effect of its own. -/
theorem completes_idle {i : Instr} {o : Op} (he : exec i = runS o (fun c => .ok c.s)) : Completes i o always (·.s) :=
  completes_of he (fun _ _ => rfl) (fun _ _ ht _ => posted_same ht rfl)

/-- Settles O1: the body of NOP in each length and of PREF leaves the state alone, whatever the operands of PREF. -/
theorem noEffectInstructions : Obligations.NoEffectInstructions := by
  unfold Obligations.NoEffectInstructions
  exact ⟨fun _ => completes_idle rfl, fun _ => completes_idle rfl, fun _ => completes_idle rfl, fun _ _ _ => completes_idle rfl⟩

end Sys2Proof.Machine
end

section
/-!
SUPPORT. The elements of a vector register and the instructions that compute each active element by itself (R37, R38, R238): what
`mapVec` leaves in each element, in the staged flags and in the generator.
-/

namespace Sys2Proof.Machine

/-! ### One element of a register (R37) -/

theorem elem_lt (v : Vec) (w i : Nat) : elem v w i < 2 ^ w := Nat.mod_lt _ (Nat.two_pow_pos w)

theorem tyBits_pos (ty : Ty) : 0 < tyBits ty := by cases ty <;> decide

/-- An element that a register has room for lies below bit 1024. -/
theorem elem_end_le {w i : Nat} (hi : i < nElems w) : w * i + w ≤ 1024 :=
  calc w * i + w = w * (i + 1) := (Nat.mul_succ w i).symm
    _ ≤ w * nElems w := Nat.mul_le_mul_left w hi
    _ ≤ 1024 := Nat.mul_div_le 1024 w

/-- The cut of a number to 1,024 bits leaves the elements that a register has room for. -/
theorem elem_ofNat (n : Nat) {w i : Nat} (hi : i < nElems w) :
    elem (BitVec.ofNat 1024 n) w i = n / 2 ^ (w * i) % 2 ^ w := by
  have hend := elem_end_le hi
  refine Nat.eq_of_testBit_eq fun b => ?_
  simp only [elem, BitVec.toNat_ofNat, Nat.testBit_mod_two_pow, Nat.testBit_shiftRight, Nat.testBit_div_two_pow]
  by_cases hb : b < w
  · simp [hb, show b + w * i < 1024 by omega, Nat.add_comm]
  · simp [hb]

theorem packNat_div_mod (w : Nat) (l : List Nat) (i : Nat) : packNat w l / 2 ^ (w * i) % 2 ^ w = l.getD i 0 % 2 ^ w := by
  induction l generalizing i with
  | nil => simp [packNat]
  | cons x l ih =>
    cases i with
    | zero => simp [packNat]
    | succ i =>
      have hx : x % 2 ^ w < 2 ^ w := Nat.mod_lt _ (Nat.two_pow_pos w)
      rw [packNat, Nat.mul_succ, Nat.add_comm (w * i), Nat.pow_add, ← Nat.div_div_eq_div_mul,
        Nat.add_mul_div_left _ _ (Nat.two_pow_pos w), Nat.div_eq_of_lt hx, Nat.zero_add, ih, List.getD_cons_succ]

/-- An element of a register put together from its elements. -/
theorem elem_ofElems (l : List Nat) {w i : Nat} (hi : i < nElems w) : elem (ofElems w l) w i = l.getD i 0 % 2 ^ w := by
  rw [ofElems, elem_ofNat _ hi, packNat_div_mod]

/-! ### Every active element (R38, R238) -/

section

variable {m : BitVec 32} {w : Nat} {old : Vec} {f : Nat → Staged → Nat × Staged} {v : Nat → Nat}

/-- The first element, computed or kept, and the others after it. -/
theorem mapElems_succ (k i : Nat) (g : Staged) :
    let x := if active m w i then f i g else (elem old w i, g)
    let l := mapElems m w old f k (i + 1) x.2
    mapElems m w old f (k + 1) i g = (x.1 :: l.1, l.2) := rfl

/-- Where each value hangs on its index only, an active element is its value and another keeps its old one. -/
theorem mapElems_fst (hf : ∀ i g, (f i g).1 = v i) (k i : Nat) (g : Staged) :
    (mapElems m w old f k i g).1 = (List.range' i k).map (fun j => if active m w j then v j else elem old w j) := by
  induction k generalizing i g with
  | zero => rfl
  | succ k ih =>
    rw [mapElems_succ, List.range'_succ, List.map_cons]
    refine congrArg₂ List.cons ?_ (ih _ _)
    rw [apply_ite Prod.fst, hf]

/-- What no element changes of the staging, the whole leaves as it was. -/
theorem mapElems_staged {α : Type} (p : Staged → α) (hf : ∀ i g, p (f i g).2 = p g) (k i : Nat) (g : Staged) :
    p (mapElems m w old f k i g).2 = p g := by
  induction k generalizing i g with
  | zero => rfl
  | succ k ih =>
    rw [mapElems_succ]
    refine (ih _ _).trans ?_
    split
    · exact hf i g
    · rfl

/-- The flags staged at the end are those staged before and those of the active elements (R82). -/
theorem mapElems_fl {fl : Nat → Flags} (hf : ∀ i g, (f i g).2.fl = g.fl ||| fl i) (k i : Nat) (g : Staged) (b : Nat) :
    (mapElems m w old f k i g).2.fl.getLsbD b = true ↔
      g.fl.getLsbD b = true ∨ ∃ j ∈ List.range' i k, active m w j = true ∧ (fl j).getLsbD b = true := by
  induction k generalizing i g with
  | zero => simp [mapElems]
  | succ k ih =>
    rw [mapElems_succ, List.range'_succ]
    refine (ih _ _).trans ?_
    split
    · rename_i ha
      simp [hf, ha, or_assoc]
    · rename_i ha
      simp [ha]

theorem elem_mapVec (hf : ∀ i g, (f i g).1 = v i) (g : Staged) {i : Nat} (hi : i < nElems w) :
    elem (mapVec m w old g f).1 w i = if active m w i then v i % 2 ^ w else elem old w i := by
  have hl : ((List.range' 0 (nElems w)).map (fun j => if active m w j then v j else elem old w j)).getD i 0 =
      if active m w i then v i else elem old w i := by
    simp [List.getD_eq_getElem?_getD, hi]
  rw [mapVec]
  dsimp only
  rw [mapElems_fst hf, elem_ofElems _ hi, hl, apply_ite (· % 2 ^ w), Nat.mod_eq_of_lt (elem_lt old w i)]

theorem mapVec_staged {α : Type} (p : Staged → α) (hf : ∀ i g, p (f i g).2 = p g) (g : Staged) :
    p (mapVec m w old g f).2 = p g := mapElems_staged p hf _ _ _

theorem mapVec_fl {fl : Nat → Flags} (hf : ∀ i g, (f i g).2.fl = g.fl ||| fl i) (g : Staged) (b : Nat) :
    (mapVec m w old g f).2.fl.getLsbD b = true ↔
      g.fl.getLsbD b = true ∨ ∃ i < nElems w, active m w i = true ∧ (fl i).getLsbD b = true := by
  refine (mapElems_fl hf (nElems w) 0 g b).trans ?_
  simp [List.mem_range'_1]

end

/-! ### How an instruction by element completes -/

section

variable {i : Instr} {o : Op} {s : State} {c : Cx} {h : Hdr} {w : Nat} {rd : List Nm} {d : VReg} {mk : MReg}

/-- An instruction whose body has effect `f` with a value yields any property of that value. -/
theorem yields_of {α : Type} {v : Cx → α} {q : Cx → α → Prop} {f : Cx → α → State} (hq : ∀ c, q c (v c))
    (hp : ∀ (s : State) c, s.takes o = some c → ∃ t, c.posted (f c (v c)) = some t)
    (he : exec i = runS o (fun c => .ok (f c (v c)))) : Yields i o q f := fun s c ht _ => by
  obtain ⟨t, hpt, hx⟩ := completes_of (p := always) he (fun _ _ => rfl) (fun s c ht _ => hp s c ht) s c ht rfl
  exact ⟨v c, t, hq c, hpt, hx⟩

/-- A result to a vector destination, a port's name included, leaves only pushes under way. -/
theorem setV_pushes (ht : s.takes o = some c) (d : VReg) (x : Vec) : Pushes (c.setV d x) c.aid (c.s0.th c.aid).seq := by
  unfold Cx.setV State.wrV
  split
  · rename_i b hb
    exact push_posts b x _ (takes_pushes ht) (boundTo_aid hb)
  · intro y hy
    rw [modTh_th_same] at hy
    exact takes_pushes ht y hy

/-- Flags and the generator's state post nothing. -/
theorem commit_pushes {aid q : Nat} (hs : Pushes s aid q) (g : Staged) : Pushes (s.commit aid g) aid q := fun y hy => by
  rw [State.commit, modTh_th_same] at hy
  exact hs y hy

theorem posted_commits (ht : s.takes o = some c) (d : VReg) (x : Vec × Staged) : ∃ t, c.posted (commits d c x) = some t :=
  posted_pushes (commit_pushes (setV_pushes ht d x.1) x.2)

/-- An instruction by element commits what `mapVec` gives. -/
theorem yields_vmap {f : Cx → Nat → Staged → Nat × Staged} {q : Cx → Vec × Staged → Prop}
    (hq : ∀ c, q c (mapVec (c.t.rM mk) w (c.oldV d) c.t.staged (f c))) (he : exec i = vmap h w rd d mk f) :
    Yields i (vecOp h rd d mk) q (commits d) :=
  yields_of hq (fun _ _ ht => posted_commits ht d _) he

/-- One that stages nothing yields each active element's value modulo 2^w and raises no flag. -/
theorem yields_byElem {v f : Cx → Nat → Nat} (hv : ∀ c i, v c i % 2 ^ w = f c i % 2 ^ w)
    (he : exec i = vmap h w rd d mk (fun c i g => (v c i, g))) : Yields i (vecOp h rd d mk) (byElem w d mk f) (plainV d) := by
  have elems (c : Cx) : byElem w d mk f c (mapVec (c.t.rM mk) w (c.oldV d) c.t.staged (fun i g => (v c i, g))).1 :=
    fun i hi => by rw [elem_mapVec (v := v c) (fun _ _ => rfl) _ hi, hv]
  have stages (c : Cx) : (mapVec (c.t.rM mk) w (c.oldV d) c.t.staged (fun i g => (v c i, g))).2 = c.t.staged :=
    mapVec_staged id (fun _ _ => rfl) _
  refine yields_of (f := plainV d) elems (fun s c ht => posted_commits ht d (_, c.t.staged)) (he.trans ?_)
  refine congrArg (runS (vecOp h rd d mk)) (funext fun c => ?_)
  exact congrArg (fun g => R.ok ((c.setV d _).commit c.aid g)) (stages c)

/-- One that stages flags only, with no draw, yields its values, its flags and the generator as it was. -/
theorem yields_byElem_flags {v : Cx → Nat → Nat} {fl : Cx → Nat → Flags}
    (he : exec i = vmap h w rd d mk (fun c i g => (v c i, g.flag (fl c i)))) :
    Yields i (vecOp h rd d mk) (fun c (x : Vec × Staged) => byElem w d mk v c x.1 ∧ x.2.seed = c.t.regs.seed ∧
      (∀ k < 6, x.2.fl.getLsbD k = true ↔
        ∃ i < nElems w, active (c.t.rM mk) w i = true ∧ (fl c i).getLsbD k = true)) (commits d) := by
  refine yields_vmap (fun c => ⟨fun i hi => elem_mapVec (v := v c) (fun _ _ => rfl) _ hi, ?_, fun k _ => ?_⟩) he
  · exact mapVec_staged Staged.seed (fun _ _ => rfl) _
  · refine (mapVec_fl (fl := fl c) (fun _ _ => rfl) _ k).trans ?_
    simp [Thread.staged]

end

end Sys2Proof.Machine
end

section
/-!
SUPPORT. The values of the vector instructions that do not round: the sign bit (R243), integers and shifts of a width (R251), and the
mask of a comparison with its flags (R244).
-/

namespace Sys2Proof.Machine

/-! ### The sign bit (R243) -/

theorem xor_two_pow_of_lt {y n : Nat} (hy : y < 2 ^ n) : y ^^^ 2 ^ n = y + 2 ^ n := by
  refine Nat.eq_of_testBit_eq fun b => ?_
  have hadd : y + 2 ^ n = 2 ^ n * 1 + y := by omega
  rw [hadd, Nat.testBit_two_pow_mul_add _ hy, Nat.testBit_xor, Nat.testBit_two_pow]
  split
  · rename_i hb
    simp [Nat.ne_of_gt hb]
  · rename_i hb
    rw [Nat.testBit_lt_two_pow (lt_of_lt_of_le hy (Nat.pow_le_pow_right (by decide) (Nat.le_of_not_lt hb)))]
    rw [Bool.false_xor, Bool.eq_iff_iff, Nat.testBit_one_eq_true_iff_self_eq_zero, decide_eq_true_eq]
    omega

/-- Inverting the highest bit of a code takes its weight away where it was set, and adds it where it was not. -/
theorem xor_signBit {w x : Nat} (hw : 0 < w) (hx : x < 2 ^ w) :
    x ^^^ 2 ^ (w - 1) = if 2 ^ (w - 1) ≤ x then x - 2 ^ (w - 1) else x + 2 ^ (w - 1) := by
  have hp : 2 ^ w = 2 ^ (w - 1) + 2 ^ (w - 1) := (Nat.two_pow_pred_add_two_pow_pred hw).symm
  split
  · rename_i hle
    have hy : x - 2 ^ (w - 1) < 2 ^ (w - 1) := by omega
    calc x ^^^ 2 ^ (w - 1) = (x - 2 ^ (w - 1) + 2 ^ (w - 1)) ^^^ 2 ^ (w - 1) := by rw [Nat.sub_add_cancel hle]
      _ = x - 2 ^ (w - 1) := by rw [← xor_two_pow_of_lt hy, Nat.xor_xor_cancel_right]
  · rename_i hlt
    exact xor_two_pow_of_lt (Nat.lt_of_not_le hlt)

/-! ### Integers of a width (R251) -/

/-- A code is what its integer wraps to, read as signed or not. -/
theorem ofInt_intOf (sgn : Bool) {w x : Nat} (hx : x < 2 ^ w) : ofInt w (intOf sgn w x) = x := by
  have hm : intOf sgn w x % (2 ^ w : Nat) = x := by
    unfold intOf
    split
    · rw [show (2 : Int) ^ w = (2 ^ w : Nat) by simp, Int.sub_emod_right]
      exact Int.emod_eq_of_lt (Int.natCast_nonneg x) (Int.ofNat_lt.mpr hx)
    · exact Int.emod_eq_of_lt (Int.natCast_nonneg x) (Int.ofNat_lt.mpr hx)
  rw [ofInt, hm, Int.toNat_natCast]

theorem ofInt_min (sgn : Bool) {w x y : Nat} (hx : x < 2 ^ w) (hy : y < 2 ^ w) :
    ofInt w (min (intOf sgn w x) (intOf sgn w y)) = if intOf sgn w x ≤ intOf sgn w y then x else y := by
  rw [min_def, apply_ite (ofInt w), ofInt_intOf sgn hx, ofInt_intOf sgn hy]

theorem ofInt_max (sgn : Bool) {w x y : Nat} (hx : x < 2 ^ w) (hy : y < 2 ^ w) :
    ofInt w (max (intOf sgn w x) (intOf sgn w y)) = if intOf sgn w x ≤ intOf sgn w y then y else x := by
  rw [max_def, apply_ite (ofInt w), ofInt_intOf sgn hx, ofInt_intOf sgn hy]

/-- An operation on integer elements yields what its wrapped result is in terms of the codes. -/
theorem yields_vint2 {i : Instr} {h : Hdr} {ty : Ty} {d a b : VReg} {mk : MReg} (f : Int → Int → Int) (g : Nat → Nat → Nat)
    (hg : ∀ x y, x < 2 ^ tyBits ty → y < 2 ^ tyBits ty →
      ofInt (tyBits ty) (f (intOf (isSigned ty) (tyBits ty) x) (intOf (isSigned ty) (tyBits ty) y)) = g x y)
    (he : exec i = vint2 f h ty d a b mk) :
    Yields i (vecOp h [.v a, .v b] d mk)
      (byElem (tyBits ty) d mk (fun c j => g (elem (c.v 0) (tyBits ty) j) (elem (c.v 1) (tyBits ty) j))) (plainV d) :=
  yields_byElem (fun _ _ => congrArg (· % 2 ^ tyBits ty) (hg _ _ (elem_lt _ _ _) (elem_lt _ _ _))) he

/-- A bitwise operation yields it of the codes. -/
theorem yields_vbit2 {i : Instr} {h : Hdr} {ty : Ty} {d a b : VReg} {mk : MReg} (f : Nat → Nat → Nat)
    (he : exec i = vbit2 f h ty d a b mk) :
    Yields i (vecOp h [.v a, .v b] d mk)
      (byElem (tyBits ty) d mk (fun c j => f (elem (c.v 0) (tyBits ty) j) (elem (c.v 1) (tyBits ty) j))) (plainV d) :=
  yields_byElem (fun _ _ => rfl) he

/-- The amount of a vector shift of width `w`, for element `i` (R251). -/
def Cx.vamt (c : Cx) (w : Nat) (n : VAmt) (i : Nat) : Nat :=
  match n with
  | .reg _ => elem (c.v 1) w i % w
  | .imm k => k.toNat

/-- A vector shift yields what its function gives for the amount of each element, modulo 2^w. -/
theorem yields_vshift {i : Instr} {h : Hdr} {ty : Ty} {d a : VReg} {n : VAmt} {mk : MReg} (f : Nat → Nat → Nat → Nat)
    (g : Nat → Nat → Nat) (hg : ∀ y k, f (tyBits ty) y k % 2 ^ tyBits ty = g y k % 2 ^ tyBits ty)
    (he : exec i = vshift f h ty d a n mk) :
    Yields i (vecOp h (.v a :: vamtNames n) d mk)
      (byElem (tyBits ty) d mk (fun c j => g (elem (c.v 0) (tyBits ty) j) (c.vamt (tyBits ty) n j))) (plainV d) :=
  yields_byElem (v := fun c j => f (tyBits ty) (elem (c.v 0) (tyBits ty) j) (c.vamt (tyBits ty) n j)) (fun _ _ => hg _ _) he

/-! ### Comparison (R244) -/

/-- Bit `j` of a compared mask: 0 past the lanes of a 64-bit type, whether all elements of an active lane hold, else the old bit. -/
def vcmpBit (mk old : BitVec 32) (w : Nat) (f : Nat → Bool × Flags) (j : Nat) : Bool :=
  if w = 64 ∧ 16 ≤ j then false
  else if mk.getLsbD j then (laneElems w j).all (fun i => (f i).1) else old.getLsbD j

/-- Flags of the elements of lane `j`; none where the lane is inactive or past those of a 64-bit type. -/
def vcmpFlags (mk : BitVec 32) (w : Nat) (f : Nat → Bool × Flags) (j : Nat) : List Flags :=
  if w = 64 ∧ 16 ≤ j then []
  else if mk.getLsbD j then (laneElems w j).map (fun i => (f i).2) else []

theorem exists_mem_vcmpFlags {mk : BitVec 32} {w : Nat} {f : Nat → Bool × Flags} {j b : Nat} :
    (∃ x ∈ vcmpFlags mk w f j, x.getLsbD b = true) ↔
      ¬(w = 64 ∧ 16 ≤ j) ∧ mk.getLsbD j = true ∧ ∃ i ∈ laneElems w j, (f i).2.getLsbD b = true := by
  rw [vcmpFlags]
  by_cases hw : w = 64 ∧ 16 ≤ j
  · simp [hw]
  · by_cases hm : mk.getLsbD j = true <;> simp [hw, hm]

theorem foldl_or_getLsbD (l : List Flags) (fl : Flags) (b : Nat) :
    (l.foldl (· ||| ·) fl).getLsbD b = true ↔ fl.getLsbD b = true ∨ ∃ x ∈ l, x.getLsbD b = true := by
  induction l generalizing fl with
  | nil => simp
  | cons x l ih => simp [ih, or_assoc]

/-- The mask and the flags of a comparison of the first two vector sources (R244). -/
def Cx.vcmp (c : Cx) (cd : VCond) (ty : Ty) (d mk : MReg) : BitVec 32 × Flags :=
  let y := vcmpBits (c.t.rM mk) (c.t.rM d) (tyBits ty)
    (fun i => vcondHolds cd ty (elem (c.v 0) (tyBits ty) i) (elem (c.v 1) (tyBits ty) i)) 32 0
  (BitVec.ofNat 32 y.1, y.2)

section

variable {mk old : BitVec 32} {w : Nat} {f : Nat → Bool × Flags}

theorem vcmpBits_succ (k j : Nat) :
    vcmpBits mk old w f (k + 1) j = (2 * (vcmpBits mk old w f k (j + 1)).1 + (vcmpBit mk old w f j).toNat,
      (vcmpFlags mk w f j).foldl (· ||| ·) (vcmpBits mk old w f k (j + 1)).2) := by
  simp only [vcmpBits, vcmpBit, vcmpFlags]
  by_cases hw : w = 64 ∧ 16 ≤ j
  · simp [hw]
  · by_cases hm : mk.getLsbD j = true
    · simp [hw, hm, List.all_map, Function.comp_def]
    · simp [hw, hm]

/-- The compared mask from bit `j` on holds the bits of its lanes. -/
theorem testBit_vcmpBits (k j n : Nat) :
    (vcmpBits mk old w f k j).1.testBit n = (decide (n < k) && vcmpBit mk old w f (j + n)) := by
  induction k generalizing j n with
  | zero => simp [vcmpBits]
  | succ k ih =>
    have hb : (vcmpBit mk old w f j).toNat < 2 ^ 1 := Bool.toNat_lt _
    rw [vcmpBits_succ]
    dsimp only
    rw [← Nat.pow_one 2, Nat.testBit_two_pow_mul_add _ hb]
    cases n with
    | zero => cases vcmpBit mk old w f j <;> simp
    | succ n => simp [ih, Nat.add_comm 1 n, Nat.add_assoc]

/-- The flags of a comparison are those of the elements of the active lanes. -/
theorem vcmpBits_snd (k j b : Nat) : (vcmpBits mk old w f k j).2.getLsbD b = true ↔
    ∃ n ∈ List.range' j k, ¬(w = 64 ∧ 16 ≤ n) ∧ mk.getLsbD n = true ∧ ∃ i ∈ laneElems w n, (f i).2.getLsbD b = true := by
  induction k generalizing j with
  | zero => simp [vcmpBits]
  | succ k ih =>
    rw [vcmpBits_succ, foldl_or_getLsbD, ih, exists_mem_vcmpFlags, List.range'_succ]
    simp [or_comm]

/-- VCMP writes the compared mask and joins the flags. -/
theorem exec_vcmp (h : Hdr) (cd : VCond) (ty : Ty) (d : MReg) (a b : VReg) (mk : MReg) :
    exec (.vcmp h cd ty d a b mk) = runS { h := h, rd := [.v a, .v b], masks := [d, mk] } (fun c =>
      .ok (c.s.modTh c.aid (fun t => (t.wM d (c.vcmp cd ty d mk).1).orFlags (c.vcmp cd ty d mk).2))) := by
  refine congrArg (runS _) (funext fun c => ?_)
  dsimp only [Cx.vcmp]

end

end Sys2Proof.Machine
end

section
/-!
SUPPORT. Mask registers (R38): what a mask reads after a write.
-/

namespace Sys2Proof.Machine

/-- A mask reads what was written to it, m0 reads as ones, and every other keeps its value (R38). -/
theorem wM_rM (t : Thread) (x : BitVec 32) (n d : MReg) :
    (t.wM d x).rM n = if n = 0 then BitVec.allOnes 32 else if n = d then x else t.rM n := by
  by_cases hn : n = 0
  · rw [hn, rM_zero, if_pos rfl]
  · rw [if_neg hn]
    by_cases hd : d = 0
    · rw [hd, wM_zero, if_neg hn]
    · rw [Thread.rM, if_neg hn, Thread.wM, if_neg hd]
      by_cases hnd : n = d
      · rw [if_pos hnd, hnd, vrd_vwr_same _ _ _ d.isLt]
      · rw [if_neg hnd, vrd_vwr_ne _ _ _ _ (fun e => hnd (BitVec.eq_of_toNat_eq e).symm), Thread.rM, if_neg hn]

/-- The number of ones of a mask is the sum of its bits (R253). -/
theorem maskCount_toNat (x : BitVec 32) : (BitVec.ofNat 64 ((List.range 32).filter (fun i => x.getLsbD i)).length).toNat =
    ((List.range 32).map (fun i => (x.getLsbD i).toNat)).sum := by
  have hle : ((List.range 32).filter (fun i => x.getLsbD i)).length ≤ 32 := by
    simpa using List.length_filter_le (fun i => x.getLsbD i) (List.range 32)
  rw [toNat_ofNat_count (hle.trans (by decide)), length_filter_eq_sum]

end Sys2Proof.Machine
end

section
/-!
PROOFS. The statements about the vector instructions that do not round and about the mask instructions (R242 to R244, R251, R253).
-/

namespace Sys2Proof.Machine

/-- Settles O31: an instruction on masks writes its value and nothing more, and the reads after it are those of `wM_rM`. -/
theorem maskResults : Obligations.MaskResults := by
  unfold Obligations.MaskResults
  intro h d a b sd sa put
  have writes {i : Instr} {o : Op} {f : Cx → BitVec 32} (he : exec i = runS o (fun c => .ok (c.setM d (f c)))) :
      Completes i o always (put f) := completes_modTh (fun _ t => wM_outst t _ _) he
  exact ⟨writes rfl, writes rfl, writes rfl, writes rfl, yields_setS (fun c => maskCount_toNat (c.t.rM a)) rfl,
    completes_setS rfl, fun t x n => wM_rM t x n d⟩

/-- Settles O29: each instruction computes its elements without flags (`yields_byElem`), a shift by its amount (`Cx.vamt`); minimum and
maximum give back the code of an operand (`ofInt_min`, `ofInt_max`). -/
theorem vectorIntegerByElement : Obligations.VectorIntegerByElement := by
  unfold Obligations.VectorIntegerByElement
  intro h ty d a b mk x n w sg z wrap cl two bit sh
  have shift {i : Instr} (f : Nat → Nat → Nat → Nat) (g : Nat → Nat → Nat) (hg : ∀ y k, f w y k % 2 ^ w = g y k % 2 ^ w)
      (he : exec i = vshift f h ty d a n mk) : sh i g := by
    cases n <;> exact yields_vshift f g hg he
  have add := yields_vint2 (i := .viadd h x ty d a b mk) (fun p q => satIf x ty (p + q))
    (fun p q => wrap (cl (intOf sg w p + intOf sg w q))) (fun _ _ _ _ => rfl) rfl
  have sub := yields_vint2 (i := .visub h x ty d a b mk) (fun p q => satIf x ty (p - q))
    (fun p q => wrap (cl (intOf sg w p - intOf sg w q))) (fun _ _ _ _ => rfl) rfl
  have mul := yields_vint2 (i := .vimul h x ty d a b mk) (fun p q => if x then p * q / (2 ^ tyBits ty : Nat) else p * q)
    (fun p q => wrap (if x then intOf sg w p * intOf sg w q / (2 ^ w : Nat) else intOf sg w p * intOf sg w q))
    (fun _ _ _ _ => rfl) rfl
  have min := yields_vint2 (i := .vimin h ty d a b mk) _ _ (fun _ _ => ofInt_min sg) rfl
  have max := yields_vint2 (i := .vimax h ty d a b mk) _ _ (fun _ _ => ofInt_max sg) rfl
  have shl := shift (i := .vshl h ty d a n mk) (fun w y k => (y <<< k) % 2 ^ w) (fun y k => y * 2 ^ k)
    (fun y k => by rw [Nat.mod_mod, Nat.shiftLeft_eq]) rfl
  have shr := shift (i := .vshr h ty d a n mk) (fun _ y k => y >>> k) (fun y k => y / 2 ^ k)
    (fun y k => by rw [Nat.shiftRight_eq_div_pow]) rfl
  have sar := shift (i := .vsar h ty d a n mk) (fun w y k => ofInt w (intOf true w y / (2 ^ k : Nat)))
    (fun y k => wrap (intOf true w y / (2 ^ k : Nat))) (fun _ _ => rfl) rfl
  exact ⟨add, sub, mul, min, max, yields_vbit2 (· &&& ·) rfl, yields_vbit2 (· ||| ·) rfl, yields_vbit2 (· ^^^ ·) rfl,
    shl, shr, sar⟩

/-- Settles O26: minimum and maximum stage flags and no draw (`yields_byElem_flags`), VNEG inverts the highest bit of a code
(`xor_signBit`), and a compared mask and its flags are known bit by bit (`testBit_vcmpBits`, `vcmpBits_snd`). -/
theorem vectorMinMaxSignAndCompare : Obligations.VectorMinMaxSignAndCompare := by
  unfold Obligations.VectorMinMaxSignAndCompare
  intro h ty d a b mk dm w
  refine ⟨fun mx => ?_, yields_byElem (fun _ _ => rfl) rfl, yields_byElem (fun c i => ?_) rfl, fun cd => ?_⟩
  · cases mx <;> exact yields_byElem_flags rfl
  · rw [xor_signBit (tyBits_pos ty) (elem_lt _ _ _)]
  · refine yields_of (v := fun c => c.vcmp cd ty dm mk) (fun c => ⟨fun j hj => ?_, fun k _ => ?_⟩) (fun s c ht => ?_)
      (exec_vcmp h cd ty dm a b mk)
    · rw [Cx.vcmp, BitVec.getLsbD_ofNat, testBit_vcmpBits, decide_eq_true hj, Nat.zero_add]
      rfl
    · refine (vcmpBits_snd 32 0 k).trans ?_
      simp [List.mem_range'_1, w]
    · exact posted_same ht (by rw [modTh_th_same, orFlags_outst, wM_outst])

end Sys2Proof.Machine
end

section
/-!
SUPPORT. The accumulator instructions (R267 to R269): what noting the rows of an instruction leaves to perform, the two checks of rows
that ACCZ, ACCRD and ACCWR share, and the bodies of these instructions in terms of them.
-/

namespace Sys2Proof.Machine

/-- An entry of a table that is given entry by entry. -/
theorem vrd_ofFn {α : Type} [Inhabited α] {n : Nat} (g : Fin n → α) {j : Nat} (hj : j < n) :
    vrd (Vector.ofFn g) j = g ⟨j, hj⟩ := by
  simp [vrd, hj]

/-! ### What is left to perform -/

section

variable {o : Op} {s t : State} {c : Cx}

/-- Where no thread has issued anything more, only the pushes that were under way still are. -/
theorem pushes_of_issues0 {aid q : Nat} (hi : Issues0 s t) (hs : Pushes s aid q) : Pushes t aid q := by
  intro x hx hq
  have hm : (x.seq, x.sub, x.op) ∈ (t.th aid).issued := List.mem_map.mpr ⟨x, hx, rfl⟩
  rw [(hi aid).1] at hm
  obtain ⟨y, hy, e⟩ := List.mem_map.mp hm
  simp only [Prod.mk.injEq] at e
  obtain ⟨hseq, -, hop⟩ := e
  rw [← hop]
  exact hs y hy (hseq.trans hq)

/-- Rows noted for an exception of an earlier instruction issue nothing (R34). -/
theorem noteRows_issues0 (c : Cx) (rows : List Nat) : Issues0 c.s (c.noteRows rows) := by
  unfold Cx.noteRows
  generalize c.s = s
  induction rows generalizing s with
  | nil => exact Issues0.rfl
  | cons r rows ih => exact (record_issues0 _ _ _).trans (ih _)

/-- An instruction that notes rows and replaces its core leaves only pushes to perform. -/
theorem posted_noteRows (ht : s.takes o = some c) (rows : List Nat) (k : Core) :
    ∃ u, c.posted ((c.noteRows rows).putCore c.core k) = some u :=
  posted_pushes (pushes_of_issues0 ((noteRows_issues0 c rows).trans (issues0_of_threads rfl)) (takes_pushes ht))

/-- A change of a thread that leaves its pending set leaves what is under way. -/
theorem modTh_pushes {aid q : Nat} {f : Thread → Thread} (hf : ∀ t, (f t).outst = t.outst) (hs : Pushes s aid q) :
    Pushes (s.modTh aid f) aid q := fun x hx => by
  rw [modTh_th_same, hf] at hx
  exact hs x hx

/-- A result to a scalar destination, a port's name included, leaves only pushes under way. -/
theorem setS_pushes (ht : s.takes o = some c) (d : SReg) (x : Dword) : Pushes (c.setS d x) c.aid (c.s0.th c.aid).seq := by
  unfold Cx.setS State.wrS
  split
  · rename_i b hb
    exact push_posts b _ _ (takes_pushes ht) (boundTo_aid hb)
  · exact modTh_pushes (fun _ => rfl) (takes_pushes ht)

end

/-! ### The checks of rows (R267, R268) -/

section

variable {i : Instr} {o : Op} {p : Cx → Bool} {out held : Cx → Prop} [DecidablePred out] [DecidablePred held] {cause : Nat}
  {e : Cx → State} {c : Cx}

/-- An instruction on rows: past the storage it raises cause 23, on a row that another use holds `cause`, else it has effect `e`. -/
def rowBody (out held : Cx → Prop) [DecidablePred out] [DecidablePred held] (cause : Nat) (e : Cx → State) (c : Cx) : R :=
  if out c then .exc { cause := 23 }
  else if held c then .exc { cause := cause }
  else .ok (e c)

theorem rowBody_out (ho : out c) : rowBody out held cause e c = .exc { cause := 23 } := if_pos ho

theorem rowBody_held (ho : ¬out c) (hh : held c) : rowBody out held cause e c = .exc { cause := cause } :=
  (if_neg ho).trans (if_pos hh)

theorem rowBody_free (ho : ¬out c) (hh : ¬held c) : rowBody out held cause e c = .ok (e c) :=
  (if_neg ho).trans (if_neg hh)

/-- An instruction on one row yields its result where the row is in the storage and free for it. -/
theorem yieldsIf_row {α : Type} {v : Cx → α} {q : Cx → α → Prop} {f : Cx → α → State}
    (he : exec i = runS o (rowBody out held cause (fun c => f c (v c)))) (hfree : ∀ c, p c = true → ¬out c ∧ ¬held c)
    (hq : ∀ c, q c (v c)) (hp : ∀ (s : State) c, s.takes o = some c → ∃ u, c.posted (f c (v c)) = some u) :
    YieldsIf i o p q f := by
  have done : Completes i o p (fun c => f c (v c)) :=
    completes_of he (fun c hc => rowBody_free (hfree c hc).1 (hfree c hc).2) (fun s c ht _ => hp s c ht)
  intro s c ht hc
  obtain ⟨u, hu, hx⟩ := done s c ht hc
  exact ⟨v c, u, hq c, hu, hx⟩

theorem raises_row_out (he : exec i = runS o (rowBody out held cause e)) (hout : ∀ c, p c = true → out c) :
    Raises i o p (fun _ => { cause := 23 }) :=
  raises_of he (fun c hc => rowBody_out (hout c hc))

theorem raises_row_held (he : exec i = runS o (rowBody out held cause e)) (hheld : ∀ c, p c = true → ¬out c ∧ held c) :
    Raises i o p (fun _ => { cause := cause }) :=
  raises_of he (fun c hc => rowBody_held (hheld c hc).1 (hheld c hc).2)

end

/-! ### ACCZ, ACCRD, ACCWR and MSTAT (R267 to R269) -/

/-- The row that an instruction names by its first source. -/
def Cx.accRow (c : Cx) : AccRow := (c.s.core c.core).row (c.x 0).toNat

/-- That row lies past the storage. -/
abbrev Cx.rowOut (c : Cx) : Prop := (c.s.core c.core).accRows ≤ (c.x 0).toNat

/-- A row is not a thread's to use where it is open and another's. -/
theorem not_mine (x : AccRow) (aid : Nat) : (!x.mine aid) = (x.opn && x.owner != some aid) := by
  simp [AccRow.mine, bne]

/-- The rows that ACCZ names (R267). -/
def Cx.acczRows (c : Cx) : List Nat := (List.range (c.x 1).toNat).map (fun i => (c.x 0).toNat + i)

/-- A row of ACCZ lies past the storage. -/
abbrev Cx.acczOut (c : Cx) : Prop := (c.s.core c.core).accRows < (c.x 0).toNat + (c.x 1).toNat

/-- Every row of ACCZ lies in the storage. -/
abbrev Cx.acczIn (c : Cx) : Prop := (c.x 0).toNat + (c.x 1).toNat ≤ (c.s.core c.core).accRows

/-- A row of ACCZ is open and another thread's. -/
def Cx.acczHeld (c : Cx) : Bool :=
  c.acczRows.any (fun x => ((c.s.core c.core).row x).opn && ((c.s.core c.core).row x).owner != some c.aid)

/-- Rows that are each delivered or the thread's own are not another's. -/
theorem acczHeld_of_all {c : Cx} (hall : c.acczRows.all (fun x => ((c.s.core c.core).row x).mine c.aid) = true) :
    c.acczHeld = false := by
  rw [Cx.acczHeld, List.any_eq_false]
  intro x hx
  rw [← not_mine, List.all_eq_true.mp hall x hx]
  exact Bool.false_ne_true

theorem exec_accz (h : Hdr) (a b : SReg) :
    exec (.accz h a b) = runS { h := h, rd := [.s a, .s b], heavy := true, noHandler := true } (fun c =>
      if (c.x 1).toNat = 0 then .ok c.s
      else rowBody Cx.acczOut (fun c => c.acczHeld = true) 36 (fun c => (c.noteRows c.acczRows).putCore c.core
        (c.acczRows.foldl (fun k x => k.setRow x zeroRow) (c.s.core c.core))) c) := rfl

/-- ACCRD may read its row: a half of one that is delivered or its own, all of one that is delivered (R268). -/
def Cx.accReads (half : Option Bool) (c : Cx) : Bool := if half.isSome then c.accRow.mine c.aid else !c.accRow.opn

/-- The cell that ACCRD reads for element `i`. -/
def accIndex (half : Option Bool) (i : Nat) : Nat :=
  match half with
  | some hf => 16 * hf.toNat + i
  | none => i

/-- What ACCRD reads for element `i`. -/
def Cx.accElem (half : Option Bool) (c : Cx) (i : Nat) : Nat := (vrd c.accRow.cells (accIndex half i)).toNat

/-- What ACCRD computes of it: 32 bits of a cell for ACCRD.f32. -/
def Cx.accValue (half : Option Bool) (c : Cx) (i : Nat) : Nat :=
  if half.isSome then c.accElem half i else c.accElem half i % 2 ^ 32

theorem accValue_mod (half : Option Bool) (c : Cx) (i : Nat) :
    c.accValue half i % 2 ^ (if half.isSome then 64 else 32) = c.accElem half i % 2 ^ (if half.isSome then 64 else 32) := by
  cases half with
  | none => exact Nat.mod_mod _ _
  | some hf => rfl

/-- What ACCRD writes. -/
def Cx.accRead (half : Option Bool) (d : VReg) (mk : MReg) (c : Cx) : Vec :=
  (mapVec (c.t.rM mk) (if half.isSome then 64 else 32) (c.oldV d) c.t.staged (fun i g => (c.accValue half i, g))).1

theorem exec_accrd (h : Hdr) (half : Option Bool) (d : VReg) (a : SReg) (mk : MReg) :
    exec (.accrd h half d a mk) = runS { h := h, rd := [.s a], wr := [.v d], masks := [mk], heavy := true, noHandler := true }
      (rowBody Cx.rowOut (fun c => c.accReads half = false) 34 (fun c => c.setV d (c.accRead half d mk))) := by
  cases half <;> rfl

/-- ACCRD writes the cells of its row by element. -/
theorem byElem_accRead (half : Option Bool) (d : VReg) (mk : MReg) (c : Cx) :
    byElem (if half.isSome then 64 else 32) d mk (Cx.accElem half) c (c.accRead half d mk) := by
  intro i hi
  rw [Cx.accRead, elem_mapVec (v := c.accValue half) (fun _ _ => rfl) _ hi, accValue_mod]

/-- What ACCWR leaves in cell `j` of its row (R268). -/
def Cx.accCell (half : Option Bool) (mk : MReg) (c : Cx) (j : Nat) : Dword :=
  match half with
  | some hf =>
    if j / 16 = hf.toNat ∧ active (c.t.rM mk) 64 (j % 16) = true then BitVec.ofNat 64 (elem (c.v 1) 64 (j % 16))
    else vrd c.accRow.cells j
  | none => if active (c.t.rM mk) 32 j then BitVec.ofNat 64 (elem (c.v 1) 32 j) else vrd c.accRow.cells j

/-- What ACCWR makes of its row: all of it becomes delivered, a half leaves it as it stands. -/
def Cx.accWritten (half : Option Bool) (mk : MReg) (c : Cx) : AccRow :=
  let cells := Vector.ofFn (fun (j : Fin 32) => c.accCell half mk j.val)
  if half.isSome then { c.accRow with cells := cells } else ⟨false, none, 0, cells⟩

theorem accWritten_cells (half : Option Bool) (mk : MReg) (c : Cx) {j : Nat} (hj : j < 32) :
    vrd (c.accWritten half mk).cells j = c.accCell half mk j := by
  cases half <;> exact vrd_ofFn _ hj

theorem exec_accwr (h : Hdr) (half : Option Bool) (a : SReg) (v : VReg) (mk : MReg) :
    exec (.accwr h half a v mk) = runS { h := h, rd := [.s a, .v v], masks := [mk], heavy := true, noHandler := true }
      (rowBody Cx.rowOut (fun c => c.accRow.mine c.aid = false) 36 (fun c => (c.noteRows [(c.x 0).toNat]).putCore c.core
        ((c.s.core c.core).setRow (c.x 0).toNat (c.accWritten half mk)))) := by
  cases half <;> rfl

/-- A half leaves the row open or delivered, and its owner's, as it was. -/
theorem accWritten_isSome {half : Option Bool} (mk : MReg) (c : Cx) (hh : half.isSome = true) :
    (c.accWritten half mk).opn = c.accRow.opn ∧ (c.accWritten half mk).owner = c.accRow.owner ∧
      (c.accWritten half mk).steps = c.accRow.steps := by
  rw [Cx.accWritten, if_pos hh]
  exact ⟨rfl, rfl, rfl⟩

/-- A whole row is delivered. -/
theorem accWritten_none {half : Option Bool} (mk : MReg) (c : Cx) (hh : half = none) : (c.accWritten half mk).opn = false := by
  rw [hh]
  rfl

/-- MSTAT and MSTAT.peek read the counts once no flags are to come, and MSTAT clears them (R184, R269). -/
theorem completes_mstat {i : Instr} {o : Op} {clear : Bool} {d : SReg} (he : exec i = runS o (mstatBody clear d)) :
    Completes i o (fun c => !c.s.flagsPending c.aid) (fun c =>
      if clear then (c.setS d c.t.mstat).modTh c.aid (fun t => { t with regs := { t.regs with nanc := 0, ovwc := 0 } })
      else c.setS d c.t.mstat) := by
  refine completes_of he (fun c hc => ?_) (fun s c ht _ => ?_)
  · rw [Bool.not_eq_true'] at hc
    simp only [mstatBody, hc, Bool.false_eq_true, if_false]
  · cases clear with
    | false => exact posted_setS ht d _
    | true =>
      rw [if_pos rfl]
      exact posted_pushes (modTh_pushes (fun _ => rfl) (setS_pushes ht d _))

end Sys2Proof.Machine
end

section
/-!
PROOFS. The statement about the accumulator instructions (R110, R184, R267 to R269).
-/

namespace Sys2Proof.Machine

/-- ACCZ zeroes its rows where they are in the storage and none is another's, does nothing with no row, and else raises (R267). -/
theorem accz_outcomes (h : Hdr) (a b : SReg) :
    let o : Op := { h := h, rd := [.s a, .s b], heavy := true, noHandler := true }
    Completes (.accz h a b) o (fun c => decide c.acczIn && decide (0 < (c.x 1).toNat) &&
        c.acczRows.all (fun x => ((c.s.core c.core).row x).mine c.aid))
      (fun c => (c.noteRows c.acczRows).putCore c.core (c.acczRows.foldl (fun k x => k.setRow x zeroRow) (c.s.core c.core))) ∧
    Completes (.accz h a b) o (fun c => c.x 1 == 0) (·.s) ∧
    Raises (.accz h a b) o (fun c => decide (0 < (c.x 1).toNat) && decide c.acczOut) (fun _ => { cause := 23 }) ∧
    Raises (.accz h a b) o (fun c => decide c.acczIn && decide (0 < (c.x 1).toNat) && c.acczHeld) (fun _ => { cause := 36 }) := by
  refine ⟨?_, ?_, ?_, ?_⟩
  · refine completes_of (exec_accz h a b) (fun c hc => ?_) (fun s c ht _ => posted_noteRows ht _ _)
    simp only [Bool.and_eq_true, decide_eq_true_eq] at hc
    obtain ⟨⟨hin, hn⟩, hall⟩ := hc
    exact (if_neg hn.ne').trans (rowBody_free (Nat.not_lt.mpr hin) (by rw [acczHeld_of_all hall]; exact Bool.false_ne_true))
  · refine completes_of (exec_accz h a b) (fun c hc => if_pos ?_) (fun s c ht _ => posted_same ht rfl)
    rw [eq_of_beq hc]
    rfl
  · refine raises_of (exec_accz h a b) (fun c hc => ?_)
    simp only [Bool.and_eq_true, decide_eq_true_eq] at hc
    obtain ⟨hn, hout⟩ := hc
    exact (if_neg hn.ne').trans (rowBody_out hout)
  · refine raises_of (exec_accz h a b) (fun c hc => ?_)
    simp only [Bool.and_eq_true, decide_eq_true_eq] at hc
    obtain ⟨⟨hin, hn⟩, hheld⟩ := hc
    exact (if_neg hn.ne').trans (rowBody_held (Nat.not_lt.mpr hin) hheld)

/-- ACCRD reads a row that is in the storage and that it may read, by element, and else raises (R268). -/
theorem accrd_outcomes (h : Hdr) (half : Option Bool) (v : VReg) (a : SReg) (mk : MReg) :
    let o : Op := { h := h, rd := [.s a], wr := [.v v], masks := [mk], heavy := true, noHandler := true }
    YieldsIf (.accrd h half v a mk) o (fun c => !decide c.rowOut && c.accReads half)
      (byElem (if half.isSome then 64 else 32) v mk (Cx.accElem half)) (fun c x => c.setV v x) ∧
    Raises (.accrd h half v a mk) o (fun c => decide c.rowOut) (fun _ => { cause := 23 }) ∧
    Raises (.accrd h half v a mk) o (fun c => !decide c.rowOut && !c.accReads half) (fun _ => { cause := 34 }) := by
  have body := exec_accrd h half v a mk
  refine ⟨?_, raises_row_out body (fun _ => of_decide_eq_true), raises_row_held body (fun c hc => by simpa using hc)⟩
  exact yieldsIf_row (f := fun c x => c.setV v x) body (fun c hc => by simpa using hc) (byElem_accRead half v mk)
    (fun s c ht => posted_setV ht v _)

/-- ACCWR writes a row that is in the storage and not another's, and else raises (R268). -/
theorem accwr_outcomes (h : Hdr) (half : Option Bool) (a : SReg) (v : VReg) (mk : MReg) :
    let o : Op := { h := h, rd := [.s a, .v v], masks := [mk], heavy := true, noHandler := true }
    YieldsIf (.accwr h half a v mk) o (fun c => !decide c.rowOut && c.accRow.mine c.aid)
      (fun c (x : AccRow) =>
        (half.isSome = true → x.opn = c.accRow.opn ∧ x.owner = c.accRow.owner ∧ x.steps = c.accRow.steps) ∧
        (half = none → x.opn = false) ∧ ∀ j < 32, vrd x.cells j = c.accCell half mk j)
      (fun c x => (c.noteRows [(c.x 0).toNat]).putCore c.core ((c.s.core c.core).setRow (c.x 0).toNat x)) ∧
    Raises (.accwr h half a v mk) o (fun c => decide c.rowOut) (fun _ => { cause := 23 }) ∧
    Raises (.accwr h half a v mk) o (fun c => !decide c.rowOut && c.accRow.opn && c.accRow.owner != some c.aid)
      (fun _ => { cause := 36 }) := by
  have body := exec_accwr h half a v mk
  refine ⟨?_, raises_row_out body (fun _ => of_decide_eq_true), raises_row_held body (fun c hc => ?_)⟩
  swap
  · rw [Bool.and_assoc, ← not_mine] at hc
    simpa using hc
  refine yieldsIf_row (v := Cx.accWritten half mk) body (fun c hc => by simpa using hc) (fun c => ?_)
    (fun s c ht => posted_noteRows ht _ _)
  exact ⟨accWritten_isSome mk c, accWritten_none mk c, fun j hj => accWritten_cells half mk c hj⟩

/-- Settles O34: what ACCZ, ACCRD and ACCWR do is said of each by its own lemma, from the checks of rows that they share (`rowBody`);
MSTAT and MSTAT.peek differ only in the clearing of the counts. -/
theorem accumulatorRows : Obligations.AccumulatorRows := by
  unfold Obligations.AccumulatorRows
  intro h a b d v half mk k r row mine w zOp rdOp wrOp msOp out rows
  obtain ⟨zeroes, zeroesNone, zeroOut, zeroHeld⟩ := accz_outcomes h a b
  obtain ⟨reads, readOut, readHeld⟩ := accrd_outcomes h half v a mk
  obtain ⟨writes, writeOut, writeHeld⟩ := accwr_outcomes h half a v mk
  exact ⟨zeroes, zeroesNone, zeroOut, zeroHeld, reads, readOut, readHeld, writes, writeOut, writeHeld,
    completes_mstat (clear := true) rfl, completes_mstat (clear := false) rfl⟩

end Sys2Proof.Machine
end
